-- ==== Sys2Proof/Word.lean ====
section
/-! DEFINITION. The units the part is written in: bytes, strings, line and bin numbers (00_scope.md 0.4). -/

namespace Sys2Proof

/-- One byte of a frame, of page memory or of the settings memory. -/
abbrev Byte := BitVec 8

/-- A string: its characters as ASCII bytes (0.4 "Strings"). -/
abbrev Str := List Byte

/-- A character on the host link as its bits are sampled, bit 0 first: the start bit, eight data bits with the least significant bit first, the parity
bit, the stop bit (R181). -/
abbrev LinkChar := BitVec 11

/-- One of the four telephone lines, L0 to L3. -/
abbrev Line := Fin 4

/-- One of the four output bins, 0 to 3. -/
abbrev Bin := Fin 4

end Sys2Proof
end

