-- ==== Sys2Proof/Syntax.lean ====
section
/-! DEFINITION. The commands of the block: one constructor of `Instr` per row of spec/opcode_table.json, with the row's operands.

A host request carries its tag and its fields with the values its body spells (R195), so that the owning block, and not this type, refuses a value out of range with BAD_FIELD.
An event of a line carries the line. A timer's row is its expiry and carries no time. -/

namespace Sys2Proof

/-- A calendar time (0.4 "Time"); weekday 1 Monday to 7 Sunday (R195). -/
structure CalTime where
  year : Nat
  month : Nat
  day : Nat
  weekday : Nat
  hour : Nat
  minute : Nat
  second : Nat
  deriving DecidableEq, Repr

/-- The levels sampled at a power-up reset (R175, R181, R28, R57, R65, R89): rate straps, scanner module class, sensors, line voltages. -/
structure Pins where
  strap0 : Bool
  strap1 : Bool
  /-- set: the fitted scanner module is of the B4 class -/
  moduleB4 : Bool
  feederPaper : Bool
  pageSensor : Bool
  printPaper : Bool
  coverClosed : Bool
  binFull : Vector Bool 4
  headTemp : Nat
  overcurrent : Bool
  deriving DecidableEq, Repr

/-- The seven scan settings (section 2.1). -/
structure ScanSettings where
  start : Nat
  stop : Nat
  topErase : Nat
  light : Nat
  normal : Nat
  dark : Nat
  noise : Nat
  deriving DecidableEq, Repr

/-- The five thermal settings (R62). -/
structure Thermal where
  trip : Nat
  resume : Nat
  cooling : Nat
  ready : Nat
  maximum : Nat
  deriving DecidableEq, Repr

/-- A band of the tariff (section 8.2). -/
structure Band where
  setupPeak : Nat
  setupOff : Nat
  unitPeak : Nat
  unitOff : Nat
  intervalPeak : Nat
  intervalOff : Nat
  barred : Bool
  deriving DecidableEq, Repr

/-- A line's configuration as LINE_CONFIG_SET carries it (section 4.1). -/
structure RawLineConfig where
  enabled : Bool
  incoming : Bool
  outgoing : Bool
  answerRings : Nat
  dialMode : Nat
  outside : Option Str
  metering : Nat
  meterValue : Nat
  deriving DecidableEq, Repr

/-- A routing action as ROUTE_SET carries it (section 6.1); `undefined` is an action code above 4. -/
inductive RawAction where
  | print (bin copies cls : Nat)
  | hold
  | printAndHold (bin copies cls : Nat)
  | reject
  | forward (dial : Str) (account cls : Nat) (spec : Option (Nat × Nat))
  | undefined (code : Nat)
  deriving DecidableEq, Repr

/-- A route entry as ROUTE_SET carries it (section 6.1). -/
structure RawRoute where
  tagStart : Option Str
  lineSet : Option Nat
  window : Option (Nat × Nat)
  sense : Nat
  action : RawAction
  deriving DecidableEq, Repr

/-- The commands of the NF4, in the order of spec/opcode_table.json. -/
inductive Instr where
  | powerUpReset (pins : Pins) (voltage : Vector Bool 4)
  /-- `noAck`: the rows whose bus read met a missing ACK (R175). -/
  | settingsLoadComplete (noAck : List Nat)
  /-- a character with a parity or a framing fault in its bits, or with an overrun: it completed before the one before it had been taken. The command
  stands for the pair at an overrun: the earlier character is lost and is no command of its own (R181). `parityStop`: the parity bit, then the stop bit. -/
  | byteError (data : Byte) (parityStop : BitVec 2) (overrun : Bool)
  | lengthError
  | gapTimer
  | frameReceived (kind tag : Byte) (body : List Byte) (check : BitVec 16)
  | presenceTimer
  | transmitComplete
  | unknownKind (tag kind : Nat)
  | memFloorsSet (tag recvContinue scanFloor : Nat)
  | docCreate (tag : Nat) (retain : Bool)
  | pageBegin (tag doc res width : Nat)
  | stripData (tag doc lines : Nat) (last : Bool) (chunk : List Byte)
  | pageClose (tag doc : Nat)
  | docClose (tag doc : Nat)
  | docRetain (tag doc : Nat) (set : Bool)
  | docDelete (tag doc : Nat) (force : Bool)
  | docInfo (tag doc : Nat) (first : Option Nat)
  | docList (tag : Nat) (first : Option Nat)
  | cursorOpen (tag doc : Nat) (page : Option Nat)
  | cursorClose (tag cursor : Nat)
  | stripRead (tag cursor len : Nat)
  | burstComplete
  | scan (tag res width density blank : Nat) (spec : Option (Nat × Nat))
  | scanStop (tag : Nat)
  | scanSettingsSet (tag : Nat) (v : ScanSettings)
  | scanPresetSet (tag res width density blank : Nat) (spec : Option (Nat × Nat))
  | scanPresetClear (tag : Nat)
  | scanStatus (tag : Nat)
  | stopKey
  | startKey
  | paperSensor (present : Bool)
  | waitPaperTimeout
  /-- `dt`: microseconds since the previous expected pulse; `pixels`: the darkness of each pixel of the module's line. -/
  | linePulse (dt : Nat) (pixels : List Byte)
  | detectWindowClose
  | acquireTimeout
  | pageSensorRise
  | pageGapTimeout
  | pageSensorFall
  | print (tag doc : Nat) (first last : Option Nat) (copies bin cls : Nat)
  | printCancel (tag entry : Nat)
  | printResume (tag : Nat)
  | printRearm (tag : Nat)
  | printThermalSet (tag : Nat) (v : Thermal)
  | printStatus (tag : Nat) (entry : Option Nat) (first : Option Nat)
  /-- the head's temperature code and overcurrent input as this line time reads them (R65). -/
  | lineTime (temp : Nat) (overcurrent : Bool)
  | warmupTimeout
  | printPaperSensor (present : Bool)
  | coverSensor (closed : Bool)
  | binFullSensor (bin : Bin) (full : Bool)
  | lineConfigSet (tag line : Nat) (v : RawLineConfig)
  | answerWaitSet (tag wait : Nat)
  /-- `line` 255 names all lines (R195). -/
  | lineStatus (tag line : Nat) (first : Option Nat)
  | stationTagSet (tag : Nat) (station : Str)
  | exchangeSet (tag maxStep threshold : Nat)
  | ringOn (l : Line)
  | ringOff (l : Line)
  | ringGapTimer (l : Line)
  | lineVoltageAbsent (l : Line)
  | lineVoltagePresent (l : Line)
  | faultTimer (l : Line)
  | clearingTimer (l : Line)
  | meterPulse (l : Line)
  /-- line `l` takes or refuses the binding that DSC has offered it. -/
  | binding (l : Line)
  | dialToneWait (l : Line)
  | retryPauseEnd (l : Line)
  | dialTone (l : Line)
  | dialCharacterDone (l : Line)
  | wWaitTimeout (l : Line)
  | busy (l : Line)
  | ringback (l : Line)
  | silence (l : Line)
  | answerTone (l : Line)
  | callingTone (l : Line)
  | answerWait (l : Line)
  | guardTimer (l : Line)
  | answerToneEnd (l : Line)
  | controlFrameSent (l : Line)
  | burstSent (l : Line)
  | stripSent (l : Line)
  | replyWait (l : Line)
  | capsWait (l : Line)
  | caps (l : Line) (station : Str) (maxStep resSet widthSet : Nat)
  | plan (l : Line) (station : Str) (step : Nat) (continuation : Bool) (page : Nat)
  /-- the bytes received in place of the rate check burst (R98). -/
  | rateCheckBurst (l : Line) (bytes : List Byte)
  | checkResult (l : Line) (ok : Bool)
  /-- bytes received after a strip's header, as far as they have come, and after them the two check bytes when they have come too (R196). -/
  | dataStrip (l : Line) (bytes : List Byte) (check : Option (BitVec 16))
  /-- PAGE_END MORE, or LAST when `last` is set. -/
  | pageEnd (l : Line) (last : Bool) (page count : Nat)
  | pageEndWait (l : Line) (page count : Nat)
  | stripReport (l : Line) (strips : List Nat)
  | pageTaken (l : Line) (damaged : Nat) (holdFull : Bool)
  | waiting (l : Line)
  | waitInterval (l : Line)
  | clear (l : Line)
  | refuse (l : Line) (reason : Nat)
  | send (tag doc account cls : Nat) (embargo : Option CalTime) (early unattended : Bool) (attempts interval : Option Nat) (dials : List Str)
  | dialSet (tag guard attempts interval : Nat)
  | jobCancel (tag job mode : Nat)
  | jobStatus (tag job : Nat) (first : Option Nat)
  | jobList (tag : Nat) (first : Option Nat)
  | embargoExpiry (job : Nat)
  | retryExpiry (job pos : Nat)
  | routeSet (tag index : Nat) (v : RawRoute)
  | routeClear (tag index : Nat)
  | routeDefaultSet (tag : Nat) (action : RawAction) (fallbackBin : Nat)
  | routeRead (tag : Nat) (index : Option Nat) (first : Option Nat)
  | tariffSet (tag index : Nat) (digits : Str) (band : Nat)
  | tariffClear (tag index : Nat)
  | bandSet (tag band : Nat) (v : Band)
  | calendarSet (tag start stop mask : Nat)
  | rateQuery (tag : Nat) (dial : Str)
  | tariffRead (tag : Nat) (first : Option Nat)
  | accountSet (tag account limit policy : Nat) (flashExempt suspended : Bool)
  /-- `account` 255 names ALL (R195). -/
  | accountRead (tag account : Nat) (first : Option Nat)
  | accountClosePeriod (tag account : Nat) (first : Option Nat)
  | logRead (tag count : Nat) (first : Option Nat)
  | logStatus (tag line : Nat)
  | logDrop (tag count : Nat) (expected : Option Nat)
  | intervalTimer (l : Line)
  /-- `none` is the mark INVALID (R172). -/
  | clockSet (tag : Nat) (time : Option CalTime)
  | clockRead (tag : Nat)
  | secondTick
  | storeSave (tag : Nat)
  | storeStatus (tag : Nat) (first : Option Nat)
  | queueItemStart
  /-- `answers`: the memory's answers on the bus, ACK `true`, from the phase in which the write stands to its end (R178; log entry 68). -/
  | rowWriteComplete (answers : List Bool)
  | pollTimeout
  | status (tag : Nat)
  | noticeMaskSet (tag mask : Nat)
  | presenceSet (tag period : Nat)
  | restart (tag : Nat)
  | restartEffect
  /-- a character without error (R181). -/
  | characterReceived (c : LinkChar)
  /-- the fields of the header of an arriving data strip; `format` is its format byte (R196). -/
  | stripHeaderReceived (l : Line) (page strip lines format coded : Nat)
  deriving DecidableEq, Repr

end Sys2Proof
end

