-- ==== Sys2Proof/Config.lean ====
section
/-! DEFINITION. The numbers of section 0.5 that no request sets, and the free values: what the spec leaves open although the part goes on. -/

namespace Sys2Proof.Config

/-- Blocks of page memory (R1). -/
def blocks : Nat := 4096
/-- Bytes of a block. -/
def blockBytes : Nat := 1024
/-- Blocks a strip reservation takes (R2). -/
def stripBlocks : Nat := 17
/-- RECEIVE_FLOOR (R3). -/
def receiveFloor : Nat := 64
/-- Bytes moved by one page-memory burst (R24). -/
def burstBytes : Nat := 64
/-- Largest coded length of a strip: 64 lines of 257 bytes (R19). -/
def maxCoded : Nat := 16448
/-- LOG_RESERVE (R156). -/
def logReserve : Nat := 4
/-- Slots of the call log (section 8.4). -/
def logSlots : Nat := 128
/-- Largest reply body (R185). -/
def maxBody : Nat := 1020
/-- Places of the host request queue (R183). -/
def requestPlaces : Nat := 4
/-- Places of the notice queue (R187). -/
def noticePlaces : Nat := 32
/-- Places of the settings write queue (R176). -/
def writePlaces : Nat := 32
/-- Assigned rows of the settings image (section 9.2). -/
def rows : Nat := 158
/-- Consecutive WAITs an answerer takes (R108). -/
def maxWaits : Nat := 24
/-- Sendings of a control frame (R93). -/
def maxSendings : Nat := 3
/-- Resend rounds of a page (R106). -/
def maxRounds : Nat := 3

/-- FREE VALUE (log entry 4). The byte the settings memory holds at place `i` of a row whose write failed, for the `n`-th such write.
R178 says that the write fails and not what the memory then holds. -/
opaque failedWriteByte (n i : Nat) : Byte

/-- FREE VALUE (log entry 4). The pixel `x` of line `i` of a received strip with coded lines `bytes`, from its first line that is not legally coded.
R38 and R20 verify host strips alone and give such a line no pixels. -/
opaque illegalPixel (bytes : List Byte) (i x : Nat) : Bool

end Sys2Proof.Config
end

