-- ==== Sys2Proof/Machine/State.lean ====
section
/-! DEFINITION. The state of the NF4: every record the spec gives its ten blocks, as plain data; the outcomes' reasons; State.reset. -/

namespace Sys2Proof.Machine

/-- A sparse table: (key, value) pairs, keys strictly rising; a key that is not listed is an empty slot. -/
abbrev Tbl (α : Type) := List (Nat × α)

/-- Why the part stops: no rule of the spec stops it, so there is no reason and no command ends in a fault. -/
inductive Fault where
  deriving DecidableEq, Repr

/-- Why a command has no meaning. -/
inductive Refusal where
  /-- raised by `exec`'s arm of a command not modelled yet; safe: nothing is claimed of such a command. -/
  | notModelled (mnemonic : String)
  deriving DecidableEq, Repr

/-! ## Names -/

inductive Resolution where | coarse | fine | super
  deriving DecidableEq, Repr
inductive Width where | a4 | b4
  deriving DecidableEq, Repr
inductive Density where | light | normal | dark
  deriving DecidableEq, Repr
inductive BlankPolicy where | keep | drop
  deriving DecidableEq, Repr
/-- Class of a send job or print entry, in order of precedence. -/
inductive Cls where | flash | urgent | routine
  deriving DecidableEq, Repr
/-- Result codes of replies (R184), in the order of R194. -/
inductive Result where | ok | badField | noSuch | full | inUse | state | notYet | badCoding | unknownKind
  deriving DecidableEq, Repr
/-- Outcomes of calls and recipients, in the order of the code table of section 11.5. -/
inductive CallOutcome where
  | delivered | busy | noAnswer | noDialtone | checkFail | noReply | lineLost | remoteFull | refused | budget | cancelled
  | glare | barred | noPages | restart | logFull | received | receivedDamaged | abandoned | rejected | storeFull | noPlan
  deriving DecidableEq, Repr
/-- Notice classes, in the order of R188. -/
inductive NoticeClass where | line | job | doc | scan | print | charge | store | link
  deriving DecidableEq, Repr
/-- Notice kinds, in the order of the table of section 10.5. -/
inductive NoticeKind where
  | docChanged | docRouted | forwardFailed | printFailed | scanStarted | scanEnd | memoryLow | noPreset
  | printEnd | binChanged | printEngine | lineChanged | ringUnanswered | jobEnd | recipientChanged
  | logFull | budgetAction | callLogged | storeEnd | storeFault | presence
  deriving DecidableEq, Repr

/-! ## PMC: page memory (chapter 1) -/

/-- A client of page memory (R24). -/
inductive Client where | scn | prt | hlc | lu (l : Line)
  deriving DecidableEq, Repr

inductive StripState where | filling | stored | damaged
  deriving DecidableEq, Repr

/-- A strip record (section 1.3). -/
structure Strip where
  no : Nat
  lines : Nat
  coded : Nat
  blocks : List Nat
  state : StripState
  deriving DecidableEq, Repr

/-- A page record (section 1.4); its line count is the sum over its strips. -/
structure Page where
  number : Nat
  res : Resolution
  width : Width
  strips : List Strip
  complete : Bool
  blank : Bool
  damaged : Option (List Nat)
  deriving DecidableEq, Repr

inductive Origin where | scan | receive | host
  deriving DecidableEq, Repr
inductive DocState where | opened | closed | abandoned
  deriving DecidableEq, Repr

/-- A document record (section 1.5); its id is its slot. -/
structure Doc where
  origin : Origin
  state : DocState
  pages : List Page
  holders : Nat
  retained : Bool
  deletePending : Bool
  route : Option Nat
  remoteTag : Option Str
  line : Option Line
  arrival : Option CalTime
  deriving DecidableEq, Repr

/-- A strip reservation with the FILLING strip it was granted for (R2, R4). -/
structure Resv where
  client : Client
  blocks : List Nat
  doc : Nat
  strip : Strip
  deriving DecidableEq, Repr

inductive CursorState where | opened | atEnd | revoked
  deriving DecidableEq, Repr

/-- A host read cursor (section 1.7). -/
structure Cursor where
  doc : Nat
  page : Nat
  strip : Nat
  offset : Nat
  state : CursorState
  deriving DecidableEq, Repr

structure Pmc where
  free : List Nat
  resv : List Resv
  docs : Tbl Doc
  cursors : Tbl Cursor
  recvContinue : Nat
  scanFloor : Nat
  deriving DecidableEq, Repr

/-- The access arbiter (R24): the burst that is moving, the bursts each client has still to ask for, the two pointers. -/
structure Arbiter where
  busy : Option Client
  scn : Nat
  prt : Nat
  hlc : Nat
  lu : Vector Nat 4
  recvPtr : Line
  sendPtr : Line
  deriving DecidableEq, Repr

/-! ## SCN: the scan coder (chapter 2) -/

/-- The scan preset (R27). -/
structure Preset where
  res : Resolution
  width : Width
  density : Density
  blank : BlankPolicy
  /-- print spec: copies and bin -/
  spec : Option (Nat × Bin)
  deriving DecidableEq, Repr

inductive ScanState where | idle | waitPaper | acquire | pageGap | scanning | stopping | memoryWait
  deriving DecidableEq, Repr
inductive ScanOutcome where | done | noPaper | jam | syncLost | memory | stopped | pageLimit | restart
  deriving DecidableEq, Repr

/-- The scan job record (section 2.2). -/
structure ScanJob where
  doc : Nat
  params : Preset
  pagesDone : Nat
  entry : Option Nat
  sendJob : Option Nat
  byKey : Bool
  outcome : Option ScanOutcome
  settings : ScanSettings
  deriving DecidableEq, Repr

structure Scn where
  state : ScanState
  job : Option ScanJob
  settings : ScanSettings
  preset : Option Preset
  locked : Bool
  hits : Nat
  misses : Nat
  expecting : Bool
  feeder : Bool
  moduleOn : Bool
  lineNo : Nat
  prevLine : Option (List Bool)
  prevDecoded : Option (List Bool)
  deriving DecidableEq, Repr

/-! ## PRT: the print engine (chapter 3) -/

inductive EntryState where | waiting | printing | done | cancelled
  deriving DecidableEq, Repr

/-- A print entry (section 3.1); its id is its slot. -/
structure Entry where
  doc : Nat
  first : Nat
  last : Option Nat
  rangeEnd : Option Nat
  copies : Nat
  bin : Bin
  cls : Cls
  follow : Bool
  copy : Nat
  page : Nat
  printed : Nat
  cancelPending : Bool
  state : EntryState
  enqueue : Nat
  finish : Option Nat
  deriving DecidableEq, Repr

inductive HaltReason where | paperOut | coverOpen | warmupFail
  deriving DecidableEq, Repr
inductive FaultReason where | headHot | headShort
  deriving DecidableEq, Repr
/-- The engine state with its reason (section 3.5). -/
inductive Engine where
  | idle | warmup | printing | thermalPause | halted (r : HaltReason) | fault (r : FaultReason)
  deriving DecidableEq, Repr

/-- The page in progress (R55, R56): strips not begun to be read, the strip being read, the lines ready of the strip the head is firing, the strip read ahead, the lines fired. -/
structure PrintPage where
  toRead : List Nat
  reading : Option Nat
  ready : List (List Bool)
  ahead : Option (List (List Bool))
  fired : Nat
  deriving DecidableEq, Repr

structure Prt where
  entries : Tbl Entry
  enqueueNo : Nat
  finishNo : Nat
  current : Option Nat
  engine : Engine
  page : Option PrintPage
  heat : Nat
  spoiled : Nat
  thermal : Thermal
  heater : Bool
  deriving DecidableEq, Repr

/-! ## Line units (chapters 4 and 5) -/

inductive DialMode where | tone | pulse
  deriving DecidableEq, Repr
inductive Metering where | none | pulse
  deriving DecidableEq, Repr

/-- A line's configuration (section 4.1). -/
structure LineConfig where
  enabled : Bool
  incoming : Bool
  outgoing : Bool
  answerRings : Nat
  dialMode : DialMode
  outside : Option Str
  metering : Metering
  meterValue : Nat
  deriving DecidableEq, Repr

inductive LineState where
  | disabled | idle | ringing | seized | dialling | awaitAnswer | answering | handshake | transfer | clearing | guard | fault
  deriving DecidableEq, Repr

inductive PageEndKind where | more | last | wait
  deriving DecidableEq, Repr
inductive RefuseReason where | notAccepted | barredCaller
  deriving DecidableEq, Repr

/-- A control frame of the strip exchange (R197). -/
inductive CtlFrame where
  | caps (station : Str) (maxStep resSet widthSet : Nat)
  | plan (station : Str) (step : Nat) (continuation : Bool) (page : Nat)
  | checkResult (ok : Bool)
  | pageEnd (kind : PageEndKind) (page count : Nat)
  | stripReport (strips : List Nat)
  | pageTaken (damaged : Nat) (holdFull : Bool)
  | waiting
  | clear
  | refuse (reason : RefuseReason)
  deriving DecidableEq, Repr

/-- What a line unit is sending on its line. -/
inductive Signal where
  | answerTone
  | frame (f : CtlFrame)
  | burst (step : Nat)
  | strip (no : Nat) (bytes : List Byte)
  deriving DecidableEq, Repr

/-- An end request (R81): end now, or end after page. -/
structure EndRequest where
  now : Bool
  outcome : CallOutcome
  deriving DecidableEq, Repr

/-- A routing action with its parameters (section 6.1). -/
inductive Action where
  | print (bin : Bin) (copies : Nat) (cls : Cls)
  | hold
  | printAndHold (bin : Bin) (copies : Nat) (cls : Cls)
  | reject
  | forward (dial : Str) (account : Nat) (cls : Cls) (spec : Option (Bin × Nat))
  deriving DecidableEq, Repr

/-- The disposition RRT answers a match with (R119, R120). -/
structure Disposition where
  route : Option Nat
  action : Action
  converted : Bool
  deriving DecidableEq, Repr

/-- What the answerer owes at the end of the burst that follows a PLAN (R97, R98): the measurement keeps the pass threshold it began with (R91). -/
inductive BurstReply where | measure (threshold : Nat) | refuse (r : RefuseReason) | storeFull
  deriving DecidableEq, Repr

/-- How a call's end was reached at the answerer (R94). -/
inductive EndReached where | neither | last | holdFull
  deriving DecidableEq, Repr

/-- A data strip in reception (R105, R196). -/
inductive Reception where
  /-- a strip with an unacceptable header: it is dropped, and ends at the next header -/
  | passing
  /-- a strip with an acceptable header: the header's bytes, the coded length, whether a reservation of the line receives it, the bytes that have come
  after the header -/
  | counted (header : List Byte) (coded : Nat) (held : Bool) (got : List Byte)
  deriving DecidableEq, Repr

/-- The call in flight (section 4.3) with the fields of the strip exchange (R94) and what the exchange engine is doing. -/
structure Call where
  caller : Bool
  /-- bound recipient: job id and list position -/
  recip : Option (Nat × Nat)
  start : CalTime
  answer : Option CalTime
  dialMode : DialMode
  outside : Option Str
  metering : Metering
  meterValue : Nat
  attempts : Nat
  ringbackHeard : Bool
  pulses : Nat
  pendingEnd : Option EndRequest
  /-- outcome decided; set while CLEARING -/
  outcome : Option CallOutcome
  /-- on-hook for the retry pause in SEIZED (R76) -/
  retryPause : Bool
  /-- characters not yet signalled, the one being signalled first (R78) -/
  dialLeft : List Byte
  doc : Option Nat
  firstPage : Option Nat
  planStep : Option Nat
  agreedStep : Option Nat
  current : Option Nat
  format : Option (Resolution × Width)
  highest : Option Nat
  pagesDone : Nat
  damagedPages : Nat
  round : Nat
  waits : Nat
  remoteTag : Option Str
  lastFrame : Option CtlFrame
  sendings : Nat
  ended : EndReached
  signal : Option Signal
  /-- the reply wait T_REPLY is running (R93) -/
  waitOn : Bool
  /-- caller: the 18 s wait for CAPS is running (R93) -/
  capsWait : Bool
  /-- caller: in a WAIT interval whose WAITING has been taken (R104) -/
  waitInterval : Bool
  /-- caller: the WAIT interval has ended while the WAITING that answers its WAIT was still awaited (R104) -/
  waitOver : Bool
  /-- caller: accepted resolutions and widths of the CAPS, as its sets -/
  accepts : Nat × Nat
  /-- caller: a page is in progress (section 5.4) -/
  pageOpen : Bool
  /-- caller: strips to send after the one being read or sent -/
  toSend : List Nat
  /-- caller: the strip being read from page memory -/
  reading : Option Nat
  /-- caller: strips to resend after a fallback (R102) -/
  resend : Option (List Nat)
  /-- answerer: the maximum rate step sent in CAPS (R91, R97) -/
  capsMax : Nat
  /-- answerer: the first PLAN has been taken -/
  planned : Bool
  burstReply : Option BurstReply
  disposition : Option Disposition
  reception : Option Reception
  /-- answerer: a strip of the expected page has been received since the last page was taken (R106) -/
  stripSince : Bool
  /-- answerer: a strip has been received since the last frame sent (R98) -/
  stripAfterFrame : Bool
  /-- answerer: a STRIP_REPORT was sent for the page in progress (R106) -/
  reported : Bool
  /-- answerer: the last PAGE_TAKEN sent for a stored page (R106) -/
  lastTaken : Option (Nat × Bool)
  /-- answerer: the line count of the last copy dropped of each strip of the expected page, as a DAMAGED strip of it carries it (R6) -/
  copyLines : Tbl Nat
  deriving DecidableEq, Repr

structure Lu where
  config : LineConfig
  state : LineState
  voltage : Bool
  voltageSince : Nat
  faultTimer : Bool
  faultExpired : Bool
  clearingTimer : Bool
  ringCount : Nat
  episode : Option CalTime
  ringGap : Bool
  /-- the answer conditions have held in this episode (R82) -/
  condHeld : Bool
  /-- RING_UNANSWERED has been raised in this episode (R82, R83) -/
  unanswered : Bool
  call : Option Call
  deriving DecidableEq, Repr

/-- The settings shared by the four lines (R71, R91). -/
structure Lus where
  answerWait : Nat
  stationTag : Str
  maxStep : Nat
  passThreshold : Nat
  deriving DecidableEq, Repr

/-! ## DSC: send jobs (chapter 7) -/

inductive RecipState where | waiting | eligible | bound | inCall | retryWait | delivered | failed | cancelled
  deriving DecidableEq, Repr

structure Recip where
  dial : Str
  state : RecipState
  /-- line to which a binding has been sent and not yet answered -/
  offeredTo : Option Line
  used : Nat
  /-- next attempt time, in calendar seconds since 2000 (R133) -/
  nextAttempt : Option Nat
  delivered : Nat
  resume : Nat
  last : Option CallOutcome
  line : Option Line
  deriving DecidableEq, Repr

inductive JobState where | queued | active | done | cancelled
  deriving DecidableEq, Repr

structure Job where
  doc : Nat
  account : Nat
  cls : Cls
  embargo : Option CalTime
  early : Bool
  unattended : Bool
  attempts : Nat
  interval : Nat
  byRoute : Bool
  cancelRequested : Bool
  /-- the mode of the last cancellation: NOW when set (R141) -/
  cancelNow : Bool
  enqueue : Nat
  finish : Option Nat
  state : JobState
  recips : List Recip
  deriving DecidableEq, Repr

structure Dsc where
  jobs : Tbl Job
  enqueueNo : Nat
  finishNo : Nat
  guard : Nat
  attempts : Nat
  interval : Nat
  offered : Vector Bool 4
  idle : Vector Bool 4
  deriving DecidableEq, Repr

/-! ## RRT: routing (chapter 6) -/

inductive Sense where | any | all | none
  deriving DecidableEq, Repr

structure Route where
  tagStart : Option Str
  lineSet : Option Nat
  window : Option (Nat × Nat)
  sense : Sense
  action : Action
  count : Nat
  deriving DecidableEq, Repr

/-- A reception record (section 6.4), held under its line. -/
structure RecvRec where
  doc : Nat
  disp : Disposition
  stored : Nat
  applied : Bool
  entry : Option Nat
  job : Option Nat
  deriving DecidableEq, Repr

structure Rrt where
  routes : Tbl Route
  dflt : Action
  dfltCount : Nat
  fallbackBin : Bin
  recs : Vector (Option RecvRec) 4
  deriving DecidableEq, Repr

/-! ## CHG: charging (chapter 8) -/

inductive Period where | peak | offpeak
  deriving DecidableEq, Repr
inductive Policy where | cut | afterPage | afterCall
  deriving DecidableEq, Repr

structure Tariff where
  digits : Str
  band : Nat
  deriving DecidableEq, Repr

structure Calendar where
  start : Nat
  stop : Nat
  /-- bit k: weekday k + 1 -/
  mask : Nat
  deriving DecidableEq, Repr

structure Account where
  limit : Nat
  spent : Nat
  calls : Nat
  pages : Nat
  policy : Policy
  flashExempt : Bool
  suspended : Bool
  limitLowered : Bool
  overrun : Bool
  deriving DecidableEq, Repr

/-- What an OUT reservation carries of its call (R156). -/
structure OutPart where
  account : Nat
  /-- job and recipient; absent in a record whose job RESTART removed -/
  recip : Option (Nat × Nat)
  cls : Cls
  dial : Str
  band : Nat
  deriving DecidableEq, Repr

/-- A log reservation (R155 to R162). -/
structure LogResv where
  /-- its slot of the call log, 0 to 127 (section 8.4; log entry 43) -/
  slot : Nat
  line : Line
  carried : Bool
  out : Option OutPart
  period : Option Period
  remoteTag : Option Str
  start : Option CalTime
  answer : Option CalTime
  charge : Nat
  overrun : Bool
  metered : Bool
  clockInvalid : Bool
  unattended : Bool
  /-- an accrual has reached it (R158) -/
  accrued : Bool
  /-- setup charge copied at the answer of a timed call (R159) -/
  setup : Option Nat
  /-- unit charge and unit interval copied at the answer of a timed call (R159) -/
  unit : Option (Nat × Nat)
  /-- the elapsed second at which the interval timer expires; present while it runs -/
  intervalEnd : Option Nat
  /-- meter value of the last pulse (R162) -/
  lastPulse : Nat
  actionTaken : Bool
  deriving DecidableEq, Repr

/-- A committed record (section 8.4). -/
structure Record where
  /-- the slot its reservation held, kept until LOG_DROP (R155) -/
  slot : Nat
  number : Nat
  line : Line
  out : Option OutPart
  period : Option Period
  remoteTag : Option Str
  start : CalTime
  answer : Option CalTime
  stop : CalTime
  step : Option Nat
  pagesDone : Nat
  damaged : Nat
  charge : Nat
  outcome : CallOutcome
  overrun : Bool
  metered : Bool
  unattended : Bool
  clockInvalid : Bool
  deriving DecidableEq, Repr

structure Chg where
  tariffs : Tbl Tariff
  bands : List Band
  calendar : Calendar
  accounts : List Account
  resvs : List LogResv
  records : List Record
  nextLog : Nat
  deriving DecidableEq, Repr

/-! ## TMB and SSC (chapter 9) -/

structure Tmb where
  time : CalTime
  valid : Bool
  deriving DecidableEq, Repr

inductive StoreStatus where | idle | run | ended | abort
  deriving DecidableEq, Repr
inductive StoreItem where | account (a : Nat) | save
  deriving DecidableEq, Repr
inductive WriteCause where | nack | pollTimeout
  deriving DecidableEq, Repr

/-- The phase of a row write: the transfer, with the ACKs received so far, or the completion poll (R178). -/
inductive BusPhase where | transfer (acks : Nat) | poll
  deriving DecidableEq, Repr

/-- The bus operation in progress: the row, its composed bytes, whether the row was dirtied after it was composed (R174), and its phase (R178). -/
structure RowWrite where
  row : Nat
  bytes : List Byte
  redirtied : Bool
  phase : BusPhase
  deriving DecidableEq, Repr

structure Ssc where
  loading : Bool
  dirty : List Nat
  failed : List Nat
  /-- oldest first; the head is the item being written while `writing` is present -/
  queue : List StoreItem
  writing : Option RowWrite
  savePos : Nat
  stopSave : Bool
  status : StoreStatus
  rowsWritten : Nat
  fault : Bool
  lastFail : Option (Nat × WriteCause)
  deriving DecidableEq, Repr

/-! ## HLC: the host link (chapter 10) -/

/-- A request in the request queue, or an outgoing frame's content. -/
structure Frame where
  kind : Byte
  tag : Byte
  body : List Byte
  deriving DecidableEq, Repr

structure Notice where
  kind : NoticeKind
  object : List Byte
  fields : List Byte
  deriving DecidableEq, Repr

/-- The receiver's assembly state with the bytes taken since the start mark (R182). -/
inductive Rx where
  | hunt
  | length (got : List Byte)
  | header (len : Nat) (got : List Byte)
  | body (len : Nat) (kind tag : Byte) (got : List Byte)
  | check (kind tag : Byte) (data : List Byte) (got : List Byte)
  deriving DecidableEq, Repr

/-- The eight link error flags (R191). -/
structure LinkFlags where
  parity : Bool
  framing : Bool
  overrun : Bool
  length : Bool
  truncated : Bool
  stuck : Bool
  check : Bool
  queueFull : Bool
  deriving DecidableEq, Repr

inductive Outgoing where | reply (f : Frame) | notice (n : Notice)
  deriving DecidableEq, Repr

structure Hlc where
  rx : Rx
  requests : List Frame
  replies : List Frame
  tx : Option Outgoing
  notices : List Notice
  mask : Nat
  flags : LinkFlags
  lost : Bool
  period : Nat
  /-- the elapsed second at which the presence timer expires; absent while it is stopped -/
  presenceEnd : Option Nat
  attended : Bool
  restarting : Bool
  hostDoc : Option Nat
  /-- the host-written documents abandoned under UNATTENDED, each until a request to write it is answered STATE (R11) -/
  hostLost : List Nat
  deriving DecidableEq, Repr

/-! ## The whole part -/

structure State where
  /-- the commands waiting, first in, first out -/
  pending : List Instr
  pins : Pins
  mem : List Host.Cell
  pmc : Pmc
  arb : Arbiter
  scn : Scn
  prt : Prt
  lines : Vector Lu 4
  lus : Lus
  dsc : Dsc
  rrt : Rrt
  chg : Chg
  tmb : Tmb
  elapsed : Nat
  eeprom : List Host.Cell
  ssc : Ssc
  hlc : Hlc
  /-- the model's own: how many free values of `Config.failedWriteByte` have been used (log entry 4) -/
  freeCount : Nat
  deriving DecidableEq, Repr

/-! ## Power-up values -/

/-- 00:00:00 on Saturday 1 January 2000 (R171). -/
def CalTime.zero : CalTime := ⟨2000, 1, 1, 6, 0, 0, 0⟩

/-- Defaults of section 2.1. -/
def ScanSettings.default : ScanSettings := ⟨0, 2431, 0, 160, 128, 96, 2⟩
/-- Defaults of R62. -/
def Thermal.default : Thermal := ⟨40000, 24000, 96, 60, 200⟩
/-- Defaults of section 4.1. -/
def LineConfig.default : LineConfig := ⟨false, true, true, 2, .tone, none, .none, 0⟩
/-- Defaults of section 8.2. -/
def Band.default : Band := ⟨0, 0, 0, 0, 60, 60, false⟩
/-- Defaults of section 8.3. -/
def Account.default : Account := ⟨0, 0, 0, 0, .afterPage, false, false, false, false⟩
/-- Defaults of R151: 480 to 1080, Monday to Friday. -/
def Calendar.default : Calendar := ⟨480, 1080, 31⟩

/-- The arbiter with no request waiting (R24). -/
def Arbiter.reset : Arbiter := ⟨none, 0, 0, 0, Vector.replicate 4 0, 0, 0⟩

def Pmc.reset : Pmc := ⟨List.range Config.blocks, [], [], [], 400, 512⟩

def Scn.reset : Scn := ⟨.idle, none, ScanSettings.default, none, false, 0, 0, false, false, false, 0, none, none⟩

def Prt.reset : Prt := ⟨[], 0, 0, none, .idle, none, 0, 0, Thermal.default, false⟩

/-- A line unit after a power-up reset (R89), with the voltage level read from its module. -/
def Lu.reset (voltage : Bool) : Lu :=
  ⟨LineConfig.default, .disabled, voltage, 0, false, false, false, 0, none, false, false, false, none⟩

def Lus.reset : Lus := ⟨60, [], 6, 8⟩

def Dsc.reset : Dsc := ⟨[], 0, 0, 1, 3, 5, Vector.replicate 4 false, Vector.replicate 4 false⟩

def Rrt.reset : Rrt := ⟨[], .print 0 1 .routine, 0, 0, Vector.replicate 4 none⟩

def Chg.reset : Chg :=
  ⟨[], List.replicate 16 Band.default, Calendar.default, List.replicate 32 Account.default, [], [], 0⟩

/-- SSC as the power-up load begins (R175). -/
def Ssc.reset : Ssc := ⟨true, [], [], [], none, 0, false, .idle, 0, false, none⟩

def LinkFlags.none : LinkFlags := ⟨false, false, false, false, false, false, false, false⟩

def Hlc.reset : Hlc := ⟨.hunt, [], [], none, [], 0, LinkFlags.none, false, 30, none, false, false, none, []⟩

/-- The input levels of State.reset (log entry 2, DESIGN CHOICE): an A4 module, no paper in the feeder, print paper loaded, cover shut, bins empty, a cold head. -/
def Pins.atReset : Pins := ⟨false, false, false, false, false, true, true, Vector.replicate 4 false, 0, false⟩

/-- The part as a power-up reset leaves it (R175), with the levels sampled and the settings memory it is connected to. -/
def State.powerUp (pins : Pins) (voltage : Vector Bool 4) (eeprom : List Host.Cell) (freeCount : Nat) (pending : List Instr) : State :=
  { pending, pins, mem := [], pmc := Pmc.reset, arb := Arbiter.reset, scn := Scn.reset, prt := Prt.reset,
    lines := voltage.map Lu.reset, lus := Lus.reset, dsc := Dsc.reset, rrt := Rrt.reset, chg := Chg.reset,
    tmb := ⟨CalTime.zero, false⟩, elapsed := 0, eeprom, ssc := Ssc.reset, hlc := Hlc.reset, freeCount }

/-- The machine right after reset: a power-up reset with a settings memory never written, the load begun (R175). -/
def State.reset : State := State.powerUp Pins.atReset (Vector.replicate 4 true) [] 0 []

end Sys2Proof.Machine
end

