-- ==== Sys2Proof/Machine/Codec.lean ====
section
/-! DEFINITION. The byte formats of chapter 11: field encodings (R195), enumeration codes, the CRC-16 and host frames (R194), control frames (R197), strip headers and data strips (R196), call records (11.5). -/

namespace Sys2Proof.Machine

/-! ## Fields (R195) -/

/-- An identifier or small number: one byte. -/
def e8 (n : Nat) : List Byte := [BitVec.ofNat 8 n]
/-- A number up to 65 535: two bytes, low byte first. -/
def e16 (n : Nat) : List Byte := [BitVec.ofNat 8 n, BitVec.ofNat 8 (n / 256)]
/-- An amount or running number: four bytes. -/
def e32 (n : Nat) : List Byte := e16 n ++ e16 (n / 65536)
def eFlag (b : Bool) : List Byte := e8 b.toNat
/-- An optional field: presence byte, then the field. -/
def eOpt {α : Type} (f : α → List Byte) : Option α → List Byte
  | none => e8 0
  | some x => e8 1 ++ f x
/-- A string: length byte, then ASCII. -/
def eStr (x : Str) : List Byte := e8 x.length ++ x
/-- A list: count, then the items. -/
def eList {α : Type} (f : α → List Byte) (xs : List α) : List Byte := e8 xs.length ++ xs.flatMap f
/-- A calendar time: seven bytes. -/
def eTime (t : CalTime) : List Byte :=
  e8 (t.year - 2000) ++ e8 t.month ++ e8 t.day ++ e8 t.weekday ++ e8 t.hour ++ e8 t.minute ++ e8 t.second
def eLine (l : Line) : List Byte := e8 l.val
/-- A set as a byte: bit k stands for the k-th member of its list. -/
def setOf : List Bool → Nat
  | [] => 0
  | b :: bs => b.toNat + 2 * setOf bs

/-! ## Enumerations: numbered from 0 in the order of the defining table (R195) -/

def Resolution.code : Resolution → Nat | .coarse => 0 | .fine => 1 | .super => 2
def Width.code : Width → Nat | .a4 => 0 | .b4 => 1
def Density.code : Density → Nat | .light => 0 | .normal => 1 | .dark => 2
def BlankPolicy.code : BlankPolicy → Nat | .keep => 0 | .drop => 1
def Cls.code : Cls → Nat | .flash => 0 | .urgent => 1 | .routine => 2
/-- Result codes of R194. -/
def Result.code : Result → Nat
  | .ok => 0 | .badField => 1 | .noSuch => 2 | .full => 3 | .inUse => 4 | .state => 5 | .notYet => 6 | .badCoding => 7 | .unknownKind => 8
/-- Outcome codes of section 11.5. -/
def CallOutcome.code : CallOutcome → Nat
  | .delivered => 0 | .busy => 1 | .noAnswer => 2 | .noDialtone => 3 | .checkFail => 4 | .noReply => 5 | .lineLost => 6 | .remoteFull => 7
  | .refused => 8 | .budget => 9 | .cancelled => 10 | .glare => 11 | .barred => 12 | .noPages => 13 | .restart => 14 | .logFull => 15
  | .received => 16 | .receivedDamaged => 17 | .abandoned => 18 | .rejected => 19 | .storeFull => 20 | .noPlan => 21
def NoticeClass.code : NoticeClass → Nat
  | .line => 0 | .job => 1 | .doc => 2 | .scan => 3 | .print => 4 | .charge => 5 | .store => 6 | .link => 7
/-- Notice kinds from 0x80 in the order of the table of section 10.5 (R194). -/
def NoticeKind.code : NoticeKind → Nat
  | .docChanged => 0x80 | .docRouted => 0x81 | .forwardFailed => 0x82 | .printFailed => 0x83 | .scanStarted => 0x84 | .scanEnd => 0x85
  | .memoryLow => 0x86 | .noPreset => 0x87 | .printEnd => 0x88 | .binChanged => 0x89 | .printEngine => 0x8A | .lineChanged => 0x8B
  | .ringUnanswered => 0x8C | .jobEnd => 0x8D | .recipientChanged => 0x8E | .logFull => 0x8F | .budgetAction => 0x90 | .callLogged => 0x91
  | .storeEnd => 0x92 | .storeFault => 0x93 | .presence => 0x94
/-- The class of each notice kind (section 10.5). -/
def NoticeKind.cls : NoticeKind → NoticeClass
  | .docChanged | .docRouted | .forwardFailed | .printFailed => .doc
  | .scanStarted | .scanEnd | .memoryLow | .noPreset => .scan
  | .printEnd | .binChanged | .printEngine => .print
  | .lineChanged | .ringUnanswered => .line
  | .jobEnd | .recipientChanged => .job
  | .logFull | .budgetAction | .callLogged => .charge
  | .storeEnd | .storeFault => .store
  | .presence => .link
def Origin.code : Origin → Nat | .scan => 0 | .receive => 1 | .host => 2
def DocState.code : DocState → Nat | .opened => 0 | .closed => 1 | .abandoned => 2
/-- DOC_CHANGED's fourth state, after OPEN, CLOSED and ABANDONED (R13). -/
def freedCode : Nat := 3
def CursorState.code : CursorState → Nat | .opened => 0 | .atEnd => 1 | .revoked => 2
def ScanState.code : ScanState → Nat
  | .idle => 0 | .waitPaper => 1 | .acquire => 2 | .pageGap => 3 | .scanning => 4 | .stopping => 5 | .memoryWait => 6
def ScanOutcome.code : ScanOutcome → Nat
  | .done => 0 | .noPaper => 1 | .jam => 2 | .syncLost => 3 | .memory => 4 | .stopped => 5 | .pageLimit => 6 | .restart => 7
def EntryState.code : EntryState → Nat | .waiting => 0 | .printing => 1 | .done => 2 | .cancelled => 3
/-- The reasons of HALTED, in the order of the engine states' table, numbered by themselves as those of FAULT are (log entry 38). -/
def HaltReason.code : HaltReason → Nat | .paperOut => 0 | .coverOpen => 1 | .warmupFail => 2
/-- The reasons of FAULT, numbered by themselves (log entry 38). -/
def FaultReason.code : FaultReason → Nat | .headHot => 0 | .headShort => 1
def Engine.code : Engine → Nat
  | .idle => 0 | .warmup => 1 | .printing => 2 | .thermalPause => 3 | .halted _ => 4 | .fault _ => 5
/-- The halt or fault reason of the engine, where there is one. -/
def Engine.reason : Engine → Option Nat
  | .halted r => some r.code
  | .fault r => some r.code
  | _ => none
def DialMode.code : DialMode → Nat | .tone => 0 | .pulse => 1
def Metering.code : Metering → Nat | .none => 0 | .pulse => 1
def LineState.code : LineState → Nat
  | .disabled => 0 | .idle => 1 | .ringing => 2 | .seized => 3 | .dialling => 4 | .awaitAnswer => 5 | .answering => 6 | .handshake => 7
  | .transfer => 8 | .clearing => 9 | .guard => 10 | .fault => 11
def PageEndKind.code : PageEndKind → Nat | .more => 0 | .last => 1 | .wait => 2
def RefuseReason.code : RefuseReason → Nat | .notAccepted => 0 | .barredCaller => 1
def EndReached.code : EndReached → Nat | .last => 0 | .holdFull => 1 | .neither => 2
def RecipState.code : RecipState → Nat
  | .waiting => 0 | .eligible => 1 | .bound => 2 | .inCall => 3 | .retryWait => 4 | .delivered => 5 | .failed => 6 | .cancelled => 7
def JobState.code : JobState → Nat | .queued => 0 | .active => 1 | .done => 2 | .cancelled => 3
def Sense.code : Sense → Nat | .any => 0 | .all => 1 | .none => 2
def Action.code : Action → Nat | .print .. => 0 | .hold => 1 | .printAndHold .. => 2 | .reject => 3 | .forward .. => 4
def Period.code : Period → Nat | .peak => 0 | .offpeak => 1
def Policy.code : Policy → Nat | .cut => 0 | .afterPage => 1 | .afterCall => 2
/-- The operation status in STORE_STATUS and STORE_END: no list of the spec numbers it, and the model does (log entry 38). -/
def StoreStatus.code : StoreStatus → Nat | .idle => 0 | .run => 1 | .ended => 2 | .abort => 3
/-- The cause of a failed write in STORE_FAULT and STORE_STATUS: no list of the spec numbers it, and the model does (log entry 38). -/
def WriteCause.code : WriteCause → Nat | .nack => 0 | .pollTimeout => 1

/-! ## Characters of the host link (R181) -/

/-- The ones among some bits. -/
def onesOf (bits : List Bool) : Nat := (bits.filter (·)).length

/-- The eight data bits of a character. -/
def charData (c : LinkChar) : Byte := c.extractLsb' 1 8

/-- Parity fault: the parity bit does not make the count of ones in the data bits and the parity bit odd. -/
def parityFault (c : LinkChar) : Bool := onesOf ((List.range 9).map fun i => c.getLsbD (i + 1)) % 2 == 0

/-- Framing fault: the stop bit is 0. -/
def framingFault (c : LinkChar) : Bool := !c.getLsbD 10

/-- A character by its data bits and what follows them, the parity bit and then the stop bit; its start bit is 0. -/
def charOf (data : Byte) (parityStop : BitVec 2) : LinkChar := parityStop ++ data ++ 0#1

/-- A byte as a character: odd parity, stop bit 1. -/
def linkChar (b : Byte) : LinkChar := charOf b (1#1 ++ BitVec.ofBool (onesOf ((List.range 8).map b.getLsbD) % 2 == 0))

/-! ## CRC-16 and host frames (R194) -/

/-- One bit of the CRC-16 of polynomial 0x1021. -/
def crcBit (c : BitVec 16) : BitVec 16 := if c.msb then (c <<< 1) ^^^ 0x1021#16 else c <<< 1
/-- One byte, most significant bit first. -/
def crcByte (c : BitVec 16) (b : Byte) : BitVec 16 :=
  crcBit (crcBit (crcBit (crcBit (crcBit (crcBit (crcBit (crcBit (c ^^^ (b.zeroExtend 16 <<< 8)))))))))
/-- CRC-16, initial value 0xFFFF, not reflected, no final exclusive-or. -/
def crc16 (bs : List Byte) : BitVec 16 := bs.foldl crcByte 0xFFFF#16

/-- A 16-bit check as sent: low byte first. -/
def crcBytes (c : BitVec 16) : List Byte := e16 c.toNat

/-- The check of a host frame covers the length bytes to the last body byte (10.2). -/
def frameCheck (kind tag : Byte) (body : List Byte) : BitVec 16 := crc16 (e16 body.length ++ [kind, tag] ++ body)

/-- A host frame as it travels (11.1). -/
def encodeFrame (f : Frame) : List Byte :=
  [0xC3#8] ++ e16 f.body.length ++ [f.kind, f.tag] ++ f.body ++ crcBytes (frameCheck f.kind f.tag f.body)

/-- A notice as a frame: its kind, tag 0, its object, its fields (R194). -/
def Notice.frame (n : Notice) : Frame := ⟨BitVec.ofNat 8 n.kind.code, 0, n.object ++ n.fields⟩

/-- The frame of whatever the transmitter sends. -/
def Outgoing.frame : Outgoing → Frame
  | .reply f => f
  | .notice n => n.frame

/-! ## Strips on the line and in page memory (R196) -/

/-- The format byte of a strip header. -/
def formatByte (res : Resolution) (width : Width) (damaged : Bool) : Nat := res.code + 4 * width.code + 8 * damaged.toNat

/-- The eight bytes of a strip header by its fields. -/
def headerBytes (page strip lines format coded : Nat) : List Byte :=
  [0x5A#8, 0xA5#8] ++ e8 page ++ e8 strip ++ e8 lines ++ e8 format ++ e16 coded

/-- The 8-byte strip header. -/
def stripHeader (page strip lines : Nat) (res : Resolution) (width : Width) (damaged : Bool) (coded : Nat) : List Byte :=
  headerBytes page strip lines (formatByte res width damaged) coded

/-- A data strip: header with the damaged mark clear, coded lines, CRC-16 over both. -/
def dataStripBytes (page strip lines : Nat) (res : Resolution) (width : Width) (coded : List Byte) : List Byte :=
  let body := stripHeader page strip lines res width false coded.length ++ coded
  body ++ crcBytes (crc16 body)

/-- The check of a received strip: the CRC-16 over its header and its coded lines equals the two bytes after them. `got` are the bytes after the
header. -/
def stripCheck (header got : List Byte) (coded : Nat) : Bool := (got.drop coded).take 2 == crcBytes (crc16 (header ++ got.take coded))

/-- The resolution and width a received format byte gives; resolution value 3 is not defined, bits 3 to 7 are not examined. -/
def formatOf (f : Nat) : Option (Resolution × Width) :=
  let w := if f / 4 % 2 = 0 then Width.a4 else Width.b4
  match f % 4 with
  | 0 => some (.coarse, w)
  | 1 => some (.fine, w)
  | 2 => some (.super, w)
  | _ => none

/-! ## Control frames (R197) -/

def CtlFrame.kind : CtlFrame → Nat
  | .caps .. => 1 | .plan .. => 2 | .checkResult _ => 3 | .pageEnd .. => 4 | .stripReport _ => 5 | .pageTaken .. => 6
  | .waiting => 7 | .clear => 8 | .refuse _ => 9

def CtlFrame.fields : CtlFrame → List Byte
  | .caps t m r w => eStr t ++ e8 m ++ e8 r ++ e8 w
  | .plan t st c p => eStr t ++ e8 st ++ e8 c.toNat ++ e8 p
  | .checkResult ok => e8 (!ok).toNat
  | .pageEnd k p n => e8 k.code ++ e8 p ++ e8 n
  | .stripReport xs => eList e8 xs
  | .pageTaken d h => e8 d ++ e8 h.toNat
  | .waiting => []
  | .clear => []
  | .refuse r => e8 r.code

/-- A control frame as it travels. -/
def CtlFrame.encode (f : CtlFrame) : List Byte :=
  let body := e8 f.kind ++ e8 f.fields.length ++ f.fields
  [0x55#8, 0x7D#8] ++ body ++ crcBytes (crc16 body)

/-! ## Call records (11.5) -/

def Record.flags (r : Record) : Nat := setOf [r.overrun, r.metered, r.unattended, r.clockInvalid]

def OutPart.encode (o : OutPart) (p : Option Period) : List Byte :=
  e8 o.account ++ e8 o.band ++ eOpt (fun p => e8 p.code) p ++ eOpt (fun jr => e8 jr.1 ++ e8 jr.2) o.recip ++ eStr o.dial

def Record.encode (r : Record) : List Byte :=
  e16 r.number ++ eFlag r.out.isSome ++ eLine r.line ++ e8 r.flags ++ e8 r.outcome.code ++ eTime r.start ++ eTime r.stop
    ++ e8 r.pagesDone ++ e8 r.damaged ++ e32 r.charge ++ eOpt eTime r.answer ++ eOpt e8 r.step ++ eOpt eStr r.remoteTag
    ++ eOpt (fun o => o.encode r.period) r.out

end Sys2Proof.Machine
end

