-- ==== Sys2Proof/Machine/Ops.lean ====
section
/-! DEFINITION. The named operations every block uses: tables, byte memories, the calendar, updates of one block, replies and notices, the transmitter.
No command of a block enters an exception; what a processor would do by one is here a reply, a notice or a flag. -/

namespace Sys2Proof.Machine

/-! ## Tables -/

def Tbl.get {α : Type} (t : Tbl α) (k : Nat) : Option α :=
  match t with
  | [] => none
  | (k', x) :: t' => if k' = k then some x else Tbl.get t' k

/-- Puts `x` in slot `k`, in the place of what the slot held. -/
def Tbl.put {α : Type} (t : Tbl α) (k : Nat) (x : α) : Tbl α :=
  match t with
  | [] => [(k, x)]
  | (k', y) :: t' => if k < k' then (k, x) :: (k', y) :: t' else if k = k' then (k, x) :: t' else (k', y) :: Tbl.put t' k x

/-- Empties slot `k`. -/
def Tbl.del {α : Type} (t : Tbl α) (k : Nat) : Tbl α :=
  match t with
  | [] => []
  | (k', y) :: t' => if k' = k then t' else (k', y) :: Tbl.del t' k

/-- Changes the record of slot `k`, if it holds one. -/
def Tbl.mod {α : Type} (t : Tbl α) (k : Nat) (f : α → α) : Tbl α :=
  match t with
  | [] => []
  | (k', y) :: t' => if k' = k then (k', f y) :: t' else (k', y) :: Tbl.mod t' k f

def Tbl.keys {α : Type} (t : Tbl α) : List Nat := t.map (·.1)

/-- Keys strictly rising. -/
abbrev Tbl.wf {α : Type} (t : Tbl α) : Prop := t.keys.Pairwise (· < ·)

/-- The lowest-numbered empty slot of `1 .. n`. -/
def Tbl.lowestFree {α : Type} (t : Tbl α) (n : Nat) : Option Nat :=
  ((List.range n).map (· + 1)).find? (fun k => (t.get k).isNone)

/-- The line's or bin's item of a row of four. -/
def at4 {α : Type} (v : Vector α 4) (l : Fin 4) : α := v[l.val]
def set4 {α : Type} (v : Vector α 4) (l : Fin 4) (x : α) : Vector α 4 := v.set l.val x

/-- The four lines in order, L0 to L3. -/
def allLines : List Line := [0, 1, 2, 3]

/-- The line or bin of a number, if there is one. -/
def four? (n : Nat) : Option (Fin 4) := if h : n < 4 then some ⟨n, h⟩ else none

/-! ## Byte memories: cells in rising order of address, none equal to what an unlisted address reads as -/

def cellRead (dflt : Byte) (m : List Host.Cell) (a : Nat) : Byte :=
  match m with
  | [] => dflt
  | (a', b) :: m' => if a' = a then b else cellRead dflt m' a

def cellWrite (dflt : Byte) (m : List Host.Cell) (a : Nat) (b : Byte) : List Host.Cell :=
  match m with
  | [] => if b = dflt then [] else [(a, b)]
  | (a', b') :: m' =>
    if a < a' then (if b = dflt then (a', b') :: m' else (a, b) :: (a', b') :: m')
    else if a = a' then (if b = dflt then m' else (a, b) :: m')
    else (a', b') :: cellWrite dflt m' a b

/-- The canonical form. -/
abbrev cellsWf (dflt : Byte) (m : List Host.Cell) : Prop :=
  (m.map (·.1)).Pairwise (· < ·) ∧ ∀ c ∈ m, c.2 ≠ dflt

/-- What a byte of page memory that nothing has written reads as (log entry 3, DESIGN CHOICE). -/
def memDefault : Byte := 0#8
/-- What a byte of a settings memory never written holds (R175, Design Note). -/
def eepromDefault : Byte := 0xFF#8

/-- Memory.wf: page memory is in canonical form. -/
abbrev Memory.wf (m : List Host.Cell) : Prop := cellsWf memDefault m
abbrev Eeprom.wf (m : List Host.Cell) : Prop := cellsWf eepromDefault m

/-- The address of byte `i` of a strip whose blocks are `blocks` (R4: in order, from the first block onward). -/
def stripAddr (blocks : List Nat) (i : Nat) : Nat :=
  blocks.getD (i / Config.blockBytes) 0 * Config.blockBytes + i % Config.blockBytes

/-- Reads `n` bytes of a strip from byte `i`. -/
def stripRead (m : List Host.Cell) (blocks : List Nat) (i n : Nat) : List Byte :=
  (List.range n).map fun j => cellRead memDefault m (stripAddr blocks (i + j))

/-- Writes bytes into a strip's blocks from byte `i`. -/
def stripWrite (m : List Host.Cell) (blocks : List Nat) (i : Nat) : List Byte → List Host.Cell
  | [] => m
  | b :: bs => stripWrite (cellWrite memDefault m (stripAddr blocks i) b) blocks (i + 1) bs

/-- Reads the 32 bytes of a row of the settings memory (section 9.2). -/
def rowRead (m : List Host.Cell) (row : Nat) : List Byte :=
  (List.range 32).map fun j => cellRead eepromDefault m (row * 32 + j)

/-- Writes bytes into the settings memory from address `a`. -/
def bytesWrite (m : List Host.Cell) (a : Nat) : List Byte → List Host.Cell
  | [] => m
  | b :: bs => bytesWrite (cellWrite eepromDefault m a b) (a + 1) bs

/-! ## The calendar (R171) -/

/-- February has 29 days in every year divisible by 4. -/
def daysInMonth (year month : Nat) : Nat :=
  match month with
  | 2 => if year % 4 = 0 then 29 else 28
  | 4 | 6 | 9 | 11 => 30
  | _ => 31

/-- Days from 1 January 2000 to 1 January of `year`. -/
def daysToYear (year : Nat) : Nat := (year - 2000) * 365 + (year - 2000 + 3) / 4

/-- Days from 1 January to the first of `month`. -/
def daysToMonth (year : Nat) : Nat → Nat
  | 0 => 0
  | m + 1 => daysToMonth year m + if m = 0 then 0 else daysInMonth year m

end Sys2Proof.Machine

namespace Sys2Proof
open Sys2Proof.Machine

/-- Days from 1 January 2000. -/
def CalTime.days (t : CalTime) : Nat := daysToYear t.year + daysToMonth t.year t.month + (t.day - 1)

/-- Seconds from 00:00:00 on 1 January 2000. -/
def CalTime.secs (t : CalTime) : Nat := ((t.days * 24 + t.hour) * 60 + t.minute) * 60 + t.second

/-- The weekday of a date: 1 January 2000 is a Saturday. -/
def CalTime.weekdayOf (t : CalTime) : Nat := (t.days + 5) % 7 + 1

/-- The month and day of the year's day `d`, searching from month `m`. -/
def monthDay (year d : Nat) : Nat → Nat → Nat × Nat
  | 0, m => (m, d + 1)
  | fuel + 1, m => if d < daysInMonth year m then (m, d + 1) else monthDay year (d - daysInMonth year m) fuel (m + 1)

/-- The calendar time of a number of seconds since 2000. -/
def CalTime.ofSecs (n : Nat) : CalTime :=
  let d := n / 86400
  let y4 := d / 1461
  let r := d % 1461
  let y := if r < 366 then 0 else 1 + (r - 366) / 365
  let doy := if r < 366 then r else (r - 366) % 365
  let year := 2000 + 4 * y4 + y
  let md := monthDay year doy 11 1
  ⟨year, md.1, md.2, (d + 5) % 7 + 1, n / 3600 % 24, n / 60 % 60, n % 60⟩

/-- 60 times the hour plus the minute (R117, R151). -/
def CalTime.minuteOfDay (t : CalTime) : Nat := 60 * t.hour + t.minute

/-- One second on, and whether the time wrapped from 2099 to 2000 (R171). -/
def CalTime.tick (t : CalTime) : CalTime × Bool :=
  if t.second + 1 < 60 then ({ t with second := t.second + 1 }, false)
  else if t.minute + 1 < 60 then ({ t with second := 0, minute := t.minute + 1 }, false)
  else if t.hour + 1 < 24 then ({ t with second := 0, minute := 0, hour := t.hour + 1 }, false)
  else
    let wd := if t.weekday = 7 then 1 else t.weekday + 1
    if t.day + 1 ≤ daysInMonth t.year t.month then (⟨t.year, t.month, t.day + 1, wd, 0, 0, 0⟩, false)
    else if t.month + 1 ≤ 12 then (⟨t.year, t.month + 1, 1, wd, 0, 0, 0⟩, false)
    else if t.year + 1 ≤ 2099 then (⟨t.year + 1, 1, 1, wd, 0, 0, 0⟩, false)
    else (CalTime.zero, true)

/-- A calendar time of the years 2000 to 2099 (R129, R172). -/
def CalTime.valid (t : CalTime) : Bool :=
  2000 ≤ t.year && t.year ≤ 2099 && 1 ≤ t.month && t.month ≤ 12 && 1 ≤ t.day && t.day ≤ daysInMonth t.year t.month
    && t.hour ≤ 23 && t.minute ≤ 59 && t.second ≤ 59 && t.weekday == t.weekdayOf

end Sys2Proof

namespace Sys2Proof.Machine

/-- A minute of day lies in a window that may wrap past midnight (R117, R151). -/
def inWindow (start stop minute : Nat) : Bool :=
  if start < stop then start ≤ minute && minute < stop else start ≤ minute || minute < stop

/-! ## One block at a time -/

def State.onPmc (s : State) (f : Pmc → Pmc) : State := { s with pmc := f s.pmc }
def State.onArb (s : State) (f : Arbiter → Arbiter) : State := { s with arb := f s.arb }
def State.onScn (s : State) (f : Scn → Scn) : State := { s with scn := f s.scn }
def State.onPrt (s : State) (f : Prt → Prt) : State := { s with prt := f s.prt }
def State.onLus (s : State) (f : Lus → Lus) : State := { s with lus := f s.lus }
def State.onDsc (s : State) (f : Dsc → Dsc) : State := { s with dsc := f s.dsc }
def State.onRrt (s : State) (f : Rrt → Rrt) : State := { s with rrt := f s.rrt }
def State.onChg (s : State) (f : Chg → Chg) : State := { s with chg := f s.chg }
def State.onSsc (s : State) (f : Ssc → Ssc) : State := { s with ssc := f s.ssc }
def State.onHlc (s : State) (f : Hlc → Hlc) : State := { s with hlc := f s.hlc }
def State.onPins (s : State) (f : Pins → Pins) : State := { s with pins := f s.pins }
def State.setMem (s : State) (m : List Host.Cell) : State := { s with mem := m }

/-- The line unit of line `l`. -/
def State.lu (s : State) (l : Line) : Lu := at4 s.lines l

/-- A line is offered to DSC: IDLE, outgoing allowed, voltage present (R86). -/
def Lu.offerable (u : Lu) : Bool := u.state == .idle && u.config.outgoing && u.voltage

/-- Replaces a line unit; the unit's report keeps DSC's offered set and idle set in step with it (R134). -/
def State.setLu (s : State) (l : Line) (u : Lu) : State :=
  { s with
    lines := set4 s.lines l u
    dsc := { s.dsc with
      offered := set4 s.dsc.offered l u.offerable
      idle := set4 s.dsc.idle l (u.state == .idle) } }

def State.onLu (s : State) (l : Line) (f : Lu → Lu) : State := s.setLu l (f (s.lu l))

/-- Changes the call in flight of a line, if there is one. -/
def State.onCall (s : State) (l : Line) (f : Call → Call) : State :=
  s.onLu l fun u => { u with call := u.call.map f }

/-- Now: the Time Base's current time (R155). -/
def State.now (s : State) : CalTime := s.tmb.time

/-! ## Notices (R187) -/

/-- Places a notice in the queue: it takes the place of one of its kind and object, or the next place, or is dropped. -/
def Hlc.queueNotice (h : Hlc) (n : Notice) : Hlc :=
  if h.notices.any (fun m => m.kind == n.kind && m.object == n.object) then
    { h with notices := h.notices.map fun m => if m.kind == n.kind && m.object == n.object then n else m }
  else if h.notices.length ≥ Config.noticePlaces then { h with lost := true }
  else { h with notices := h.notices ++ [n] }

/-- The class is masked (R188). -/
def Hlc.masked (h : Hlc) (c : NoticeClass) : Bool := h.mask.testBit c.code

/-- A block raises a notice. -/
def State.raise (s : State) (k : NoticeKind) (object fields : List Byte) : State :=
  if s.hlc.masked k.cls then s else s.onHlc (·.queueNotice ⟨k, object, fields⟩)

/-! ## Replies and the transmitter (R184, R186) -/

/-- Hands HLC the reply to a request: its kind and tag, the result code, and for OK the reply body. -/
def State.answer (s : State) (kind tag : Nat) (r : Result) (body : List Byte) : State :=
  s.onHlc fun h =>
    { h with replies := h.replies ++ [⟨BitVec.ofNat 8 kind, BitVec.ofNat 8 tag, BitVec.ofNat 8 r.code :: body⟩] }

/-- A reply of OK with its body. -/
def State.ok (s : State) (kind tag : Nat) (body : List Byte) : State := s.answer kind tag .ok body
/-- A reply with another result code has no further body (R194). -/
def State.deny (s : State) (kind tag : Nat) (r : Result) : State := s.answer kind tag r []

/-- The transmitter chooses what to send when it is free: a waiting reply, else in ATTENDED the oldest notice (R186).
Nothing follows the reply to RESTART before it takes effect (R193). -/
def Hlc.kick (h : Hlc) : Hlc :=
  match h.tx, h.replies, h.notices with
  | some _, _, _ => h
  | none, r :: rs, _ => { h with tx := some (.reply r), replies := rs }
  | none, [], n :: ns => if h.attended && !h.restarting then { h with tx := some (.notice n), notices := ns } else h
  | none, [], [] => h

def State.kick (s : State) : State := s.onHlc Hlc.kick

/-! ## Running a command -/

/-- The blocks work once the settings load has ended (R175). -/
def State.running (s : State) : Bool := !s.ssc.loading

/-- An event: it has its effect while the blocks work; then the transmitter chooses (log entry 7). -/
def event (s : State) (f : State → State) : Host.Outcome State Fault Refusal :=
  .next (if s.running then (f s).kick else s)

/-- A host request that HLC takes and hands to its owner: as an event, but none is taken while RESTART waits for its effect (R193). -/
def request (s : State) (f : State → State) : Host.Outcome State Fault Refusal :=
  event s fun s => if s.hlc.restarting then s else f s

/-- Applies `f` to each item in turn. -/
def eachDo {α : Type} (f : α → State → State) : List α → State → State
  | [], s => s
  | x :: xs, s => eachDo f xs (f x s)

end Sys2Proof.Machine
end

