-- ==== Sys2Proof/Machine/Bus.lean ====
section
/-! DEFINITION. The two-wire bus to the settings memory: the read of a row (R175), the two phases of a row write (R178), and what stands on the wires in each. -/

namespace Sys2Proof.Machine

/-- What SSC does on the bus. -/
inductive BusStep where
  | start
  /-- the device address with its direction; an ACK is expected -/
  | device (read : Bool)
  /-- a byte sent; an ACK is expected -/
  | send (b : Byte)
  /-- a byte received, and what SSC answers it -/
  | receive (ack : Bool)
  | stop
  deriving DecidableEq, Repr

/-- The two address bytes of a row, high byte first: its number times 32 (section 9.2). -/
def rowAddress (row : Nat) : List Byte := [BitVec.ofNat 8 (row * 32 / 256), BitVec.ofNat 8 (row * 32)]

/-! ## The read of a row (R175) -/

/-- A bus read: 32 bytes received, all but the last answered with ACK. -/
def readSteps (row : Nat) : List BusStep :=
  [.start, .device false] ++ (rowAddress row).map .send ++ [.start, .device true] ++ List.replicate 31 (.receive true) ++ [.receive false, .stop]

/-- What SSC receives when the memory answers every step with ACK: the bytes sent are the address from which it gives the bytes received. -/
def busTake (m : List Host.Cell) : List BusStep → Nat → List Byte
  | [], _ => []
  | .send b :: steps, a => busTake m steps (256 * a + b.toNat)
  | .receive _ :: steps, a => cellRead eepromDefault m a :: busTake m steps (a + 1)
  | _ :: steps, a => busTake m steps a

/-! ## The write of a row (R178) -/

/-- The answers of a whole transfer: to the device address, two address bytes and 32 bytes. -/
def transferAnswers : Nat := 35

/-- What an answer of the memory brings: the write goes on in a phase, or ends, well or with its cause. -/
inductive BusAfter where
  | goes (p : BusPhase)
  | ends (cause : Option WriteCause)
  deriving DecidableEq, Repr

/-- An answer, ACK or NACK: a NACK ends the transfer, the transfer's last ACK begins the poll, and the poll goes on until it is answered ACK. -/
def BusPhase.answered : BusPhase → Bool → BusAfter
  | .transfer n, true => if n + 1 < transferAnswers then .goes (.transfer (n + 1)) else .goes .poll
  | .transfer _, false => .ends (some .nack)
  | .poll, true => .ends none
  | .poll, false => .goes .poll

/-- Answers one after another, up to the one that ends the write. -/
def BusPhase.run : BusPhase → List Bool → BusAfter
  | p, [] => .goes p
  | p, x :: xs => match p.answered x with
    | .goes q => q.run xs
    | .ends c => .ends c

/-- What the transfer sends for its `n`-th answer. -/
def transferStep (w : RowWrite) : Nat → List BusStep
  | 0 => [.start, .device false]
  | n + 1 => (((rowAddress w.row ++ w.bytes)[n]?).map .send).toList

/-- What SSC does on the bus around one answer: the transfer's stop follows its last ACK or a NACK, and each poll has its own. -/
def BusPhase.wires (w : RowWrite) : BusPhase → Bool → List BusStep
  | .transfer n, ack => transferStep w n ++ if ack && n + 1 < transferAnswers then [] else [.stop]
  | .poll, _ => [.start, .device false, .stop]

/-- What SSC does on the bus for the answers of the memory, from the phase where the write stands to its end. -/
def rowWires (w : RowWrite) : BusPhase → List Bool → List BusStep
  | _, [] => []
  | p, x :: xs => p.wires w x ++ match p.answered x with
    | .goes q => rowWires w q xs
    | .ends _ => []

end Sys2Proof.Machine
end

