-- ==== Sys2Proof/Machine/Flags.lean ====
section
/-! DEFINITION. The part's flags: dirty marks of the settings rows (R174), link error flags (R191), record marks. -/

namespace Sys2Proof.Machine

/-- Adds a row to a set of rows kept in rising order. -/
def insertRow (r : Nat) : List Nat → List Nat
  | [] => [r]
  | x :: xs => if r < x then r :: x :: xs else if r = x then x :: xs else x :: insertRow r xs

/-- Marks a row dirty; a row marked after it was composed stays dirty when its write ends (R174). -/
def Ssc.markDirty (c : Ssc) (row : Nat) : Ssc :=
  { c with
    dirty := insertRow row c.dirty
    writing := c.writing.map fun w => if w.row = row then { w with redirtied := true } else w }

def State.dirty (s : State) (row : Nat) : State := s.onSsc (·.markDirty row)

/-- The rows of the sections (section 9.2). -/
def rowStationTag : Nat := 0
def rowLine (l : Line) : Nat := 1 + l.val
def rowAnswerWait : Nat := 5
def rowGuard : Nat := 6
def rowRoute (i : Nat) : Nat := 7 + 2 * i
def rowDefault : Nat := 71
def rowTariff (i : Nat) : Nat := 72 + i / 4
def rowBand (b : Nat) : Nat := 104 + b
def rowCalendar : Nat := 120
def rowAccount (a : Nat) : Nat := 121 + a
def rowScan : Nat := 153
def rowPreset : Nat := 154
def rowThermal : Nat := 155
def rowProtocol : Nat := 156
def rowPresence : Nat := 157

/-- The section of a row, 0 to 11 in the order of the table of section 9.2. -/
def sectionOf (row : Nat) : Nat :=
  if row = 0 then 0 else if row ≤ 5 then 1 else if row = 6 then 2 else if row ≤ 71 then 3 else if row ≤ 103 then 4
  else if row ≤ 119 then 5 else if row = 120 then 6 else if row ≤ 152 then 7 else if row ≤ 154 then 8
  else if row = 155 then 9 else if row = 156 then 10 else 11

/-- The link error flags as a set, in the order of R191. -/
def LinkFlags.bits (f : LinkFlags) : Nat :=
  setOf [f.parity, f.framing, f.overrun, f.length, f.truncated, f.stuck, f.check, f.queueFull]

def State.flag (s : State) (f : LinkFlags → LinkFlags) : State := s.onHlc fun h => { h with flags := f h.flags }

end Sys2Proof.Machine
end

