-- ==== Sys2Proof/Machine/Operands.lean ====
section
/-! DEFINITION. The tests a request's fields take, and the records that passing fields make. A value outside its range is refused by the owning block with BAD_FIELD. -/

namespace Sys2Proof.Machine

/-- A character a dial string may hold: digits, * # P W (0.4 "Strings"). -/
def dialChar (c : Byte) : Bool :=
  (0x30#8 ≤ c && c ≤ 0x39#8) || c == 0x2A#8 || c == 0x23#8 || c == 0x50#8 || c == 0x57#8
/-- A dial string: 1 to 40 such characters. -/
def dialOk (d : Str) : Bool := 1 ≤ d.length && d.length ≤ 40 && d.all dialChar
def printable (c : Byte) : Bool := 0x20#8 ≤ c && c ≤ 0x7E#8
/-- A station tag: 0 to 20 printable characters (R91). -/
def stationOk (t : Str) : Bool := t.length ≤ 20 && t.all printable
def digit (c : Byte) : Bool := 0x30#8 ≤ c && c ≤ 0x39#8

def between (lo hi n : Nat) : Bool := lo ≤ n && n ≤ hi

def Resolution.of? : Nat → Option Resolution | 0 => some .coarse | 1 => some .fine | 2 => some .super | _ => none
def Width.of? : Nat → Option Width | 0 => some .a4 | 1 => some .b4 | _ => none
def Density.of? : Nat → Option Density | 0 => some .light | 1 => some .normal | 2 => some .dark | _ => none
def BlankPolicy.of? : Nat → Option BlankPolicy | 0 => some .keep | 1 => some .drop | _ => none
def Cls.of? : Nat → Option Cls | 0 => some .flash | 1 => some .urgent | 2 => some .routine | _ => none
def DialMode.of? : Nat → Option DialMode | 0 => some .tone | 1 => some .pulse | _ => none
def Metering.of? : Nat → Option Metering | 0 => some .none | 1 => some .pulse | _ => Option.none
def Sense.of? : Nat → Option Sense | 0 => some .any | 1 => some .all | 2 => some .none | _ => Option.none
def Policy.of? : Nat → Option Policy | 0 => some .cut | 1 => some .afterPage | 2 => some .afterCall | _ => none

/-- The ranges of section 2.1. -/
def scanSettingsOk (v : ScanSettings) : Bool :=
  v.start ≤ 2431 && v.stop ≤ 2431 && v.start ≤ v.stop && v.topErase ≤ 63 && between 1 255 v.light && between 1 255 v.normal
    && between 1 255 v.dark && v.noise ≤ 15

/-- The ranges of R62. -/
def thermalOk (v : Thermal) : Bool :=
  between 1 65535 v.trip && v.resume < v.trip && between 1 4095 v.cooling && v.ready ≤ 254 && v.ready < v.maximum && v.maximum ≤ 255

/-- The ranges of section 8.2. -/
def bandOk (v : Band) : Bool :=
  v.setupPeak ≤ 65535 && v.setupOff ≤ 65535 && v.unitPeak ≤ 65535 && v.unitOff ≤ 65535 && between 1 600 v.intervalPeak
    && between 1 600 v.intervalOff

/-- A print spec: copies 1 to 99 and bin 0 to 3 (R27). -/
def specOf? : Option (Nat × Nat) → Option (Option (Nat × Bin))
  | none => some none
  | some (c, b) => if between 1 99 c then (four? b).map fun b => some (c, b) else none

/-- Scan parameters with every field at a defined value (R27, R28). -/
def presetOf? (res width density blank : Nat) (spec : Option (Nat × Nat)) : Option Preset :=
  match Resolution.of? res, Width.of? width, Density.of? density, BlankPolicy.of? blank, specOf? spec with
  | some r, some w, some d, some b, some p => some ⟨r, w, d, b, p⟩
  | _, _, _, _, _ => none

/-- A line configuration with every field in its range (R71). -/
def lineConfigOf? (v : RawLineConfig) : Option LineConfig :=
  match DialMode.of? v.dialMode, Metering.of? v.metering with
  | some d, some m =>
    if v.answerRings ≤ 9 && v.meterValue ≤ 65535 && v.outside.all dialOk then
      some ⟨v.enabled, v.incoming, v.outgoing, v.answerRings, d, v.outside, m, v.meterValue⟩
    else none
  | _, _ => none

/-- A print action's parameters (section 6.1). -/
def printParams? (bin copies cls : Nat) : Option (Bin × Nat × Cls) :=
  match four? bin, Cls.of? cls with
  | some b, some c => if between 1 99 copies then some (b, copies, c) else none
  | _, _ => none

/-- A FORWARD's optional print spec of bin and copies. -/
def forwardSpec? : Option (Nat × Nat) → Option (Option (Bin × Nat))
  | none => some none
  | some (b, c) => if between 1 99 c then (four? b).map fun b => some (b, c) else none

/-- An action with every field in its range (R115). -/
def actionOf? : RawAction → Option Action
  | .print b c k => (printParams? b c k).map fun p => .print p.1 p.2.1 p.2.2
  | .hold => some .hold
  | .printAndHold b c k => (printParams? b c k).map fun p => .printAndHold p.1 p.2.1 p.2.2
  | .reject => some .reject
  | .forward d a k spec =>
    match Cls.of? k, forwardSpec? spec with
    | some k, some spec => if dialOk d && a ≤ 31 then some (.forward d a k spec) else none
    | _, _ => none
  | .undefined _ => none

/-- A route entry with every field in its range, its match count 0 (R115). -/
def routeOf? (v : RawRoute) : Option Route :=
  match Sense.of? v.sense, actionOf? v.action with
  | some sense, some action =>
    if v.tagStart.all (fun p => 1 ≤ p.length && p.length ≤ 20 && p.all printable)
        && v.lineSet.all (fun m => 1 ≤ m && m ≤ 15)
        && v.window.all (fun w => w.1 ≤ 1439 && w.2 ≤ 1439 && w.1 != w.2) then
      some ⟨v.tagStart, v.lineSet, v.window, sense, action, 0⟩
    else none
  | _, _ => none

/-- A tariff entry with every field in its range (R149). -/
def tariffOf? (digits : Str) (band : Nat) : Option Tariff :=
  if 1 ≤ digits.length && digits.length ≤ 8 && digits.all digit && band ≤ 15 then some ⟨digits, band⟩ else none

end Sys2Proof.Machine
end

