-- ==== Sys2Proof/Machine/Coding.lean ====
section
/-! DEFINITION. Scan lines and coded lines: cleaning (R35, R36), coding (R37), decoding (R38), the conversions (R44, R45), strip verification (R20). -/

namespace Sys2Proof.Machine

/-- A line's pixels from its first; set for black. -/
abbrev Pixels := List Bool

def Width.pixels : Width → Nat | .a4 => 2048 | .b4 => 2432

def allWhite (px : Pixels) : Bool := px.all (! ·)
def blackCount (px : Pixels) : Nat := px.count true
def whiteLine (n : Nat) : Pixels := List.replicate n false

/-! ## Cleaning a scan line -/

/-- The module's pixels a job uses: an A4 job on a B4 module takes pixels 192 to 2239 (R35). A pixel that the command does
not give is taken at darkness 0 (log entry 65). -/
def jobPixels (moduleB4 : Bool) (width : Width) (dark : List Byte) : List Byte :=
  let from' := if moduleB4 && width == .a4 then dark.drop 192 else dark
  (from' ++ List.replicate width.pixels 0).take width.pixels

def thresholdOf (v : ScanSettings) : Density → Nat | .light => v.light | .normal => v.normal | .dark => v.dark

/-- Thresholding and the window, from pixel index `i` on (R35). -/
def windowed (threshold start stop : Nat) : Nat → List Byte → Pixels
  | _, [] => []
  | i, d :: ds => (threshold ≤ d.toNat && start ≤ i && i ≤ stop) :: windowed threshold start stop (i + 1) ds

/-- The four cleaning steps on the pixels of scan line `lineNo` (R35, R36). -/
def cleanLine (moduleB4 : Bool) (p : Preset) (v : ScanSettings) (lineNo : Nat) (dark : List Byte) : Pixels :=
  let px := windowed (thresholdOf v p.density) v.start v.stop 0 (jobPixels moduleB4 p.width dark)
  if lineNo ≤ v.topErase then whiteLine px.length
  else if blackCount px ≤ v.noise then whiteLine px.length
  else px

/-! ## The width conversion -/

/-- The positions of a group of 19 pixels that are dropped (R44). -/
def droppedColumn (i : Nat) : Bool := i % 19 == 3 || i % 19 == 9 || i % 19 == 15

/-- B4 to A4 from pixel index `i` on (R44). -/
def narrow : Nat → Pixels → Pixels
  | _, [] => []
  | i, p :: ps => if droppedColumn i then narrow (i + 1) ps else p :: narrow (i + 1) ps

/-- A B4 strip's RAW bits spread over its groups: a dropped column takes the colour of the pixel just before it (R38). -/
def widen : Nat → Nat → Bool → Pixels → Pixels
  | 0, _, _, _ => []
  | n + 1, i, before, bits =>
    if droppedColumn i then before :: widen n (i + 1) before bits
    else match bits with
      | [] => false :: widen n (i + 1) false []
      | b :: bs => b :: widen n (i + 1) b bs

/-! ## Coding a line (R37, R196) -/

/-- The run list of a line: white first, the current run having length `n` (R37). -/
def runsFrom (colour : Bool) (n : Nat) : Pixels → List Nat
  | [] => [n]
  | p :: ps => if p = colour then runsFrom colour (n + 1) ps else n :: runsFrom p 1 ps

def runList (px : Pixels) : List Nat := runsFrom false 0 px

/-- A run's bytes: one to 127, two from 128 (R196). -/
def runBytes (r : Nat) : List Byte :=
  if r < 128 then [BitVec.ofNat 8 r] else [BitVec.ofNat 8 (128 + r / 256), BitVec.ofNat 8 r]

def bitByte (a b c d e f g h : Bool) : Byte :=
  BitVec.ofNat 8 (128 * a.toNat + 64 * b.toNat + 32 * c.toNat + 16 * d.toNat + 8 * e.toNat + 4 * f.toNat + 2 * g.toNat + h.toNat)

/-- A bitmap, pixel 0 in bit 7 of the first byte (R196). -/
def packBits : Pixels → List Byte
  | a :: b :: c :: d :: e :: f :: g :: h :: ps => bitByte a b c d e f g h :: packBits ps
  | _ => []

def unpackBits (bs : List Byte) : Pixels :=
  bs.flatMap fun b => [b.getLsbD 7, b.getLsbD 6, b.getLsbD 5, b.getLsbD 4, b.getLsbD 3, b.getLsbD 2, b.getLsbD 1, b.getLsbD 0]

/-- The bytes of a coded line and the line they decode to: the first of BLANK, REPEAT, RUNS, RAW that applies (R37).
`prev` is the decoded previous line of the strip, absent at its first line. -/
def codeLine (width : Width) (prev : Option Pixels) (px : Pixels) : List Byte × Pixels :=
  let runs := (runList px).flatMap runBytes
  if allWhite px then ([0x00#8], px)
  else if prev = some px then ([0x01#8], px)
  else if runs.length ≤ 255 then (0x03#8 :: runs, px)
  else match width with
    | .a4 => (0x02#8 :: packBits px, px)
    | .b4 =>
      let bits := narrow 0 px
      (0x02#8 :: packBits bits, widen 2432 0 false bits)

/-- The coded lines of a strip's lines, coded afresh (R101). -/
def codeLines (width : Width) (prev : Option Pixels) : List Pixels → List Byte
  | [] => []
  | px :: rest => let c := codeLine width prev px; c.1 ++ codeLines width (some c.2) rest

/-! ## Decoding (R38, R196) -/

/-- The runs of a RUNS line: the pixels and the bytes after it; illegal past the width, past 255 run bytes, when the bytes run out, or where a run
of 0 to 127 takes two bytes (R38, R196). -/
def takeRuns (colour : Bool) (left used : Nat) : List Byte → Option (Pixels × List Byte)
  | [] => none
  | b :: bs =>
    if b.toNat < 128 then
      if b.toNat > left || used + 1 > 255 then none
      else if b.toNat = left then some (List.replicate left colour, bs)
      else (takeRuns (!colour) (left - b.toNat) (used + 1) bs).map fun r => (List.replicate b.toNat colour ++ r.1, r.2)
    else match bs with
      | [] => none
      | c :: cs =>
        let run := (b.toNat - 128) * 256 + c.toNat
        if run < 128 || run > left || used + 2 > 255 then none
        else if run = left then some (List.replicate left colour, cs)
        else (takeRuns (!colour) (left - run) (used + 2) cs).map fun r => (List.replicate run colour ++ r.1, r.2)

/-- One coded line: its pixels and the bytes after it; `none` when it is not legal. -/
def decodeLine (width : Width) (prev : Option Pixels) : List Byte → Option (Pixels × List Byte)
  | [] => none
  | k :: bs =>
    if k = 0x00#8 then some (whiteLine width.pixels, bs)
    else if k = 0x01#8 then prev.map fun p => (p, bs)
    else if k = 0x02#8 then
      if bs.length < 256 then none
      else
        let bits := unpackBits (bs.take 256)
        some (match width with | .a4 => bits | .b4 => widen 2432 0 false bits, bs.drop 256)
    else if k = 0x03#8 then takeRuns false width.pixels 0 bs
    else none

/-- PMC's verification of a host strip: exactly `n` legal lines and no byte left over (R20). -/
def verifyStrip (width : Width) (prev : Option Pixels) : Nat → List Byte → Bool
  | 0, bs => bs.isEmpty
  | n + 1, bs => match decodeLine width prev bs with
    | none => false
    | some (px, rest) => verifyStrip width (some px) n rest

/-- A line that is not legally coded in a received strip: its pixels are free values (log entry 4). -/
def illegalLine (bytes : List Byte) (width : Width) (i : Nat) : Pixels :=
  (List.range width.pixels).map (Config.illegalPixel bytes i)

/-- The `n` lines of a stored strip; from the first line that is not legal on, free lines. -/
def decodeLinesFrom (bytes : List Byte) (width : Width) (prev : Option Pixels) (i : Nat) : Nat → List Byte → List Pixels
  | 0, _ => []
  | n + 1, bs => match decodeLine width prev bs with
    | some (px, rest) => px :: decodeLinesFrom bytes width (some px) (i + 1) n rest
    | none => illegalLine bytes width i :: decodeLinesFrom bytes width (some (illegalLine bytes width i)) (i + 1) n []

def decodeStrip (width : Width) (n : Nat) (bytes : List Byte) : List Pixels := decodeLinesFrom bytes width none 0 n bytes

/-! ## Resolution conversions, within a strip (R45) -/

def mergePairs : List Pixels → List Pixels
  | a :: b :: rest => List.zipWith (· || ·) a b :: mergePairs rest
  | [a] => [a]
  | [] => []

def keepOdd : List Pixels → List Pixels
  | a :: _ :: rest => a :: keepOdd rest
  | [a] => [a]
  | [] => []

def doubleLines (ls : List Pixels) : List Pixels := ls.flatMap fun l => [l, l]

/-- The conversions used for sending; a pair that is not one of them leaves the lines as they are. -/
def convertRes (src dst : Resolution) (ls : List Pixels) : List Pixels :=
  match src, dst with
  | .super, .fine => mergePairs ls
  | .fine, .coarse => keepOdd ls
  | .super, .coarse => keepOdd (mergePairs ls)
  | _, _ => ls

/-- The line count of a converted strip of `n` lines (R45). -/
def convertedCount (src dst : Resolution) (n : Nat) : Nat :=
  match src, dst with
  | .super, .fine => (n + 1) / 2
  | .fine, .coarse => (n + 1) / 2
  | .super, .coarse => (n + 3) / 4
  | _, _ => n

/-- Width conversion first, then resolution (R45). -/
def convertLines (w w' : Width) (r r' : Resolution) (ls : List Pixels) : List Pixels :=
  convertRes r r' (if w = .b4 ∧ w' = .a4 then ls.map (narrow 0) else ls)

/-- The print format: A4 at FINE (R55). -/
def printLines (width : Width) (res : Resolution) (ls : List Pixels) : List Pixels :=
  let ls := if width = .b4 then ls.map (narrow 0) else ls
  match res with
  | .coarse => doubleLines ls
  | .fine => ls
  | .super => mergePairs ls

/-- Lines printed for a strip of `n` lines (R55). -/
def printCount (res : Resolution) (n : Nat) : Nat :=
  match res with | .coarse => 2 * n | .fine => n | .super => (n + 1) / 2

end Sys2Proof.Machine
end

