-- ==== Sys2Proof/Machine/Arbiter.lean ====
section
/-! DEFINITION. The page-memory access arbiter (R24). The bytes of a burst are in page memory, or taken from it, in the step that asks for it; the arbiter keeps the traffic and decides when a reader has its strip (log entry 8). -/

namespace Sys2Proof.Machine

/-- Bursts for `n` bytes (section 1.8). -/
def burstsFor (n : Nat) : Nat := (n + (Config.burstBytes - 1)) / Config.burstBytes

/-- Bursts a client has still to ask for. -/
def Arbiter.need (a : Arbiter) : Client → Nat
  | .scn => a.scn
  | .prt => a.prt
  | .hlc => a.hlc
  | .lu l => at4 a.lu l

def Arbiter.setNeed (a : Arbiter) (c : Client) (n : Nat) : Arbiter :=
  match c with
  | .scn => { a with scn := n }
  | .prt => { a with prt := n }
  | .hlc => { a with hlc := n }
  | .lu l => { a with lu := set4 a.lu l n }

/-- The lines in round-robin order from the pointer. -/
def linesFrom (p : Line) : List Line := [p, p + 1, p + 2, p + 3]

/-- A waiting line of the group: receiving lines run as answerer, sending lines as caller. -/
def State.lineWaits (s : State) (receiving : Bool) (l : Line) : Bool :=
  0 < at4 s.arb.lu l && (match (s.lu l).call with | some c => c.caller != receiving | none => false)

/-- The client the arbiter grants next, by group and round-robin (R24). -/
def State.nextClient (s : State) : Option Client :=
  match (linesFrom s.arb.recvPtr).find? (s.lineWaits true), (linesFrom s.arb.sendPtr).find? (s.lineWaits false) with
  | some l, _ => some (.lu l)
  | none, some l => some (.lu l)
  | none, none =>
    if 0 < s.arb.scn then some .scn else if 0 < s.arb.prt then some .prt else if 0 < s.arb.hlc then some .hlc else none

/-- The arbiter's state after a grant to a client: the line group's pointer moves past the line granted. -/
def State.granted (s : State) (c : Client) : Arbiter :=
  let a := { s.arb.setNeed c (s.arb.need c - 1) with busy := some c }
  match c with
  | .lu l => if s.lineWaits true l then { a with recvPtr := l + 1 } else { a with sendPtr := l + 1 }
  | _ => a

/-- Grants a burst when none is in progress and a request is waiting. -/
def arbGrant (s : State) : State :=
  match s.arb.busy, s.nextClient with
  | none, some c => { s with arb := s.granted c }
  | _, _ => s

/-- A client asks for `n` more bursts. -/
def arbAsk (c : Client) (n : Nat) (s : State) : State :=
  arbGrant (s.onArb fun a => a.setNeed c (a.need c + n))

/-- A client's waiting request is withdrawn. -/
def arbWithdraw (c : Client) (s : State) : State := s.onArb fun a => a.setNeed c 0

end Sys2Proof.Machine
end

