-- ==== Sys2Proof/Machine/Pmc.lean ====
section
/-! DEFINITION. The Page Memory Controller's records (chapter 1): pool, reservations, strips, pages, documents, holders. The reports PMC makes to other blocks stand in Reports.lean. -/

namespace Sys2Proof.Machine

/-! ## SCN's retest, which every return of blocks causes (R31) -/

/-- SCN starts the scanner module and enters ACQUIRE (R31, R32). -/
def scnAcquire (s : State) : State :=
  s.onScn fun c => { c with state := .acquire, feeder := false, moduleOn := true, hits := 0, misses := 0, expecting := false, locked := false }

/-- The page-begin test failed: SCN stops feeder and module, gives up sync lock and waits for memory (R31). -/
def scnMemoryWait (s : State) : State :=
  let s := s.onScn fun c => { c with state := .memoryWait, feeder := false, moduleOn := false, locked := false, hits := 0, misses := 0, expecting := false }
  let doc := (s.scn.job.map (·.doc)).getD 0
  s.raise .memoryLow (e8 doc) (e16 s.pmc.free.length ++ e16 s.pmc.scanFloor)

/-- The page-begin test (R3). -/
def State.pageBeginOk (s : State) : Bool := s.pmc.scanFloor ≤ s.pmc.free.length
/-- The answer-decision test (R3). -/
def State.answerOk (s : State) : Bool := Config.receiveFloor ≤ s.pmc.free.length
/-- The page-continuation test (R3). -/
def State.continueOk (s : State) : Bool := s.pmc.recvContinue ≤ s.pmc.free.length

/-- SCN in MEMORY_WAIT retests at a return of blocks (R31). -/
def scnRetest (s : State) : State :=
  if s.scn.state = .memoryWait then (if s.pageBeginOk then scnAcquire s else scnMemoryWait s) else s

/-- Blocks return to the free pool, and SCN has the report (R1, R31). -/
def poolReturn (bs : List Nat) (s : State) : State :=
  if bs.isEmpty then s else scnRetest (s.onPmc fun p => { p with free := bs ++ p.free })

/-! ## Documents -/

def State.doc (s : State) (d : Nat) : Option Doc := s.pmc.docs.get d
def State.onDoc (s : State) (d : Nat) (f : Doc → Doc) : State := s.onPmc fun p => { p with docs := p.docs.mod d f }

/-- Complete pages of a document (R8). -/
def Doc.completeCount (d : Doc) : Nat := (d.pages.filter (·.complete)).length
def State.completeCount (s : State) (d : Nat) : Nat := ((s.doc d).map (·.completeCount)).getD 0
def State.docOpen (s : State) (d : Nat) : Bool := (s.doc d).any (·.state == .opened)
/-- The FILLING page of a document, always its highest (R7). -/
def Doc.filling (d : Doc) : Option Page := d.pages.find? (! ·.complete)
def Doc.page (d : Doc) (n : Nat) : Option Page := d.pages.find? (·.number == n)
def Page.strip (p : Page) (n : Nat) : Option Strip := p.strips.find? (·.no == n)
def Page.lineCount (p : Page) : Nat := (p.strips.map (·.lines)).sum
def Page.blocks (p : Page) : List Nat := p.strips.flatMap (·.blocks)
def Doc.blocks (d : Doc) : List Nat := d.pages.flatMap (·.blocks)

/-- PMC makes a document in the lowest-numbered empty slot (R10). -/
def docMake (origin : Origin) (retained : Bool) (route : Option Nat) (tag : Option Str) (line : Option Line) (arrival : Option CalTime)
    (s : State) : Option (Nat × State) :=
  (s.pmc.docs.lowestFree 64).map fun d =>
    (d, s.onPmc fun p => { p with docs := p.docs.put d ⟨origin, .opened, [], 0, retained, false, route, tag, line, arrival⟩ })

/-- DOC_CHANGED with the document id and its new state (R11, R13). -/
def docChanged (d code : Nat) (s : State) : State := s.raise .docChanged (e8 d) (e8 code)

/-- Frees a document whose holder count is 0, that is not OPEN and not retained (R13). -/
def docFree (d : Nat) (s : State) : State :=
  match s.doc d with
  | none => s
  | some r =>
    if r.holders = 0 ∧ r.state ≠ .opened ∧ r.retained = false then
      docChanged d freedCode (poolReturn r.blocks (s.onPmc fun p => { p with docs := p.docs.del d }))
    else s

/-- A hold is granted on a document that is not delete-pending (R12). -/
def docHold (d : Nat) (s : State) : Option State :=
  match s.doc d with
  | none => none
  | some r => if r.deletePending then none else some (s.onDoc d fun r => { r with holders := r.holders + 1 })

/-- A hold is released, which may free the document (R12, R13). -/
def docRelease (d : Nat) (s : State) : State := docFree d (s.onDoc d fun r => { r with holders := r.holders - 1 })

/-- The retained flag is set; without effect on a delete-pending document (R14). -/
def docRetainSet (d : Nat) (s : State) : State := s.onDoc d fun r => if r.deletePending then r else { r with retained := true }

/-! ## Strips -/

def State.resvOf (s : State) (c : Client) : Option Resv := s.pmc.resv.find? (·.client == c)
def State.onResv (s : State) (c : Client) (f : Resv → Resv) : State :=
  s.onPmc fun p => { p with resv := p.resv.map fun r => if r.client == c then f r else r }
/-- The reservation of a client ends. -/
def State.dropResv (s : State) (c : Client) : State := s.onPmc fun p => { p with resv := p.resv.filter (·.client != c) }

/-- Page memory once the header of a strip that opens is written, from its page and strip records (R4, R19, R196). Its coded length, and the line count of
a scanned strip, are not known before the close, which writes them: they stand as they are so far, 0 (log entry 22). -/
def headerOpened (blocks : List Nat) (doc no lines : Nat) (s : State) : List Host.Cell :=
  match (s.doc doc).bind (·.filling) with
  | none => s.mem
  | some p => stripWrite s.mem blocks 0 (stripHeader p.number no lines p.res p.width false 0)

/-- A strip reservation is granted when 17 blocks are free and the client holds none; the client opens its FILLING strip and writes its header (R2, R4,
R19). Of the pool, an unordered set, the first 17 of the model's list are taken (log entry 5). -/
def stripOpen (c : Client) (doc no lines : Nat) (s : State) : Option State :=
  if (s.resvOf c).isSome then none
  else if Config.stripBlocks ≤ s.pmc.free.length then
    let blocks := s.pmc.free.take Config.stripBlocks
    some ((s.setMem (headerOpened blocks doc no lines s)).onPmc fun p =>
      { p with free := p.free.drop Config.stripBlocks, resv := p.resv ++ [⟨c, blocks, doc, ⟨no, lines, 0, [], .filling⟩⟩] })
  else none

/-- The client writes coded bytes after those the FILLING strip holds; the bursts full so far are asked for (R4, R24). -/
def stripAppend (c : Client) (bytes : List Byte) (s : State) : State :=
  match s.resvOf c with
  | none => s
  | some r =>
    let n := 8 + r.strip.coded
    let s := s.setMem (stripWrite s.mem r.blocks n bytes)
    let s := s.onResv c fun r => { r with strip := { r.strip with coded := r.strip.coded + bytes.length } }
    arbAsk c ((n + bytes.length) / Config.burstBytes - n / Config.burstBytes) s

/-- Blocks a strip of `coded` bytes uses (R5). -/
def blocksFor (coded : Nat) : Nat := (8 + coded + (Config.blockBytes - 1)) / Config.blockBytes

/-- Puts a strip in its place by strip number; a strip of that number is replaced (R5, R6). -/
def stripInsert (x : Strip) : List Strip → List Strip
  | [] => [x]
  | y :: ys => if x.no < y.no then x :: y :: ys else if x.no = y.no then x :: ys else y :: stripInsert x ys

/-- Changes the FILLING page of a document. -/
def Doc.onFilling (d : Doc) (f : Page → Page) : Doc := { d with pages := d.pages.map fun p => if p.complete then p else f p }

/-- A FILLING strip is closed, STORED or DAMAGED: it keeps the blocks it used, the rest of the reservation and the blocks of the copy it replaces return
(R5, R6); its header is written with its line count, its coded length and the damaged mark of a DAMAGED copy (R196; log entry 22). -/
def stripClose (c : Client) (state : StripState) (s : State) : State :=
  match s.resvOf c with
  | none => s
  | some r =>
    match (s.doc r.doc).bind (·.filling) with
    | none => s
    | some p =>
      let used := blocksFor r.strip.coded
      let x : Strip := { r.strip with blocks := r.blocks.take used, state }
      let header := stripHeader p.number x.no x.lines p.res p.width (state == .damaged) x.coded
      let old := ((p.strip x.no).map (·.blocks)).getD []
      let s := s.setMem (stripWrite s.mem r.blocks 0 header)
      let s := (s.dropResv c).onDoc r.doc (·.onFilling fun p => { p with strips := stripInsert x p.strips })
      let s := arbAsk c (if (8 + x.coded) % Config.burstBytes = 0 then 0 else 1) s
      poolReturn (r.blocks.drop used ++ old) s

/-- A FILLING strip is discarded: every block of its reservation returns (R5), and its client's waiting bursts are withdrawn (R24), HLC's for cursor reads
among them, which is the model's choice (log entry 76). -/
def stripDiscard (c : Client) (s : State) : State :=
  match s.resvOf c with
  | none => s
  | some r => poolReturn r.blocks (arbWithdraw c (s.dropResv c))

/-- A copy of a received strip is dropped for want of a reservation: a strip that had no copy is recorded DAMAGED with no blocks (R6). -/
def stripMissed (doc no lines : Nat) (s : State) : State :=
  s.onDoc doc (·.onFilling fun p =>
    match p.strip no with
    | some x => { p with strips := stripInsert { x with lines } p.strips }
    | none => { p with strips := stripInsert ⟨no, lines, 0, [], .damaged⟩ p.strips })

/-- The line count that a copy's count gives a DAMAGED strip (R6). -/
def damagedLines (lines : Nat) : Nat := if between 1 64 lines then lines else 64

/-- A DAMAGED strip of the FILLING page takes the line count of a copy that left nothing else behind (R6). -/
def stripRecount (doc no lines : Nat) (s : State) : State :=
  s.onDoc doc (·.onFilling fun p =>
    { p with strips := p.strips.map fun x => if x.no == no && x.state == .damaged then { x with lines } else x })

/-- The coded bytes of a strip in page memory. -/
def State.codedBytes (s : State) (x : Strip) : List Byte := stripRead s.mem x.blocks 8 x.coded

/-! ## Pages -/

/-- PMC begins a page of an OPEN document (R7): the page's number, or the refusal. -/
def pageBegin (d : Nat) (res : Resolution) (width : Width) (s : State) : Except Result (Nat × State) :=
  match s.doc d with
  | none => .error .state
  | some r =>
    if r.pages.length ≥ 250 then .error .full
    else if r.state ≠ .opened ∨ r.filling.isSome then .error .state
    else
      let n := r.pages.length + 1
      .ok (n, s.onDoc d fun r => { r with pages := r.pages ++ [⟨n, res, width, [], false, false, none⟩] })

/-- Every coded line of the page is BLANK and no strip is DAMAGED (R8): BLANK is the coded byte 0. A received strip is not verified, and one that is
not legally coded counts as BLANK when it has no coded byte but 0, be they fewer than its lines or none (log entry 56). -/
def State.pageBlank (s : State) (p : Page) : Bool :=
  p.strips.all fun x => x.state == .stored && (s.codedBytes x).all (· == 0)

/-- The strip numbers of a page's DAMAGED strips; absent when it has none (R8). -/
def Page.damagedStrips (p : Page) : Option (List Nat) :=
  match (p.strips.filter (·.state == .damaged)).map (·.no) with
  | [] => none
  | xs => some xs

/-- PMC closes a writer's FILLING page that holds a strip, while the writer has no FILLING strip (R8). -/
def State.pageClosable (s : State) (c : Client) (d : Nat) : Bool :=
  (s.resvOf c).isNone && ((s.doc d).bind (·.filling)).any (!·.strips.isEmpty)

/-- The FILLING page becomes COMPLETE (R8). The refusal of a page that is not closable and PMC's reports stand in `pageFinish`. -/
def pageComplete (d : Nat) (s : State) : State :=
  s.onDoc d (·.onFilling fun p => { p with complete := true, blank := s.pageBlank p, damaged := p.damagedStrips })

/-- The FILLING page is removed with its strips, its writer's FILLING strip first (R9). -/
def pageDiscard (c : Client) (d : Nat) (s : State) : State :=
  let s := stripDiscard c s
  match (s.doc d).bind (·.filling) with
  | none => s
  | some p => poolReturn p.blocks (arbWithdraw c (s.onDoc d fun r => { r with pages := r.pages.filter (·.complete) }))

/-- A DAMAGED strip made of a number without a record: its line count is that of the last copy received, or 64 (R6). -/
def missingStrip (copies : Tbl Nat) (no : Nat) : Strip := ⟨no, (copies.get no).getD 64, 0, [], .damaged⟩

/-- The damage decision (R6): DAMAGED strips give up their blocks, strip numbers below the count without a record become DAMAGED strips. `copies` has
the line counts of the copies dropped. -/
def damageDecision (d count : Nat) (copies : Tbl Nat) (s : State) : State :=
  match (s.doc d).bind (·.filling) with
  | none => s
  | some p =>
    let lost := (p.strips.filter (·.state == .damaged)).flatMap (·.blocks)
    let kept := p.strips.map fun x => if x.state == .damaged then { x with blocks := [], coded := 0 } else x
    let missing := (List.range count).filter fun n => (p.strip n).isNone
    let strips := missing.foldl (fun xs n => stripInsert (missingStrip copies n) xs) kept
    poolReturn lost (s.onDoc d (·.onFilling fun p => { p with strips }))

end Sys2Proof.Machine
end

