-- ==== Sys2Proof/Machine/Store.lean ====
section
/-! DEFINITION. The Settings Store Controller (chapter 9): the rows of the settings image (R198), the power-up load (R175), the write queue (R176, R177), the writes (R178, R179). -/

namespace Sys2Proof.Machine

/-! ## Composing rows (R198) -/

/-- The code of a dial character in a packed string. -/
def dialCode (c : Byte) : Nat :=
  if c = 0x2A#8 then 10 else if c = 0x23#8 then 11 else if c = 0x50#8 then 12 else if c = 0x57#8 then 13 else c.toNat - 0x30
def dialOfCode (n : Nat) : Byte :=
  if n = 10 then 0x2A#8 else if n = 11 then 0x23#8 else if n = 12 then 0x50#8 else if n = 13 then 0x57#8 else BitVec.ofNat 8 (0x30 + n)

/-- Two characters per byte, the first in the high half. -/
def packPairs : Str → List Byte
  | a :: b :: rest => BitVec.ofNat 8 (16 * dialCode a + dialCode b) :: packPairs rest
  | [a] => [BitVec.ofNat 8 (16 * dialCode a)]
  | [] => []

/-- Bytes padded with zeros to `n`. -/
def padTo (n : Nat) (bs : List Byte) : List Byte := (bs ++ List.replicate n 0).take n

def packDial (d : Option Str) : List Byte := let d := d.getD []; padTo 21 (e8 d.length ++ packPairs d)
def packStr (t : Option Str) : List Byte := padTo 21 (eStr (t.getD []))

/-- Action, dial string, account, class, bin, copies as rows hold them; what an action does not carry is 0 (log entry 74). -/
def packAction : Action → List Byte
  | .print b c k => e8 0 ++ packDial none ++ e8 0 ++ e8 k.code ++ e8 b.val ++ e8 c
  | .hold => e8 1 ++ packDial none ++ e8 0 ++ e8 0 ++ e8 0 ++ e8 0
  | .printAndHold b c k => e8 2 ++ packDial none ++ e8 0 ++ e8 k.code ++ e8 b.val ++ e8 c
  | .reject => e8 3 ++ packDial none ++ e8 0 ++ e8 0 ++ e8 0 ++ e8 0
  | .forward d a k spec =>
    e8 4 ++ packDial (some d) ++ e8 a ++ e8 k.code
      ++ (match spec with | none => e8 0 ++ e8 0 | some (b, c) => e8 b.val ++ e8 c)

/-- The 62 bytes of a route entry; an unused one is all 0 (log entry 74). -/
def packRoute : Option Route → List Byte
  | none => List.replicate 62 0
  | some r =>
    let w := r.window.getD (0, 0)
    padTo 62 (e8 1 ++ packStr r.tagStart ++ e8 (r.lineSet.getD 0) ++ e16 w.1 ++ e16 w.2 ++ e8 r.sense.code ++ packAction r.action)

/-- The 6 bytes of a tariff entry; an unused one is all 0 (log entry 74). -/
def packTariff : Option Tariff → List Byte
  | none => List.replicate 6 0
  | some t => padTo 6 (e8 (128 + t.digits.length) ++ e8 t.band ++ packPairs t.digits)

def packLine (c : LineConfig) : List Byte :=
  e8 (setOf [c.enabled, c.incoming, c.outgoing]) ++ e8 c.answerRings ++ e8 c.dialMode.code ++ packDial c.outside ++ e8 c.metering.code
    ++ e16 c.meterValue

def packAccount (a : Account) : List Byte :=
  e32 a.limit ++ e32 a.spent ++ e16 a.calls ++ e16 a.pages ++ e8 a.policy.code
    ++ e8 (setOf [a.flashExempt, a.suspended, a.limitLowered, a.overrun])

/-- The preset's row (R27, R198); without a print spec its copies and its bin are 0 (log entry 74). -/
def packPreset : Option Preset → List Byte
  | none => []
  | some p =>
    e8 1 ++ e8 p.res.code ++ e8 p.width.code ++ e8 p.density.code ++ e8 p.blank.code
      ++ (match p.spec with | none => e8 0 ++ e8 0 | some (c, b) => e8 c ++ e8 b.val)

def State.account (s : State) (a : Nat) : Account := s.chg.accounts.getD a Account.default
def State.band (s : State) (b : Nat) : Band := s.chg.bands.getD b Band.default

/-- The data bytes of a row, from the owners' values as they stand (section 9.2, R198). -/
def rowData (s : State) (row : Nat) : List Byte :=
  if row = 0 then packStr (some s.lus.stationTag)
  else if h : 1 ≤ row ∧ row ≤ 4 then packLine (s.lu ⟨row - 1, by omega⟩).config
  else if row = 5 then e8 s.lus.answerWait
  else if row = 6 then e8 s.dsc.guard ++ e8 s.dsc.attempts ++ e8 s.dsc.interval
  else if row ≤ 70 then
    let bs := packRoute (s.rrt.routes.get ((row - 7) / 2))
    if (row - 7) % 2 = 0 then bs.take 31 else bs.drop 31
  else if row = 71 then packAction s.rrt.dflt ++ e8 s.rrt.fallbackBin.val
  else if row ≤ 103 then
    let k := 4 * (row - 72)
    packTariff (s.chg.tariffs.get k) ++ packTariff (s.chg.tariffs.get (k + 1)) ++ packTariff (s.chg.tariffs.get (k + 2))
      ++ packTariff (s.chg.tariffs.get (k + 3))
  else if row ≤ 119 then
    let b := s.band (row - 104)
    e16 b.setupPeak ++ e16 b.unitPeak ++ e16 b.intervalPeak ++ e16 b.setupOff ++ e16 b.unitOff ++ e16 b.intervalOff ++ eFlag b.barred
  else if row = 120 then e16 s.chg.calendar.start ++ e16 s.chg.calendar.stop ++ e8 s.chg.calendar.mask
  else if row ≤ 152 then packAccount (s.account (row - 121))
  else if row = 153 then
    let v := s.scn.settings
    e16 v.start ++ e16 v.stop ++ e8 v.topErase ++ e8 v.light ++ e8 v.normal ++ e8 v.dark ++ e8 v.noise ++ e16 s.pmc.scanFloor
  else if row = 154 then packPreset s.scn.preset
  else if row = 155 then
    let v := s.prt.thermal
    e16 v.trip ++ e16 v.resume ++ e16 v.cooling ++ e8 v.ready ++ e8 v.maximum
  else if row = 156 then e16 s.pmc.recvContinue ++ e8 s.lus.maxStep ++ e8 s.lus.passThreshold
  else if row = 157 then e8 s.hlc.period ++ e8 s.hlc.mask
  else []

/-- The sum of bytes. -/
def byteSum (bs : List Byte) : Nat := (bs.map (·.toNat)).sum

/-- 31 data bytes and the check byte: 255 less their sum modulo 256 (R174). -/
def withCheck (data : List Byte) : List Byte :=
  let d := padTo 31 data
  d ++ e8 (255 - byteSum d % 256)

/-- The check a row read must pass (R174). -/
def rowPasses (bs : List Byte) : Bool := byteSum bs % 256 == 255

def composeRow (s : State) (row : Nat) : List Byte := withCheck (rowData s row)

/-! ## Reading rows (R198): a value outside its range fails the row -/

/-- Byte, two-byte and four-byte numbers of a row, low byte first. -/
def r8 (bs : List Byte) (i : Nat) : Nat := (bs.getD i 0).toNat
def r16 (bs : List Byte) (i : Nat) : Nat := r8 bs i + 256 * r8 bs (i + 1)
def r32 (bs : List Byte) (i : Nat) : Nat := r16 bs i + 65536 * r16 bs (i + 2)

/-- A packed character code, `i`-th of the string whose length byte stands at `k`. -/
def pairCode (bs : List Byte) (k i : Nat) : Nat := let b := r8 bs (k + 1 + i / 2); if i % 2 = 0 then b / 16 else b % 16

/-- A packed dial string of at most 40 characters; `none` when a code or the length is out of range. -/
def unpackDial (bs : List Byte) (k : Nat) : Option Str :=
  let n := r8 bs k
  let codes := (List.range n).map (pairCode bs k)
  if n ≤ 40 && codes.all (· ≤ 13) then some (codes.map dialOfCode) else none

/-- A string of at most 20 printable characters. -/
def unpackStr (bs : List Byte) (k : Nat) : Option Str :=
  let n := r8 bs k
  let t := (bs.drop (k + 1)).take n
  if n ≤ 20 && t.all printable then some t else none

/-- An empty string marks its field absent. -/
def absentIfEmpty (t : Str) : Option Str := if t.isEmpty then none else some t

/-- The action whose code stands at byte `k`; copies 0 mark an absent FORWARD print spec. What the action does not use is not
tested (log entry 73). -/
def unpackAction (bs : List Byte) (k : Nat) : Option Action :=
  let account := r8 bs (k + 22)
  let cls := r8 bs (k + 23)
  let bin := r8 bs (k + 24)
  let copies := r8 bs (k + 25)
  match r8 bs k with
  | 0 => actionOf? (.print bin copies cls)
  | 1 => some .hold
  | 2 => actionOf? (.printAndHold bin copies cls)
  | 3 => some .reject
  | 4 => (unpackDial bs (k + 1)).bind fun d => actionOf? (.forward d account cls (if copies = 0 then none else some (bin, copies)))
  | _ => none

/-- The conditions and sense of a route entry, with the action still to be given (R198). A window with equal start and end is absent, be they in range or
above 1439 (log entry 73). -/
def unpackConditions (bs : List Byte) : Option (Option Str × Option Nat × Option (Nat × Nat) × Sense) :=
  match unpackStr bs 1, Sense.of? (r8 bs 27) with
  | some p, some sense =>
    let set := r8 bs 22
    let w := (r16 bs 23, r16 bs 25)
    if set ≤ 15 && (w.1 == w.2 || (w.1 ≤ 1439 && w.2 ≤ 1439)) then
      some (absentIfEmpty p, if set = 0 then none else some set, if w.1 = w.2 then none else some w, sense)
    else none
  | _, _ => none

/-- The packed characters `i` to `j` of a dial string, as far as its length goes, are codes in range (R198). -/
def codesOk (bs : List Byte) (k i j : Nat) : Bool := (List.range (r8 bs k)).all fun n => n < i || j < n || pairCode bs k n ≤ 13

/-- Row one of a route entry holds values in range: used flag, conditions, sense, action, and of a FORWARD's dial string the length and the first two
characters, which stand in this row (R198). -/
def routeRow1Ok (a : List Byte) : Bool :=
  r8 a 0 == 0 || (r8 a 0 == 1 && (unpackConditions a).isSome && r8 a 28 ≤ 4 && (r8 a 28 != 4 || (between 1 40 (r8 a 29) && codesOk a 29 0 1)))

/-- Row two's account, class, bin and copies, each in its widest range: the test when row one does not give the action (log entry 52). -/
def routeParamsOk (b : List Byte) : Bool := r8 b 19 ≤ 31 && r8 b 20 ≤ 2 && r8 b 21 ≤ 3 && r8 b 22 ≤ 99

/-- Row two of a route entry holds values in range, those that the used flag and action of row one, where it was read, give a meaning: a FORWARD's
other characters and the parameters of the action (R198). -/
def routeRow2Ok (a : Option (List Byte)) (b : List Byte) : Bool :=
  match a with
  | none => routeParamsOk b
  | some a =>
    if r8 a 0 = 0 then true
    else if r8 a 0 = 1 then
      match r8 a 28 with
      | 0 | 2 => (actionOf? (.print (r8 b 21) (r8 b 22) (r8 b 20))).isSome
      | 1 | 3 => true
      | 4 => codesOk (a ++ b) 29 2 39 && r8 b 19 ≤ 31 && r8 b 20 ≤ 2 && (r8 b 22 == 0 || (r8 b 21 ≤ 3 && r8 b 22 ≤ 99))
      | _ => routeParamsOk b
    else routeParamsOk b

/-- The tariff entry at byte `k`; of an unused one nothing is tested (log entry 73). -/
def unpackTariff (bs : List Byte) (k : Nat) : Option (Option Tariff) :=
  let b := r8 bs k
  if b < 128 then some none
  else
    let n := b % 16
    let codes := (List.range n).map (pairCode bs (k + 1))
    if codes.all (· ≤ 9) then (tariffOf? (codes.map dialOfCode) (r8 bs (k + 1))).map some else none

/-- A used entry is put in its slot, an unused one leaves it empty. -/
def Tbl.putOpt {α : Type} (t : Tbl α) (k : Nat) : Option α → Tbl α
  | none => t.del k
  | some x => t.put k x

def unpackLine (bs : List Byte) : Option LineConfig :=
  let set := r8 bs 0
  (unpackDial bs 3).bind fun d =>
    if set ≤ 7 then lineConfigOf? ⟨set.testBit 0, set.testBit 1, set.testBit 2, r8 bs 1, r8 bs 2, absentIfEmpty d, r8 bs 24, r16 bs 25⟩ else none

/-- The preset of a row (R27, R198); with copies 0 it has no print spec and its bin is not tested (log entry 73). -/
def unpackPreset (bs : List Byte) : Option (Option Preset) :=
  match r8 bs 0 with
  | 0 => some none
  | 1 => (presetOf? (r8 bs 1) (r8 bs 2) (r8 bs 3) (r8 bs 4) (if r8 bs 5 = 0 then none else some (r8 bs 5, r8 bs 6))).map some
  | _ => none

/-- The values of a row that is no route entry's, taken by their owner; `none` when a value is out of range. -/
def takeRow (s : State) (row : Nat) (bs : List Byte) : Option State :=
  if row = 0 then (unpackStr bs 0).map fun t => s.onLus ({ · with stationTag := t })
  else if h : 1 ≤ row ∧ row ≤ 4 then (unpackLine bs).map fun c => s.onLu ⟨row - 1, by omega⟩ ({ · with config := c })
  else if row = 5 then if between 20 120 (r8 bs 0) then some (s.onLus ({ · with answerWait := r8 bs 0 })) else none
  else if row = 6 then
    if r8 bs 0 ≤ 3 && between 1 9 (r8 bs 1) && between 1 60 (r8 bs 2) then
      some (s.onDsc ({ · with guard := r8 bs 0, attempts := r8 bs 1, interval := r8 bs 2 }))
    else none
  else if row = 71 then
    match unpackAction bs 0, four? (r8 bs 26) with
    | some a, some b => some (s.onRrt ({ · with dflt := a, fallbackBin := b }))
    | _, _ => none
  else if row ≤ 103 then
    let k := 4 * (row - 72)
    match unpackTariff bs 0, unpackTariff bs 6, unpackTariff bs 12, unpackTariff bs 18 with
    | some a, some b, some c, some d =>
      some (s.onChg fun g => { g with tariffs := (((g.tariffs.putOpt k a).putOpt (k + 1) b).putOpt (k + 2) c).putOpt (k + 3) d })
    | _, _, _, _ => none
  else if row ≤ 119 then
    let v : Band := ⟨r16 bs 0, r16 bs 6, r16 bs 2, r16 bs 8, r16 bs 4, r16 bs 10, r8 bs 12 == 1⟩
    if bandOk v && r8 bs 12 ≤ 1 then some (s.onChg fun g => { g with bands := g.bands.set (row - 104) v }) else none
  else if row = 120 then
    if r16 bs 0 ≤ 1439 && r16 bs 2 ≤ 1439 && r8 bs 4 ≤ 127 then some (s.onChg ({ · with calendar := ⟨r16 bs 0, r16 bs 2, r8 bs 4⟩ })) else none
  else if row ≤ 152 then
    match Policy.of? (r8 bs 12) with
    | some p =>
      let f := r8 bs 13
      if f ≤ 15 then
        let a : Account := ⟨r32 bs 0, r32 bs 4, r16 bs 8, r16 bs 10, p, f.testBit 0, f.testBit 1, f.testBit 2, f.testBit 3⟩
        some (s.onChg fun g => { g with accounts := g.accounts.set (row - 121) a })
      else none
    | none => none
  else if row = 153 then
    let v : ScanSettings := ⟨r16 bs 0, r16 bs 2, r8 bs 4, r8 bs 5, r8 bs 6, r8 bs 7, r8 bs 8⟩
    if scanSettingsOk v && between 128 3072 (r16 bs 9) then
      some ((s.onScn ({ · with settings := v })).onPmc ({ · with scanFloor := r16 bs 9 }))
    else none
  else if row = 154 then (unpackPreset bs).map fun p => s.onScn ({ · with preset := p })
  else if row = 155 then
    let v : Thermal := ⟨r16 bs 0, r16 bs 2, r16 bs 4, r8 bs 6, r8 bs 7⟩
    if thermalOk v then some (s.onPrt ({ · with thermal := v })) else none
  else if row = 156 then
    if between 64 2048 (r16 bs 0) && between 1 6 (r8 bs 2) && r8 bs 3 ≤ 63 then
      some ((s.onPmc ({ · with recvContinue := r16 bs 0 })).onLus ({ · with maxStep := r8 bs 2, passThreshold := r8 bs 3 }))
    else none
  else if row = 157 then
    if r8 bs 0 = 0 || 5 ≤ r8 bs 0 then some (s.onHlc ({ · with period := r8 bs 0, mask := r8 bs 1 })) else none
  else none

/-- A failed row is marked dirty and counted in its section (R175); its values keep the defaults they have. -/
def rowFailed (row : Nat) (s : State) : State :=
  s.onSsc fun c => { c with dirty := insertRow row c.dirty, failed := insertRow row c.failed }

/-- The bus read of a row: its bytes, unless an ACK was missing or the check fails (R175). -/
def busRead (s : State) (noAck : List Nat) (row : Nat) : Option (List Byte) :=
  let bs := busTake s.eeprom (readSteps row) 0
  if noAck.contains row || !rowPasses bs then none else some bs

/-- Loads a row that is no route entry's. -/
def loadRow (noAck : List Nat) (row : Nat) (s : State) : State :=
  match (busRead s noAck row).bind (takeRow s row) with
  | some s' => s'
  | none => rowFailed row s

/-- A used entry of 62 bytes is loaded (R115). -/
def putRoute (i : Nat) (bs : List Byte) (s : State) : State :=
  if r8 bs 0 = 1 then
    match unpackConditions bs, unpackAction bs 28 with
    | some (p, set, w, sense), some action => s.onRrt fun r => { r with routes := r.routes.put i ⟨p, set, w, sense, action, 0⟩ }
    | _, _ => s
  else s

/-- A row of a route entry that was not read, or holds a value out of range, fails (R175). -/
def testRow (ok : Bool) (row : Nat) (s : State) : State := if ok then s else rowFailed row s

/-- Loads a route entry from its two rows, each of them read and tested by itself (R175, R198): an entry any of whose rows fails is unused (R115). -/
def loadRoute (noAck : List Nat) (i : Nat) (s : State) : State :=
  let a := (busRead s noAck (rowRoute i)).map (·.take 31)
  let b := (busRead s noAck (rowRoute i + 1)).map (·.take 31)
  let s := testRow (b.any (routeRow2Ok a)) (rowRoute i + 1) (testRow (a.any routeRow1Ok) (rowRoute i) s)
  match a, b with
  | some a, some b => if routeRow1Ok a && routeRow2Ok (some a) b then putRoute i (a ++ b) s else s
  | _, _ => s

/-- The rows outside the route entries, in ascending order. -/
def plainRows : List Nat := (List.range Config.rows).filter fun r => r < 7 || 70 < r

/-- A line once its configuration is loaded: DISABLED, or IDLE with the fault timer running when the voltage is absent (R89). -/
def lineStarts (l : Line) (s : State) : State :=
  s.onLu l fun u => if u.config.enabled then { u with state := .idle, faultTimer := !u.voltage } else u

/-- The load ends: each block has its power-up values, and the blocks begin work (R175). -/
def settingsLoad (noAck : List Nat) (s : State) : State :=
  let s := eachDo (loadRow noAck) plainRows s
  let s := eachDo (loadRoute noAck) (List.range 32) s
  let s := eachDo lineStarts allLines s
  s.onSsc ({ · with loading := false })

/-! ## The write queue (R176 to R180) -/

/-- The items waiting: all but the one being written. -/
def Ssc.waitingItems (c : Ssc) : List StoreItem := if c.writing.isSome then c.queue.tail else c.queue

/-- CHG asks for an account's row: it joins one that waits, takes the next place, or when no place is free becomes dirty (R167, R176). -/
def accountRow (a : Nat) (s : State) : State :=
  if s.ssc.waitingItems.contains (.account a) then s
  else if s.ssc.queue.length ≥ Config.writePlaces then s.dirty (rowAccount a)
  else s.onSsc fun c => { c with queue := c.queue ++ [.account a] }

/-- Composes a row and begins its transfer (R178). -/
def writeStart (row : Nat) (s : State) : State :=
  s.onSsc ({ · with writing := some ⟨row, composeRow s row, false, .transfer 0⟩ })

/-- The save ends and leaves the queue, with STORE_END (R177). -/
def saveEnd (st : StoreStatus) (s : State) : State :=
  let s := s.onSsc fun c => { c with status := st, queue := c.queue.tail, stopSave := false, fault := if st = .ended then false else c.fault }
  s.raise .storeEnd (e8 0) (e8 st.code ++ e8 s.ssc.rowsWritten)

/-- The save comes to the next dirty row, or has passed every row (R177). -/
def saveAdvance (s : State) : State :=
  match s.ssc.dirty.find? (s.ssc.savePos ≤ ·) with
  | some r => writeStart r (s.onSsc ({ · with savePos := r + 1 }))
  | none => saveEnd .ended s

/-- SSC takes the oldest item when no bus operation is in progress (9.3). -/
def queueStart (s : State) : State :=
  match s.ssc.writing, s.ssc.queue with
  | none, .account a :: _ => writeStart (rowAccount a) s
  | none, .save :: _ => saveAdvance (s.onSsc ({ · with savePos := 0, rowsWritten := 0 }))
  | _, _ => s

/-- The bytes a failed write leaves in its row: free values (log entry 4). -/
def failedBytes (n : Nat) : List Byte := (List.range 32).map (Config.failedWriteByte n)

/-- The bytes of a row in the settings memory; `used` counts the free values they took. -/
def State.storeRow (s : State) (row : Nat) (bytes : List Byte) (used : Nat) : State :=
  { s with eeprom := bytesWrite s.eeprom (row * 32) bytes, freeCount := s.freeCount + used }

/-- The marks of a row written good: cleared, unless R174 keeps the dirty mark (R178). -/
def Ssc.good (c : Ssc) (w : RowWrite) : Ssc :=
  { c with writing := none, dirty := if w.redirtied then c.dirty else c.dirty.filter (· != w.row), failed := c.failed.filter (· != w.row) }

/-- The marks of a row whose write failed: dirty, STORE_FAULT set (R178, R179). -/
def Ssc.bad (c : Ssc) (w : RowWrite) (cause : WriteCause) : Ssc :=
  { c with writing := none, dirty := insertRow w.row c.dirty, fault := true, lastFail := some (w.row, cause) }

/-- A write succeeds: its row is in the settings memory (R178). -/
def writeGood (w : RowWrite) (s : State) : State := (s.storeRow w.row w.bytes 0).onSsc (·.good w)

/-- A write fails: STORE_FAULT is raised (R178, R179). -/
def writeBad (w : RowWrite) (cause : WriteCause) (s : State) : State :=
  ((s.storeRow w.row (failedBytes s.freeCount) 1).onSsc (·.bad w cause)).raise .storeFault (e8 0) (e8 w.row ++ e8 (sectionOf w.row) ++ e8 cause.code)

/-- The row being written is in the settings memory, or its write has failed. -/
def rowEnd (w : RowWrite) (s : State) : Option WriteCause → State
  | none => writeGood w s
  | some c => writeBad w c s

/-- A save goes on after a row, ends ABORT at a row that failed or for RESTART (R177, R180). -/
def saveRow (good : Bool) (s : State) : State :=
  if s.ssc.stopSave || !good then saveEnd .abort s else saveAdvance s

/-- A row written good counts in the save (R177). -/
def saveCount (good : Bool) (s : State) : State := if good then s.onSsc fun c => { c with rowsWritten := c.rowsWritten + 1 } else s

/-- The item that the bus operation served moves on: an account row leaves the queue; a save goes on, ends, or stops for RESTART (R176, R177, R180). -/
def itemEnd (good : Bool) (s : State) : State :=
  match s.ssc.queue with
  | .save :: _ => saveRow good (saveCount good s)
  | _ => s.onSsc fun c => { c with queue := c.queue.tail }

/-- The bus operation ends (R178). -/
def writeEnd (result : Option WriteCause) (s : State) : State :=
  match s.ssc.writing with
  | none => s
  | some w => itemEnd result.isNone (rowEnd w s result)

/-- The memory's answers to a row write, from the phase in which it stands: the write goes on, or ends (R178). -/
def rowAnswered (answers : List Bool) (s : State) : State :=
  match s.ssc.writing with
  | none => s
  | some w => match w.phase.run answers with
    | .goes p => s.onSsc ({ · with writing := some { w with phase := p } })
    | .ends cause => writeEnd cause s

end Sys2Proof.Machine
end

