-- ==== Sys2Proof/Machine/Print.lean ====
section
/-! DEFINITION. The Print Engine (chapter 3): queue, selection, pages, warm-up, halts and faults, cancellation. -/

namespace Sys2Proof.Machine

def State.entry (s : State) (e : Nat) : Option Entry := s.prt.entries.get e
def State.onEntry (s : State) (e : Nat) (f : Entry → Entry) : State := s.onPrt fun p => { p with entries := p.entries.mod e f }
def Entry.unfinished (e : Entry) : Bool := e.state == .waiting || e.state == .printing
def Cls.rank : Cls → Nat | .flash => 0 | .urgent => 1 | .routine => 2

/-- PRINT_ENGINE with the engine's state and, where there is one, its reason (R58, R63 to R66); the reason's presence byte is the model's choice (log entry 69). -/
def engineNotice (s : State) : State := s.raise .printEngine (e8 0) (e8 s.prt.engine.code ++ eOpt e8 s.prt.engine.reason)

/-! ## Reading the page in progress (R55) -/

/-- The page at the current entry's resume point. -/
def State.currentPage (s : State) : Option Page :=
  s.prt.current.bind fun e => (s.entry e).bind fun e => (s.doc e.doc).bind fun d => d.page e.page

/-- A strip's lines in the print format; a DAMAGED strip gives white lines (R55). -/
def State.stripPrintLines (s : State) (p : Page) (x : Strip) : List Pixels :=
  if x.state = .stored then printLines p.width p.res (decodeStrip p.width x.lines (s.codedBytes x))
  else List.replicate (printCount p.res x.lines) (whiteLine 2048)

/-- A strip's lines are ready: it is the strip the head fires, or the one read ahead. -/
def PrintPage.give (g : PrintPage) (ls : List Pixels) : PrintPage :=
  if g.ready.isEmpty then { g with ready := ls, reading := none } else { g with ahead := some ls, reading := none }

/-- PRT begins to read the next strip, at most one ahead of the strip being fired; a DAMAGED strip needs no bursts (R55).
`fuel` bounds the strips begun at once: the head's strip and the one ahead. -/
def prtRead (p : Page) : Nat → State → State
  | 0, s => s
  | fuel + 1, s =>
    match s.prt.page with
    | none => s
    | some g =>
      if g.reading.isSome || g.ahead.isSome then s
      else match g.toRead with
        | [] => s
        | n :: rest =>
          match p.strip n with
          | none => prtRead p fuel (s.onPrt ({ · with page := some { g with toRead := rest } }))
          | some x =>
            if x.state = .stored then
              arbAsk .prt (burstsFor (8 + x.coded)) (s.onPrt ({ · with page := some { g with toRead := rest, reading := some n } }))
            else prtRead p fuel (s.onPrt ({ · with page := some ({ g with toRead := rest }.give (s.stripPrintLines p x)) }))

/-- PRT reads on in the page in progress. -/
def prtReadOn (s : State) : State :=
  match s.currentPage with
  | none => s
  | some p => prtRead p 2 s

/-- The last burst of the strip being read has moved: its lines are ready (R55). -/
def prtStripRead (s : State) : State :=
  match s.prt.page, s.currentPage with
  | some g, some p =>
    match g.reading.bind p.strip with
    | some x => if s.arb.prt = 0 then prtReadOn (s.onPrt ({ · with page := some (g.give (s.stripPrintLines p x)) })) else s
    | none => s
  | _, _ => s

/-! ## Finishing (R51) -/

/-- An unfinished entry becomes DONE or CANCELLED: finish order, hold released, PRINT_END; it is no longer current. -/
def entryFinish (e : Nat) (st : EntryState) (s : State) : State :=
  match (s.entry e).filter (·.unfinished) with
  | none => s
  | some r =>
    let s := s.onPrt fun p =>
      { p with
        finishNo := (p.finishNo + 1) % 4294967296
        entries := p.entries.mod e fun r => { r with state := st, cancelPending := false, finish := some ((p.finishNo + 1) % 4294967296) }
        current := if p.current = some e then none else p.current }
    let s := docRelease r.doc s
    s.raise .printEnd (e8 e) (e8 r.doc ++ e8 st.code ++ e16 r.printed)

/-- The last page of each copy: the given last page, or the fixed range end (R51). -/
def Entry.lastPage (r : Entry) : Option Nat := match r.rangeEnd with | some x => some x | none => r.last

/-- Where the resume point goes from the end of a copy; `none` when the entry becomes DONE (R51). -/
def Entry.nextCopy (r : Entry) : Option Entry := if r.copy < r.copies then some { r with copy := r.copy + 1, page := r.first } else none

/-! ## Selection (R52 to R54) -/

/-- An entry is selectable (R52). -/
def State.selectable (s : State) (e : Nat) (r : Entry) : Bool :=
  (r.state == .waiting || s.prt.current == some e) && !r.cancelPending && !at4 s.pins.binFull r.bin
    && r.page ≤ s.completeCount r.doc && r.unfinished

/-- The better of two selectable entries: by class, then the current entry, then the lowest enqueue order (R54). -/
def better (cur : Option Nat) (a b : Nat × Entry) : Nat × Entry :=
  if a.2.cls.rank < b.2.cls.rank then a
  else if b.2.cls.rank < a.2.cls.rank then b
  else if cur = some a.1 then a
  else if cur = some b.1 then b
  else if a.2.enqueue ≤ b.2.enqueue then a else b

/-- The entry selection chooses. -/
def State.choice (s : State) : Option Nat :=
  match s.prt.entries.filter (fun x => s.selectable x.1 x.2) with
  | [] => none
  | x :: xs => some (xs.foldl (better s.prt.current) x).1

/-- A current entry that the choice replaces becomes WAITING (R54). -/
def selectDemote (c : Option Nat) (s : State) : State :=
  match s.prt.current with
  | some e => if c = some e then s else s.onEntry e fun r => if r.unfinished then { r with state := .waiting } else r
  | none => s

/-- The chosen entry is PRINTING and current; with none chosen the engine is IDLE, heater off (R54). -/
def selectPromote (c : Option Nat) (s : State) : State :=
  match c with
  | some e => (s.onEntry e ({ · with state := .printing })).onPrt ({ · with current := some e })
  | none => s.onPrt ({ · with current := none, engine := .idle, heater := false })

/-- The choice takes effect on the queue (R54). -/
def selectPick (s : State) : State := selectPromote s.choice (selectDemote s.choice s)

/-- The reason paper and cover give to halt, when they do: COVER_OPEN when both (R63). -/
def State.haltReason (s : State) : Option HaltReason :=
  if !s.pins.coverClosed then some .coverOpen else if !s.pins.printPaper then some .paperOut else none

/-- The engine halts, with PRINT_ENGINE (R63). -/
def prtHalt (r : HaltReason) (s : State) : State := engineNotice (s.onPrt ({ · with engine := .halted r, heater := false }))

/-- The page at the current entry's resume point starts, if paper and cover permit (R56, R63). -/
def pageStart (s : State) : State :=
  match s.haltReason with
  | some r => prtHalt r s
  | none =>
    match s.currentPage with
    | none => s
    | some p =>
      prtReadOn (s.onPrt fun q => { q with engine := .printing, heater := false, page := some ⟨p.strips.map (·.no), none, [], none, 0⟩ })

/-- Selection at the end of a page or of warm-up: the chosen entry's page starts at once (R54). -/
def selectStart (s : State) : State :=
  let s := selectPick s
  if s.prt.current.isSome then pageStart s else s

/-- Warm-up begins, if paper and cover permit; at the ready value it ends at once (R58). -/
def warmupBegin (s : State) : State :=
  match s.haltReason with
  | some r => prtHalt r s
  | none =>
    let s := s.onPrt ({ · with engine := .warmup, heater := true })
    if s.prt.thermal.ready ≤ s.pins.headTemp then selectStart s else s

/-- Selection in IDLE, on leaving HALTED or FAULT, or at PRINT_RESUME: warm-up begins for the chosen entry (R54). -/
def selectWarm (s : State) : State :=
  let s := selectPick s
  if s.prt.current.isSome then warmupBegin s else s

/-- While the engine is IDLE, an event that can make an entry selectable runs selection (R53). -/
def selectIfIdle (s : State) : State := if s.prt.engine = .idle then selectWarm s else s

/-- The engine leaves HALTED or FAULT: selection runs, and PRINT_ENGINE carries the state it leads to (R59, R64, R66; log entry 12). -/
def engineLeave (s : State) : State := engineNotice (selectWarm s)

/-! ## Pages (R56) -/

/-- A page in progress is spoiled; a cancel-pending entry then ends (R56, R67). The count has no bound (log entry 49). -/
def pageSpoil (s : State) : State :=
  match s.prt.page with
  | none => s
  | some _ =>
    let s := arbWithdraw .prt (s.onPrt fun p => { p with page := none, spoiled := p.spoiled + 1 })
    match s.prt.current with
    | some e => if (s.entry e).any (·.cancelPending) then entryFinish e .cancelled s else s
    | none => s

/-- The resume point after a printed page of entry `e`, whose record `r` counts it (R51). -/
def resumeNext (e : Nat) (r : Entry) (s : State) : State :=
  if r.lastPage = some r.page then
    match r.nextCopy with
    | some r' => s.onEntry e fun _ => r'
    | none => entryFinish e .done (s.onEntry e fun _ => r)
  else s.onEntry e fun _ => { r with page := r.page + 1 }

/-- A cancel-pending entry becomes CANCELLED at the end of its page (R67). -/
def cancelAtEnd (e : Nat) (s : State) : State :=
  if (s.entry e).any (fun r => r.cancelPending && r.unfinished) then entryFinish e .cancelled s else s

/-- The page in progress is printed: the resume point advances and selection runs (R51, R53, R56, R67). -/
def pagePrinted (s : State) : State :=
  match s.prt.current with
  | none => s
  | some e =>
    match s.entry e with
    | none => s
    | some r => selectStart (cancelAtEnd e (resumeNext e { r with printed := r.printed + 1 } (s.onPrt ({ · with page := none }))))

/-- A line is fired: its dots are added, and after the page's last line the page is printed (R56, R60). -/
def fireLine (g : PrintPage) (line : Pixels) (rest : List Pixels) (s : State) : State :=
  let s := s.onPrt fun p => { p with heat := min 65535 (p.heat + blackCount line) }
  let g := { g with ready := rest, fired := g.fired + 1 }
  if rest.isEmpty then
    match g.ahead with
    | some ls => prtReadOn (s.onPrt ({ · with page := some { g with ready := ls, ahead := none } }))
    | none =>
      if g.reading.isNone && g.toRead.isEmpty then pagePrinted s
      else s.onPrt ({ · with page := some g })
  else s.onPrt ({ · with page := some g })

/-- The head's part of a line time in PRINTING: the thermal test before the line, then the line (R56, R61). -/
def headLine (s : State) : State :=
  match s.prt.engine, s.prt.page with
  | .printing, some g =>
    match g.ready with
    | [] => s
    | line :: rest =>
      if s.prt.thermal.trip ≤ s.prt.heat then s.onPrt ({ · with engine := .thermalPause }) else fireLine g line rest s
  | _, _ => s

/-- Cooling at the end of a line time (R60). -/
def headCool (s : State) : State := s.onPrt fun p => { p with heat := p.heat - p.thermal.cooling }

/-- The resume test of a thermal pause (R61). -/
def pauseTest (s : State) : State :=
  if s.prt.engine = .thermalPause ∧ s.prt.heat ≤ s.prt.thermal.resume then s.onPrt ({ · with engine := .printing }) else s

/-- The ready test of a warm-up (R58). -/
def warmTest (s : State) : State :=
  if s.prt.engine = .warmup ∧ s.prt.thermal.ready ≤ s.pins.headTemp then selectStart s else s

/-- The head condition that latches FAULT, HEAD_SHORT when both hold (R65). -/
def State.headFault (s : State) : Option FaultReason :=
  if s.pins.overcurrent then some .headShort else if s.prt.thermal.maximum ≤ s.pins.headTemp then some .headHot else none

def Engine.isFault : Engine → Bool | .fault _ => true | _ => false

/-- FAULT is latched from any other state, spoiling a page in progress (R65). -/
def faultTest (s : State) : State :=
  match s.headFault with
  | none => s
  | some r => if s.prt.engine.isFault then s else engineNotice ((pageSpoil s).onPrt ({ · with engine := .fault r, heater := false }))

/-! ## Creating entries (R48, R49) -/

/-- The slot for a new entry: the lowest empty, else the finished record of lowest finish order (R48). -/
def State.entrySlot (s : State) : Option Nat :=
  match s.prt.entries.lowestFree 48 with
  | some k => some k
  | none =>
    match s.prt.entries.filter (fun x => !x.2.unfinished) with
    | [] => none
    | x :: xs => some (xs.foldl (fun a b => if b.2.finish.getD 0 < a.2.finish.getD 0 then b else a) x).1

/-- PRT takes a request for a print entry (R49): its id, or the refusal with the state it leaves. -/
def entryCreate (doc : Nat) (first last : Option Nat) (copies bin cls : Nat) (s : State) : Except Result (Nat × State) :=
  let a := first.getD 1
  match four? bin, Cls.of? cls with
  | some bin, some cls =>
    if !(between 1 64 doc && between 1 250 a && last.all (fun z => between 1 250 z && a ≤ z) && between 1 99 copies) then .error .badField
    else match s.entrySlot with
      | none => .error .full
      | some k =>
        match s.doc doc, docHold doc s with
        | some d, some s' =>
          if d.state ≠ .opened ∧ d.pages.isEmpty then .error .state
          else if d.state ≠ .opened ∧ d.pages.length < a then .error .badField
          else
            let follow := d.state == .opened
            let rangeEnd := if follow then none else some (min (last.getD 250) d.pages.length)
            let n := (s.prt.enqueueNo + 1) % 4294967296
            let r : Entry := ⟨doc, a, last, rangeEnd, copies, bin, cls, follow, 1, a, 0, false, .waiting, n, none⟩
            .ok (k, selectIfIdle (s'.onPrt fun p => { p with enqueueNo := n, entries := p.entries.put k r }))
        | _, _ => .error .noSuch
  | _, _ => .error .badField

/-! ## Range ends (R50) -/

/-- The range end of a follow entry is fixed at its document's close or abandonment (R50). -/
def rangeFix (d pages e : Nat) (s : State) : State :=
  match s.entry e with
  | none => s
  | some r =>
    if r.doc = d ∧ r.unfinished ∧ r.rangeEnd.isNone then
      let z := min (r.last.getD 250) pages
      let r := { r with rangeEnd := some z }
      if z < r.first then entryFinish e .done (s.onEntry e fun _ => r)
      else if z < r.page then
        match r.nextCopy with
        | some r' => s.onEntry e fun _ => r'
        | none => entryFinish e .done (s.onEntry e fun _ => { r with page := z })
      else s.onEntry e fun _ => r
    else s

/-- PRT has PMC's report of a document closed or abandoned with `pages` pages (R11, R50, R53); its follow entries are taken in ascending entry id (log
entry 47). -/
def prtDocClosed (d pages : Nat) (s : State) : State := selectIfIdle (eachDo (rangeFix d pages) s.prt.entries.keys s)

/-! ## Cancellation (R67) -/

/-- An unfinished entry is cancelled, by its state. -/
def entryCancel (e : Nat) (s : State) : State :=
  match s.entry e with
  | none => s
  | some r =>
    match r.state with
    | .waiting => selectIfIdle (entryFinish e .cancelled s)
    | .printing =>
      if s.prt.page.isSome then s.onEntry e ({ · with cancelPending := true })
      else
        let s := entryFinish e .cancelled s
        if s.prt.engine = .warmup then selectPick s else s
    | _ => s

/-- Every entry on a document is cancelled (R16, R67), in ascending entry id (log entry 47). -/
def entriesCancel (d : Nat) (s : State) : State :=
  eachDo (fun e s => if (s.entry e).any (·.doc == d) then entryCancel e s else s) s.prt.entries.keys s

end Sys2Proof.Machine
end

