-- ==== Sys2Proof/Machine/Charge.lean ====
section
/-! DEFINITION. The Charging Unit's records (chapter 8): rating, periods, pre-checks, log reservations, accrual, commitment. The budget actions stand in Budget.lean. -/

namespace Sys2Proof.Machine

/-! ## Rating (R148) and periods (R151) -/

/-- The rated number: the dial string with every P and W removed. -/
def ratedNumber (d : Str) : Str := d.filter fun c => c != 0x50#8 && c != 0x57#8

/-- The better of two matching entries: the longer prefix, else the lower index; the table lists indexes in rising order. -/
def longerMatch (a : Option (Nat × Tariff)) (x : Nat × Tariff) : Option (Nat × Tariff) :=
  match a with
  | none => some x
  | some y => if y.2.digits.length < x.2.digits.length then some x else some y

/-- The winning tariff entry of a dial string, if one matches (R148). -/
def State.rateEntry (s : State) (d : Str) : Option (Nat × Tariff) :=
  (s.chg.tariffs.filter fun x => x.2.digits.isPrefixOf (ratedNumber d)).foldl longerMatch none

/-- The band of a dial string; 15 when no entry matches (R148). -/
def State.rate (s : State) (d : Str) : Nat := ((s.rateEntry d).map (·.2.band)).getD 15

/-- The period at the current time (R151). -/
def State.period (s : State) : Period :=
  let c := s.chg.calendar
  if !s.tmb.valid then .peak
  else if c.mask.testBit (s.now.weekday - 1) && inWindow c.start c.stop s.now.minuteOfDay then .peak
  else .offpeak

def Band.setup (b : Band) : Period → Nat | .peak => b.setupPeak | .offpeak => b.setupOff
def Band.unit (b : Band) : Period → Nat | .peak => b.unitPeak | .offpeak => b.unitOff
def Band.interval (b : Band) : Period → Nat | .peak => b.intervalPeak | .offpeak => b.intervalOff

inductive PreCheck where | pass | barred | refused
  deriving DecidableEq, Repr

/-- The pre-check of a call (R154). -/
def State.preCheck (s : State) (account : Nat) (dial : Str) : PreCheck :=
  let b := s.band (s.rate dial)
  let a := s.account account
  if b.barred then .barred
  else if a.suspended then .refused
  else if a.limit = 0 then .pass
  else if a.spent + Band.setup b s.period + Band.unit b s.period ≤ a.limit then .pass
  else .refused

/-! ## The call log (R155 to R158) -/

/-- Free slots of the call log (section 8.4). -/
def State.logFree (s : State) : Nat := Config.logSlots - (s.chg.records.length + s.chg.resvs.length)

/-- Changes the first item that passes a test. -/
def changeFirst {α : Type} (p : α → Bool) (f : α → α) : List α → List α
  | [] => []
  | x :: xs => if p x then f x :: xs else x :: changeFirst p f xs

def LogResv.carriedOn (l : Line) (r : LogResv) : Bool := r.carried && r.line == l
def LogResv.grantedOn (l : Line) (r : LogResv) : Bool := !r.carried && r.line == l

/-- The CARRIED reservation of a line (R155). -/
def State.carried (s : State) (l : Line) : Option LogResv := s.chg.resvs.find? (·.carriedOn l)
def State.onCarried (s : State) (l : Line) (f : LogResv → LogResv) : State :=
  s.onChg fun g => { g with resvs := changeFirst (·.carriedOn l) f g.resvs }
/-- The GRANTED reservation of a line. -/
def State.onGranted (s : State) (l : Line) (f : LogResv → LogResv) : State :=
  s.onChg fun g => { g with resvs := changeFirst (·.grantedOn l) f g.resvs }
def State.dropCarried (s : State) (l : Line) : State := s.onChg fun g => { g with resvs := g.resvs.eraseP (·.carriedOn l) }
def State.dropGranted (s : State) (l : Line) : State := s.onChg fun g => { g with resvs := g.resvs.eraseP (·.grantedOn l) }

/-- The slots of the call log in use: each record's and each reservation's (R155). -/
def State.logSlots (s : State) : List Nat := s.chg.records.map (·.slot) ++ s.chg.resvs.map (·.slot)

/-- The slot a grant takes: the lowest-numbered free one (log entry 43). -/
def State.freeLogSlot (s : State) : Nat := ((List.range Config.logSlots).find? fun n => !s.logSlots.contains n).getD 0

/-- A reservation as it is granted: charge 0, no flags but those the grant itself sets (R156, R157, R164). -/
def resvNew (s : State) (l : Line) (carried : Bool) (out : Option OutPart) (start : Option CalTime) : LogResv :=
  ⟨s.freeLogSlot, l, carried, out, none, none, start, none, 0, false, false, !s.tmb.valid, !s.hlc.attended, false, none, none, none, 0, false⟩

/-- LOG_FULL names the call log; its fields are the direction, the line for IN, and the free count (R156, R157). -/
def logFullNotice (line : Option Line) (s : State) : State :=
  match line with
  | none => s.raise .logFull (e8 0) (e8 1 ++ e8 s.logFree)
  | some l => s.raise .logFull (e8 0) (e8 0 ++ eLine l ++ e8 s.logFree)

inductive OutAnswer where | granted (s : State) | preCheck (r : PreCheck) | log (s : State)

/-- An OUT reservation is asked for (R156). -/
def outReserve (l : Line) (account : Nat) (recip : Nat × Nat) (cls : Cls) (dial : Str) (s : State) : OutAnswer :=
  match s.preCheck account dial with
  | .pass =>
    if s.logFree ≤ Config.logReserve then .log (logFullNotice none s)
    else .granted (s.onChg fun g => { g with resvs := g.resvs ++ [resvNew s l false (some ⟨account, some recip, cls, dial, s.rate dial⟩) none] })
  | r => .preCheck r

/-- An IN reservation is asked for: a grant has ring time now, at glare the time of the CALLING_TONE (R157). -/
def inReserve (l : Line) (s : State) : Option State :=
  if 1 ≤ s.logFree then some (s.onChg fun g => { g with resvs := g.resvs ++ [resvNew s l true none (some s.now)] }) else none

/-! ## Commitment (R164) -/

/-- What a line's end report gives (R85). -/
structure EndReport where
  outcome : CallOutcome
  step : Option Nat
  pagesDone : Nat
  damaged : Nat
  metered : Bool
  /-- RESTART removed the job the record would name (R170) -/
  jobless : Bool
  deriving DecidableEq, Repr

def State.onAccount (s : State) (a : Nat) (f : Account → Account) : State :=
  s.onChg fun g => { g with accounts := g.accounts.set a (f (g.accounts.getD a Account.default)) }

/-- The record a reservation becomes (R164). -/
def recordOf (s : State) (r : LogResv) (e : EndReport) : Record :=
  { slot := r.slot, number := s.chg.nextLog, line := r.line
    out := r.out.map fun o => if e.jobless then { o with recip := none } else o
    period := r.period, remoteTag := r.remoteTag, start := r.start.getD s.now, answer := r.answer, stop := s.now, step := e.step
    pagesDone := e.pagesDone, damaged := e.damaged, charge := r.charge, outcome := e.outcome, overrun := r.overrun
    metered := r.out.isSome && (e.metered || r.metered), unattended := r.unattended, clockInvalid := r.clockInvalid || !s.tmb.valid }

/-- The account of an OUT record counts the call and its pages; its row is queued when it was charged (R164, R167). -/
def accountCall (r : LogResv) (pages : Nat) (s : State) : State :=
  match r.out with
  | none => s
  | some o =>
    let s := s.onAccount o.account fun a => { a with calls := min 65535 (a.calls + 1), pages := min 65535 (a.pages + pages) }
    if r.charge = 0 then s else accountRow o.account s

/-- The record takes the place of its reservation, with the next log number (R164). -/
def recordPut (l : Line) (v : Record) (s : State) : State :=
  (s.dropCarried l).onChg fun g => { g with records := g.records ++ [v], nextLog := (g.nextLog + 1) % 65536 }

/-- A line's end report commits its CARRIED reservation as a record (R164); a report without one is taken without effect (R155). -/
def commit (l : Line) (e : EndReport) (quiet : Bool) (s : State) : State :=
  match s.carried l with
  | none => s
  | some r =>
    let v := recordOf s r e
    let s := accountCall r e.pagesDone (recordPut l v s)
    if quiet then s else s.raise .callLogged (eLine l) (e16 v.number ++ eFlag r.out.isSome ++ e8 e.outcome.code)

/-! ## Reports of a line's call -/

/-- The seizure report: the OUT reservation becomes CARRIED (R155, R76). -/
def chgSeizure (l : Line) (s : State) : State :=
  s.onGranted l fun r => { r with carried := true, start := some s.now, clockInvalid := r.clockInvalid || !s.tmb.valid }

/-- The remote station tag report (R94); an empty tag leaves the record's tag absent (section 8.4: 1 to 20 characters). -/
def chgTag (l : Line) (t : Str) (s : State) : State := s.onCarried l ({ · with remoteTag := absentIfEmpty t })

/-- The presence mode became UNATTENDED: every reservation takes the mark (R164). -/
def chgUnattended (s : State) : State := s.onChg fun g => { g with resvs := g.resvs.map ({ · with unattended := true }) }

/-- The answer report of an answerer (R84). The record keeps the ring time of its grant; the start time reported replaces it at glare alone (R157),
where both are now. -/
def chgAnswerIn (l : Line) (answer : CalTime) (s : State) : State :=
  s.onCarried l fun r => { r with answer := some answer, clockInvalid := r.clockInvalid || !s.tmb.valid }

/-! ## Accrual (R159 to R161) -/

/-- The largest amount or charge. -/
def maxAmount : Nat := 4294967295

/-- The amount one accrual adds: the charge due, reduced so that neither total passes 4 294 967 295 (R161). -/
def accrualOf (due charge spent : Nat) : Nat := min due (min (maxAmount - charge) (maxAmount - spent))

/-- An accrual adds one amount to the call's record and its account in one step, and marks OVERRUN when spent is above a limit (R161). -/
def accrue (l : Line) (due : Nat) (s : State) : State :=
  match s.carried l with
  | none => s
  | some r =>
    match r.out with
    | none => s
    | some o =>
      let a := s.account o.account
      let d := accrualOf due r.charge a.spent
      let passed := a.limit != 0 && a.limit < a.spent + d
      (s.onAccount o.account fun a => { a with spent := a.spent + d, overrun := a.overrun || passed }).onCarried l fun r =>
        { r with charge := r.charge + d, accrued := true, overrun := r.overrun || passed }

/-- The answer report of a caller: answer time and period; for a timed call the band's values are copied and the interval timer starts (R159, R160).
The accrual that follows is made by the caller of this. -/
def chgAnswerOut (l : Line) (metered : Bool) (s : State) : State :=
  let p := s.period
  s.onCarried l fun r =>
    let b := s.band ((r.out.map (·.band)).getD 15)
    let r := { r with answer := some s.now, period := some p, clockInvalid := r.clockInvalid || !s.tmb.valid, metered := r.metered || metered }
    if metered then r
    else { r with setup := some (Band.setup b p), unit := some (Band.unit b p, Band.interval b p), intervalEnd := some (s.elapsed + Band.interval b p) }

/-- The first accrual of a timed call: the copied setup charge plus one unit charge (R159). -/
def firstCharge (s : State) (l : Line) : Nat :=
  match s.carried l with
  | some r => match r.setup, r.unit with
    | some a, some u => a + u.1
    | _, _ => 0
  | none => 0

end Sys2Proof.Machine
end

