-- ==== Sys2Proof/Machine/Dial.lean ====
section
/-! DEFINITION. The Dial Scheduler's records (chapter 7): readiness, the barred test, job ends, arbitration, outcomes, the making of jobs. Cancellation stands in Budget.lean. -/

namespace Sys2Proof.Machine

/-! ## Jobs and recipients -/

def State.job (s : State) (j : Nat) : Option Job := s.dsc.jobs.get j
def State.onJob (s : State) (j : Nat) (f : Job → Job) : State := s.onDsc fun d => { d with jobs := d.jobs.mod j f }
def Job.finished (r : Job) : Bool := r.state == .done || r.state == .cancelled

/-- The item at a position counted from 1. -/
def atPos {α : Type} (xs : List α) : Nat → Option α
  | 0 => none
  | k + 1 => xs[k]?

/-- Changes the item at a position counted from 1. -/
def setPos {α : Type} (xs : List α) (p : Nat) (f : α → α) : List α := if p = 0 then xs else xs.modify (p - 1) f

/-- The positions of a list of `n` items. -/
def positions (n : Nat) : List Nat := (List.range n).map (· + 1)

def State.recip (s : State) (j p : Nat) : Option Recip := (s.job j).bind fun r => atPos r.recips p

def RecipState.terminal : RecipState → Bool | .delivered | .failed | .cancelled => true | _ => false
/-- In a call: BOUND or IN_CALL (7.2). -/
def RecipState.calling : RecipState → Bool | .bound | .inCall => true | _ => false
/-- States whose entry raises RECIPIENT_CHANGED (R145). -/
def RecipState.noticed : RecipState → Bool | .waiting | .eligible => false | _ => true

/-- RECIPIENT_CHANGED for a recipient as it stands (R145). -/
def recipNotice (j p : Nat) (r : Recip) (s : State) : State :=
  s.raise .recipientChanged (e8 j ++ e8 p) (e8 r.state.code ++ eOpt (fun o => e8 o.code) r.last ++ e8 r.used ++ e8 r.delivered ++ e8 r.resume)

/-- Changes a recipient; a change into a state that R145 names raises its notice. -/
def recipSet (j p : Nat) (f : Recip → Recip) (s : State) : State :=
  match s.recip j p with
  | none => s
  | some r =>
    let r' := f r
    let s := s.onJob j fun x => { x with recips := setPos x.recips p fun _ => r' }
    if r'.state.noticed && r'.state != r.state then recipNotice j p r' s else s

/-- Recipients of a job in a state. -/
def Job.countIn (x : Job) (st : RecipState) : Nat := (x.recips.filter (·.state == st)).length

/-- A job whose recipients are all terminal finishes: state, finish order, hold, JOB_END (R140). -/
def jobSettle (j : Nat) (s : State) : State :=
  match s.job j with
  | none => s
  | some x =>
    if x.finished || !x.recips.all (·.state.terminal) then s
    else
      let n := (s.dsc.finishNo + 1) % 4294967296
      let st : JobState := if x.cancelRequested then .cancelled else .done
      let s := s.onDsc fun d => { d with finishNo := n, jobs := d.jobs.mod j fun x => { x with state := st, finish := some n } }
      let s := docRelease x.doc s
      s.raise .jobEnd (e8 j) (e8 x.doc ++ e8 st.code ++ e8 (x.countIn .delivered) ++ e8 (x.countIn .failed) ++ e8 (x.countIn .cancelled))

/-! ## Readiness (R131) and the barred test (R132) -/

/-- An embargo holds the job back: the clock is invalid, or now is before the embargo (R131). -/
def State.embargoed (s : State) (x : Job) : Bool :=
  match x.embargo with
  | none => false
  | some e => !s.tmb.valid || s.now.secs < e.secs

inductive Readiness where | waiting | noPages | delivered | eligible
  deriving DecidableEq, Repr

/-- The table of R131, with `c` the document's complete pages. -/
def readinessOf (embargoed isOpen early : Bool) (c : Nat) (r : Recip) : Readiness :=
  if embargoed then .waiting
  else if !isOpen && c < r.resume && c == 0 then .noPages
  else if !isOpen && c < r.resume && r.delivered == c then .delivered
  else if !isOpen then .eligible
  else if early && r.resume ≤ c then .eligible
  else .waiting

/-- The barred test of a recipient that has become ELIGIBLE (R132). -/
def barredTest (j p : Nat) (s : State) : State :=
  match s.job j, s.recip j p with
  | some x, some r =>
    if s.preCheck x.account r.dial = .barred then
      jobSettle j (recipSet j p ({ · with state := .failed, last := some .barred }) s)
    else s
  | _, _ => s

/-- The readiness test of a recipient that is WAITING or ELIGIBLE with no binding offered (R131, R144). The table's first row decides for
an ELIGIBLE recipient too, as glare can leave one, whose embargo is again in the future: it becomes WAITING (log entry 66, the model's choice). -/
def readinessTest (j p : Nat) (s : State) : State :=
  match s.job j, s.recip j p with
  | some x, some r =>
    if (r.state == .waiting || r.state == .eligible) && r.offeredTo.isNone then
      match readinessOf (s.embargoed x) (s.docOpen x.doc) x.early (s.completeCount x.doc) r with
      | .waiting => recipSet j p ({ · with state := .waiting }) s
      | .noPages => jobSettle j (recipSet j p ({ · with state := .failed, last := some .noPages }) s)
      | .delivered => jobSettle j (recipSet j p ({ · with state := .delivered }) s)
      | .eligible => if r.state = .eligible then s else barredTest j p (recipSet j p ({ · with state := .eligible }) s)
    else s
  | _, _ => s

/-- The readiness test for every recipient of a job, in list order. -/
def readinessJob (j : Nat) (s : State) : State :=
  eachDo (fun p => readinessTest j p) (positions (((s.job j).map (·.recips.length)).getD 0)) s

/-- The readiness test at a report on a document, for every job on it (R131). -/
def readinessDoc (d : Nat) (s : State) : State :=
  eachDo (fun j s => if (s.job j).any (fun x => x.doc == d && !x.finished) then readinessJob j s else s) s.dsc.jobs.keys s

/-! ## The arbitration pass (R135 to R137) -/

/-- A line is pending: a binding has been sent to it and not yet answered (R134). -/
def State.linePending (s : State) (l : Line) : Bool :=
  s.dsc.jobs.any fun x => x.2.recips.any (·.offeredTo == some l)

/-- Job `a` goes before job `b`: by class, then by enqueue order (R135). -/
def Job.before (a b : Job) : Bool := a.cls.rank < b.cls.rank || (a.cls.rank == b.cls.rank && a.enqueue < b.enqueue)

def insertJob (x : Nat × Job) : List (Nat × Job) → List (Nat × Job)
  | [] => [x]
  | y :: ys => if x.2.before y.2 then x :: y :: ys else y :: insertJob x ys

def sortJobs : List (Nat × Job) → List (Nat × Job)
  | [] => []
  | x :: xs => insertJob x (sortJobs xs)

/-- The recipients of every job in the order of R135. -/
def State.inOrder (s : State) : List (Nat × Nat) :=
  (sortJobs s.dsc.jobs).flatMap fun x => (positions x.2.recips.length).map fun p => (x.1, p)

/-- A recipient in a call, or with a binding offered, has this dial string (R136). -/
def State.dialled (s : State) (d : Str) : Bool :=
  s.dsc.jobs.any fun x => x.2.recips.any fun r => r.dial == d && (r.state.calling || r.offeredTo.isSome)

/-- The idle set, less a line and less every other pending line (R136). -/
def State.idleBut (s : State) (l : Line) : Nat :=
  (allLines.filter fun k => at4 s.dsc.idle k && k != l && !s.linePending k).length

/-- The candidate tests before the pre-check (R136). -/
def State.candidate (s : State) (l : Line) (x : Job) (r : Recip) : Bool :=
  r.state == .eligible && r.offeredTo.isNone && r.used < x.attempts && (s.hlc.attended || x.unattended) && !s.dialled r.dial
    && (x.cls == .flash || s.dsc.guard ≤ s.idleBut l)

inductive Tried where | bound (s : State) | skipped (s : State) | logFull (s : State)

/-- One recipient is tried for a line: the candidate tests, the reservation, the binding offered (R136, R137). -/
def tryRecip (l : Line) (j p : Nat) (s : State) : Tried :=
  match s.job j, s.recip j p with
  | some x, some r =>
    if s.candidate l x r then
      match s.preCheck x.account r.dial with
      | .barred => .skipped (jobSettle j (recipSet j p ({ · with state := .failed, last := some .barred }) s))
      | .refused => .skipped s
      | .pass =>
        match outReserve l x.account (j, p) x.cls r.dial s with
        | .granted s => .bound (recipSet j p ({ · with offeredTo := some l }) s)
        | .preCheck _ => .skipped s
        | .log s => .logFull s
    else .skipped s
  | _, _ => .skipped s

/-- The recipients in order for one line: whether the pass goes on to the next line. -/
def passLine (l : Line) : List (Nat × Nat) → State → Bool × State
  | [], s => (false, s)
  | (j, p) :: rest, s =>
    match tryRecip l j p s with
    | .bound s => (true, s)
    | .skipped s => passLine l rest s
    | .logFull s => (false, s)

/-- The offered lines that are not pending, in ascending order. -/
def passLines : List Line → State → State
  | [], s => s
  | l :: ls, s =>
    if at4 s.dsc.offered l && !s.linePending l then
      let r := passLine l s.inOrder s
      if r.1 then passLines ls r.2 else r.2
    else passLines ls s

/-- An arbitration pass (R135). -/
def pass (s : State) : State := passLines allLines s

/-- The recipients that are ELIGIBLE, or were made FAILED by the barred test. -/
def State.madeEligible (s : State) : List (Nat × Nat) :=
  s.dsc.jobs.flatMap fun x =>
    (positions x.2.recips.length).filterMap fun p =>
      match atPos x.2.recips p with
      | some r => if r.state == .eligible || (r.state == .failed && r.last == some .barred) then some (x.1, p) else none
      | none => none

/-- A pass follows an event at which a recipient became ELIGIBLE (R131, R135); `before` is the state before the event. -/
def passIfNew (before s : State) : State :=
  let old := before.madeEligible
  if s.madeEligible.any (fun x => !old.contains x) then pass s else s

/-- A line's report that brought it into DSC's offered set runs a pass (R86, R135). -/
def passIfOffered (l : Line) (before s : State) : State :=
  if at4 s.dsc.offered l && !at4 before.dsc.offered l then pass s else s

/-! ## Outcomes (R138, R139) -/

/-- Outcomes that raise attempts used by 1 (R139). -/
def CallOutcome.counted : CallOutcome → Bool
  | .delivered | .busy | .noAnswer | .noDialtone | .checkFail | .noReply | .lineLost | .remoteFull | .refused | .budget => true
  | _ => false

/-- Outcomes after which a recipient with attempts to spare waits for a retry (R139). -/
def CallOutcome.retried : CallOutcome → Bool
  | .busy | .noAnswer | .noDialtone | .checkFail | .noReply | .lineLost | .remoteFull => true
  | _ => false

/-- The recipient after a call-end report (R139). A next attempt time past 31 December 2099 is kept as the seconds it is past 2000 (log entry 63). -/
def Recip.ended (r : Recip) (x : Job) (now : Nat) (o : CallOutcome) (taken : Option Nat) (resume : Nat) : Recip :=
  let used := if o.counted then r.used + 1 else r.used
  let r := { r with delivered := max r.delivered (taken.getD 0), resume, line := none, last := some o, used }
  if o = .delivered then { r with state := .delivered }
  else if o = .cancelled ∨ x.cancelRequested then { r with state := .cancelled }
  else if o.retried && used < x.attempts then { r with state := .retryWait, nextAttempt := some (now + 60 * x.interval) }
  else { r with state := .failed }

/-- DSC takes a line's call-end report (R139); the pass that follows is run by the line's call end. -/
def dscCallEnd (j p : Nat) (o : CallOutcome) (taken : Option Nat) (resume : Nat) (s : State) : State :=
  match s.job j with
  | none => s
  | some x => jobSettle j (recipSet j p (·.ended x s.now.secs o taken resume) s)

/-- DSC takes the release of a recipient met by glare (R138). -/
def dscGlare (j p : Nat) (s : State) : State :=
  match s.job j with
  | none => s
  | some x =>
    if x.cancelRequested then jobSettle j (recipSet j p ({ · with state := .cancelled, line := none, last := some .cancelled }) s)
    else barredTest j p (recipSet j p ({ · with state := .eligible, line := none, last := some .glare }) s)

/-- DSC takes the report that a call has been answered (R138). -/
def dscAnswered (j p : Nat) (s : State) : State := recipSet j p ({ · with state := .inCall }) s

/-! ## The making of a job (R128, R129) -/

/-- Recipients of all jobs held. -/
def Dsc.poolUsed (d : Dsc) : Nat := (d.jobs.map (·.2.recips.length)).sum
def Dsc.finishedJobs (d : Dsc) : List (Nat × Job) := d.jobs.filter (·.2.finished)

/-- A job of `n` recipients fits (R128). -/
def Dsc.fits (d : Dsc) (n : Nat) : Bool :=
  (d.jobs.length < 32 || !d.finishedJobs.isEmpty) && n + d.poolUsed ≤ 256 + (d.finishedJobs.map (·.2.recips.length)).sum

/-- Removes finished jobs of lowest finish order while a slot or entries are lacking (R128). -/
def Dsc.reclaim (n : Nat) : Nat → Dsc → Dsc
  | 0, d => d
  | fuel + 1, d =>
    if d.jobs.length < 32 && n + d.poolUsed ≤ 256 then d
    else match d.finishedJobs with
      | [] => d
      | x :: xs =>
        let y := xs.foldl (fun a b => if b.2.finish.getD 0 < a.2.finish.getD 0 then b else a) x
        Dsc.reclaim n fuel { d with jobs := d.jobs.del y.1 }

def Recip.new (dial : Str) : Recip := ⟨dial, .waiting, none, 0, none, 0, 1, none, none⟩

/-- DSC reports a new job to SCN (R29). -/
def scnAttach (doc j : Nat) (s : State) : State :=
  if s.scn.state = .idle then s
  else s.onScn fun c => { c with job := c.job.map fun r => if r.doc = doc ∧ r.sendJob.isNone then { r with sendJob := some j } else r }

/-- DSC takes a request for a send job (R129): its id, or the refusal. The refusals change nothing. -/
def jobCreate (byRoute : Bool) (doc account cls : Nat) (embargo : Option CalTime) (early unattended : Bool) (attempts interval : Option Nat)
    (dials : List Str) (s : State) : Except Result (Nat × State) :=
  let att := attempts.getD s.dsc.attempts
  let int := interval.getD s.dsc.interval
  match Cls.of? cls with
  | none => .error .badField
  | some cls =>
    if !(account ≤ 31 && between 1 9 att && between 1 60 int && embargo.all (·.valid) && between 1 64 dials.length && dials.all dialOk) then
      .error .badField
    else if !s.dsc.fits dials.length then .error .full
    else match s.doc doc, docHold doc s with
      | some d, some s' =>
        if d.state ≠ .opened ∧ d.completeCount = 0 then .error .state
        else
          let dsc := s'.dsc.reclaim dials.length 32
          match dsc.jobs.lowestFree 32 with
          | none => .error .full
          | some j =>
            let n := (dsc.enqueueNo + 1) % 4294967296
            let x : Job := ⟨doc, account, cls, embargo, early, unattended, att, int, byRoute, false, false, n, none, .queued, dials.map Recip.new⟩
            let s := s'.onDsc fun _ => { dsc with enqueueNo := n, jobs := dsc.jobs.put j x }
            .ok (j, pass (readinessJob j (scnAttach doc j s)))
      | _, _ => .error .noSuch

end Sys2Proof.Machine
end

