-- ==== Sys2Proof/Machine/Exchange.lean ====
section
/-! DEFINITION. The strip exchange's sending side (chapter 5): frames, the end of a call's exchange, page boundaries, strips, resend rounds, pending ends. -/

namespace Sys2Proof.Machine

/-! ## Line states -/

/-- A line's change of state, with LINE_CHANGED; entering GUARD it carries the outcome of the call just ended (R88). That every LINE_CHANGED has a presence
byte for the outcome after the state is the model's choice (log entry 69). -/
def lineMove (l : Line) (st : LineState) (outcome : Option CallOutcome) (s : State) : State :=
  (s.onLu l ({ · with state := st })).raise .lineChanged (eLine l) (e8 st.code ++ eOpt (fun o => e8 o.code) outcome)

def State.call (s : State) (l : Line) : Option Call := (s.lu l).call

/-- HANDSHAKE or TRANSFER. -/
def LineState.exchanging : LineState → Bool | .handshake | .transfer => true | _ => false
/-- The call states (4.2). -/
def LineState.inCall : LineState → Bool
  | .seized | .dialling | .awaitAnswer | .answering | .handshake | .transfer | .clearing => true
  | _ => false

/-! ## Frames -/

/-- A control frame begins to be sent, as its `n`-th sending; the waits stop (R93). -/
def Call.sending (c : Call) (f : CtlFrame) (n : Nat) : Call :=
  { c with lastFrame := some f, sendings := n, signal := some (.frame f), waitOn := false, capsWait := false, waitInterval := false
           waitOver := false }

def sendFrame (l : Line) (f : CtlFrame) (s : State) : State := s.onCall l fun c => { c.sending f 1 with stripAfterFrame := false }

/-- The last frame is sent again, its count raised (R93). -/
def resendFrame (l : Line) (s : State) : State :=
  s.onCall l fun c => match c.lastFrame with
    | some f => { c.sending f (c.sendings + 1) with stripAfterFrame := false }
    | none => c

/-- The outcome of an end that the strip exchange decides at the caller: that of a pending request where R109 gives it. -/
def Call.settled (c : Call) (o : CallOutcome) : CallOutcome :=
  match c.pendingEnd with
  | none => o
  | some e => if o = .noReply ∨ o = .checkFail ∨ o = .refused ∨ o = .remoteFull then e.outcome else o

/-- The end is decided: the line enters CLEARING, and CLEAR or REFUSE is sent (R85, R110, R111). -/
def enterClearing (l : Line) (o : CallOutcome) (f : CtlFrame) (s : State) : State :=
  let s := arbWithdraw (.lu l) s
  let s := s.onCall l fun c => { c.sending f 1 with outcome := some (c.settled o), reading := none, toSend := [], resend := none, burstReply := none }
  lineMove l .clearing none s

def clearWith (l : Line) (o : CallOutcome) (s : State) : State := enterClearing l o .clear s

/-- The caller carries out a pending end (R109). -/
def carryOut (l : Line) (e : EndRequest) (s : State) : State := clearWith l e.outcome s

/-- A rate check burst at a step: 600 bytes per step, 0 to 255 and again from 0 (R96, table of rate steps). -/
def rateBurst (step : Nat) : List Byte := (List.range (600 * step)).map (BitVec.ofNat 8)

/-- The part's PLAN at the plan step (R96). A PLAN sent later in the call carries the station tag as it then stands (log entry 54). -/
def planFrame (s : State) (c : Call) : CtlFrame :=
  let first := c.firstPage.getD 1
  .plan s.lus.stationTag (c.planStep.getD 1) (1 < first) first

/-- The caller sends a PLAN at a step; the burst follows it (R96, R99, R102). -/
def sendPlan (l : Line) (step : Nat) (s : State) : State :=
  let s := s.onCall l ({ · with planStep := some step })
  match s.call l with
  | some c => sendFrame l (planFrame s c) s
  | none => s

/-! ## Pages (R100, R101) -/

/-- The width class a page is sent in; none when it is not sendable. `ws` is the CAPS' set of widths. -/
def sendWidth (ws : Nat) (w : Width) : Option Width :=
  if ws.testBit w.code then some w
  else match w with
    | .b4 => if ws.testBit 0 then some .a4 else none
    | .a4 => none

/-- The resolution a page is sent in. `rs` is the CAPS' set of resolutions. -/
def sendRes (rs : Nat) (r : Resolution) : Option Resolution :=
  if rs.testBit r.code then some r
  else match r with
    | .super => if rs.testBit 1 then some .fine else if rs.testBit 0 then some .coarse else none
    | .fine => if rs.testBit 0 then some .coarse else none
    | .coarse => none

/-- The page format (R100). -/
def pageFormat (accepts : Nat × Nat) (p : Page) : Option (Resolution × Width) :=
  match sendRes accepts.1 p.res, sendWidth accepts.2 p.width with
  | some r, some w => some (r, w)
  | _, _ => none

/-- The page the caller's current page number names. -/
def State.sendPage (s : State) (c : Call) : Option Page :=
  c.doc.bind fun d => (s.doc d).bind fun r => c.current.bind r.page

/-- A strip as it goes on the line: stored coding kept in the page's own format, otherwise converted and coded afresh; a DAMAGED strip as BLANK lines (R101). -/
def State.stripOnLine (s : State) (q : Nat) (p : Page) (fmt : Resolution × Width) (x : Strip) : List Byte :=
  let n := convertedCount p.res fmt.1 x.lines
  if x.state ≠ .stored then dataStripBytes q x.no n fmt.1 fmt.2 (List.replicate n 0)
  else if fmt = (p.res, p.width) then dataStripBytes q x.no x.lines fmt.1 fmt.2 (s.codedBytes x)
  else
    let ls := convertLines p.width fmt.2 p.res fmt.1 (decodeStrip p.width x.lines (s.codedBytes x))
    dataStripBytes q x.no n fmt.1 fmt.2 (codeLines fmt.2 none ls)

/-- The kind of the PAGE_END of page `q` (R101). -/
def State.pageEndKind (s : State) (d q : Nat) : PageEndKind :=
  if !s.docOpen d && s.completeCount d == q then .last else .more

/-- The page's PAGE_END (R101, R102). -/
def sendPageEnd (l : Line) (c : Call) (p : Page) (s : State) : State :=
  let d := c.doc.getD 0
  let q := c.current.getD 0
  sendFrame l (.pageEnd (s.pageEndKind d q) q p.strips.length) s

/-- The next strip begins to be read, or to be sent when it has no bytes to read; after the last one PAGE_END is sent (R101). -/
def nextStrip (l : Line) (s : State) : State :=
  match s.call l with
  | none => s
  | some c =>
    match s.sendPage c with
    | none => s
    | some p =>
      match c.toSend with
      | [] => sendPageEnd l c p s
      | n :: rest =>
        match p.strip n with
        | none => s.onCall l ({ · with toSend := rest })
        | some x =>
          if x.state = .stored then
            arbAsk (.lu l) (burstsFor (8 + x.coded)) (s.onCall l ({ · with toSend := rest, reading := some n }))
          else
            let bytes := s.stripOnLine (c.current.getD 0) p (c.format.getD (p.res, p.width)) x
            s.onCall l ({ · with toSend := rest, signal := some (.strip n bytes) })

/-- The strip being read has been read and converted: it begins to be sent (R101). -/
def stripReady (l : Line) (s : State) : State :=
  match s.call l with
  | none => s
  | some c =>
    match s.sendPage c, c.reading with
    | some p, some n =>
      match p.strip n with
      | some x =>
        let bytes := s.stripOnLine (c.current.getD 0) p (c.format.getD (p.res, p.width)) x
        s.onCall l ({ · with reading := none, signal := some (.strip n bytes) })
      | none => s
    | _, _ => s

/-- The last burst of the strip a caller reads has moved. -/
def luStripRead (l : Line) (s : State) : State := if at4 s.arb.lu l = 0 then stripReady l s else s

/-- Page `p` begins to be sent in a format (R100, R101). -/
def sendPageStart (l : Line) (p : Page) (fmt : Resolution × Width) (s : State) : State :=
  nextStrip l (s.onCall l ({ · with format := some fmt, pageOpen := true, toSend := p.strips.map (·.no), resend := none }))

/-- A page boundary at the caller (R100). -/
def boundary (l : Line) (s : State) : State :=
  match s.call l with
  | none => s
  | some c =>
    let s := s.onCall l ({ · with waitInterval := false, waitOn := false, waitOver := false })
    let d := c.doc.getD 0
    let q := c.current.getD 0
    match c.pendingEnd with
    | some e => carryOut l e s
    | none =>
      match s.sendPage c with
      | some p =>
        if p.complete then
          match pageFormat c.accepts p with
          | some fmt => sendPageStart l p fmt s
          | none => clearWith l .refused s
        else sendFrame l (.pageEnd .wait q 0) s
      | none =>
        if s.docOpen d then sendFrame l (.pageEnd .wait q 0) s
        else sendFrame l (.pageEnd .last q 0) s

/-- A resend round is sent: the listed strips that the page holds, in ascending order, then PAGE_END again (R102). -/
def resendRound (l : Line) (xs : List Nat) (s : State) : State :=
  match s.call l with
  | none => s
  | some c =>
    match s.sendPage c with
    | none => s
    | some p =>
      nextStrip l (s.onCall l ({ · with
        round := min Config.maxRounds (c.round + 1), resend := none, waitOn := false
        toSend := (p.strips.map (·.no)).filter xs.contains }))

/-- The kind of the PAGE_END that awaits its reply. -/
def Call.pageEndSent (c : Call) : Option PageEndKind :=
  match c.waitOn, c.lastFrame with
  | true, some (.pageEnd k _ _) => some k
  | _, _ => none

/-- The WAIT interval, counted from the end of the WAIT, ends: a boundary at once when WAITING has been taken, else one owed to the WAITING that is
still awaited (R104; log entry 53). -/
def waitIntervalEnd (l : Line) (s : State) : State :=
  match s.call l with
  | none => s
  | some c =>
    if c.waitInterval then boundary l s
    else if c.caller && c.pageEndSent == some .wait then s.onCall l ({ · with waitOver := true })
    else s

/-- PMC's report on a caller's document, page q completed or the document no longer OPEN, ends its WAIT interval (R104). -/
def earlyBoundary (d : Nat) (l : Line) (s : State) : State :=
  match s.call l with
  | none => s
  | some c =>
    if c.caller && c.doc == some d && (c.current.getD 0 ≤ s.completeCount d || !s.docOpen d) then waitIntervalEnd l s else s

/-! ## Pending ends (R81, R109) -/

/-- A request over a pending end (R81). -/
def mergeEnd (old : Option EndRequest) (e : EndRequest) : EndRequest :=
  match old with
  | none => e
  | some o => if e.now && !o.now then e else o

/-- An end request in HANDSHAKE or TRANSFER becomes the pending end, and is carried out at once where R109 lets it. -/
def pendEnd (l : Line) (e : EndRequest) (s : State) : State :=
  match s.call l with
  | none => s
  | some c =>
    let e := mergeEnd c.pendingEnd e
    let s := s.onCall l ({ · with pendingEnd := some e })
    if (e.now && c.signal.isNone) || c.waitInterval then carryOut l e s else s

/-- A pending end now, carried out at the end of the strip, frame or burst being sent (R109). -/
def Call.endNow (c : Call) : Option EndRequest := c.pendingEnd.filter (·.now)

/-- A pending end at a reply, or at the end of a wait for one, that is not a page's (R109). -/
def Call.endAtReply (c : Call) : Option EndRequest := if c.pageOpen then none else c.pendingEnd

end Sys2Proof.Machine
end

