-- ==== Sys2Proof/Machine/Reports.lean ====
section
/-! DEFINITION. PMC's reports of completed pages and ended documents to DSC, PRT and the caller lines (R8, R11), and the requests that cause them. -/

namespace Sys2Proof.Machine

/-- The report of a completed page (R8): readiness, selection, early boundaries; then the arbitration pass. -/
def pageReport (d : Nat) (s : State) : State :=
  passIfNew s (eachDo (earlyBoundary d) allLines (selectIfIdle (readinessDoc d s)))

/-- A writer asks PMC to close its FILLING page: PMC refuses, and changes nothing, when the page has a FILLING strip or no strips; else the page
becomes COMPLETE and PMC reports it (R8). -/
def pageFinish (c : Client) (d : Nat) (s : State) : State := if s.pageClosable c d then pageReport d (pageComplete d s) else s

/-- The document leaves OPEN: DOC_CHANGED, the reports, the freeing, the arbitration pass (R11, R13). -/
def docLeave (d : Nat) (st : DocState) (s : State) : State :=
  let t := s.onDoc d ({ · with state := st })
  let t := docChanged d st.code t
  let pages := t.completeCount d
  let t := eachDo (earlyBoundary d) allLines (prtDocClosed d pages (readinessDoc d t))
  passIfNew s (docFree d t)

/-- The writer closes its OPEN document (R11). -/
def docClose (d : Nat) (s : State) : State := if s.docOpen d then docLeave d .closed s else s

/-- The writer, a client of page memory, abandons its OPEN document with its FILLING strip and page (R11). -/
def docAbandon (c : Client) (d : Nat) (s : State) : State :=
  if s.docOpen d then docLeave d .abandoned (pageDiscard c d s) else s

end Sys2Proof.Machine
end

