-- ==== Sys2Proof/Machine/Route.lean ====
section
/-! DEFINITION. The Reception Router (chapter 6): conditions, senses, the match, the first-page and settling steps. -/

namespace Sys2Proof.Machine

/-! ## Matching (R117 to R120) -/

/-- The present conditions of an entry, each true or false (R117). -/
def Route.conditions (r : Route) (tag : Str) (l : Line) (clock : Option CalTime) : List Bool :=
  (r.tagStart.map (·.isPrefixOf tag)).toList
    ++ (r.lineSet.map (·.testBit l.val)).toList
    ++ (r.window.map fun w => clock.any fun t => inWindow w.1 w.2 t.minuteOfDay).toList

/-- The sense over the present conditions; with none present the entry matches (R118). -/
def Sense.holds (sense : Sense) (cs : List Bool) : Bool :=
  cs.isEmpty || match sense with
    | .any => cs.any id
    | .all => cs.all id
    | .none => cs.all (!·)

/-- The clock as a match reads it: absent while invalid (R117). -/
def State.clock (s : State) : Option CalTime := if s.tmb.valid then some s.now else none

/-- The first used entry that matches (R119). -/
def State.matching (s : State) (tag : Str) (l : Line) : Option (Nat × Route) :=
  s.rrt.routes.find? fun x => x.2.sense.holds (x.2.conditions tag l s.clock)

/-- A HOLD under UNATTENDED is printed to the fallback bin too (R120). -/
def convert (attended : Bool) (fallback : Bin) (route : Option Nat) (a : Action) : Disposition :=
  if !attended && a == .hold then ⟨route, .printAndHold fallback 1 .routine, true⟩ else ⟨route, a, false⟩

/-- RRT matches a call: the disposition, and the deciding entry's count raised (R119, R120). -/
def routeMatch (tag : Str) (l : Line) (s : State) : Disposition × State :=
  match s.matching tag l with
  | some (i, r) =>
    (convert s.hlc.attended s.rrt.fallbackBin (some i) r.action,
      s.onRrt fun t => { t with routes := t.routes.mod i fun r => { r with count := (r.count + 1) % 65536 } })
  | none =>
    (convert s.hlc.attended s.rrt.fallbackBin none s.rrt.dflt,
      s.onRrt fun t => { t with dfltCount := (t.dfltCount + 1) % 65536 })

/-! ## Reception records (R121) -/

def State.onRec (s : State) (l : Line) (f : RecvRec → RecvRec) : State :=
  s.onRrt fun t => { t with recs := set4 t.recs l ((at4 t.recs l).map f) }

/-- The answerer reports the document it has created: the record is made, with DOC_ROUTED (R121). -/
def routeRecord (l : Line) (d : Nat) (disp : Disposition) (s : State) : State :=
  let s := s.onRrt fun t => { t with recs := set4 t.recs l (some ⟨d, disp, 0, false, none, none⟩) }
  s.raise .docRouted (e8 d) (eLine l ++ eOpt e8 disp.route ++ e8 disp.action.code ++ eFlag disp.converted)

/-- The class of the print part of a disposition. -/
def Action.printCls : Action → Option Cls
  | .print _ _ k => some k
  | .printAndHold _ _ k => some k
  | .forward _ _ k (some _) => some k
  | _ => none

/-- The bin and copies of the print part of a disposition. -/
def Action.printSpec : Action → Option (Bin × Nat)
  | .print b c _ => some (b, c)
  | .printAndHold b c _ => some (b, c)
  | .forward _ _ _ spec => spec
  | _ => none

/-- A print entry is asked for; refused with FULL, the document is retained and PRINT_FAILED raised (R124). -/
def routePrint (l : Line) (d : Nat) (disp : Disposition) (s : State) : State :=
  match disp.action.printSpec, disp.action.printCls with
  | some (b, c), some k =>
    match entryCreate d none none c b.val k.code s with
    | .ok (e, s) => s.onRec l ({ · with entry := some e })
    | .error _ => (docRetainSet d s).raise .printFailed (e8 d) (eOpt e8 disp.route ++ e8 b.val)
  | _, _ => s

/-- A forward job is asked for; refused with FULL, the document is retained and FORWARD_FAILED raised (R123). -/
def routeForward (l : Line) (d : Nat) (disp : Disposition) (s : State) : State :=
  match disp.action with
  | .forward dial account k _ =>
    match jobCreate true d account k.code none true true (some 3) (some 5) [dial] s with
    | .ok (j, s) => s.onRec l ({ · with job := some j })
    | .error _ => (docRetainSet d s).raise .forwardFailed (e8 d) (eOpt e8 disp.route ++ eStr dial)
  | _ => s

/-- The disposition retains its document at the first page. -/
def Action.holds : Action → Bool | .hold => true | .printAndHold .. => true | _ => false

/-- The first-page steps, in the order of the table of section 6.4 (R122). -/
def firstPageSteps (l : Line) (d : Nat) (disp : Disposition) (s : State) : State :=
  let s := if disp.action.holds then docRetainSet d s else s
  let s := if disp.action.printCls = some .flash then routePrint l d disp s else s
  routeForward l d disp s

/-- RRT has the report of a stored page (R122). -/
def routePageStored (l : Line) (d count : Nat) (s : State) : State :=
  match at4 s.rrt.recs l with
  | none => s
  | some r =>
    let s := s.onRec l ({ · with stored := count })
    if count = 1 ∧ r.applied = false then
      (firstPageSteps l d r.disp s).onRec l ({ · with applied := true })
    else s

/-- RRT has the report that a document is settled, before PMC takes the close or abandonment (R125). -/
def routeSettle (l : Line) (d : Nat) (s : State) : State :=
  match at4 s.rrt.recs l with
  | none => s
  | some r =>
    let late := match r.disp.action.printCls with | some k => k != .flash | none => false
    let s := if late && 0 < s.completeCount d then routePrint l d r.disp s else s
    s.onRrt fun t => { t with recs := set4 t.recs l none }

end Sys2Proof.Machine
end

