-- ==== Sys2Proof/Machine/Lines.lean ====
section
/-! DEFINITION. Calls of a line unit (chapter 4): seizure, end requests, the end of a call and the settling of a received document (R85, R112), the answer decision, glare. -/

namespace Sys2Proof.Machine

/-! ## The end of a call (R85, R112, R113) -/

/-- The received document is settled: RRT first, then PMC's close or abandonment (R112, R125). A page stored whose PAGE_TAKEN is still being sent at a
line loss is complete and kept (R114; log entry 59). -/
def settle (l : Line) (c : Call) (s : State) : State :=
  match c.doc with
  | none => s
  | some d =>
    let s := routeSettle l d s
    if c.ended = .last then docClose d s else docAbandon (.lu l) d s

/-- What CHG is told of a call's end (R85, R94). -/
def Call.endReport (c : Call) (o : CallOutcome) : EndReport :=
  ⟨o, c.agreedStep, c.pagesDone, c.damagedPages, c.metering == .pulse, false⟩

/-- The bound recipient's call-end report (R113). -/
def reportDsc (c : Call) (o : CallOutcome) (s : State) : State :=
  match c.caller, c.recip with
  | true, some (j, p) =>
    dscCallEnd j p o c.highest (match c.highest with | some q => q + 1 | none => c.firstPage.getD 1) s
  | _, _ => s

/-- The line rests on-hook in GUARD, without a call (R85, R86). -/
def lineGuard (l : Line) (o : CallOutcome) (s : State) : State :=
  lineMove l .guard (some o) (s.onLu l ({ · with call := none, episode := none, ringGap := false, ringCount := 0 }))

/-- The line goes on-hook and the call ends with the outcome given (R85): settling, the reports to CHG and DSC, withdrawals, guard; then the pass of R135. -/
def callEnd (l : Line) (o : CallOutcome) (s : State) : State :=
  match s.call l with
  | none => s
  | some c =>
    let s := if c.caller then s else settle l c s
    let s := commit l (c.endReport o) false s
    let s := reportDsc c o s
    let s := lineGuard l o (arbWithdraw (.lu l) s)
    if c.caller then pass s else s

/-- A frame that ends the call has been taken, or the CLEAR or REFUSE has been sent: on-hook with the outcome decided (R110, R111). -/
def hangUp (l : Line) (s : State) : State :=
  match s.call l with
  | none => s
  | some c => callEnd l (c.outcome.getD .lineLost) s

/-- The answerer's outcome when a CLEAR is taken (R110): ABANDONED from the first PLAN taken on, acceptable or not (log entry 71). -/
def Call.clearedOutcome (c : Call) : CallOutcome :=
  if !c.planned then .noPlan
  else match c.ended with
    | .last => if 0 < c.damagedPages then .receivedDamaged else .received
    | .holdFull => .storeFull
    | .neither => .abandoned

/-- The answerer's outcome at the expiry after the third sending (R93). -/
def Call.expiredOutcome (c : Call) : CallOutcome :=
  match c.lastFrame with
  | some (.caps ..) => .noPlan
  | _ => c.clearedOutcome

/-! ## End requests (R81) -/

/-- Another block's end request to a line, by the state of its outgoing call. -/
def endRequest (l : Line) (e : EndRequest) (s : State) : State :=
  match s.call l with
  | none => s
  | some c =>
    if !c.caller then s
    else match (s.lu l).state with
      | .seized | .dialling | .awaitAnswer => callEnd l e.outcome s
      | .handshake | .transfer => pendEnd l e s
      | _ => s

/-! ## Seizure (R75, R76) -/

/-- The call in flight with everything absent. -/
def Call.blank (caller : Bool) (start : CalTime) (cfg : LineConfig) : Call :=
  { caller, recip := none, start, answer := none, dialMode := cfg.dialMode, outside := cfg.outside, metering := cfg.metering
    meterValue := cfg.meterValue, attempts := 1, ringbackHeard := false, pulses := 0, pendingEnd := none, outcome := none
    retryPause := false, dialLeft := [], doc := none, firstPage := none, planStep := none, agreedStep := none, current := none
    format := none, highest := none, pagesDone := 0, damagedPages := 0, round := 0, waits := 0, remoteTag := none, lastFrame := none
    sendings := 0, ended := .neither, signal := none, waitOn := false, capsWait := false, waitInterval := false, waitOver := false, accepts := (0, 0)
    pageOpen := false, toSend := [], reading := none, resend := none, capsMax := 0, planned := false, burstReply := none
    disposition := none, reception := none, stripSince := false, stripAfterFrame := false, reported := false, lastTaken := none, copyLines := [] }

/-- A line takes a binding (R75): IDLE, enabled, outgoing allowed, voltage present. -/
def Lu.takes (u : Lu) : Bool := u.state == .idle && u.config.enabled && u.config.outgoing && u.voltage

/-- The line seizes for a recipient (R76). The fields that R94 gives a caller at hand-over, the document, the first page and the current page, are held
from here on (log entry 60). -/
def seize (l : Line) (j p : Nat) (x : Job) (r : Recip) (s : State) : State :=
  let c := { Call.blank true s.now (s.lu l).config with recip := some (j, p), doc := some x.doc, firstPage := some r.resume, current := some r.resume }
  lineMove l .seized none (chgSeizure l (s.onLu l ({ · with call := some c })))

/-! ## Answering (R83, R84, R95) -/

/-- RING_UNANSWERED with its reason, NOT_ALLOWED 0 or MEMORY 1, and the ring count (R88). -/
def ringUnanswered (l : Line) (reason : Nat) (s : State) : State :=
  s.raise .ringUnanswered (eLine l) (e8 reason ++ e8 (s.lu l).ringCount)

/-- The line enters ANSWERING as answerer and hands the call to the strip exchange, which sends the answer tone (R84, R95). -/
def answering (l : Line) (start : CalTime) (s : State) : State :=
  let cfg := (s.lu l).config
  let c := { Call.blank false start { cfg with metering := .none, meterValue := 0, outside := none } with answer := some s.now, signal := some .answerTone }
  let s := s.onLu l ({ · with call := some c, episode := none, ringGap := false, ringCount := 0 })
  lineMove l .answering none (chgAnswerIn l s.now s)

/-- The answer conditions (R82). -/
def Lu.answers (u : Lu) : Bool := u.config.incoming && 1 ≤ u.config.answerRings && u.config.answerRings ≤ u.ringCount

/-- The answer decision (R83). -/
def answerDecision (l : Line) (s : State) : State :=
  let s := s.onLu l ({ · with condHeld := true })
  if !s.answerOk then
    if (s.lu l).unanswered then s else ringUnanswered l 1 (s.onLu l ({ · with unanswered := true }))
  else
    let start := (s.lu l).episode.getD s.now
    match inReserve l s with
    | none => logFullNotice (some l) s
    | some s => answering l start s

/-! ## Glare (R77, R158) -/

/-- The OUT reservation is given up: returned unused when no accrual has reached it, else committed with GLARE (R158). -/
def giveUpOut (l : Line) (s : State) : State :=
  match s.carried l with
  | none => s
  | some r => if r.accrued then commit l ⟨.glare, none, 0, 0, true, false⟩ false s else s.dropCarried l

/-- The recipient is released to DSC with GLARE. -/
def releaseGlare (c : Call) (s : State) : State :=
  match c.recip with
  | some (j, p) => dscGlare j p s
  | none => s

/-- The line goes on-hook at glare without answering. -/
def glareOff (l : Line) (o : CallOutcome) (s : State) : State := lineGuard l o (arbWithdraw (.lu l) s)

/-- A CALLING_TONE in SEIZED (R77; the ring count of its RING_UNANSWERED is that of a line without an episode, 0: log entry 55): the test, the exchange, the release, the result; then the pass of R138. -/
def glare (l : Line) (s : State) : State :=
  match s.call l with
  | none => s
  | some c =>
    if !(s.lu l).config.incoming then pass (ringUnanswered l 0 (glareOff l .glare (releaseGlare c (giveUpOut l s))))
    else if !s.answerOk then pass (ringUnanswered l 1 (glareOff l .glare (releaseGlare c (giveUpOut l s))))
    else if s.logFree = 0 then
      pass (glareOff l .logFull (releaseGlare c (giveUpOut l (logFullNotice (some l) s))))
    else
      let g := releaseGlare c (giveUpOut l s)
      match inReserve l g with
      | some g => pass (answering l s.now g)
      | none => pass (glareOff l .logFull g)

end Sys2Proof.Machine
end

