-- ==== Sys2Proof/Machine/Budget.lean ====
section
/-! DEFINITION. Budget actions (R162), the accruals that lead to them (R159 to R161), and the cancellation of send jobs (R141, R142): what other blocks do to calls through end requests. -/

namespace Sys2Proof.Machine

/-- The amount of a call's next accrual (R162). -/
def LogResv.nextAccrual (r : LogResv) : Nat := match r.unit with | some u => u.1 | none => r.lastPulse

/-- The action a check applies: end now for CUT, end after page for AFTER_PAGE, none for AFTER_CALL and for a FLASH job of a flash-exempt account (R162). -/
def budgetAction (a : Account) (cls : Cls) : Option EndRequest :=
  if cls == .flash && a.flashExempt then none
  else match a.policy with
    | .cut => some ⟨true, .budget⟩
    | .afterPage => some ⟨false, .budget⟩
    | .afterCall => none

/-- The next accrual would take spent past the limit (R162). -/
def Account.overruns (a : Account) (next : Nat) : Bool := a.limit != 0 && a.limit < a.spent + next

/-- The overrun check after an accrual (R162). BUDGET_ACTION is raised before the end request acts, so before the notices of an end at once (log entry 67,
the model's choice); the line stands as its object and not again among its fields (log entry 69, the model's choice). -/
def overrunCheck (l : Line) (s : State) : State :=
  match s.carried l with
  | none => s
  | some r =>
    match r.out with
    | none => s
    | some o =>
      let a := s.account o.account
      if a.overruns r.nextAccrual && !r.actionTaken then
        match budgetAction a o.cls with
        | none => s
        | some e =>
          let s := s.onCarried l ({ · with actionTaken := true })
          let jr := o.recip.getD (0, 0)
          let s := s.raise .budgetAction (eLine l) (e8 o.account ++ e8 jr.1 ++ e8 jr.2 ++ e8 a.policy.code)
          endRequest l e s
      else s

/-- An accrual and the check that follows it. -/
def accrueCheck (l : Line) (due : Nat) (s : State) : State := overrunCheck l (accrue l due s)

/-- CHG takes a pulse report with the call's meter value (R160). -/
def chgPulse (l : Line) (value : Nat) (s : State) : State :=
  accrueCheck l value (s.onCarried l ({ · with lastPulse := value, metered := true }))

/-- CHG takes a caller's answer report: for a timed call the first accrual and its check follow (R159, R160). -/
def chgAnswered (l : Line) (metered : Bool) (s : State) : State :=
  let s := chgAnswerOut l metered s
  if metered then s else accrueCheck l (firstCharge s l) s

/-- An expiry of a timed call's interval timer: it starts again, one unit charge accrues, the check follows (R159). -/
def chgInterval (l : Line) (s : State) : State :=
  match s.carried l with
  | none => s
  | some r =>
    match r.unit, r.intervalEnd with
    | some u, some _ => accrueCheck l u.1 (s.onCarried l ({ · with intervalEnd := some (s.elapsed + u.2) }))
    | _, _ => s

/-! ## Cancellation (R141, R142) -/

/-- A recipient not in a call and with no binding offered becomes CANCELLED at once. -/
def cancelIdle (j p : Nat) (s : State) : State :=
  match s.recip j p with
  | none => s
  | some r =>
    if r.state.terminal || r.state.calling || r.offeredTo.isSome then s
    else recipSet j p ({ · with state := .cancelled, last := some .cancelled, nextAttempt := none }) s

/-- A recipient in a call is ended through its line. -/
def cancelCalling (now : Bool) (j p : Nat) (s : State) : State :=
  match s.recip j p with
  | none => s
  | some r =>
    match r.state.calling, r.line with
    | true, some l => endRequest l ⟨now, .cancelled⟩ s
    | _, _ => s

/-- An unfinished job is cancelled, mode NOW or AFTER_PAGE (R141). -/
def jobCancel (j : Nat) (now : Bool) (s : State) : State :=
  match s.job j with
  | none => s
  | some x =>
    if x.finished then s
    else
      let ps := positions x.recips.length
      let s := s.onJob j ({ · with cancelRequested := true, cancelNow := now })
      let s := eachDo (cancelIdle j) ps s
      jobSettle j (eachDo (cancelCalling now j) ps s)

/-- DSC cancels every unfinished job on a document (R16, R142). -/
def jobsCancel (d : Nat) (s : State) : State :=
  eachDo (fun j s => if (s.job j).any (·.doc == d) then jobCancel j true s else s) s.dsc.jobs.keys s

/-- HLC revokes every open cursor on a document, releasing its hold at once (R16, R22). -/
def cursorsRevoke (d : Nat) (s : State) : State :=
  eachDo (fun k s =>
    match s.pmc.cursors.get k with
    | some c =>
      if c.doc = d ∧ c.state ≠ .revoked then
        docRelease d (s.onPmc fun p => { p with cursors := p.cursors.mod k ({ · with state := .revoked }) })
      else s
    | none => s) s.pmc.cursors.keys s

end Sys2Proof.Machine
end

