-- ==== Sys2Proof/Machine/Scan.lean ====
section
/-! DEFINITION. The Scan Controller's jobs (chapter 2): sync, scan lines, strips and pages, the end of a job, the making of a job. -/

namespace Sys2Proof.Machine

/-! ## The end of a job (R41) -/

/-- SCN cancels its job's print entry, still on the job's document. -/
def scnCancelEntry (r : ScanJob) (s : State) : State :=
  match r.entry with
  | some e => if (s.entry e).any (·.doc == r.doc) then entryCancel e s else s
  | none => s

/-- SCN cancels its job's send job, still on the job's document. -/
def scnCancelJob (r : ScanJob) (s : State) : State :=
  match r.sendJob with
  | some j => if (s.job j).any (·.doc == r.doc) then jobCancel j true s else s
  | none => s

/-- SCN cancels the attached holders of a document without a complete page (R41, R142). -/
def scnCancelHolders (r : ScanJob) (s : State) : State := scnCancelJob r (scnCancelEntry r s)

/-- SCN stops feeder and module, gives up sync lock and is IDLE (R41). -/
def scnHalt (s : State) : State :=
  s.onScn fun c =>
    { c with state := .idle, feeder := false, moduleOn := false, locked := false, hits := 0, misses := 0, expecting := false
             lineNo := 0, prevLine := none, prevDecoded := none }

/-- A scan job ends with an outcome (R41). -/
def scanEnd (o : ScanOutcome) (s : State) : State :=
  match s.scn.job with
  | none => s
  | some r =>
    let s := scnHalt (pageDiscard .scn r.doc s)
    let whole := s.completeCount r.doc
    let s := if whole = 0 then scnCancelHolders r s else s
    let s := if o = .done ∧ whole ≠ 0 then docClose r.doc s else docAbandon .scn r.doc s
    let s := s.onScn fun c => { c with job := c.job.map ({ · with outcome := some o }) }
    s.raise .scanEnd (e8 r.doc) (e8 o.code ++ e8 r.pagesDone)

/-- STOP and SCAN_STOP, by SCN's state (R42). -/
def scanStop (s : State) : State :=
  match s.scn.state with
  | .idle | .stopping => s
  | .scanning => s.onScn ({ · with state := .stopping })
  | _ => scanEnd .stopped s

/-! ## Sync (R32, R33) -/

inductive PulsePlace where | early | inWindow | late
  deriving DecidableEq, Repr

/-- The detect window of a resolution, in microseconds after the previous expected pulse (section 2.3). -/
def detectWindow : Resolution → Nat × Nat
  | .coarse => (9000, 11000)
  | .fine => (4500, 5500)
  | .super => (2250, 2750)

def pulsePlace (r : Resolution) (dt : Nat) : PulsePlace :=
  let w := detectWindow r
  if dt < w.1 then .early else if dt ≤ w.2 then .inWindow else .late

/-- A pulse, or the close of a window without one, in ACQUIRE (R32): eight consecutive in-window pulses lock sync and start the feed. -/
def acquirePulse (good : Bool) (s : State) : State :=
  let n := if good then s.scn.hits + 1 else 0
  if n = 8 then s.onScn ({ · with hits := n, misses := 0, locked := true, feeder := true, state := .pageGap })
  else s.onScn ({ · with hits := n })

/-- The miss count while locked (R33). -/
def lockedPulse (good : Bool) (s : State) : State := s.onScn fun c => { c with misses := if good then 0 else c.misses + 1 }

/-! ## Scan lines (R35 to R40) -/

/-- The strip that the next scan line goes into: a new one at the first of 64 lines (R37, R39). -/
def scanStrip (r : ScanJob) (s : State) : Option State :=
  if s.scn.lineNo % 64 = 0 then (stripOpen .scn r.doc (s.scn.lineNo / 64) 0 s).map (·.onScn ({ · with prevDecoded := none })) else some s

/-- A cleaned scan line is coded into the FILLING strip, which closes at the last of its 64 lines (R37, R39). -/
def scanWrite (w : Width) (px : Pixels) (s : State) : State :=
  let c := codeLine w s.scn.prevDecoded px
  let n := s.scn.lineNo + 1
  let s := (stripAppend .scn c.1 s).onResv .scn fun v => { v with strip := { v.strip with lines := v.strip.lines + 1 } }
  let s := s.onScn ({ · with lineNo := n, prevLine := some px, prevDecoded := some c.2 })
  if n % 64 = 0 then stripClose .scn .stored s else s

/-- A cleaned scan line is taken; with no room for its strip the job ends (R37, R39). -/
def scanCode (r : ScanJob) (px : Pixels) (s : State) : State :=
  match scanStrip r s with
  | none => scanEnd .memory s
  | some s => scanWrite r.params.width px s

/-- A scan line is taken, unless it is line 5121: the sheet is longer than a page may be (R35, R40). -/
def scanTake (r : ScanJob) (px : Pixels) (s : State) : State :=
  if 5120 ≤ s.scn.lineNo then scanEnd .jam s else scanCode r px s

/-- A sheet is under the scan line. -/
def ScanState.onSheet : ScanState → Bool | .scanning | .stopping => true | _ => false

/-- A line pulse (R32, R33, R35): sync first, then the scan line it carries. -/
def linePulse (dt : Nat) (dark : List Byte) (s : State) : State :=
  match s.scn.job with
  | none => s
  | some r =>
    let good := pulsePlace r.params.res dt == .inWindow
    match s.scn.state with
    | .acquire => if s.scn.expecting then acquirePulse good s else s.onScn ({ · with expecting := true })
    | .pageGap | .scanning | .stopping =>
      let s := lockedPulse good s
      if 2 ≤ s.scn.misses then scanEnd .syncLost s
      else if s.scn.state.onSheet && s.pins.pageSensor then
        scanTake r (cleanLine s.pins.moduleB4 r.params r.settings (s.scn.lineNo + 1) dark) s
      else s
    | _ => s

/-- A detect window closes with no pulse (R32, R33, R35): while scanning, a copy of the previous line stands in its place. -/
def windowClose (s : State) : State :=
  match s.scn.job with
  | none => s
  | some r =>
    match s.scn.state with
    | .acquire => if s.scn.expecting then acquirePulse false s else s
    | .pageGap | .scanning | .stopping =>
      let s := lockedPulse false s
      if 2 ≤ s.scn.misses then scanEnd .syncLost s
      else if s.scn.state.onSheet && s.pins.pageSensor then
        scanTake r (s.scn.prevLine.getD (whiteLine r.params.width.pixels)) s
      else s
    | _ => s

/-! ## Sheets (R30, R31, R34, R40) -/

/-- In WAIT_PAPER with paper present the page-begin test is taken (R30, R31). -/
def waitPaper (s : State) : State :=
  if s.scn.state = .waitPaper ∧ s.pins.feederPaper then (if s.pageBeginOk then scnAcquire s else scnMemoryWait s) else s

/-- The page sensor rises in PAGE_GAP: a page begins (R34). -/
def sheetRise (s : State) : State :=
  match s.scn.state, s.scn.job with
  | .pageGap, some r =>
    match pageBegin r.doc r.params.res r.params.width s with
    | .ok (_, s) => s.onScn ({ · with state := .scanning, lineNo := 0, prevLine := none, prevDecoded := none })
    | .error _ => s
  | _, _ => s

/-- The page ends at the sensor's fall: closed, or removed when it is blank under DROP or has no strip (R40). -/
def sheetPage (r : ScanJob) (s : State) : State :=
  let s := stripClose .scn .stored s
  match (s.doc r.doc).bind (·.filling) with
  | none => s
  | some p =>
    if p.strips.isEmpty || (r.params.blank == .drop && s.pageBlank p) then pageDiscard .scn r.doc s
    else pageFinish .scn r.doc (s.onScn fun c => { c with job := c.job.map fun r => { r with pagesDone := r.pagesDone + 1 } })

/-- What comes after a page end (R40). -/
def sheetNext (r : ScanJob) (stopping : Bool) (s : State) : State :=
  if stopping then scanEnd .stopped s
  else if !s.pins.feederPaper then scanEnd .done s
  else if (s.doc r.doc).any (fun d => 250 ≤ d.pages.length) then scanEnd .pageLimit s
  else if s.pageBeginOk then s.onScn ({ · with state := .pageGap, feeder := true, lineNo := 0, prevLine := none, prevDecoded := none })
  else scnMemoryWait (s.onScn ({ · with lineNo := 0, prevLine := none, prevDecoded := none }))

/-- The page sensor falls while a sheet is under the scan line (R40). -/
def sheetFall (s : State) : State :=
  match s.scn.job with
  | none => s
  | some r => if s.scn.state.onSheet then sheetNext r (s.scn.state == .stopping) (sheetPage r s) else s

/-! ## The making of a job (R28, R43) -/

/-- SCN makes the document, the print entry and the job record (R28); the refusal gives the state it leaves. -/
def scanMake (byKey : Bool) (p : Preset) (s : State) : Except State (Nat × Option Nat × State) :=
  match docMake .scan false none none none none s with
  | none => .error s
  | some (d, s) =>
    let made (e : Option Nat) (s : State) : State :=
      s.onScn fun c => { c with state := .waitPaper, job := some ⟨d, p, 0, e, none, byKey, none, c.settings⟩ }
    match p.spec with
    | none => .ok (d, none, made none s)
    | some (copies, bin) =>
      match entryCreate d none none copies bin.val Cls.routine.code s with
      | .ok (e, s) => .ok (d, some e, made (some e) s)
      | .error _ => .error (docAbandon .scn d s)

end Sys2Proof.Machine
end

