-- ==== Sys2Proof/Machine/CmdPmc.lean ====
section
/-! DEFINITION. Page memory's commands: the floors, host writing, documents, cursors (chapter 1), and the end of a burst. -/

namespace Sys2Proof.Machine

/-! ## Lists in replies (R185) -/

/-- As many whole items as fit in `room` bytes. -/
def fitItems (room : Nat) : List (List Byte) → List (List Byte)
  | [] => []
  | x :: xs => if x.length ≤ room then x :: fitItems (room - x.length) xs else []

/-- The fields before the list, the number of items not given, the items from the first item on that fit in a body of 1020 bytes, and the fields
after the list, the fields in the order of the rule that names them (R185, R195; log entry 38). -/
def listBody (before : List Byte) (first : Option Nat) (items : List (List Byte)) (after : List Byte := []) : List Byte :=
  let items := items.drop (first.getD 1 - 1)
  let given := fitItems (Config.maxBody - (1 + (before.length + after.length)) - 3) items
  before ++ e16 (items.length - given.length) ++ e8 given.length ++ given.flatten ++ after

/-- A request with a list: a first item of 0 is refused with BAD_FIELD (R185). -/
def listQuery (kind tag : Nat) (first : Option Nat) (body : State → Except Result (List Byte)) (s : State) : State :=
  if first = some 0 then s.deny kind tag .badField
  else match body s with
    | .ok b => s.ok kind tag b
    | .error r => s.deny kind tag r

/-! ## Floors (R3) -/

def doMemFloorsSet (tag recvContinue scanFloor : Nat) (s : State) : State :=
  if between 64 2048 recvContinue && between 128 3072 scanFloor then
    (((s.onPmc fun p => { p with recvContinue, scanFloor }).dirty rowProtocol).dirty rowScan).ok 0x10 tag []
  else s.deny 0x10 tag .badField

/-- MEM_FLOORS_SET (R3). -/
def execMemFloorsSet (tag recvContinue scanFloor : Nat) (s : State) : Host.Outcome State Fault Refusal :=
  request s (doMemFloorsSet tag recvContinue scanFloor)

/-! ## Host writing (R18 to R21) -/

def doDocCreate (tag : Nat) (retain : Bool) (s : State) : State :=
  if s.hlc.hostDoc.isSome then s.deny 0x11 tag .state
  else match docMake .host retain none none none none s with
    | none => s.deny 0x11 tag .full
    | some (d, s) => (s.onHlc ({ · with hostDoc := some d })).ok 0x11 tag (e8 d)

/-- DOC_CREATE (R18). -/
def execDocCreate (tag : Nat) (retain : Bool) (s : State) : Host.Outcome State Fault Refusal := request s (doDocCreate tag retain)

/-- A request to write names a document that is not the OPEN host-written document: NO_SUCH (R18, R19, R21); the next one naming a
host-written document that UNATTENDED made ABANDONED is answered STATE (R11; log entry 13). -/
def hostUnknown (kind tag doc : Nat) (s : State) : State :=
  if doc ∈ s.hlc.hostLost ∧ (s.doc doc).any (fun d => d.origin == .host && d.state == .abandoned) then
    (s.onHlc fun h => { h with hostLost := h.hostLost.filter (· != doc) }).deny kind tag .state
  else s.deny kind tag .noSuch

def doPageBegin (tag doc res width : Nat) (s : State) : State :=
  if s.hlc.hostDoc ≠ some doc then hostUnknown 0x12 tag doc s
  else match Resolution.of? res, Width.of? width with
    | some r, some w =>
      if (s.doc doc).any (·.filling.isSome) then s.deny 0x12 tag .state
      else if (s.doc doc).any (fun d => 250 ≤ d.pages.length) || !s.pageBeginOk then s.deny 0x12 tag .full
      else match pageBegin doc r w s with
        | .ok (n, s) => s.ok 0x12 tag (e8 n)
        | .error e => s.deny 0x12 tag e
    | _, _ => s.deny 0x12 tag .badField

/-- PAGE_BEGIN (R18). -/
def execPageBegin (tag doc res width : Nat) (s : State) : Host.Outcome State Fault Refusal := request s (doPageBegin tag doc res width)

/-- The strip is FILLING with its chunk written: the reply to a chunk that is not the last, or PMC's verification of the strip (R19, R20). -/
def stripChunk (tag doc : Nat) (last : Bool) (s : State) : State :=
  match s.resvOf .hlc, (s.doc doc).bind (·.filling) with
  | some r, some p =>
    if !last then s.ok 0x13 tag (e16 r.strip.coded)
    else if verifyStrip p.width none r.strip.lines (stripRead s.mem r.blocks 8 r.strip.coded) then
      (stripClose .hlc .stored s).ok 0x13 tag (e8 r.strip.no ++ e8 (blocksFor r.strip.coded))
    else (stripDiscard .hlc s).deny 0x13 tag .badCoding
  | _, _ => s.deny 0x13 tag .state

/-- The first chunk of a strip (R19). -/
def stripFirst (tag doc lines : Nat) (last : Bool) (chunk : List Byte) (s : State) : State :=
  match (s.doc doc).bind (·.filling) with
  | none => s.deny 0x13 tag .state
  | some p =>
    if p.strips.any (·.lines < 64) then s.deny 0x13 tag .state
    else if 80 ≤ p.strips.length then s.deny 0x13 tag .full
    else match stripOpen .hlc doc p.strips.length lines s with
      | none => s.deny 0x13 tag .full
      | some s => stripChunk tag doc last (stripAppend .hlc chunk s)

/-- A chunk that continues the strip FILLING (R19). -/
def stripMore (tag doc lines : Nat) (last : Bool) (chunk : List Byte) (r : Resv) (s : State) : State :=
  if lines ≠ r.strip.lines ∨ Config.maxCoded < r.strip.coded + chunk.length then (stripDiscard .hlc s).deny 0x13 tag .badField
  else stripChunk tag doc last (stripAppend .hlc chunk s)

/-- STRIP_DATA's tests in the model's order: document, line count and chunk length, then page and room (R19; log entry 35). A chunk of more than 960
bytes discards the strip that it continues, as an empty one does (log entry 75). -/
def doStripData (tag doc lines : Nat) (last : Bool) (chunk : List Byte) (s : State) : State :=
  if s.hlc.hostDoc ≠ some doc then hostUnknown 0x13 tag doc s
  else if !(between 1 64 lines && between 1 960 chunk.length) then (stripDiscard .hlc s).deny 0x13 tag .badField
  else match s.resvOf .hlc with
    | none => stripFirst tag doc lines last chunk s
    | some r => stripMore tag doc lines last chunk r s

/-- STRIP_DATA (R19, R20). -/
def execStripData (tag doc lines : Nat) (last : Bool) (chunk : List Byte) (s : State) : Host.Outcome State Fault Refusal :=
  request s (doStripData tag doc lines last chunk)

def doPageClose (tag doc : Nat) (s : State) : State :=
  if s.hlc.hostDoc ≠ some doc then hostUnknown 0x14 tag doc s
  else match (s.doc doc).bind (·.filling) with
    | none => s.deny 0x14 tag .state
    | some p =>
      if (s.resvOf .hlc).isSome || p.strips.isEmpty then s.deny 0x14 tag .state
      else (pageFinish .hlc doc s).ok 0x14 tag (e8 p.number ++ e16 p.lineCount)

/-- PAGE_CLOSE (R21). -/
def execPageClose (tag doc : Nat) (s : State) : Host.Outcome State Fault Refusal := request s (doPageClose tag doc)

def doDocClose (tag doc : Nat) (s : State) : State :=
  if s.hlc.hostDoc ≠ some doc then hostUnknown 0x15 tag doc s
  else if (s.doc doc).any (·.filling.isSome) then s.deny 0x15 tag .state
  else (docClose doc (s.onHlc ({ · with hostDoc := none }))).ok 0x15 tag []

/-- DOC_CLOSE (R21). -/
def execDocClose (tag doc : Nat) (s : State) : Host.Outcome State Fault Refusal := request s (doDocClose tag doc)

/-! ## Documents (R14 to R17) -/

def doDocRetain (tag doc : Nat) (set : Bool) (s : State) : State :=
  match s.doc doc with
  | none => s.deny 0x16 tag .noSuch
  | some d =>
    if d.deletePending then s.deny 0x16 tag .noSuch
    else (docFree doc (s.onDoc doc ({ · with retained := set }))).ok 0x16 tag []

/-- DOC_RETAIN (R14). -/
def execDocRetain (tag doc : Nat) (set : Bool) (s : State) : Host.Outcome State Fault Refusal := request s (doDocRetain tag doc set)

/-- The cancellations of a forced delete (R16). -/
def forceDelete (doc : Nat) (s : State) : State :=
  cursorsRevoke doc (entriesCancel doc (jobsCancel doc (s.onDoc doc ({ · with retained := false, deletePending := true }))))

def doDocDelete (tag doc : Nat) (force : Bool) (s : State) : State :=
  match s.doc doc with
  | none => s.deny 0x17 tag .noSuch
  | some d =>
    if d.state = .opened then s.deny 0x17 tag .state
    else if d.deletePending then s.ok 0x17 tag []
    else if d.holders = 0 then (docFree doc (s.onDoc doc ({ · with retained := false }))).ok 0x17 tag []
    else if !force then s.deny 0x17 tag .inUse
    else (forceDelete doc s).ok 0x17 tag []

/-- DOC_DELETE (R15, R16). -/
def execDocDelete (tag doc : Nat) (force : Bool) (s : State) : Host.Outcome State Fault Refusal := request s (doDocDelete tag doc force)

def Page.item (p : Page) : List Byte :=
  e8 p.number ++ e8 p.res.code ++ e8 p.width.code ++ e16 p.lineCount ++ e8 p.complete.toNat ++ eFlag p.blank ++ eOpt (eList e8) p.damaged

def Doc.fixed (d : Doc) (id : Nat) : List Byte :=
  e8 id ++ e8 d.origin.code ++ e8 d.state.code ++ e8 d.pages.length ++ e8 d.completeCount ++ e8 d.holders ++ eFlag d.retained
    ++ eFlag d.deletePending ++ e16 d.blocks.length ++ eOpt e8 d.route ++ eOpt eStr d.remoteTag ++ eOpt eLine d.line ++ eOpt eTime d.arrival

def doDocInfo (tag doc : Nat) (first : Option Nat) : State → State :=
  listQuery 0x18 tag first fun s =>
    match s.doc doc with
    | none => .error .noSuch
    | some d => .ok (listBody (d.fixed doc) first (d.pages.map Page.item))

/-- DOC_INFO (R17). -/
def execDocInfo (tag doc : Nat) (first : Option Nat) (s : State) : Host.Outcome State Fault Refusal := request s (doDocInfo tag doc first)

def docItem (x : Nat × Doc) : List Byte :=
  e8 x.1 ++ e8 x.2.origin.code ++ e8 x.2.state.code ++ e8 x.2.pages.length ++ e8 x.2.holders ++ eFlag x.2.retained ++ eFlag x.2.deletePending

def doDocList (tag : Nat) (first : Option Nat) : State → State :=
  listQuery 0x19 tag first fun s => .ok (listBody (e16 s.pmc.free.length ++ e8 s.pmc.resv.length) first (s.pmc.docs.map docItem))

/-- DOC_LIST (R17). -/
def execDocList (tag : Nat) (first : Option Nat) (s : State) : Host.Outcome State Fault Refusal := request s (doDocList tag first)

/-! ## Read cursors (R22, R23) -/

def doCursorOpen (tag doc : Nat) (page : Option Nat) (s : State) : State :=
  let n := page.getD 1
  if !between 1 250 n then s.deny 0x1A tag .badField
  else match s.pmc.cursors.lowestFree 4 with
    | none => s.deny 0x1A tag .full
    | some k =>
      match docHold doc s with
      | none => s.deny 0x1A tag .noSuch
      | some s => (s.onPmc fun p => { p with cursors := p.cursors.put k ⟨doc, n, 0, 0, .opened⟩ }).ok 0x1A tag (e8 k)

/-- CURSOR_OPEN (R22). -/
def execCursorOpen (tag doc : Nat) (page : Option Nat) (s : State) : Host.Outcome State Fault Refusal := request s (doCursorOpen tag doc page)

def State.cursorFree (s : State) (k : Nat) : State := s.onPmc fun p => { p with cursors := p.cursors.del k }

def doCursorClose (tag cursor : Nat) (s : State) : State :=
  match s.pmc.cursors.get cursor with
  | none => s.deny 0x1B tag .noSuch
  | some c =>
    if c.state = .revoked then (s.cursorFree cursor).deny 0x1B tag .noSuch
    else (docRelease c.doc (s.cursorFree cursor)).ok 0x1B tag []

/-- CURSOR_CLOSE (R22). -/
def execCursorClose (tag cursor : Nat) (s : State) : Host.Outcome State Fault Refusal := request s (doCursorClose tag cursor)

/-- The stored form of a strip as a cursor reads it: a DAMAGED strip is its header with the damaged mark and coded length 0 (R6). -/
def State.storedForm (s : State) (p : Page) (x : Strip) : List Byte :=
  if x.state = .stored then stripRead s.mem x.blocks 0 (8 + x.coded)
  else stripHeader p.number x.no x.lines p.res p.width true 0

/-- The stream of a document's complete pages from a page and strip on, strip by strip (section 1.7). -/
def State.stream (s : State) (d : Doc) (page strip : Nat) : List (Nat × Nat × List Byte) :=
  (d.pages.filter fun p => p.complete && page ≤ p.number).flatMap fun p =>
    (p.strips.filter fun x => page < p.number || strip ≤ x.no).map fun x => (p.number, x.no, s.storedForm p x)

/-- Takes up to `len` bytes of a stream from an offset in its first strip: the bytes, and the position after them with whether it is the stream's end. -/
def takeStream (pos : Nat × Nat × Nat) (len off : Nat) : List (Nat × Nat × List Byte) → List Byte × (Nat × Nat × Nat) × Bool
  | [] => ([], pos, true)
  | (pg, st, bs) :: rest =>
    let left := bs.drop off
    if len < left.length then (left.take len, (pg, st, off + len), false)
    else
      let r := takeStream (pg, st, bs.length) (len - left.length) 0 rest
      (left ++ r.1, r.2)

def cursorReply (c : Cursor) (bytes : List Byte) : List Byte :=
  e8 c.page ++ e8 c.strip ++ e16 c.offset ++ e8 c.state.code ++ e16 bytes.length ++ bytes

/-- A read of an OPEN cursor (R23). -/
def cursorRead (tag k len : Nat) (c : Cursor) (s : State) : State :=
  match s.doc c.doc with
  | none => s.deny 0x1C tag .noSuch
  | some d =>
    let r := takeStream (c.page, c.strip, c.offset) len c.offset (s.stream d c.page c.strip)
    if r.1.isEmpty && d.state == .opened then s.deny 0x1C tag .notYet
    else
      let c := { c with page := r.2.1.1, strip := r.2.1.2.1, offset := r.2.1.2.2, state := if r.2.2 && d.state != .opened then .atEnd else .opened }
      let s := s.onPmc fun p => { p with cursors := p.cursors.put k c }
      (arbAsk .hlc (burstsFor r.1.length) s).ok 0x1C tag (cursorReply c r.1)

def doStripRead (tag cursor len : Nat) (s : State) : State :=
  if !between 1 960 len then s.deny 0x1C tag .badField
  else match s.pmc.cursors.get cursor with
    | none => s.deny 0x1C tag .noSuch
    | some c =>
      match c.state with
      | .revoked => (s.cursorFree cursor).deny 0x1C tag .noSuch
      | .atEnd => s.ok 0x1C tag (cursorReply c [])
      | .opened => cursorRead tag cursor len c s

/-- STRIP_READ (R23). -/
def execStripRead (tag cursor len : Nat) (s : State) : Host.Outcome State Fault Refusal := request s (doStripRead tag cursor len)

/-! ## The end of a burst (R24) -/

/-- A reader whose last burst has moved goes on with its strip. -/
def burstDone (c : Client) (s : State) : State :=
  match c with
  | .prt => prtStripRead s
  | .lu l => luStripRead l s
  | _ => s

def burstComplete (s : State) : State :=
  match s.arb.busy with
  | none => s
  | some c => arbGrant (burstDone c (s.onArb ({ · with busy := none })))

/-- BURST_COMPLETE (R24). -/
def execBurstComplete (s : State) : Host.Outcome State Fault Refusal := event s burstComplete

end Sys2Proof.Machine
end

