-- ==== Sys2Proof/Machine/CmdScn.lean ====
section
/-! DEFINITION. The Scan Controller's commands: its requests, the panel keys, its sensors, pulses and timers (chapter 2). -/

namespace Sys2Proof.Machine

/-- The width class cannot be scanned by the fitted module (R27, R28). -/
def State.tooWide (s : State) (p : Preset) : Bool := p.width == .b4 && !s.pins.moduleB4

def doScan (tag res width density blank : Nat) (spec : Option (Nat × Nat)) (s : State) : State :=
  if s.scn.state ≠ .idle then s.deny 0x20 tag .state
  else match presetOf? res width density blank spec with
    | none => s.deny 0x20 tag .badField
    | some p =>
      if s.tooWide p then s.deny 0x20 tag .badField
      else match scanMake false p s with
        | .error s => s.deny 0x20 tag .full
        | .ok (d, e, s) => waitPaper (s.ok 0x20 tag (e8 d ++ eOpt e8 e))

/-- SCAN (R28, R30). -/
def execScan (tag res width density blank : Nat) (spec : Option (Nat × Nat)) (s : State) : Host.Outcome State Fault Refusal :=
  request s (doScan tag res width density blank spec)

def doScanStop (tag : Nat) (s : State) : State :=
  if s.scn.state = .idle then s.deny 0x21 tag .state else (scanStop s).ok 0x21 tag []

/-- SCAN_STOP (R42). -/
def execScanStop (tag : Nat) (s : State) : Host.Outcome State Fault Refusal := request s (doScanStop tag)

def doScanSettingsSet (tag : Nat) (v : ScanSettings) (s : State) : State :=
  if scanSettingsOk v then ((s.onScn ({ · with settings := v })).dirty rowScan).ok 0x22 tag [] else s.deny 0x22 tag .badField

/-- SCAN_SETTINGS_SET (R26). -/
def execScanSettingsSet (tag : Nat) (v : ScanSettings) (s : State) : Host.Outcome State Fault Refusal := request s (doScanSettingsSet tag v)

def doScanPresetSet (tag res width density blank : Nat) (spec : Option (Nat × Nat)) (s : State) : State :=
  match presetOf? res width density blank spec with
  | none => s.deny 0x23 tag .badField
  | some p =>
    if s.tooWide p then s.deny 0x23 tag .badField
    else ((s.onScn ({ · with preset := some p })).dirty rowPreset).ok 0x23 tag []

/-- SCAN_PRESET_SET (R27). -/
def execScanPresetSet (tag res width density blank : Nat) (spec : Option (Nat × Nat)) (s : State) : Host.Outcome State Fault Refusal :=
  request s (doScanPresetSet tag res width density blank spec)

def doScanPresetClear (tag : Nat) (s : State) : State := ((s.onScn ({ · with preset := none })).dirty rowPreset).ok 0x24 tag []

/-- SCAN_PRESET_CLEAR (R27). -/
def execScanPresetClear (tag : Nat) (s : State) : Host.Outcome State Fault Refusal := request s (doScanPresetClear tag)

def eScanSettings (v : ScanSettings) : List Byte :=
  e16 v.start ++ e16 v.stop ++ e8 v.topErase ++ e8 v.light ++ e8 v.normal ++ e8 v.dark ++ e8 v.noise

def eSpec (x : Nat × Bin) : List Byte := e8 x.1 ++ e8 x.2.val

def ePreset (p : Preset) : List Byte :=
  e8 p.res.code ++ e8 p.width.code ++ e8 p.density.code ++ e8 p.blank.code ++ eOpt eSpec p.spec

/-- The job record in the order of its table; for a job in progress its copy of the settings and the page in progress follow (R46). -/
def eScanJob (s : State) (r : ScanJob) : List Byte :=
  let running := s.scn.state ≠ .idle
  e8 r.doc ++ e8 r.params.res.code ++ e8 r.params.width.code ++ e8 r.params.density.code ++ e8 r.params.blank.code ++ e8 r.pagesDone
    ++ eOpt eSpec r.params.spec ++ eOpt e8 r.entry ++ eOpt e8 r.sendJob ++ e8 r.byKey.toNat ++ e8 s.scn.state.code
    ++ eOpt (fun o => e8 o.code) r.outcome ++ eOpt eScanSettings (if running then some r.settings else none)
    ++ eOpt e8 (if s.scn.state.onSheet then ((s.doc r.doc).bind (·.filling)).map (·.number) else none)

/-- The reply of SCAN_STATUS (R46); the two sensors are flags, 1 for paper in the feeder and 1 for a sheet at the page sensor (log entry 38, the model's
choice). -/
def doScanStatus (tag : Nat) (s : State) : State :=
  s.ok 0x25 tag (e8 s.scn.state.code ++ eFlag s.scn.locked ++ e8 s.pins.moduleB4.toNat ++ eFlag s.pins.feederPaper ++ eFlag s.pins.pageSensor
    ++ eScanSettings s.scn.settings ++ eOpt ePreset s.scn.preset ++ eOpt (eScanJob s) s.scn.job)

/-- SCAN_STATUS (R46). -/
def execScanStatus (tag : Nat) (s : State) : Host.Outcome State Fault Refusal := request s (doScanStatus tag)

/-! ## The panel keys (R42, R43) -/

/-- STOP_KEY (R42). -/
def execStopKey (s : State) : Host.Outcome State Fault Refusal := event s scanStop

/-- NO_PRESET with its reason, BUSY 0, NONE_STORED 1 or FULL 2 (R43). -/
def noPreset (reason : Nat) (s : State) : State := s.raise .noPreset (e8 0) (e8 reason)

def startKey (s : State) : State :=
  if s.scn.state ≠ .idle then noPreset 0 s
  else match s.scn.preset with
    | none => noPreset 1 s
    | some p =>
      if s.tooWide p then noPreset 1 s
      else match scanMake true p s with
        | .error s => noPreset 2 s
        | .ok (d, e, s) => waitPaper (s.raise .scanStarted (e8 d) (eOpt e8 e))

/-- START_KEY (R43). -/
def execStartKey (s : State) : Host.Outcome State Fault Refusal := event s startKey

/-! ## Sensors, pulses and timers -/

def paperSensor (present : Bool) (s : State) : State :=
  let s := s.onPins ({ · with feederPaper := present })
  if s.scn.state = .memoryWait ∧ present = false then scanEnd .done s else waitPaper s

/-- An input level is tracked whether or not the blocks work; the effect needs them to. -/
def levelEvent (s : State) (level : State → State) (f : State → State) : Host.Outcome State Fault Refusal :=
  if s.running then event s f else .next (level s)

/-- PAPER_SENSOR (R30, R31). -/
def execPaperSensor (present : Bool) (s : State) : Host.Outcome State Fault Refusal :=
  levelEvent s (·.onPins ({ · with feederPaper := present })) (paperSensor present)

def waitPaperTimeout (s : State) : State := if s.scn.state = .waitPaper ∧ s.pins.feederPaper = false then scanEnd .noPaper s else s

/-- WAIT_PAPER_TIMEOUT (R30). -/
def execWaitPaperTimeout (s : State) : Host.Outcome State Fault Refusal := event s waitPaperTimeout

/-- LINE_PULSE (R32, R33, R35). -/
def execLinePulse (dt : Nat) (pixels : List Byte) (s : State) : Host.Outcome State Fault Refusal := event s (linePulse dt pixels)

/-- DETECT_WINDOW_CLOSE (R32, R33, R35). -/
def execDetectWindowClose (s : State) : Host.Outcome State Fault Refusal := event s windowClose

def acquireTimeout (s : State) : State := if s.scn.state = .acquire then scanEnd .syncLost s else s

/-- ACQUIRE_TIMEOUT (R32). -/
def execAcquireTimeout (s : State) : Host.Outcome State Fault Refusal := event s acquireTimeout

/-- PAGE_SENSOR_RISE (R34). -/
def execPageSensorRise (s : State) : Host.Outcome State Fault Refusal :=
  levelEvent s (·.onPins ({ · with pageSensor := true })) fun s => sheetRise (s.onPins ({ · with pageSensor := true }))

def pageGapTimeout (s : State) : State := if s.scn.state = .pageGap then scanEnd .jam s else s

/-- PAGE_GAP_TIMEOUT (R34). -/
def execPageGapTimeout (s : State) : Host.Outcome State Fault Refusal := event s pageGapTimeout

/-- PAGE_SENSOR_FALL (R40). -/
def execPageSensorFall (s : State) : Host.Outcome State Fault Refusal :=
  levelEvent s (·.onPins ({ · with pageSensor := false })) fun s => sheetFall (s.onPins ({ · with pageSensor := false }))

end Sys2Proof.Machine
end

