-- ==== Sys2Proof/Machine/CmdPrt.lean ====
section
/-! DEFINITION. The Print Engine's commands: its requests, sensors, line times and timers (chapter 3). -/

namespace Sys2Proof.Machine

def doPrint (tag doc : Nat) (first last : Option Nat) (copies bin cls : Nat) (s : State) : State :=
  match entryCreate doc first last copies bin cls s with
  | .ok (e, s) => s.ok 0x28 tag (e8 e)
  | .error r => s.deny 0x28 tag r

/-- PRINT (R49). -/
def execPrint (tag doc : Nat) (first last : Option Nat) (copies bin cls : Nat) (s : State) : Host.Outcome State Fault Refusal :=
  request s (doPrint tag doc first last copies bin cls)

def doPrintCancel (tag entry : Nat) (s : State) : State :=
  match s.entry entry with
  | none => s.deny 0x29 tag .noSuch
  | some e => if e.unfinished then (entryCancel entry s).ok 0x29 tag [] else s.deny 0x29 tag .state

/-- PRINT_CANCEL (R67); an entry id outside 1 to 48 names an empty slot (log entry 34). -/
def execPrintCancel (tag entry : Nat) (s : State) : Host.Outcome State Fault Refusal := request s (doPrintCancel tag entry)

def doPrintResume (tag : Nat) (s : State) : State :=
  if s.prt.engine = .halted .warmupFail then (engineLeave s).ok 0x2A tag [] else s.deny 0x2A tag .state

/-- PRINT_RESUME (R59). -/
def execPrintResume (tag : Nat) (s : State) : Host.Outcome State Fault Refusal := request s (doPrintResume tag)

def doPrintRearm (tag : Nat) (s : State) : State :=
  if s.prt.engine.isFault && s.headFault.isNone then (engineLeave s).ok 0x2B tag [] else s.deny 0x2B tag .state

/-- PRINT_REARM (R66). -/
def execPrintRearm (tag : Nat) (s : State) : Host.Outcome State Fault Refusal := request s (doPrintRearm tag)

def doPrintThermalSet (tag : Nat) (v : Thermal) (s : State) : State :=
  if thermalOk v then ((s.onPrt ({ · with thermal := v })).dirty rowThermal).ok 0x2C tag [] else s.deny 0x2C tag .badField

/-- PRINT_THERMAL_SET (R62). -/
def execPrintThermalSet (tag : Nat) (v : Thermal) (s : State) : Host.Outcome State Fault Refusal := request s (doPrintThermalSet tag v)

def eThermal (v : Thermal) : List Byte := e16 v.trip ++ e16 v.resume ++ e16 v.cooling ++ e8 v.ready ++ e8 v.maximum

/-- Every field of an entry in the order of its table (R68). -/
def entryItem (x : Nat × Entry) : List Byte :=
  let r := x.2
  e8 x.1 ++ e8 r.doc ++ e8 r.first ++ eOpt e8 r.last ++ eOpt e8 r.rangeEnd ++ e8 r.copies ++ e8 r.bin.val ++ e8 r.cls.code ++ eFlag r.follow
    ++ e8 r.copy ++ e8 r.page ++ e16 r.printed ++ eFlag r.cancelPending ++ e8 r.state.code ++ e32 r.enqueue ++ eOpt e32 r.finish

/-- The engine part of PRINT_STATUS (R68): paper 1 is present, cover 1 is closed (log entry 38); the spoiled count is given modulo 65 536 (log entry 49). -/
def enginePart (s : State) : List Byte :=
  e8 s.prt.engine.code ++ eOpt e8 s.prt.engine.reason ++ e16 s.prt.heat ++ e8 s.pins.headTemp ++ eFlag s.pins.printPaper
    ++ eFlag s.pins.coverClosed ++ eFlag s.pins.overcurrent ++ s.pins.binFull.toList.flatMap eFlag ++ e16 s.prt.spoiled
    ++ eThermal s.prt.thermal ++ eOpt e8 s.prt.current ++ eFlag s.prt.page.isSome

def doPrintStatus (tag : Nat) (entry : Option Nat) (first : Option Nat) : State → State :=
  listQuery 0x2D tag first fun s =>
    match entry with
    | none => .ok (listBody (enginePart s) first (s.prt.entries.map entryItem))
    | some e =>
      match s.entry e with
      | none => .error .noSuch
      | some r => .ok (listBody (enginePart s) first [entryItem (e, r)])

/-- PRINT_STATUS (R68); an entry id outside 1 to 48 names an empty slot (log entry 34). -/
def execPrintStatus (tag : Nat) (entry : Option Nat) (first : Option Nat) (s : State) : Host.Outcome State Fault Refusal :=
  request s (doPrintStatus tag entry first)

/-! ## Line times, sensors, the warm-up limit -/

def headRead (temp : Nat) (overcurrent : Bool) (s : State) : State := s.onPins ({ · with headTemp := temp, overcurrent })

/-- A line time: the head's line, the cooling, the reading of the head, then the tests of pause and warm-up (R56, R58, R60, R61, R65). -/
def lineTime (temp : Nat) (overcurrent : Bool) (s : State) : State :=
  warmTest (pauseTest (faultTest (headRead temp overcurrent (headCool (headLine s)))))

/-- LINE_TIME (R56, R60, R61, R65). -/
def execLineTime (temp : Nat) (overcurrent : Bool) (s : State) : Host.Outcome State Fault Refusal :=
  levelEvent s (headRead temp overcurrent) (lineTime temp overcurrent)

def warmupTimeout (s : State) : State := if s.prt.engine = .warmup then prtHalt .warmupFail s else s

/-- WARMUP_TIMEOUT (R58). -/
def execWarmupTimeout (s : State) : Host.Outcome State Fault Refusal := event s warmupTimeout

/-- A change of the paper sensor or the cover, already in the pins (R63, R64). -/
def paperCover (s : State) : State :=
  match s.prt.engine, s.haltReason with
  | .printing, some r => prtHalt r (pageSpoil s)
  | .thermalPause, some r => prtHalt r (pageSpoil s)
  | .warmup, some r => prtHalt r s
  | .halted .paperOut, none => engineLeave s
  | .halted .coverOpen, none => engineLeave s
  | _, _ => s

/-- PRINT_PAPER_SENSOR (R63, R64). -/
def execPrintPaperSensor (present : Bool) (s : State) : Host.Outcome State Fault Refusal :=
  levelEvent s (·.onPins ({ · with printPaper := present })) fun s => paperCover (s.onPins ({ · with printPaper := present }))

/-- COVER_SENSOR (R63, R64). -/
def execCoverSensor (closed : Bool) (s : State) : Host.Outcome State Fault Refusal :=
  levelEvent s (·.onPins ({ · with coverClosed := closed })) fun s => paperCover (s.onPins ({ · with coverClosed := closed }))

def binLevel (b : Bin) (full : Bool) (s : State) : State := s.onPins fun p => { p with binFull := set4 p.binFull b full }

/-- A bin's full sensor changes: BIN_CHANGED, and selection when it falls with the engine IDLE (R57). -/
def binSensor (b : Bin) (full : Bool) (s : State) : State :=
  if at4 s.pins.binFull b = full then s
  else
    let s := (binLevel b full s).raise .binChanged (e8 b.val) (e8 full.toNat)
    if full then s else selectIfIdle s

/-- BIN_FULL_SENSOR (R57). -/
def execBinFullSensor (bin : Bin) (full : Bool) (s : State) : Host.Outcome State Fault Refusal :=
  levelEvent s (binLevel bin full) (binSensor bin full)

end Sys2Proof.Machine
end

