-- ==== Sys2Proof/Machine/CmdLine.lean ====
section
/-! DEFINITION. The line units' commands of call control: configuration, status, rings, voltage, timers, bindings, dialling, tones, meter pulses (chapter 4). -/

namespace Sys2Proof.Machine

/-! ## Requests (R71, R88, R91) -/

/-- A line enters DISABLED: both timers stop, a ringing episode is dropped (R71, R72). -/
def lineDisable (l : Line) (s : State) : State :=
  lineMove l .disabled none (s.onLu l ({ · with
    faultTimer := false, faultExpired := false, clearingTimer := false, episode := none, ringGap := false, ringCount := 0 }))

/-- A DISABLED line is enabled: IDLE, the fault timer running when the voltage is absent (R71, R72). -/
def lineEnable (l : Line) (s : State) : State :=
  lineMove l .idle none (s.onLu l fun u => { u with faultTimer := !u.voltage, faultExpired := false })

/-- The effect of the enabled flag as it now stands (R71). -/
def lineEnabled (l : Line) (s : State) : State :=
  match (s.lu l).state, (s.lu l).config.enabled with
  | .idle, false => lineDisable l s
  | .ringing, false => lineDisable l s
  | .fault, false => lineDisable l s
  | .disabled, true => lineEnable l s
  | _, _ => s

def doLineConfigSet (tag line : Nat) (v : RawLineConfig) (s : State) : State :=
  match four? line, lineConfigOf? v with
  | some l, some c =>
    let t := lineEnabled l ((s.onLu l ({ · with config := c })).dirty (rowLine l))
    (passIfOffered l s t).ok 0x30 tag []
  | _, _ => s.deny 0x30 tag .badField

/-- LINE_CONFIG_SET (R71). -/
def execLineConfigSet (tag line : Nat) (v : RawLineConfig) (s : State) : Host.Outcome State Fault Refusal := request s (doLineConfigSet tag line v)

def doAnswerWaitSet (tag wait : Nat) (s : State) : State :=
  if between 20 120 wait then ((s.onLus ({ · with answerWait := wait })).dirty rowAnswerWait).ok 0x31 tag [] else s.deny 0x31 tag .badField

/-- ANSWER_WAIT_SET (R71). -/
def execAnswerWaitSet (tag wait : Nat) (s : State) : Host.Outcome State Fault Refusal := request s (doAnswerWaitSet tag wait)

def eLineConfig (c : LineConfig) : List Byte :=
  eFlag c.enabled ++ eFlag c.incoming ++ eFlag c.outgoing ++ e8 c.answerRings ++ e8 c.dialMode.code ++ eOpt eStr c.outside
    ++ e8 c.metering.code ++ e16 c.meterValue

/-- The call in flight, with the slot of its log reservation, in the order of its table and of the table of R94 (R88; log entry 38); meter pulses above
65 535 are reported as 65 535 (log entry 49). The last frame is its kind number of R197 with its sending count, under one presence byte, which is the
model's choice (log entry 38). -/
def eCall (slot : Nat) (c : Call) : List Byte :=
  let seizure := if c.caller then some c else none
  e8 (!c.caller).toNat ++ eOpt (fun jp => e8 jp.1 ++ e8 jp.2) c.recip ++ e8 slot ++ eTime c.start ++ eOpt eTime c.answer
    ++ eOpt (fun c => e8 c.dialMode.code ++ eOpt eStr c.outside ++ e8 c.metering.code ++ e16 c.meterValue) seizure
    ++ eOpt (fun c => e8 c.attempts) seizure ++ eFlag c.ringbackHeard ++ e16 (min c.pulses 65535) ++ eOpt (fun e => e8 (!e.now).toNat ++ e8 e.outcome.code) c.pendingEnd
    ++ eOpt e8 c.doc ++ eOpt e8 c.firstPage ++ eOpt e8 c.planStep ++ eOpt e8 c.agreedStep ++ eOpt e8 c.current
    ++ eOpt (fun f => e8 f.1.code ++ e8 f.2.code) c.format ++ eOpt e8 c.highest ++ e8 c.pagesDone ++ e8 c.damagedPages ++ e8 c.round
    ++ e8 c.waits ++ eOpt eStr c.remoteTag ++ eOpt (fun f => e8 f.kind ++ e8 c.sendings) c.lastFrame ++ e8 c.ended.code

/-- The slot of the log reservation a line's call holds; by the law of R155 it holds exactly one. -/
def State.carriedSlot (s : State) (l : Line) : Nat := ((s.carried l).map (·.slot)).getD 0

/-- The item of one line: state, voltage, configuration, and what its state adds (R88); the voltage is a flag, 1 for present
(log entry 38, the model's choice); a time above 65 535 s is reported as 65 535 (log entry 49). -/
def lineItem (s : State) (l : Line) : List Byte :=
  let u := s.lu l
  let since := if u.state == .fault || u.faultTimer then some (min (s.elapsed - u.voltageSince) 65535) else none
  let ring := if u.state = .ringing then u.episode else none
  e8 u.state.code ++ eFlag u.voltage ++ eLineConfig u.config ++ eOpt (eCall (s.carriedSlot l)) u.call ++ eOpt e16 since
    ++ eOpt (fun t => e8 u.ringCount ++ eTime t) ring

/-- The lines a LINE_STATUS names: one, or all for 255 (R195). -/
def linesNamed (line : Nat) : Option (List Line) := if line = 255 then some allLines else (four? line).map fun l => [l]

def doLineStatus (tag line : Nat) (first : Option Nat) : State → State :=
  listQuery 0x32 tag first fun s =>
    match linesNamed line with
    | none => .error .badField
    | some ls => .ok (listBody [] first (ls.map (lineItem s)) (e8 s.lus.answerWait))

/-- LINE_STATUS (R88). -/
def execLineStatus (tag line : Nat) (first : Option Nat) (s : State) : Host.Outcome State Fault Refusal := request s (doLineStatus tag line first)

def doStationTagSet (tag : Nat) (station : Str) (s : State) : State :=
  if stationOk station then ((s.onLus ({ · with stationTag := station })).dirty rowStationTag).ok 0x33 tag [] else s.deny 0x33 tag .badField

/-- STATION_TAG_SET (R91). -/
def execStationTagSet (tag : Nat) (station : Str) (s : State) : Host.Outcome State Fault Refusal := request s (doStationTagSet tag station)

def doExchangeSet (tag maxStep threshold : Nat) (s : State) : State :=
  if between 1 6 maxStep && threshold ≤ 63 then
    ((s.onLus ({ · with maxStep, passThreshold := threshold })).dirty rowProtocol).ok 0x34 tag []
  else s.deny 0x34 tag .badField

/-- EXCHANGE_SET (R91). -/
def execExchangeSet (tag maxStep threshold : Nat) (s : State) : Host.Outcome State Fault Refusal := request s (doExchangeSet tag maxStep threshold)

/-! ## Rings (R82, R83) -/

def ringOn (l : Line) (s : State) : State :=
  match (s.lu l).state with
  | .idle =>
    lineMove l .ringing none (s.onLu l ({ · with ringCount := 1, episode := some s.now, ringGap := false, condHeld := false, unanswered := false }))
  | .ringing => s.onLu l fun u => { u with ringCount := min 9 (u.ringCount + 1), ringGap := false }
  | _ => s

/-- RING_ON (R82). -/
def execRingOn (l : Line) (s : State) : Host.Outcome State Fault Refusal := event s (ringOn l)

def ringOff (l : Line) (s : State) : State :=
  if (s.lu l).state = .ringing then
    let s := s.onLu l ({ · with ringGap := true })
    if (s.lu l).answers then answerDecision l s else s
  else s

/-- RING_OFF (R82, R83). -/
def execRingOff (l : Line) (s : State) : Host.Outcome State Fault Refusal := event s (ringOff l)

/-- A ringing episode is over: the line is IDLE again. -/
def episodeEnd (l : Line) (st : LineState) (s : State) : State :=
  lineMove l st none (s.onLu l ({ · with episode := none, ringGap := false, ringCount := 0 }))

def ringGapExpiry (l : Line) (s : State) : State :=
  let u := s.lu l
  if u.state = .ringing ∧ u.ringGap then
    let s := if !u.condHeld && (u.config.answerRings == 0 || !u.config.incoming) then ringUnanswered l 0 s else s
    passIfOffered l s (episodeEnd l .idle s)
  else s

/-- RING_GAP_TIMER (R82). -/
def execRingGapTimer (l : Line) (s : State) : Host.Outcome State Fault Refusal := event s (ringGapExpiry l)

/-! ## Voltage (R72, R73) -/

def voltageLevel (l : Line) (v : Bool) (s : State) : State :=
  s.onLu l fun u => if u.voltage = v then u else { u with voltage := v, voltageSince := s.elapsed }

def voltageAbsent (l : Line) (s : State) : State :=
  let s := voltageLevel l false s
  let s := s.onLu l fun u => if u.state = .disabled then u else { u with faultTimer := true, clearingTimer := false }
  let u := s.lu l
  if u.state = .ringing then episodeEnd l .idle s
  else if u.state.inCall then callEnd l ((u.call.bind (·.outcome)).getD .lineLost) s
  else s

/-- LINE_VOLTAGE_ABSENT (R72, R73, R114). -/
def execLineVoltageAbsent (l : Line) (s : State) : Host.Outcome State Fault Refusal := levelEvent s (voltageLevel l false) (voltageAbsent l)

/-- The fault timer stops; an expiry that GUARD still remembers stays, since R72 and R86 send the line to FAULT at the guard's end and no rule cancels
it (log entry 27). -/
def voltagePresent (l : Line) (s : State) : State :=
  let t := voltageLevel l true s
  let t := t.onLu l fun u => { u with faultTimer := false, clearingTimer := u.state == .fault }
  passIfOffered l s t

/-- LINE_VOLTAGE_PRESENT (R72). -/
def execLineVoltagePresent (l : Line) (s : State) : Host.Outcome State Fault Refusal := levelEvent s (voltageLevel l true) (voltagePresent l)

def faultExpiry (l : Line) (s : State) : State :=
  if !(s.lu l).faultTimer then s
  else
    let s := s.onLu l ({ · with faultTimer := false })
    match (s.lu l).state with
    | .idle | .ringing => episodeEnd l .fault s
    | .fault | .disabled => s
    | _ => s.onLu l ({ · with faultExpired := true })

/-- FAULT_TIMER (R72). -/
def execFaultTimer (l : Line) (s : State) : Host.Outcome State Fault Refusal := event s (faultExpiry l)

def clearingExpiry (l : Line) (s : State) : State :=
  let u := s.lu l
  if u.state = .fault ∧ u.clearingTimer then passIfOffered l s (lineMove l .idle none (s.onLu l ({ · with clearingTimer := false }))) else s

/-- CLEARING_TIMER (R72). -/
def execClearingTimer (l : Line) (s : State) : Host.Outcome State Fault Refusal := event s (clearingExpiry l)

def guardExpiry (l : Line) (s : State) : State :=
  let u := s.lu l
  if u.state ≠ .guard then s
  else if !u.config.enabled then lineDisable l s
  else if u.faultExpired then lineMove l .fault none (s.onLu l ({ · with faultExpired := false }))
  else passIfOffered l s (lineMove l .idle none s)

/-- GUARD_TIMER (R86). -/
def execGuardTimer (l : Line) (s : State) : Host.Outcome State Fault Refusal := event s (guardExpiry l)

/-! ## Meter pulses (R87) -/

/-- The outgoing call states in which a pulse is taken. -/
def LineState.metered : LineState → Bool | .answering => false | st => st.inCall

def meterPulse (l : Line) (s : State) : State :=
  match s.call l with
  | none => s
  | some c =>
    if c.caller && c.metering == .pulse && (s.lu l).state.metered then
      chgPulse l c.meterValue (s.onCall l fun c => { c with pulses := c.pulses + 1 })
    else s

/-- METER_PULSE (R87, R160). -/
def execMeterPulse (l : Line) (s : State) : Host.Outcome State Fault Refusal := event s (meterPulse l)

/-! ## Bindings (R75, R76, R137) -/

/-- The recipient whose binding has been sent to a line. -/
def State.offer (s : State) (l : Line) : Option (Nat × Nat) :=
  s.dsc.jobs.findSome? fun x => (positions x.2.recips.length).findSome? fun p =>
    if (atPos x.2.recips p).any (·.offeredTo == some l) then some (x.1, p) else none

/-- The line takes the binding: it seizes, the recipient is BOUND, the job ACTIVE; a job cancelled meanwhile is ended at once (R137, R141). -/
def bindingTaken (l : Line) (j p : Nat) (x : Job) (r : Recip) (s : State) : State :=
  let s := seize l j p x r s
  let s := s.onJob j fun x => if x.state = .queued then { x with state := .active } else x
  let s := recipSet j p ({ · with state := .bound, line := some l, offeredTo := none }) s
  if x.cancelRequested then endRequest l ⟨x.cancelNow, .cancelled⟩ s else s

/-- The line refuses with NOT_FREE: the reservation is returned unused (R137, R144, R158). That the recipient of a cancelled job has last outcome
CANCELLED then is the model's choice (log entry 77). -/
def bindingRefused (l : Line) (j p : Nat) (x : Job) (s : State) : State :=
  let s := recipSet j p ({ · with offeredTo := none }) (s.dropGranted l)
  if x.cancelRequested then jobSettle j (recipSet j p ({ · with state := .cancelled, last := some .cancelled }) s)
  else readinessTest j p s

def binding (l : Line) (s : State) : State :=
  match s.offer l with
  | none => s
  | some (j, p) =>
    match s.job j, s.recip j p with
    | some x, some r => pass (if (s.lu l).takes then bindingTaken l j p x r s else bindingRefused l j p x s)
    | _, _ => s

/-- BINDING (R75, R76, R137). -/
def execBinding (l : Line) (s : State) : Host.Outcome State Fault Refusal := event s (binding l)

/-! ## Seizure and dialling (R76, R78, R79) -/

/-- Off-hook in SEIZED, the classifier listening. -/
def State.listening (s : State) (l : Line) : Bool := (s.lu l).state == .seized && (s.call l).any (!·.retryPause)

def dialToneWait (l : Line) (s : State) : State :=
  if s.listening l then
    if (s.call l).any (2 ≤ ·.attempts) then callEnd l .noDialtone s else s.onCall l ({ · with retryPause := true })
  else s

/-- DIAL_TONE_WAIT (R76). -/
def execDialToneWait (l : Line) (s : State) : Host.Outcome State Fault Refusal := event s (dialToneWait l)

def retryPauseEnd (l : Line) (s : State) : State :=
  if (s.lu l).state = .seized then s.onCall l fun c => if c.retryPause then { c with retryPause := false, attempts := 2 } else c else s

/-- RETRY_PAUSE_END (R76). -/
def execRetryPauseEnd (l : Line) (s : State) : Host.Outcome State Fault Refusal := event s (retryPauseEnd l)

/-- The next character, a W. -/
def isW (c : Byte) : Bool := c == 0x57#8

/-- The character in hand has been signalled, or its dial tone has come: the next one follows, or after the last AWAIT_ANSWER (R78 to R80). -/
def dialNext (l : Line) (s : State) : State :=
  let s := s.onCall l fun c => { c with dialLeft := c.dialLeft.tail }
  if (s.call l).any (·.dialLeft.isEmpty) then lineMove l .awaitAnswer none (s.onCall l ({ · with ringbackHeard := false })) else s

/-- The dial sequence: prefix, then the recipient's dial string (R78). -/
def State.dialSequence (s : State) (c : Call) : List Byte :=
  (c.outside.getD []) ++ ((c.recip.bind fun jp => s.recip jp.1 jp.2).map (·.dial)).getD []

/-- In DIALLING, the character in hand. -/
def State.dialHead (s : State) (l : Line) : Option Byte := if (s.lu l).state = .dialling then (s.call l).bind (·.dialLeft.head?) else none

def dialTone (l : Line) (s : State) : State :=
  if s.listening l then
    lineMove l .dialling none (s.onCall l fun c => { c with dialLeft := s.dialSequence c })
  else if (s.dialHead l).any isW then dialNext l s
  else s

/-- DIAL_TONE (R76, R78, R79). -/
def execDialTone (l : Line) (s : State) : Host.Outcome State Fault Refusal := event s (dialTone l)

def dialCharacterDone (l : Line) (s : State) : State := if (s.dialHead l).any (!isW ·) then dialNext l s else s

/-- DIAL_CHARACTER_DONE (R78, R79). -/
def execDialCharacterDone (l : Line) (s : State) : Host.Outcome State Fault Refusal := event s (dialCharacterDone l)

def wWaitTimeout (l : Line) (s : State) : State := if (s.dialHead l).any isW then callEnd l .noDialtone s else s

/-- W_WAIT_TIMEOUT (R79). -/
def execWWaitTimeout (l : Line) (s : State) : Host.Outcome State Fault Refusal := event s (wWaitTimeout l)

/-! ## Awaiting the answer (R77, R80) -/

def State.awaiting (s : State) (l : Line) : Bool := (s.lu l).state == .awaitAnswer

def busyHeard (l : Line) (s : State) : State := if s.awaiting l then callEnd l .busy s else s

/-- BUSY (R80). -/
def execBusy (l : Line) (s : State) : Host.Outcome State Fault Refusal := event s (busyHeard l)

def ringbackHeard (l : Line) (s : State) : State := if s.awaiting l then s.onCall l ({ · with ringbackHeard := true }) else s

/-- RINGBACK (R80). -/
def execRingback (l : Line) (s : State) : Host.Outcome State Fault Refusal := event s (ringbackHeard l)

def silenceHeard (l : Line) (s : State) : State :=
  if s.awaiting l && (s.call l).any (!·.ringbackHeard) then callEnd l .noAnswer s else s

/-- SILENCE (R80). -/
def execSilence (l : Line) (s : State) : Host.Outcome State Fault Refusal := event s (silenceHeard l)

/-- The recipient of a call is reported IN_CALL (R138). -/
def answerReport (c : Call) (s : State) : State :=
  match c.recip with
  | some (j, p) => dscAnswered j p s
  | none => s

/-- The call is answered: HANDSHAKE in the caller role, waiting for CAPS; then the reports to DSC and CHG (R80, R96).
That HANDSHAKE is entered before the reports is the model's choice (log entry 72). -/
def answered (l : Line) (s : State) : State :=
  match s.call l with
  | none => s
  | some c =>
    let s := lineMove l .handshake none (s.onCall l ({ · with answer := some s.now, capsWait := true }))
    chgAnswered l (c.metering == .pulse) (answerReport c s)

def answerTone (l : Line) (s : State) : State := if s.awaiting l then answered l s else s

/-- ANSWER_TONE (R80). -/
def execAnswerTone (l : Line) (s : State) : Host.Outcome State Fault Refusal := event s (answerTone l)

def callingTone (l : Line) (s : State) : State := if s.listening l then glare l s else s

/-- CALLING_TONE (R77). -/
def execCallingTone (l : Line) (s : State) : Host.Outcome State Fault Refusal := event s (callingTone l)

def answerWaitExpiry (l : Line) (s : State) : State := if s.awaiting l then callEnd l .noAnswer s else s

/-- ANSWER_WAIT (R80). -/
def execAnswerWait (l : Line) (s : State) : Host.Outcome State Fault Refusal := event s (answerWaitExpiry l)

/-- INTERVAL_TIMER (R159). -/
def execIntervalTimer (l : Line) (s : State) : Host.Outcome State Fault Refusal := event s (chgInterval l)

end Sys2Proof.Machine
end

