-- ==== Sys2Proof/Machine/CmdExchange.lean ====
section
/-! DEFINITION. The strip exchange's commands (chapter 5): the ends of what a line sends, its waits, and every frame, burst and strip it receives, in both roles. -/

namespace Sys2Proof.Machine

/-! ## The ends of what is sent -/

def State.ctlEnd (s : State) (l : Line) (k : CtlFrame → State → State) : State :=
  match (s.call l).bind (·.signal) with
  | some (.frame f) => k f (s.onCall l ({ · with signal := none }))
  | _ => s

/-- The answer tone ends: CAPS follows (R95). -/
def answerToneEnd (l : Line) (s : State) : State :=
  match (s.call l).bind (·.signal) with
  | some .answerTone =>
    sendFrame l (.caps s.lus.stationTag s.lus.maxStep 7 3) (s.onCall l ({ · with capsMax := s.lus.maxStep }))
  | _ => s

/-- ANSWER_TONE_END (R95). -/
def execAnswerToneEnd (l : Line) (s : State) : Host.Outcome State Fault Refusal := event s (answerToneEnd l)

/-- A caller's PLAN has been sent: its burst follows at once (R96). -/
def burstStart (l : Line) (s : State) : State := s.onCall l fun c => { c with signal := some (.burst (c.planStep.getD 1)) }

/-- The reply wait starts (R93); the line enters HANDSHAKE at the end of its first CAPS (R95). -/
def replyWaitStart (l : Line) (s : State) : State :=
  let s := s.onCall l ({ · with waitOn := true })
  if (s.lu l).state = .answering then lineMove l .handshake none s else s

/-- What follows the end of a control frame: on-hook after CLEAR or REFUSE, a pending end now, the burst after a PLAN, else the reply wait (R93, R96, R109 to R111). -/
def frameSent (l : Line) (f : CtlFrame) (s : State) : State :=
  if (s.lu l).state = .clearing then hangUp l s
  else match (s.call l).bind (·.endNow) with
    | some e => carryOut l e s
    | none =>
      match f with
      | .plan .. => burstStart l s
      | _ => replyWaitStart l s

/-- CONTROL_FRAME_SENT (R93, R95, R109 to R111). -/
def execControlFrameSent (l : Line) (s : State) : Host.Outcome State Fault Refusal := event s fun s => s.ctlEnd l (frameSent l)

/-- The burst has been sent: a pending end now, else the reply wait (R93, R109). -/
def burstSent (l : Line) (s : State) : State :=
  match (s.call l).bind (·.signal) with
  | some (.burst _) =>
    let s := s.onCall l ({ · with signal := none })
    match (s.call l).bind (·.endNow) with
    | some e => carryOut l e s
    | none => s.onCall l ({ · with waitOn := true })
  | _ => s

/-- BURST_SENT (R93, R109). -/
def execBurstSent (l : Line) (s : State) : Host.Outcome State Fault Refusal := event s (burstSent l)

/-- A strip has been sent: a pending end now, else the next strip or PAGE_END (R101, R109). -/
def stripSent (l : Line) (s : State) : State :=
  match s.call l with
  | none => s
  | some c =>
    match c.signal, c.reading with
    | some (.strip ..), _ | none, some _ =>
      let s := (arbWithdraw (.lu l) s).onCall l ({ · with signal := none, reading := none })
      match c.endNow with
      | some e => carryOut l e s
      | none => nextStrip l s
    | _, _ => s

/-- STRIP_SENT (R101, R109). -/
def execStripSent (l : Line) (s : State) : Host.Outcome State Fault Refusal := event s (stripSent l)

/-! ## Waits (R93, R104) -/

/-- The outcome of a reply wait that expires after the third sending (R93). -/
def Call.noReplyOutcome (c : Call) : CallOutcome := if c.caller then .noReply else c.expiredOutcome

def replyWait (l : Line) (s : State) : State :=
  match s.call l with
  | none => s
  | some c =>
    if !c.waitOn then s
    else match c.caller, c.endAtReply with
      | true, some e => carryOut l e s
      | _, _ => if Config.maxSendings ≤ c.sendings then clearWith l c.noReplyOutcome s else resendFrame l s

/-- REPLY_WAIT (R93, R109). -/
def execReplyWait (l : Line) (s : State) : Host.Outcome State Fault Refusal := event s (replyWait l)

def capsWaitExpiry (l : Line) (s : State) : State := if (s.call l).any (·.capsWait) then clearWith l .noReply s else s

/-- CAPS_WAIT (R93). -/
def execCapsWait (l : Line) (s : State) : Host.Outcome State Fault Refusal := event s (capsWaitExpiry l)

/-- WAIT_INTERVAL (R104). -/
def execWaitInterval (l : Line) (s : State) : Host.Outcome State Fault Refusal := event s (waitIntervalEnd l)

/-! ## Frames a caller takes -/

/-- A caller in HANDSHAKE or TRANSFER. -/
def State.caller (s : State) (l : Line) : Option Call := if (s.lu l).state.exchanging then (s.call l).filter (·.caller) else none

/-- A tag kept to its first 20 characters (R197). -/
def keptTag (t : Str) : Str := t.take 20

/-- CAPS is usable (R96). -/
def capsUsable (maxStep resSet widthSet : Nat) : Bool := between 1 6 maxStep && resSet % 8 != 0 && widthSet % 4 != 0

/-- The first CAPS (R96). -/
def firstCaps (l : Line) (station : Str) (maxStep resSet widthSet : Nat) (c : Call) (s : State) : State :=
  let tag := keptTag station
  let s := chgTag l tag (s.onCall l ({ · with remoteTag := some tag, accepts := (resSet, widthSet), capsWait := false }))
  match c.pendingEnd with
  | some e => carryOut l e s
  | none => if capsUsable maxStep resSet widthSet then sendPlan l (min s.lus.maxStep maxStep) s else clearWith l .refused s

/-- The last frame is a PLAN. -/
def Call.afterPlan (c : Call) : Bool := match c.lastFrame with | some (.plan ..) => true | _ => false

/-- CAPS at a caller: the first, or one taken again in place of the CHECK_RESULT, which sends the PLAN again as a further sending of it, after the
third too (R96; log entry 57). -/
def caps (l : Line) (station : Str) (maxStep resSet widthSet : Nat) (s : State) : State :=
  match s.caller l with
  | none => s
  | some c =>
    if c.capsWait then firstCaps l station maxStep resSet widthSet c s
    else if (s.lu l).state = .handshake ∧ c.waitOn ∧ c.afterPlan then resendFrame l s
    else s

/-- CAPS (R96). -/
def execCaps (l : Line) (station : Str) (maxStep resSet widthSet : Nat) (s : State) : Host.Outcome State Fault Refusal :=
  event s (caps l station maxStep resSet widthSet)

/-- At the first OK the line enters TRANSFER (R98, R99). -/
def enterTransfer (l : Line) (s : State) : State := if (s.lu l).state = .handshake then lineMove l .transfer none s else s

/-- CHECK_RESULT OK (R99). -/
def checkOk (l : Line) (c : Call) (s : State) : State :=
  let s := enterTransfer l (s.onCall l ({ · with agreedStep := c.planStep, waitOn := false }))
  match c.resend with
  | some xs => resendRound l xs s
  | none => boundary l s

/-- CHECK_RESULT FAIL (R99, R109). -/
def checkFail (l : Line) (c : Call) (s : State) : State :=
  let step := c.planStep.getD 1
  match c.endAtReply with
  | some e => carryOut l e s
  | none => if 1 < step then sendPlan l (step - 1) s else clearWith l .checkFail s

def checkResult (l : Line) (ok : Bool) (s : State) : State :=
  match s.caller l with
  | none => s
  | some c => if c.waitOn && c.afterPlan then (if ok then checkOk l c s else checkFail l c s) else s

/-- CHECK_RESULT (R99). -/
def execCheckResult (l : Line) (ok : Bool) (s : State) : Host.Outcome State Fault Refusal := event s (checkResult l ok)

/-- STRIP_REPORT in reply to a PAGE_END of the page in progress (R102). -/
def stripReported (l : Line) (strips : List Nat) (c : Call) (s : State) : State :=
  let held := ((s.sendPage c).map (·.strips.length)).getD 0
  let step := c.planStep.getD 1
  if held < 2 * strips.length && 1 < step then sendPlan l (step - 1) (s.onCall l ({ · with resend := some strips }))
  else resendRound l strips s

def stripReport (l : Line) (strips : List Nat) (s : State) : State :=
  match s.caller l with
  | none => s
  | some c =>
    match c.pageEndSent with
    | some .more | some .last => if c.pageOpen then stripReported l strips c s else s
    | _ => s

/-- STRIP_REPORT (R102). -/
def execStripReport (l : Line) (strips : List Nat) (s : State) : Host.Outcome State Fault Refusal := event s (stripReport l strips)

/-- A page is taken (R103). -/
def Call.pageDone (c : Call) (damaged : Nat) : Call :=
  { c with pagesDone := c.pagesDone + 1, highest := c.current, damagedPages := if 0 < damaged then c.damagedPages + 1 else c.damagedPages
           round := 0, waits := 0, pageOpen := false, waitOn := false }

/-- What follows the PAGE_TAKEN of a page sent as MORE (R103, R109). -/
def afterPage (l : Line) (c : Call) (holdFull : Bool) (s : State) : State :=
  match c.pendingEnd with
  | some e => carryOut l e s
  | none =>
    if holdFull then clearWith l .remoteFull s
    else boundary l (s.onCall l fun c => { c with current := c.current.map (· + 1) })

def pageTaken (l : Line) (damaged : Nat) (holdFull : Bool) (s : State) : State :=
  match s.caller l with
  | none => s
  | some c =>
    match c.pageEndSent with
    | some .last => clearWith l .delivered (if c.pageOpen then s.onCall l (·.pageDone damaged) else s)
    | some .more => if c.pageOpen then afterPage l c holdFull (s.onCall l (·.pageDone damaged)) else s
    | _ => s

/-- PAGE_TAKEN (R103, R109). -/
def execPageTaken (l : Line) (damaged : Nat) (holdFull : Bool) (s : State) : Host.Outcome State Fault Refusal :=
  event s (pageTaken l damaged holdFull)

/-- WAITING taken raises the WAIT count; a pending end is carried out (R109), an interval that is over gives its boundary, else the interval runs on
(R104; log entry 53). -/
def waiting (l : Line) (s : State) : State :=
  match s.caller l with
  | none => s
  | some c =>
    match c.pageEndSent with
    | some .wait =>
      let s := s.onCall l ({ · with waits := c.waits + 1, waitOn := false, waitInterval := true })
      match c.pendingEnd with
      | some e => carryOut l e s
      | none => if c.waitOver then boundary l s else s
    | _ => s

/-- WAITING (R104). -/
def execWaiting (l : Line) (s : State) : Host.Outcome State Fault Refusal := event s (waiting l)

/-- A REFUSE is taken by a caller whatever it waits for (R92, R111). -/
def refused (l : Line) (s : State) : State :=
  match s.caller l with
  | none => s
  | some c => hangUp l (lineMove l .clearing none (s.onCall l ({ · with outcome := some (c.settled .refused) })))

/-- REFUSE (R111). -/
def execRefuse (l : Line) (_reason : Nat) (s : State) : Host.Outcome State Fault Refusal := event s (refused l)

/-- A CLEAR is taken whatever the station waits for (R92, R110). -/
def cleared (l : Line) (s : State) : State :=
  match s.call l with
  | none => s
  | some c =>
    if (s.lu l).state.exchanging || (s.lu l).state == .answering then
      let o := if c.caller then c.settled .remoteFull else c.clearedOutcome
      hangUp l (lineMove l .clearing none (s.onCall l ({ · with outcome := some o })))
    else s

/-- CLEAR (R110). -/
def execClear (l : Line) (s : State) : Host.Outcome State Fault Refusal := event s (cleared l)

/-! ## What an answerer takes -/

/-- An answerer in HANDSHAKE or TRANSFER that waits for a frame or is receiving a strip, with no rate check burst to come. -/
def State.answerer (s : State) (l : Line) : Option Call :=
  if (s.lu l).state.exchanging then
    (s.call l).filter fun c => !c.caller && (c.waitOn || c.reception.isSome) && c.burstReply.isNone
  else none

/-- A strip in reception is cut short by the frame now taken: its FILLING strip is discarded, nothing of it is held. -/
def stripCut (l : Line) (c : Call) (s : State) : State :=
  match c.reception with
  | some (.counted _ _ true _) => stripDiscard (.lu l) (s.onCall l ({ · with reception := none }))
  | _ => s.onCall l ({ · with reception := none })

/-- The PLAN's fields are acceptable as a first PLAN (R97). -/
def planOk (capsMax step page : Nat) (continuation : Bool) : Bool := between 1 capsMax step && between 1 250 page && continuation == (1 < page)

/-- The answerer creates the received document and hands it to RRT (R97, R121); the measurement of the burst begins with the pass threshold in force
(R91; log entry 33). -/
def createReceived (l : Line) (tag : Str) (disp : Disposition) (s : State) : State :=
  match docMake .receive false disp.route (absentIfEmpty tag) (some l) s.clock s with
  | none => s.onCall l ({ · with burstReply := some .storeFull })
  | some (d, s) => routeRecord l d disp (s.onCall l ({ · with doc := some d, disposition := some disp, burstReply := some (.measure s.lus.passThreshold) }))

/-- The first PLAN of a call (R97). -/
def firstPlan (l : Line) (station : Str) (step : Nat) (continuation : Bool) (page : Nat) (c : Call) (s : State) : State :=
  let tag := keptTag station
  let s := chgTag l tag (s.onCall l ({ · with planned := true, waitOn := false, remoteTag := some tag, planStep := some step }))
  if !planOk c.capsMax step page continuation then s.onCall l ({ · with burstReply := some (.refuse .notAccepted) })
  else
    let s := s.onCall l ({ · with firstPage := some page, current := some page })
    let m := routeMatch tag l s
    if m.1.action = .reject then m.2.onCall l ({ · with burstReply := some (.refuse .barredCaller) })
    else createReceived l tag m.1 m.2

/-- A later PLAN: the plan step alone (R98). -/
def laterPlan (l : Line) (step : Nat) (c : Call) (s : State) : State :=
  s.onCall l ({ · with
    planStep := some step, waitOn := false
    burstReply := some (if between 1 c.capsMax step then .measure s.lus.passThreshold else .refuse .notAccepted) })

/-- A PLAN may be taken here: before the first OK, or when no strip has come since the last frame sent and the end is not reached (R98). -/
def State.planPlace (s : State) (l : Line) (c : Call) : Bool :=
  (s.lu l).state == .handshake || (!c.stripAfterFrame && c.ended == .neither)

def plan (l : Line) (station : Str) (step : Nat) (continuation : Bool) (page : Nat) (s : State) : State :=
  match s.answerer l with
  | none => s
  | some c =>
    if !c.planned then firstPlan l station step continuation page c (stripCut l c s)
    else if s.planPlace l c then laterPlan l step c (stripCut l c s)
    else s

/-- PLAN (R97, R98). -/
def execPlan (l : Line) (station : Str) (step : Nat) (continuation : Bool) (page : Nat) (s : State) : Host.Outcome State Fault Refusal :=
  event s (plan l station step continuation page)

/-- Bytes that differ from those expected, and bytes expected and not received (R98). -/
def mismatches : List Byte → List Byte → Nat
  | [], _ => 0
  | _ :: es, [] => 1 + mismatches es []
  | e :: es, b :: bs => (if b = e then 0 else 1) + mismatches es bs

/-- Errored bytes of a rate check burst received at a step (R98). -/
def errored (step : Nat) (bytes : List Byte) : Nat := mismatches (rateBurst step) bytes

/-- The measurement's CHECK_RESULT (R98), by the pass threshold of the measurement's beginning (R91). -/
def measured (l : Line) (threshold : Nat) (bytes : List Byte) (c : Call) (s : State) : State :=
  if errored (c.planStep.getD 0) bytes ≤ threshold then
    sendFrame l (.checkResult true) (enterTransfer l (s.onCall l ({ · with burstReply := none, agreedStep := c.planStep })))
  else sendFrame l (.checkResult false) (s.onCall l ({ · with burstReply := none }))

def rateCheckBurst (l : Line) (bytes : List Byte) (s : State) : State :=
  match s.call l with
  | none => s
  | some c =>
    if !(s.lu l).state.exchanging then s
    else match c.burstReply with
      | none => s
      | some (.measure threshold) => measured l threshold bytes c s
      | some (.refuse r) => enterClearing l .rejected (.refuse r) s
      | some .storeFull => clearWith l .storeFull s

/-- RATE_CHECK_BURST (R97, R98). -/
def execRateCheckBurst (l : Line) (bytes : List Byte) (s : State) : Host.Outcome State Fault Refusal := event s (rateCheckBurst l bytes)

/-! ## Strips an answerer receives (R105) -/

/-- Strips and PAGE_ENDs are taken in TRANSFER, and not after a FAIL, which only a PLAN follows (R98, R105). -/
def State.receiver (s : State) (l : Line) : Option Call :=
  if (s.lu l).state = .transfer then
    (s.answerer l).filter fun c => match c.lastFrame with | some (.checkResult false) => false | _ => true
  else none

/-- The expected page (5.5). -/
def Call.expected (c : Call) : Nat := match c.highest with | some q => q + 1 | none => c.firstPage.getD 1

/-- The header of a strip of the expected page is acceptable: its format, when it is (R105). -/
def headerOk (c : Call) (page strip lines format coded : Nat) : Option (Resolution × Width) :=
  if page = c.expected ∧ strip ≤ 79 ∧ 1 ≤ lines ∧ lines ≤ 64 ∧ coded ≤ Config.maxCoded then formatOf format else none

/-- The received document's FILLING page, begun with a header's format when there is none (R105). -/
def receivePage (d : Nat) (fmt : Resolution × Width) (s : State) : Option (Page × State) :=
  match (s.doc d).bind (·.filling) with
  | some p => some (p, s)
  | none =>
    match pageBegin d fmt.1 fmt.2 s with
    | .ok (_, s) => ((s.doc d).bind (·.filling)).map fun p => (p, s)
    | .error _ => none

/-- A copy of a strip of the expected page is dropped for its header or its format: nothing of it is stored, but a DAMAGED strip's line count is that of
the last copy received (R6, R105). -/
def copyDropped (l : Line) (d strip lines : Nat) (s : State) : State :=
  (stripRecount d strip (damagedLines lines) s).onCall l fun c => { c with copyLines := c.copyLines.put strip (damagedLines lines) }

/-- An acceptable strip is given a reservation, or dropped (R105, R6): whether the reservation receives it, and the state. -/
def stripIn (l : Line) (d strip lines : Nat) (fmt : Resolution × Width) (s : State) : Bool × State :=
  match receivePage d fmt s with
  | none => (false, copyDropped l d strip lines s)
  | some (p, s) =>
    if (p.res, p.width) ≠ fmt then (false, copyDropped l d strip lines s)
    else if (p.strip strip).any (·.state == .stored) then (false, s)
    else match stripOpen (.lu l) d strip lines s with
      | some s => (true, s)
      | none => (false, stripMissed d strip lines s)

/-- A header is judged: an acceptable one begins a strip of its coded length, any other a strip that passes (R105, R196). -/
def headerJudge (l : Line) (page strip lines format coded : Nat) (c : Call) (s : State) : State :=
  let s := s.onCall l fun c => { c with waitOn := false, stripAfterFrame := true, stripSince := c.stripSince || page == c.expected }
  match headerOk c page strip lines format coded with
  | some fmt =>
    let r := match c.ended, c.doc with
      | .neither, some d => stripIn l d strip lines fmt s
      | _, _ => (false, s)
    r.2.onCall l ({ · with reception := some (.counted (headerBytes page strip lines format coded) coded r.1 []) })
  | none =>
    let s := match c.ended, c.doc with
      | .neither, some d => if page = c.expected ∧ strip ≤ 79 then copyDropped l d strip lines s else s
      | _, _ => s
    s.onCall l ({ · with reception := some .passing })

def headerTaken (l : Line) (page strip lines format coded : Nat) (s : State) : State :=
  match s.receiver l with
  | none => s
  | some c => headerJudge l page strip lines format coded c s

/-- What the reservation has received is closed, STORED or DAMAGED by the answerer's own check (R6, R105, R196). -/
def stripStored (l : Line) (header : List Byte) (coded : Nat) (got : List Byte) (s : State) : State :=
  stripClose (.lu l) (if stripCheck header got coded then .stored else .damaged) (stripAppend (.lu l) (got.take coded) s)

/-- A strip dropped leaves nothing; one in a reservation is stored. -/
def stripTaken (l : Line) (r : Reception) (s : State) : State :=
  match r with
  | .counted header coded true got => stripStored l header coded got s
  | _ => s

/-- The end of a strip (R93, R105): it is stored or gone, the WAIT count is 0 and the reply wait runs; after the end was reached it is answered with
CLEAR (R107). -/
def stripOver (l : Line) (r : Reception) (c : Call) (s : State) : State :=
  let s := (stripTaken l r s).onCall l ({ · with reception := none, waits := 0, waitOn := true })
  if c.ended = .neither then s else clearWith l c.clearedOutcome s

/-- A header ends a strip that passes; within a strip of known length its bytes are the strip's own (R196). -/
def stripHeaderIn (l : Line) (page strip lines format coded : Nat) (s : State) : State :=
  match s.receiver l with
  | none => s
  | some c =>
    match c.reception with
    | some (.counted ..) => s
    | some .passing => headerTaken l page strip lines format coded (stripOver l .passing c s)
    | none => headerJudge l page strip lines format coded c s

/-- STRIP_HEADER_RECEIVED (R105). -/
def execStripHeaderReceived (l : Line) (page strip lines format coded : Nat) (s : State) : Host.Outcome State Fault Refusal :=
  event s (stripHeaderIn l page strip lines format coded)

def Reception.add (bytes : List Byte) : Reception → Reception
  | .passing => .passing
  | .counted header coded held got => .counted header coded held (got ++ bytes)

/-- A strip ends with its coded length and two check bytes; one that passes has no length, and ends with the command (R196; log entry 32). -/
def Reception.ended : Reception → Bool
  | .passing => true
  | .counted _ coded _ got => coded + 2 ≤ got.length

def dataStrip (l : Line) (bytes : List Byte) (s : State) : State :=
  match s.call l with
  | none => s
  | some c =>
    match (if (s.lu l).state = .transfer then c.reception else none) with
    | none => s
    | some r =>
      let r := r.add bytes
      if r.ended then stripOver l r c s else s.onCall l ({ · with reception := some r })

/-- DATA_STRIP (R93, R105 to R107, R196): its bytes and, low byte first, its check are one run of bytes, whose end the header's coded length decides. -/
def execDataStrip (l : Line) (bytes : List Byte) (check : Option (BitVec 16)) (s : State) : Host.Outcome State Fault Refusal :=
  event s (dataStrip l (bytes ++ (check.map crcBytes).getD []))

/-! ## PAGE_END at the answerer (R106 to R108) -/

/-- The page in progress at the answerer. -/
def State.recvPage (s : State) (c : Call) : Option Page := c.doc.bind fun d => (s.doc d).bind (·.filling)

/-- The page's strip count: the frame's, or one more than the highest strip number held; at most 80 (R106). -/
def stripCount (p : Option Page) (count : Nat) : Nat :=
  min 80 (match p with
    | none => count
    | some p => p.strips.foldl (fun n x => max n (x.no + 1)) count)

/-- Every number below the count that is not STORED (R106). -/
def badList (p : Option Page) (count : Nat) : List Nat :=
  (List.range count).filter fun n => !((p.bind (·.strip n)).any (·.state == .stored))

/-- The answerer after a page is stored (R107). -/
def Call.stored (c : Call) (p damaged : Nat) (holdFull last : Bool) : Call :=
  { c with pagesDone := c.pagesDone + 1, damagedPages := if 0 < damaged then c.damagedPages + 1 else c.damagedPages, highest := some p
           current := some (p + 1), round := 0, reported := false, stripSince := false, lastTaken := some (damaged, holdFull), copyLines := []
           ended := if last then .last else if holdFull then .holdFull else c.ended }

/-- HOLD_FULL after a page sent as MORE (R107). -/
def State.holdFull (s : State) (d : Nat) (last : Bool) : Bool :=
  !last && (!s.continueOk || (s.doc d).any (fun r => 250 ≤ r.pages.length))

/-- The page is stored (R107): the damage decision, the close, the reports, HOLD_FULL, PAGE_TAKEN. -/
def pageStore (l : Line) (d p count : Nat) (last bad : Bool) (s : State) : State :=
  let s := if bad then damageDecision d count (((s.call l).map (·.copyLines)).getD []) s else s
  let damaged := ((s.doc d).bind (·.filling)).map (fun q => (q.strips.filter (·.state == .damaged)).length) |>.getD 0
  let s := pageFinish (.lu l) d s
  let s := routePageStored l d (s.completeCount d) s
  let hold := s.holdFull d last
  sendFrame l (.pageTaken damaged hold) (s.onCall l (·.stored p damaged hold last))

/-- A PAGE_END of the expected page that is neither the end marker nor out of place: it ends a resend round when a report was sent, and is judged (R106). -/
def pageJudge (l : Line) (d p n : Nat) (last : Bool) (c : Call) (s : State) : State :=
  let page := s.recvPage c
  let count := stripCount page n
  let bad := badList page count
  let round := if c.reported then min Config.maxRounds (c.round + 1) else c.round
  let s := s.onCall l ({ · with round })
  if page.isSome && (bad.isEmpty || Config.maxRounds ≤ round) then pageStore l d p count last (!bad.isEmpty) s
  else if Config.maxRounds ≤ round then clearWith l .abandoned s
  else sendFrame l (.stripReport bad) (s.onCall l ({ · with reported := true }))

/-- A PAGE_END of the expected page (R106, R107). With strip count 0 and no strip held there is no page to store, and PMC would refuse its close
(R8): it is answered as one without a page record (log entry 51). After a page taken as LAST the end marker is answered PAGE_TAKEN (log entry 31). -/
def pageEndExpected (l : Line) (p n : Nat) (last : Bool) (c : Call) (s : State) : State :=
  let empty := n = 0 ∧ (s.recvPage c).isNone
  if empty ∧ last ∧ c.ended ≠ .holdFull then sendFrame l (.pageTaken 0 false) (s.onCall l ({ · with ended := .last }))
  else if c.ended ≠ .neither then clearWith l c.clearedOutcome s
  else if n = 0 ∧ (s.recvPage c).all (·.strips.isEmpty) then enterClearing l .rejected (.refuse .notAccepted) s
  else pageJudge l (c.doc.getD 0) p n last c s

/-- PAGE_END at the answerer, by its page number (R106): after the end is marked, one for a new page is answered with CLEAR (R107; log entry 31), and
any other is refused. A repeat is answered by the PAGE_TAKEN as first sent, whose sending count begins at 1 again (log entry 58). -/
def pageEnd (l : Line) (last : Bool) (p n : Nat) (s : State) : State :=
  match s.receiver l with
  | none => s
  | some c =>
    let s := (stripCut l c s).onCall l ({ · with waits := 0 })
    if c.highest = some p ∧ c.stripSince = false then
      let t := c.lastTaken.getD (0, false)
      sendFrame l (.pageTaken t.1 t.2) s
    else if p = c.expected then pageEndExpected l p n last c s
    else if c.ended ≠ .neither ∧ c.expected < p then clearWith l c.clearedOutcome s
    else enterClearing l .rejected (.refuse .notAccepted) s

/-- PAGE_END (R106, R107). -/
def execPageEnd (l : Line) (last : Bool) (page count : Nat) (s : State) : Host.Outcome State Fault Refusal := event s (pageEnd l last page count)

def pageEndWait (l : Line) (s : State) : State :=
  match s.receiver l with
  | none => s
  | some c =>
    let s := (stripCut l c s).onCall l ({ · with waits := c.waits + 1 })
    if c.ended ≠ .neither then clearWith l c.clearedOutcome s
    else if Config.maxWaits < c.waits + 1 then clearWith l .abandoned s
    else sendFrame l .waiting s

/-- PAGE_END_WAIT (R108). -/
def execPageEndWait (l : Line) (_page _count : Nat) (s : State) : Host.Outcome State Fault Refusal := event s (pageEndWait l)

end Sys2Proof.Machine
end

