-- ==== Sys2Proof/Machine/CmdDsc.lean ====
section
/-! DEFINITION. The Dial Scheduler's commands: its requests and the calendar expiries (chapter 7). -/

namespace Sys2Proof.Machine

def doSend (tag doc account cls : Nat) (embargo : Option CalTime) (early unattended : Bool) (attempts interval : Option Nat) (dials : List Str)
    (s : State) : State :=
  match jobCreate false doc account cls embargo early unattended attempts interval dials s with
  | .ok (j, s) => s.ok 0x38 tag (e8 j)
  | .error r => s.deny 0x38 tag r

/-- SEND (R129). -/
def execSend (tag doc account cls : Nat) (embargo : Option CalTime) (early unattended : Bool) (attempts interval : Option Nat)
    (dials : List Str) (s : State) : Host.Outcome State Fault Refusal :=
  request s (doSend tag doc account cls embargo early unattended attempts interval dials)

def doDialSet (tag guard attempts interval : Nat) (s : State) : State :=
  if guard ≤ 3 && between 1 9 attempts && between 1 60 interval then
    ((s.onDsc ({ · with guard, attempts, interval })).dirty rowGuard).ok 0x39 tag []
  else s.deny 0x39 tag .badField

/-- DIAL_SET (R130). -/
def execDialSet (tag guard attempts interval : Nat) (s : State) : Host.Outcome State Fault Refusal := request s (doDialSet tag guard attempts interval)

def doJobCancel (tag job mode : Nat) (s : State) : State :=
  match s.job job with
  | none => s.deny 0x3A tag .noSuch
  | some x =>
    if x.finished then s.deny 0x3A tag .state
    else if 1 < mode then s.deny 0x3A tag .badField
    else (jobCancel job (mode == 0) s).ok 0x3A tag []

/-- JOB_CANCEL (R141); mode NOW 0, AFTER_PAGE 1. -/
def execJobCancel (tag job mode : Nat) (s : State) : Host.Outcome State Fault Refusal := request s (doJobCancel tag job mode)

/-- Every field of a recipient in the order of its table (R146). -/
def recipItem (r : Recip) : List Byte :=
  eStr r.dial ++ e8 r.state.code ++ eOpt eLine r.offeredTo ++ e8 r.used ++ eOpt (fun n => eTime (CalTime.ofSecs n)) r.nextAttempt
    ++ e8 r.delivered ++ e8 r.resume ++ eOpt (fun o => e8 o.code) r.last ++ eOpt eLine r.line

/-- Every field of a job in the order of its table, but its recipients (R146); origin HOST 0, ROUTE 1. -/
def jobFixed (j : Nat) (x : Job) : List Byte :=
  e8 j ++ e8 x.doc ++ e8 x.account ++ e8 x.cls.code ++ eOpt eTime x.embargo ++ eFlag x.early ++ eFlag x.unattended ++ e8 x.attempts
    ++ e8 x.interval ++ e8 x.byRoute.toNat ++ eFlag x.cancelRequested ++ e32 x.enqueue ++ eOpt e32 x.finish ++ e8 x.state.code

def doJobStatus (tag job : Nat) (first : Option Nat) : State → State :=
  listQuery 0x3B tag first fun s =>
    match s.job job with
    | none => .error .noSuch
    | some x => .ok (listBody (jobFixed job x) first (x.recips.map recipItem))

/-- JOB_STATUS (R146). -/
def execJobStatus (tag job : Nat) (first : Option Nat) (s : State) : Host.Outcome State Fault Refusal := request s (doJobStatus tag job first)

/-- A job in JOB_LIST, with the number of its recipients in each state (R146). -/
def jobItem (x : Nat × Job) : List Byte :=
  e8 x.1 ++ e8 x.2.doc ++ e8 x.2.cls.code ++ e8 x.2.state.code ++ e32 x.2.enqueue ++ e8 (x.2.countIn .waiting) ++ e8 (x.2.countIn .eligible)
    ++ e8 (x.2.countIn .bound) ++ e8 (x.2.countIn .inCall) ++ e8 (x.2.countIn .retryWait) ++ e8 (x.2.countIn .delivered)
    ++ e8 (x.2.countIn .failed) ++ e8 (x.2.countIn .cancelled)

def lineSet (f : Line → Bool) : Nat := setOf (allLines.map f)

/-- The fixed part of JOB_LIST: guard and defaults, the line sets, free pool entries (R146). -/
def dscPart (s : State) : List Byte :=
  e8 s.dsc.guard ++ e8 s.dsc.attempts ++ e8 s.dsc.interval ++ e8 (lineSet (at4 s.dsc.offered)) ++ e8 (lineSet (at4 s.dsc.idle))
    ++ e8 (lineSet s.linePending) ++ e16 (256 - s.dsc.poolUsed)

def doJobList (tag : Nat) (first : Option Nat) : State → State :=
  listQuery 0x3C tag first fun s => .ok (listBody (dscPart s) first (s.dsc.jobs.map jobItem))

/-- JOB_LIST (R146). -/
def execJobList (tag : Nat) (first : Option Nat) (s : State) : Host.Outcome State Fault Refusal := request s (doJobList tag first)

/-! ## Expiries (R133) and clock reports (R144) -/

def embargoExpiry (j : Nat) (s : State) : State :=
  match s.job j with
  | none => s
  | some x => if x.finished || !s.tmb.valid then s else passIfNew s (readinessJob j s)

/-- EMBARGO_EXPIRY (R133). -/
def execEmbargoExpiry (job : Nat) (s : State) : Host.Outcome State Fault Refusal := event s (embargoExpiry job)

/-- A recipient whose next attempt time has come leaves RETRY_WAIT and takes the readiness test (R133); the time is judged against the clock as it
now stands (R173). -/
def retryEnd (j p : Nat) (s : State) : State :=
  match s.recip j p with
  | none => s
  | some r =>
    if r.state = .retryWait ∧ r.nextAttempt.all (· ≤ s.now.secs) then readinessTest j p (recipSet j p ({ · with state := .waiting, nextAttempt := none }) s)
    else s

/-- RETRY_EXPIRY (R133). -/
def execRetryExpiry (job pos : Nat) (s : State) : Host.Outcome State Fault Refusal := event s fun s => passIfNew s (retryEnd job pos s)

/-- A next attempt time against the new time: passed, it ends the wait; too far on, it is brought to one interval (R144). -/
def retryAdjust (j p : Nat) (s : State) : State :=
  match s.job j, s.recip j p with
  | some x, some r =>
    match r.nextAttempt with
    | none => s
    | some t =>
      let now := s.now.secs
      if t ≤ now then retryEnd j p s
      else recipSet j p ({ · with nextAttempt := some (min t (now + 60 * x.interval)) }) s
  | _, _ => s

/-- A clock report, for one job: readiness, then retry times (R144). -/
def clockJob (j : Nat) (s : State) : State :=
  let n := ((s.job j).map (·.recips.length)).getD 0
  eachDo (retryAdjust j) (positions n) (if (s.job j).any (!·.finished) then readinessJob j s else s)

/-- TMB's report to DSC (R144, R172): the jobs in ascending id, each one's embargo tests and then its retry times (log entry 61), then the pass. -/
def clockReport (s : State) : State := pass (eachDo clockJob s.dsc.jobs.keys s)

end Sys2Proof.Machine
end

