-- ==== Sys2Proof/Machine/CmdRrt.lean ====
section
/-! DEFINITION. The Reception Router's commands (chapter 6). -/

namespace Sys2Proof.Machine

/-- Both rows of a route entry become dirty (R115). -/
def State.dirtyRoute (s : State) (i : Nat) : State := (s.dirty (rowRoute i)).dirty (rowRoute i + 1)

def doRouteSet (tag index : Nat) (v : RawRoute) (s : State) : State :=
  match routeOf? v with
  | some r =>
    if index ≤ 31 then ((s.onRrt fun t => { t with routes := t.routes.put index r }).dirtyRoute index).ok 0x40 tag []
    else s.deny 0x40 tag .badField
  | none => s.deny 0x40 tag .badField

/-- ROUTE_SET (R115). -/
def execRouteSet (tag index : Nat) (v : RawRoute) (s : State) : Host.Outcome State Fault Refusal := request s (doRouteSet tag index v)

def doRouteClear (tag index : Nat) (s : State) : State :=
  if index ≤ 31 then ((s.onRrt fun t => { t with routes := t.routes.del index }).dirtyRoute index).ok 0x41 tag []
  else s.deny 0x41 tag .badField

/-- ROUTE_CLEAR (R115). -/
def execRouteClear (tag index : Nat) (s : State) : Host.Outcome State Fault Refusal := request s (doRouteClear tag index)

def doRouteDefaultSet (tag : Nat) (action : RawAction) (fallbackBin : Nat) (s : State) : State :=
  match actionOf? action, four? fallbackBin with
  | some a, some b => ((s.onRrt ({ · with dflt := a, dfltCount := 0, fallbackBin := b })).dirty rowDefault).ok 0x42 tag []
  | _, _ => s.deny 0x42 tag .badField

/-- ROUTE_DEFAULT_SET (R116). -/
def execRouteDefaultSet (tag : Nat) (action : RawAction) (fallbackBin : Nat) (s : State) : Host.Outcome State Fault Refusal :=
  request s (doRouteDefaultSet tag action fallbackBin)

/-- An action and its parameters, in the order of the table of section 6.1. -/
def eAction : Action → List Byte
  | .print b c k => e8 0 ++ e8 b.val ++ e8 c ++ e8 k.code
  | .hold => e8 1
  | .printAndHold b c k => e8 2 ++ e8 b.val ++ e8 c ++ e8 k.code
  | .reject => e8 3
  | .forward d a k spec => e8 4 ++ eStr d ++ e8 a ++ e8 k.code ++ eOpt (fun x => e8 x.1.val ++ e8 x.2) spec

def eRoute (r : Route) : List Byte :=
  eOpt eStr r.tagStart ++ eOpt e8 r.lineSet ++ eOpt (fun w => e16 w.1 ++ e16 w.2) r.window ++ e8 r.sense.code ++ eAction r.action ++ e16 r.count

/-- An entry of the table: unused, or used with its fields and match count (R126). -/
def routeItem (s : State) (i : Nat) : List Byte := eOpt eRoute (s.rrt.routes.get i)

def eDisposition (d : Disposition) : List Byte := eOpt e8 d.route ++ eAction d.action ++ eFlag d.converted

def recItem (l : Line) (r : RecvRec) : List Byte :=
  eLine l ++ e8 r.doc ++ eDisposition r.disp ++ e8 r.stored ++ eFlag r.applied ++ eOpt e8 r.entry ++ eOpt e8 r.job

/-- The fields of ROUTE_READ after its entries: the default action and count, the fallback bin, the reception records (R126). -/
def rrtPart (s : State) : List Byte :=
  let recs := allLines.filterMap fun l => (at4 s.rrt.recs l).map (recItem l)
  eAction s.rrt.dflt ++ e16 s.rrt.dfltCount ++ e8 s.rrt.fallbackBin.val ++ eList id recs

def doRouteRead (tag : Nat) (index first : Option Nat) : State → State :=
  listQuery 0x43 tag first fun s =>
    match index with
    | none => .ok (listBody [] first ((List.range 32).map (routeItem s)) (rrtPart s))
    | some i => if i ≤ 31 then .ok (listBody [] first [routeItem s i] (rrtPart s)) else .error .badField

/-- ROUTE_READ (R126). -/
def execRouteRead (tag : Nat) (index : Option Nat) (first : Option Nat) (s : State) : Host.Outcome State Fault Refusal :=
  request s (doRouteRead tag index first)

end Sys2Proof.Machine
end

