-- ==== Sys2Proof/Machine/CmdChg.lean ====
section
/-! DEFINITION. The Charging Unit's requests (chapter 8). A change of tariff, band, calendar or account, and freed log slots, are reported to DSC, which runs a pass (R135). -/

namespace Sys2Proof.Machine

/-! ## Tariffs, bands, calendar (R149 to R152) -/

def doTariffSet (tag index : Nat) (digits : Str) (band : Nat) (s : State) : State :=
  match tariffOf? digits band with
  | some t =>
    if index ≤ 127 then
      (pass ((s.onChg fun g => { g with tariffs := g.tariffs.put index t }).dirty (rowTariff index))).ok 0x48 tag []
    else s.deny 0x48 tag .badField
  | none => s.deny 0x48 tag .badField

/-- TARIFF_SET (R149). -/
def execTariffSet (tag index : Nat) (digits : Str) (band : Nat) (s : State) : Host.Outcome State Fault Refusal :=
  request s (doTariffSet tag index digits band)

def doTariffClear (tag index : Nat) (s : State) : State :=
  if index ≤ 127 then (pass ((s.onChg fun g => { g with tariffs := g.tariffs.del index }).dirty (rowTariff index))).ok 0x49 tag []
  else s.deny 0x49 tag .badField

/-- TARIFF_CLEAR (R149). -/
def execTariffClear (tag index : Nat) (s : State) : Host.Outcome State Fault Refusal := request s (doTariffClear tag index)

def doBandSet (tag band : Nat) (v : Band) (s : State) : State :=
  if band ≤ 15 && bandOk v then
    (pass ((s.onChg fun g => { g with bands := g.bands.set band v }).dirty (rowBand band))).ok 0x4A tag []
  else s.deny 0x4A tag .badField

/-- BAND_SET (R150). -/
def execBandSet (tag band : Nat) (v : Band) (s : State) : Host.Outcome State Fault Refusal := request s (doBandSet tag band v)

def doCalendarSet (tag start stop mask : Nat) (s : State) : State :=
  if start ≤ 1439 && stop ≤ 1439 && mask ≤ 127 then
    (pass ((s.onChg ({ · with calendar := ⟨start, stop, mask⟩ })).dirty rowCalendar)).ok 0x4B tag []
  else s.deny 0x4B tag .badField

/-- CALENDAR_SET (R151). -/
def execCalendarSet (tag start stop mask : Nat) (s : State) : Host.Outcome State Fault Refusal := request s (doCalendarSet tag start stop mask)

/-- The winning tariff index as RATE_QUERY gives it: absent for the no-match band 15, which an entry may also name (R152). -/
def State.rateIndex (s : State) (d : Str) : Option Nat := if s.rate d = 15 then none else (s.rateEntry d).map (·.1)

def doRateQuery (tag : Nat) (dial : Str) (s : State) : State :=
  if dialOk dial then
    let b := s.band (s.rate dial)
    let p := s.period
    s.ok 0x4C tag (e8 (s.rate dial) ++ eOpt e8 (s.rateIndex dial) ++ eFlag b.barred ++ e8 p.code ++ e16 (Band.setup b p)
      ++ e16 (Band.unit b p) ++ e16 (Band.interval b p))
  else s.deny 0x4C tag .badField

/-- RATE_QUERY (R152). -/
def execRateQuery (tag : Nat) (dial : Str) (s : State) : Host.Outcome State Fault Refusal := request s (doRateQuery tag dial)

def eBand (v : Band) : List Byte :=
  e16 v.setupPeak ++ e16 v.setupOff ++ e16 v.unitPeak ++ e16 v.unitOff ++ e16 v.intervalPeak ++ e16 v.intervalOff ++ eFlag v.barred

def tariffItem (s : State) (i : Nat) : List Byte := eOpt (fun t => eStr t.digits ++ e8 t.band) (s.chg.tariffs.get i)

/-- The fields of TARIFF_READ after its entries: the 16 bands and the calendar (R152); the bands, always 16, have no count byte (log entry 38,
the model's choice). -/
def tariffPart (s : State) : List Byte :=
  s.chg.bands.flatMap eBand ++ e16 s.chg.calendar.start ++ e16 s.chg.calendar.stop ++ e8 s.chg.calendar.mask

def doTariffRead (tag : Nat) (first : Option Nat) : State → State :=
  listQuery 0x4D tag first fun s => .ok (listBody [] first ((List.range 128).map (tariffItem s)) (tariffPart s))

/-- TARIFF_READ (R152). -/
def execTariffRead (tag : Nat) (first : Option Nat) (s : State) : Host.Outcome State Fault Refusal := request s (doTariffRead tag first)

/-! ## Accounts (R153, R163, R168) -/

/-- The four fields replaced; a non-zero limit below spent sets limit-lowered (R153). -/
def Account.setup (a : Account) (limit : Nat) (policy : Policy) (flashExempt suspended : Bool) : Account :=
  { a with limit, policy, flashExempt, suspended, limitLowered := a.limitLowered || (limit != 0 && limit < a.spent) }

def doAccountSet (tag account limit policy : Nat) (flashExempt suspended : Bool) (s : State) : State :=
  match Policy.of? policy with
  | some p =>
    if account ≤ 31 ∧ limit ≤ maxAmount then
      (pass ((s.onAccount account (·.setup limit p flashExempt suspended)).dirty (rowAccount account))).ok 0x4E tag []
    else s.deny 0x4E tag .badField
  | none => s.deny 0x4E tag .badField

/-- ACCOUNT_SET (R153). -/
def execAccountSet (tag account limit policy : Nat) (flashExempt suspended : Bool) (s : State) : Host.Outcome State Fault Refusal :=
  request s (doAccountSet tag account limit policy flashExempt suspended)

/-- The accounts a request names: one, or all 32 for 255 (R195). -/
def accountsNamed (account : Nat) : Option (List Nat) :=
  if account = 255 then some (List.range 32) else if account ≤ 31 then some [account] else none

/-- Every field of an account and the number of CARRIED reservations charged to it (R168), in 15 of the 16 bytes that R185 allows: the four flags are one
set, as in the account's row of the settings image (R198; log entry 64). -/
def accountItem (s : State) (a : Nat) : List Byte :=
  let r := s.account a
  let carried := (s.chg.resvs.filter fun v => v.carried && v.out.any (·.account == a)).length
  e32 r.limit ++ e32 r.spent ++ e16 r.calls ++ e16 r.pages ++ e8 r.policy.code
    ++ e8 (setOf [r.flashExempt, r.suspended, r.limitLowered, r.overrun]) ++ e8 carried

def doAccountRead (tag account : Nat) (first : Option Nat) : State → State :=
  listQuery 0x4F tag first fun s =>
    match accountsNamed account with
    | none => .error .badField
    | some as => .ok (listBody [] first (as.map (accountItem s)))

/-- ACCOUNT_READ (R168). -/
def execAccountRead (tag account : Nat) (first : Option Nat) (s : State) : Host.Outcome State Fault Refusal :=
  request s (doAccountRead tag account first)

/-- An account's totals in a period close (R163). -/
def totalsItem (s : State) (a : Nat) : List Byte :=
  let r := s.account a
  e32 r.spent ++ e16 r.calls ++ e16 r.pages

/-- The period of one account is closed, and its row queued (R163, R167). -/
def periodClose (a : Nat) (s : State) : State :=
  accountRow a (s.onAccount a ({ · with spent := 0, calls := 0, pages := 0, limitLowered := false, overrun := false }))

def doAccountClosePeriod (tag account : Nat) (first : Option Nat) (s : State) : State :=
  match accountsNamed account with
  | none => s.deny 0x50 tag .badField
  | some as =>
    if first = some 0 then s.deny 0x50 tag .badField
    else (pass (eachDo periodClose as s)).ok 0x50 tag (listBody [] first (as.map (totalsItem s)))

/-- ACCOUNT_CLOSE_PERIOD (R163). -/
def execAccountClosePeriod (tag account : Nat) (first : Option Nat) (s : State) : Host.Outcome State Fault Refusal :=
  request s (doAccountClosePeriod tag account first)

/-! ## The call log (R165, R166) -/

/-- The fixed part of LOG_READ: committed records, reservations, free count, LOG_RESERVE (R165). -/
def logPart (s : State) : List Byte :=
  e8 s.chg.records.length ++ e8 s.chg.resvs.length ++ e8 s.logFree ++ e8 Config.logReserve

def doLogRead (tag count : Nat) (first : Option Nat) : State → State :=
  listQuery 0x51 tag first fun s =>
    if between 1 8 count then .ok (listBody (logPart s) first ((s.chg.records.take count).map Record.encode)) else .error .badField

/-- LOG_READ (R165). -/
def execLogRead (tag count : Nat) (first : Option Nat) (s : State) : Host.Outcome State Fault Refusal := request s (doLogRead tag count first)

/-- A reservation's fields and marks so far, in the order of the record's table with the job's class after its job and recipient (R156); then its
charge, its budget action and the time left on its interval timer (R165; log entry 38). The setup charge, unit charge and unit interval copied by
R159 are no fields of the record and are left out (log entry 62). -/
def resvPart (s : State) (r : LogResv) : List Byte :=
  eFlag r.out.isSome ++ eLine r.line ++ eOpt (fun o => e8 o.account) r.out ++ eOpt (fun jp => e8 jp.1 ++ e8 jp.2) (r.out.bind (·.recip))
    ++ eOpt (fun o => e8 o.cls.code) r.out ++ eOpt (fun o => eStr o.dial) r.out ++ eOpt (fun o => e8 o.band) r.out ++ eOpt (fun p => e8 p.code) r.period
    ++ eOpt eStr r.remoteTag ++ eOpt eTime r.start ++ eOpt eTime r.answer ++ e8 (setOf [r.overrun, r.metered, r.unattended, r.clockInvalid])
    ++ e32 r.charge ++ eFlag r.actionTaken ++ eOpt (fun t => e16 (t - s.elapsed)) r.intervalEnd

def doLogStatus (tag line : Nat) (s : State) : State :=
  match four? line with
  | none => s.deny 0x52 tag .badField
  | some l => s.ok 0x52 tag (eOpt (resvPart s) (s.carried l))

/-- LOG_STATUS (R165). -/
def execLogStatus (tag line : Nat) (s : State) : Host.Outcome State Fault Refusal := request s (doLogStatus tag line)

/-- The expected log number does not stand at the head of the log (R166). -/
def State.logMismatch (s : State) : Option Nat → Bool
  | none => false
  | some n => match s.chg.records with | [] => true | r :: _ => r.number != n

def doLogDrop (tag count : Nat) (expected : Option Nat) (s : State) : State :=
  if !between 1 128 count then s.deny 0x53 tag .badField
  else if s.logMismatch expected then s.deny 0x53 tag .state
  else
    let n := min count s.chg.records.length
    let t := s.onChg fun g => { g with records := g.records.drop n }
    (if n = 0 then t else pass t).ok 0x53 tag (e8 n ++ eOpt (fun r => e16 r.number) t.chg.records.head?)

/-- LOG_DROP (R166, R158). -/
def execLogDrop (tag count : Nat) (expected : Option Nat) (s : State) : Host.Outcome State Fault Refusal := request s (doLogDrop tag count expected)

end Sys2Proof.Machine
end

