-- ==== Sys2Proof/Machine/CmdStore.lean ====
section
/-! DEFINITION. The commands of the Time Base and the Settings Store (chapter 9), and the power-up reset. -/

namespace Sys2Proof.Machine

/-! ## The clock (R171, R172) -/

def State.setClock (s : State) (t : CalTime) (valid : Bool) : State := { s with tmb := ⟨t, valid⟩ }

def doClockSet (tag : Nat) (time : Option CalTime) (s : State) : State :=
  match time with
  | none => (clockReport (s.setClock s.now false)).ok 0x58 tag []
  | some t => if t.valid then (clockReport (s.setClock t true)).ok 0x58 tag [] else s.deny 0x58 tag .badField

/-- CLOCK_SET (R172). -/
def execClockSet (tag : Nat) (time : Option CalTime) (s : State) : Host.Outcome State Fault Refusal := request s (doClockSet tag time)

def doClockRead (tag : Nat) (s : State) : State := s.ok 0x59 tag (eTime s.now ++ eFlag s.tmb.valid)

/-- CLOCK_READ (R172). -/
def execClockRead (tag : Nat) (s : State) : Host.Outcome State Fault Refusal := request s (doClockRead tag)

/-- One second: elapsed time and the calendar go on; after 2099 the clock becomes invalid (R171). -/
def clockTick (s : State) : State :=
  let t := s.now.tick
  { s with elapsed := s.elapsed + 1, tmb := ⟨t.1, s.tmb.valid && !t.2⟩ }

/-- The clock became invalid at a tick: TMB reports it (R172). -/
def secondTick (s : State) : State :=
  let t := clockTick s
  if s.tmb.valid && !t.tmb.valid then clockReport t else t

/-- SECOND_TICK (R171). -/
def execSecondTick (s : State) : Host.Outcome State Fault Refusal := levelEvent s clockTick secondTick

/-! ## The settings store (R176 to R179) -/

def doStoreSave (tag : Nat) (s : State) : State :=
  if s.ssc.status = .run then s.deny 0x5C tag .state
  else if Config.writePlaces ≤ s.ssc.queue.length then s.deny 0x5C tag .full
  else (s.onSsc fun c => { c with queue := c.queue ++ [.save], status := .run }).ok 0x5C tag []

/-- STORE_SAVE (R177). -/
def execStoreSave (tag : Nat) (s : State) : Host.Outcome State Fault Refusal := request s (doStoreSave tag)

/-- A queue item: a kind byte, account row 0 with its account after it, save 1; R179 gives it no field table, so the layout is the model's choice (log
entry 38). -/
def storeItem : StoreItem → List Byte
  | .account a => e8 0 ++ e8 a
  | .save => e8 1

/-- Rows of a section among some rows. -/
def inSection (k : Nat) (rows : List Nat) : List Nat := rows.filter fun r => sectionOf r == k

/-- The failed-section map: each marked section with its failed count (R175). -/
def failedMap (c : Ssc) : List (Nat × Nat) :=
  ((List.range 12).map fun k => (k, (inSection k c.failed).length)).filter fun x => 0 < x.2

/-- The fields of STORE_STATUS before its queue items (R179). -/
def sscPart (c : Ssc) : List Byte :=
  e8 c.status.code ++ e8 c.rowsWritten ++ eFlag c.fault ++ eOpt (fun x => e8 x.1 ++ e8 x.2.code) c.lastFail ++ e8 c.dirty.length
    ++ (List.range 12).flatMap (fun k => eList e8 (inSection k c.dirty)) ++ eList (fun x => e8 x.1 ++ e8 x.2) (failedMap c)

/-- The item being written, after the queue items (R179). -/
def sscCurrent (c : Ssc) : List Byte := eOpt storeItem (if c.writing.isSome then c.queue.head? else none)

def doStoreStatus (tag : Nat) (first : Option Nat) : State → State :=
  listQuery 0x5D tag first fun s => .ok (listBody (sscPart s.ssc) first (s.ssc.queue.map storeItem) (sscCurrent s.ssc))

/-- STORE_STATUS (R179). -/
def execStoreStatus (tag : Nat) (first : Option Nat) (s : State) : Host.Outcome State Fault Refusal := request s (doStoreStatus tag first)

/-- QUEUE_ITEM_START (R176 to R178). -/
def execQueueItemStart (s : State) : Host.Outcome State Fault Refusal := event s queueStart

/-- ROW_WRITE_COMPLETE (R178), with the answers of the memory that lead to it: the poll's ACK, or a NACK in the transfer (log entry 68). -/
def execRowWriteComplete (answers : List Bool) (s : State) : Host.Outcome State Fault Refusal := event s (rowAnswered answers)

/-- POLL_TIMEOUT (R178): the transfer has ended, and no poll was answered with ACK in time (log entry 68). -/
def execPollTimeout (s : State) : Host.Outcome State Fault Refusal := event s (writeEnd (some .pollTimeout))

/-! ## Power-up (R175) -/

/-- The settings memory a power-up reset finds: a row whose write it cuts off holds free values (log entry 4). -/
def eepromAtReset (s : State) : List Host.Cell × Nat :=
  match s.ssc.writing with
  | none => (s.eeprom, s.freeCount)
  | some w => (bytesWrite s.eeprom (w.row * 32) (failedBytes s.freeCount), s.freeCount + 1)

/-- POWER_UP_RESET (R175). -/
def execPowerUpReset (pins : Pins) (voltage : Vector Bool 4) (s : State) : Host.Outcome State Fault Refusal :=
  .next (State.powerUp pins voltage (eepromAtReset s).1 (eepromAtReset s).2 s.pending)

/-- SETTINGS_LOAD_COMPLETE (R175); without a load in progress it has no effect. -/
def execSettingsLoadComplete (noAck : List Nat) (s : State) : Host.Outcome State Fault Refusal :=
  .next (if s.ssc.loading then settingsLoad noAck s else s)

end Sys2Proof.Machine
end

