-- ==== Sys2Proof/Machine/Requests.lean ====
section
/-! DEFINITION. Request bodies (R184, R195): the fields of each request kind read from a body, and written to one. -/

namespace Sys2Proof.Machine

/-! ## Reading fields: the value and the bytes after it -/

def g8 : List Byte → Option (Nat × List Byte)
  | b :: bs => some (b.toNat, bs)
  | [] => none

def g16 : List Byte → Option (Nat × List Byte)
  | a :: b :: bs => some (a.toNat + 256 * b.toNat, bs)
  | _ => none

def g32 : List Byte → Option (Nat × List Byte)
  | a :: b :: c :: d :: bs => some (a.toNat + 256 * b.toNat + 65536 * (c.toNat + 256 * d.toNat), bs)
  | _ => none

/-- A flag byte other than 0 or 1 does not fit (R184). -/
def gFlag : List Byte → Option (Bool × List Byte)
  | b :: bs => if b = 0 then some (false, bs) else if b = 1 then some (true, bs) else none
  | [] => none

/-- A presence byte other than 0 or 1 does not fit (R184). -/
def gOpt {α : Type} (g : List Byte → Option (α × List Byte)) : List Byte → Option (Option α × List Byte)
  | b :: bs => if b = 0 then some (none, bs) else if b = 1 then (g bs).map fun x => (some x.1, x.2) else none
  | [] => none

def gStr : List Byte → Option (Str × List Byte)
  | b :: bs => if b.toNat ≤ bs.length then some (bs.take b.toNat, bs.drop b.toNat) else none
  | [] => none

def gMany {α : Type} (g : List Byte → Option (α × List Byte)) : Nat → List Byte → Option (List α × List Byte)
  | 0, bs => some ([], bs)
  | n + 1, bs => do
    let (x, bs) ← g bs
    let (xs, bs) ← gMany g n bs
    return (x :: xs, bs)

def gList {α : Type} (g : List Byte → Option (α × List Byte)) : List Byte → Option (List α × List Byte)
  | b :: bs => gMany g b.toNat bs
  | [] => none

def gTime : List Byte → Option (CalTime × List Byte)
  | a :: b :: c :: d :: e :: f :: g :: bs => some (⟨2000 + a.toNat, b.toNat, c.toNat, d.toNat, e.toNat, f.toNat, g.toNat⟩, bs)
  | _ => none

def gPair (bs : List Byte) : Option ((Nat × Nat) × List Byte) := do
  let (a, bs) ← g8 bs
  let (b, bs) ← g8 bs
  return ((a, b), bs)

def gPair16 (bs : List Byte) : Option ((Nat × Nat) × List Byte) := do
  let (a, bs) ← g16 bs
  let (b, bs) ← g16 bs
  return ((a, b), bs)

/-- No byte may be left after the last field (R195). -/
def gEnd {α : Type} (x : α) : List Byte → Option α
  | [] => some x
  | _ :: _ => none

/-! ## Compound fields -/

def gAction (bs : List Byte) : Option (RawAction × List Byte) := do
  let (code, bs) ← g8 bs
  match code with
  | 0 =>
    let (b, bs) ← g8 bs
    let (c, bs) ← g8 bs
    let (k, bs) ← g8 bs
    return (.print b c k, bs)
  | 1 => return (.hold, bs)
  | 2 =>
    let (b, bs) ← g8 bs
    let (c, bs) ← g8 bs
    let (k, bs) ← g8 bs
    return (.printAndHold b c k, bs)
  | 3 => return (.reject, bs)
  | 4 =>
    let (d, bs) ← gStr bs
    let (a, bs) ← g8 bs
    let (k, bs) ← g8 bs
    let (p, bs) ← gOpt gPair bs
    return (.forward d a k p, bs)
  | n => return (.undefined n, bs)

def wAction : RawAction → List Byte
  | .print b c k => e8 0 ++ e8 b ++ e8 c ++ e8 k
  | .hold => e8 1
  | .printAndHold b c k => e8 2 ++ e8 b ++ e8 c ++ e8 k
  | .reject => e8 3
  | .forward d a k p => e8 4 ++ eStr d ++ e8 a ++ e8 k ++ eOpt (fun x => e8 x.1 ++ e8 x.2) p
  | .undefined n => e8 n

def ePair (x : Nat × Nat) : List Byte := e8 x.1 ++ e8 x.2
def ePair16 (x : Nat × Nat) : List Byte := e16 x.1 ++ e16 x.2

def gRoute (bs : List Byte) : Option (RawRoute × List Byte) := do
  let (t, bs) ← gOpt gStr bs
  let (l, bs) ← gOpt g8 bs
  let (w, bs) ← gOpt gPair16 bs
  let (n, bs) ← g8 bs
  let (a, bs) ← gAction bs
  return (⟨t, l, w, n, a⟩, bs)

def wRoute (v : RawRoute) : List Byte :=
  eOpt eStr v.tagStart ++ eOpt e8 v.lineSet ++ eOpt ePair16 v.window ++ e8 v.sense ++ wAction v.action

def gScanSettings (bs : List Byte) : Option (ScanSettings × List Byte) := do
  let (a, bs) ← g16 bs
  let (b, bs) ← g16 bs
  let (c, bs) ← g8 bs
  let (d, bs) ← g8 bs
  let (e, bs) ← g8 bs
  let (f, bs) ← g8 bs
  let (g, bs) ← g8 bs
  return (⟨a, b, c, d, e, f, g⟩, bs)

def gThermal (bs : List Byte) : Option (Thermal × List Byte) := do
  let (a, bs) ← g16 bs
  let (b, bs) ← g16 bs
  let (c, bs) ← g16 bs
  let (d, bs) ← g8 bs
  let (e, bs) ← g8 bs
  return (⟨a, b, c, d, e⟩, bs)

def gBand (bs : List Byte) : Option (Band × List Byte) := do
  let (a, bs) ← g16 bs
  let (b, bs) ← g16 bs
  let (c, bs) ← g16 bs
  let (d, bs) ← g16 bs
  let (e, bs) ← g16 bs
  let (f, bs) ← g16 bs
  let (g, bs) ← gFlag bs
  return (⟨a, b, c, d, e, f, g⟩, bs)

def gLineConfig (bs : List Byte) : Option (RawLineConfig × List Byte) := do
  let (a, bs) ← gFlag bs
  let (b, bs) ← gFlag bs
  let (c, bs) ← gFlag bs
  let (d, bs) ← g8 bs
  let (e, bs) ← g8 bs
  let (f, bs) ← gOpt gStr bs
  let (g, bs) ← g8 bs
  let (h, bs) ← g16 bs
  return (⟨a, b, c, d, e, f, g, h⟩, bs)

def wLineConfig (v : RawLineConfig) : List Byte :=
  eFlag v.enabled ++ eFlag v.incoming ++ eFlag v.outgoing ++ e8 v.answerRings ++ e8 v.dialMode ++ eOpt eStr v.outside ++ e8 v.metering
    ++ e16 v.meterValue

/-! ## Bodies: the request of a kind, tag and body; none when the shape does not fit -/

def readTagOnly (i : Instr) (bs : List Byte) : Option Instr := gEnd i bs

def readN1 (f : Nat → Instr) (bs : List Byte) : Option Instr := do
  let (a, bs) ← g8 bs
  gEnd (f a) bs

def readN2 (f : Nat → Nat → Instr) (bs : List Byte) : Option Instr := do
  let (a, bs) ← g8 bs
  let (b, bs) ← g8 bs
  gEnd (f a b) bs

def readN3 (f : Nat → Nat → Nat → Instr) (bs : List Byte) : Option Instr := do
  let (a, bs) ← g8 bs
  let (b, bs) ← g8 bs
  let (c, bs) ← g8 bs
  gEnd (f a b c) bs

/-- An optional first item alone (R195: the last field, two bytes). -/
def readFirst (f : Option Nat → Instr) (bs : List Byte) : Option Instr := do
  let (a, bs) ← gOpt g16 bs
  gEnd (f a) bs

def readN1First (f : Nat → Option Nat → Instr) (bs : List Byte) : Option Instr := do
  let (n, bs) ← g8 bs
  let (a, bs) ← gOpt g16 bs
  gEnd (f n a) bs

def readOptFirst (f : Option Nat → Option Nat → Instr) (bs : List Byte) : Option Instr := do
  let (n, bs) ← gOpt g8 bs
  let (a, bs) ← gOpt g16 bs
  gEnd (f n a) bs

def readFlag (f : Bool → Instr) (bs : List Byte) : Option Instr := do
  let (a, bs) ← gFlag bs
  gEnd (f a) bs

def readN1Flag (f : Nat → Bool → Instr) (bs : List Byte) : Option Instr := do
  let (n, bs) ← g8 bs
  let (a, bs) ← gFlag bs
  gEnd (f n a) bs

/-- SET 0, CLEAR 1 (R14, R195). -/
def readRetain (t : Nat) (bs : List Byte) : Option Instr := do
  let (n, bs) ← g8 bs
  let (a, bs) ← gFlag bs
  gEnd (.docRetain t n (!a)) bs

def readScan (f : Nat → Nat → Nat → Nat → Option (Nat × Nat) → Instr) (bs : List Byte) : Option Instr := do
  let (a, bs) ← g8 bs
  let (b, bs) ← g8 bs
  let (c, bs) ← g8 bs
  let (d, bs) ← g8 bs
  let (p, bs) ← gOpt gPair bs
  gEnd (f a b c d p) bs

/-- The bytes after the flag are the chunk (R195). -/
def readStripData (t : Nat) (bs : List Byte) : Option Instr := do
  let (d, bs) ← g8 bs
  let (n, bs) ← g8 bs
  let (l, bs) ← gFlag bs
  return .stripData t d n l bs

def readSend (t : Nat) (bs : List Byte) : Option Instr := do
  let (d, bs) ← g8 bs
  let (a, bs) ← g8 bs
  let (k, bs) ← g8 bs
  let (e, bs) ← gOpt gTime bs
  let (early, bs) ← gFlag bs
  let (un, bs) ← gFlag bs
  let (att, bs) ← gOpt g8 bs
  let (int, bs) ← gOpt g8 bs
  let (ds, bs) ← gList gStr bs
  gEnd (.send t d a k e early un att int ds) bs

def readPrint (t : Nat) (bs : List Byte) : Option Instr := do
  let (d, bs) ← g8 bs
  let (a, bs) ← gOpt g8 bs
  let (z, bs) ← gOpt g8 bs
  let (c, bs) ← g8 bs
  let (b, bs) ← g8 bs
  let (k, bs) ← g8 bs
  gEnd (.print t d a z c b k) bs

def readRecord {α : Type} (g : List Byte → Option (α × List Byte)) (f : α → Instr) (bs : List Byte) : Option Instr := do
  let (v, bs) ← g bs
  gEnd (f v) bs

def readN1Record {α : Type} (g : List Byte → Option (α × List Byte)) (f : Nat → α → Instr) (bs : List Byte) : Option Instr := do
  let (n, bs) ← g8 bs
  let (v, bs) ← g bs
  gEnd (f n v) bs

def readDefault (t : Nat) (bs : List Byte) : Option Instr := do
  let (a, bs) ← gAction bs
  let (b, bs) ← g8 bs
  gEnd (.routeDefaultSet t a b) bs

def readTariff (t : Nat) (bs : List Byte) : Option Instr := do
  let (i, bs) ← g8 bs
  let (d, bs) ← gStr bs
  let (b, bs) ← g8 bs
  gEnd (.tariffSet t i d b) bs

def readCalendar (t : Nat) (bs : List Byte) : Option Instr := do
  let (w, bs) ← gPair16 bs
  let (m, bs) ← g8 bs
  gEnd (.calendarSet t w.1 w.2 m) bs

def readAccount (t : Nat) (bs : List Byte) : Option Instr := do
  let (a, bs) ← g8 bs
  let (l, bs) ← g32 bs
  let (p, bs) ← g8 bs
  let (f, bs) ← gFlag bs
  let (u, bs) ← gFlag bs
  gEnd (.accountSet t a l p f u) bs

def readLen (f : Nat → Nat → Instr) (bs : List Byte) : Option Instr := do
  let (a, bs) ← g8 bs
  let (b, bs) ← g16 bs
  gEnd (f a b) bs

/-- The request of a kind (R194): none when the kind is not a request's; inside, none when the body's shape does not fit. -/
def readRequest (kind t : Nat) (bs : List Byte) : Option (Option Instr) :=
  match kind with
  | 0x10 => some (readRecord gPair16 (fun v => .memFloorsSet t v.1 v.2) bs)
  | 0x11 => some (readFlag (.docCreate t) bs)
  | 0x12 => some (readN3 (.pageBegin t) bs)
  | 0x13 => some (readStripData t bs)
  | 0x14 => some (readN1 (.pageClose t) bs)
  | 0x15 => some (readN1 (.docClose t) bs)
  | 0x16 => some (readRetain t bs)
  | 0x17 => some (readN1Flag (.docDelete t) bs)
  | 0x18 => some (readN1First (.docInfo t) bs)
  | 0x19 => some (readFirst (.docList t) bs)
  | 0x1A => some (readN1Record (gOpt g8) (.cursorOpen t) bs)
  | 0x1B => some (readN1 (.cursorClose t) bs)
  | 0x1C => some (readLen (.stripRead t) bs)
  | 0x20 => some (readScan (.scan t) bs)
  | 0x21 => some (readTagOnly (.scanStop t) bs)
  | 0x22 => some (readRecord gScanSettings (.scanSettingsSet t) bs)
  | 0x23 => some (readScan (.scanPresetSet t) bs)
  | 0x24 => some (readTagOnly (.scanPresetClear t) bs)
  | 0x25 => some (readTagOnly (.scanStatus t) bs)
  | 0x28 => some (readPrint t bs)
  | 0x29 => some (readN1 (.printCancel t) bs)
  | 0x2A => some (readTagOnly (.printResume t) bs)
  | 0x2B => some (readTagOnly (.printRearm t) bs)
  | 0x2C => some (readRecord gThermal (.printThermalSet t) bs)
  | 0x2D => some (readOptFirst (.printStatus t) bs)
  | 0x30 => some (readN1Record gLineConfig (.lineConfigSet t) bs)
  | 0x31 => some (readN1 (.answerWaitSet t) bs)
  | 0x32 => some (readN1First (.lineStatus t) bs)
  | 0x33 => some (readRecord gStr (.stationTagSet t) bs)
  | 0x34 => some (readN2 (.exchangeSet t) bs)
  | 0x38 => some (readSend t bs)
  | 0x39 => some (readN3 (.dialSet t) bs)
  | 0x3A => some (readN2 (.jobCancel t) bs)
  | 0x3B => some (readN1First (.jobStatus t) bs)
  | 0x3C => some (readFirst (.jobList t) bs)
  | 0x40 => some (readN1Record gRoute (.routeSet t) bs)
  | 0x41 => some (readN1 (.routeClear t) bs)
  | 0x42 => some (readDefault t bs)
  | 0x43 => some (readOptFirst (.routeRead t) bs)
  | 0x48 => some (readTariff t bs)
  | 0x49 => some (readN1 (.tariffClear t) bs)
  | 0x4A => some (readN1Record gBand (.bandSet t) bs)
  | 0x4B => some (readCalendar t bs)
  | 0x4C => some (readRecord gStr (.rateQuery t) bs)
  | 0x4D => some (readFirst (.tariffRead t) bs)
  | 0x4E => some (readAccount t bs)
  | 0x4F => some (readN1First (.accountRead t) bs)
  | 0x50 => some (readN1First (.accountClosePeriod t) bs)
  | 0x51 => some (readN1First (.logRead t) bs)
  | 0x52 => some (readN1 (.logStatus t) bs)
  | 0x53 => some (readN1Record (gOpt g16) (.logDrop t) bs)
  | 0x58 => some (readRecord (gOpt gTime) (.clockSet t) bs)
  | 0x59 => some (readTagOnly (.clockRead t) bs)
  | 0x5C => some (readTagOnly (.storeSave t) bs)
  | 0x5D => some (readFirst (.storeStatus t) bs)
  | 0x60 => some (readTagOnly (.status t) bs)
  | 0x61 => some (readN1 (.noticeMaskSet t) bs)
  | 0x62 => some (readN1 (.presenceSet t) bs)
  | 0x63 => some (readTagOnly (.restart t) bs)
  | _ => none

/-- A request as software sends it: kind, tag, body (R194, R195); none for a command that is no request. -/
def writeRequest : Instr → Option (Nat × Nat × List Byte)
  | .memFloorsSet t a b => some (0x10, t, ePair16 (a, b))
  | .docCreate t r => some (0x11, t, eFlag r)
  | .pageBegin t d r w => some (0x12, t, e8 d ++ e8 r ++ e8 w)
  | .stripData t d n l c => some (0x13, t, e8 d ++ e8 n ++ eFlag l ++ c)
  | .pageClose t d => some (0x14, t, e8 d)
  | .docClose t d => some (0x15, t, e8 d)
  | .docRetain t d v => some (0x16, t, e8 d ++ eFlag (!v))
  | .docDelete t d f => some (0x17, t, e8 d ++ eFlag f)
  | .docInfo t d f => some (0x18, t, e8 d ++ eOpt e16 f)
  | .docList t f => some (0x19, t, eOpt e16 f)
  | .cursorOpen t d p => some (0x1A, t, e8 d ++ eOpt e8 p)
  | .cursorClose t c => some (0x1B, t, e8 c)
  | .stripRead t c n => some (0x1C, t, e8 c ++ e16 n)
  | .scan t r w d b p => some (0x20, t, e8 r ++ e8 w ++ e8 d ++ e8 b ++ eOpt ePair p)
  | .scanStop t => some (0x21, t, [])
  | .scanSettingsSet t v => some (0x22, t, eScanSettings v)
  | .scanPresetSet t r w d b p => some (0x23, t, e8 r ++ e8 w ++ e8 d ++ e8 b ++ eOpt ePair p)
  | .scanPresetClear t => some (0x24, t, [])
  | .scanStatus t => some (0x25, t, [])
  | .print t d a z c b k => some (0x28, t, e8 d ++ eOpt e8 a ++ eOpt e8 z ++ e8 c ++ e8 b ++ e8 k)
  | .printCancel t e => some (0x29, t, e8 e)
  | .printResume t => some (0x2A, t, [])
  | .printRearm t => some (0x2B, t, [])
  | .printThermalSet t v => some (0x2C, t, eThermal v)
  | .printStatus t e f => some (0x2D, t, eOpt e8 e ++ eOpt e16 f)
  | .lineConfigSet t l v => some (0x30, t, e8 l ++ wLineConfig v)
  | .answerWaitSet t w => some (0x31, t, e8 w)
  | .lineStatus t l f => some (0x32, t, e8 l ++ eOpt e16 f)
  | .stationTagSet t x => some (0x33, t, eStr x)
  | .exchangeSet t m p => some (0x34, t, e8 m ++ e8 p)
  | .send t d a k e early un att int ds =>
    some (0x38, t, e8 d ++ e8 a ++ e8 k ++ eOpt eTime e ++ eFlag early ++ eFlag un ++ eOpt e8 att ++ eOpt e8 int ++ eList eStr ds)
  | .dialSet t g a i => some (0x39, t, e8 g ++ e8 a ++ e8 i)
  | .jobCancel t j m => some (0x3A, t, e8 j ++ e8 m)
  | .jobStatus t j f => some (0x3B, t, e8 j ++ eOpt e16 f)
  | .jobList t f => some (0x3C, t, eOpt e16 f)
  | .routeSet t i v => some (0x40, t, e8 i ++ wRoute v)
  | .routeClear t i => some (0x41, t, e8 i)
  | .routeDefaultSet t a b => some (0x42, t, wAction a ++ e8 b)
  | .routeRead t i f => some (0x43, t, eOpt e8 i ++ eOpt e16 f)
  | .tariffSet t i d b => some (0x48, t, e8 i ++ eStr d ++ e8 b)
  | .tariffClear t i => some (0x49, t, e8 i)
  | .bandSet t b v => some (0x4A, t, e8 b ++ eBand v)
  | .calendarSet t a b m => some (0x4B, t, ePair16 (a, b) ++ e8 m)
  | .rateQuery t d => some (0x4C, t, eStr d)
  | .tariffRead t f => some (0x4D, t, eOpt e16 f)
  | .accountSet t a l p f u => some (0x4E, t, e8 a ++ e32 l ++ e8 p ++ eFlag f ++ eFlag u)
  | .accountRead t a f => some (0x4F, t, e8 a ++ eOpt e16 f)
  | .accountClosePeriod t a f => some (0x50, t, e8 a ++ eOpt e16 f)
  | .logRead t n f => some (0x51, t, e8 n ++ eOpt e16 f)
  | .logStatus t l => some (0x52, t, e8 l)
  | .logDrop t n e => some (0x53, t, e8 n ++ eOpt e16 e)
  | .clockSet t v => some (0x58, t, eOpt eTime v)
  | .clockRead t => some (0x59, t, [])
  | .storeSave t => some (0x5C, t, [])
  | .storeStatus t f => some (0x5D, t, eOpt e16 f)
  | .status t => some (0x60, t, [])
  | .noticeMaskSet t m => some (0x61, t, e8 m)
  | .presenceSet t p => some (0x62, t, e8 p)
  | .restart t => some (0x63, t, [])
  | _ => none

end Sys2Proof.Machine
end

