-- ==== Sys2Proof/Machine/CmdLink.lean ====
section
/-! DEFINITION. The Host Link's commands (chapter 10): characters, frames, errors, presence, its own requests, the taking of queued requests, RESTART. -/

namespace Sys2Proof.Machine

/-! ## HLC's own requests (R184, R188, R190, R191, R193) -/

/-- A kind that is not a request's: the reply carries kind 0 and the kind received (R184, R194). -/
def doUnknownKind (tag kind : Nat) (s : State) : State := s.answer 0 tag .unknownKind (e8 kind)

/-- UNKNOWN_KIND (R184). -/
def execUnknownKind (tag kind : Nat) (s : State) : Host.Outcome State Fault Refusal := request s (doUnknownKind tag kind)

/-- The link rate by the straps sampled at power-up, in the order of its table (R181). -/
def linkRate (p : Pins) : Nat := setOf [p.strap0, p.strap1]

/-- The fields of STATUS; mode ATTENDED 0, UNATTENDED 1 (R191). -/
def statusBody (s : State) : List Byte :=
  e8 (!s.hlc.attended).toNat ++ e8 s.hlc.period ++ eOpt (fun t => e8 (t - s.elapsed)) s.hlc.presenceEnd ++ e8 (linkRate s.pins) ++ e8 s.hlc.mask
    ++ e8 s.hlc.requests.length ++ e8 s.hlc.notices.length ++ e8 s.hlc.flags.bits ++ eFlag s.hlc.lost

def doStatus (tag : Nat) (s : State) : State := (s.onHlc ({ · with flags := LinkFlags.none, lost := false })).ok 0x60 tag (statusBody s)

/-- STATUS (R191). -/
def execStatus (tag : Nat) (s : State) : Host.Outcome State Fault Refusal := request s (doStatus tag)

def doNoticeMaskSet (tag mask : Nat) (s : State) : State :=
  if mask ≤ 255 then ((s.onHlc ({ · with mask })).dirty rowPresence).ok 0x61 tag [] else s.deny 0x61 tag .badField

/-- NOTICE_MASK_SET (R188). -/
def execNoticeMaskSet (tag mask : Nat) (s : State) : Host.Outcome State Fault Refusal := request s (doNoticeMaskSet tag mask)

/-- The presence timer as it starts: it runs while ATTENDED with a period above 0 (R189). -/
def State.presenceStart (s : State) : State :=
  s.onHlc fun h => { h with presenceEnd := if h.attended && h.period != 0 then some (s.elapsed + h.period) else none }

def doPresenceSet (tag period : Nat) (s : State) : State :=
  if period = 0 ∨ between 5 255 period then
    (((s.onHlc ({ · with period })).presenceStart).dirty rowPresence).ok 0x62 tag []
  else s.deny 0x62 tag .badField

/-- PRESENCE_SET (R190). -/
def execPresenceSet (tag period : Nat) (s : State) : Host.Outcome State Fault Refusal := request s (doPresenceSet tag period)

def doRestart (tag : Nat) (s : State) : State := (s.ok 0x63 tag []).onHlc ({ · with restarting := true })

/-- RESTART (R193): the reply; the effect comes with RESTART_EFFECT. -/
def execRestart (tag : Nat) (s : State) : Host.Outcome State Fault Refusal := request s (doRestart tag)

/-! ## Taking requests from the queue (R184) -/

/-- The owning block takes a request. -/
def runRequest (i : Instr) (s : State) : State :=
  match i with
  | .memFloorsSet t a b => doMemFloorsSet t a b s
  | .docCreate t r => doDocCreate t r s
  | .pageBegin t d r w => doPageBegin t d r w s
  | .stripData t d n l c => doStripData t d n l c s
  | .pageClose t d => doPageClose t d s
  | .docClose t d => doDocClose t d s
  | .docRetain t d v => doDocRetain t d v s
  | .docDelete t d f => doDocDelete t d f s
  | .docInfo t d f => doDocInfo t d f s
  | .docList t f => doDocList t f s
  | .cursorOpen t d p => doCursorOpen t d p s
  | .cursorClose t c => doCursorClose t c s
  | .stripRead t c n => doStripRead t c n s
  | .scan t r w d b p => doScan t r w d b p s
  | .scanStop t => doScanStop t s
  | .scanSettingsSet t v => doScanSettingsSet t v s
  | .scanPresetSet t r w d b p => doScanPresetSet t r w d b p s
  | .scanPresetClear t => doScanPresetClear t s
  | .scanStatus t => doScanStatus t s
  | .print t d a z c b k => doPrint t d a z c b k s
  | .printCancel t e => doPrintCancel t e s
  | .printResume t => doPrintResume t s
  | .printRearm t => doPrintRearm t s
  | .printThermalSet t v => doPrintThermalSet t v s
  | .printStatus t e f => doPrintStatus t e f s
  | .lineConfigSet t l v => doLineConfigSet t l v s
  | .answerWaitSet t w => doAnswerWaitSet t w s
  | .lineStatus t l f => doLineStatus t l f s
  | .stationTagSet t x => doStationTagSet t x s
  | .exchangeSet t m p => doExchangeSet t m p s
  | .send t d a k e early un att int ds => doSend t d a k e early un att int ds s
  | .dialSet t g a n => doDialSet t g a n s
  | .jobCancel t j m => doJobCancel t j m s
  | .jobStatus t j f => doJobStatus t j f s
  | .jobList t f => doJobList t f s
  | .routeSet t n v => doRouteSet t n v s
  | .routeClear t n => doRouteClear t n s
  | .routeDefaultSet t a b => doRouteDefaultSet t a b s
  | .routeRead t n f => doRouteRead t n f s
  | .tariffSet t n d b => doTariffSet t n d b s
  | .tariffClear t n => doTariffClear t n s
  | .bandSet t b v => doBandSet t b v s
  | .calendarSet t a b m => doCalendarSet t a b m s
  | .rateQuery t d => doRateQuery t d s
  | .tariffRead t f => doTariffRead t f s
  | .accountSet t a l p f u => doAccountSet t a l p f u s
  | .accountRead t a f => doAccountRead t a f s
  | .accountClosePeriod t a f => doAccountClosePeriod t a f s
  | .logRead t n f => doLogRead t n f s
  | .logStatus t l => doLogStatus t l s
  | .logDrop t n e => doLogDrop t n e s
  | .clockSet t v => doClockSet t v s
  | .clockRead t => doClockRead t s
  | .storeSave t => doStoreSave t s
  | .storeStatus t f => doStoreStatus t f s
  | .status t => doStatus t s
  | .noticeMaskSet t m => doNoticeMaskSet t m s
  | .presenceSet t p => doPresenceSet t p s
  | .restart t => doRestart t s
  | _ => s

/-- HLC tests a taken request, and hands it on (R184). -/
def dispatch (f : Frame) (s : State) : State :=
  match readRequest f.kind.toNat f.tag.toNat f.body with
  | none => doUnknownKind f.tag.toNat f.kind.toNat s
  | some none => s.deny f.kind.toNat f.tag.toNat .badField
  | some (some i) => runRequest i s

/-- A reply is owed or being sent. -/
def Hlc.replying (h : Hlc) : Bool :=
  !h.replies.isEmpty || match h.tx with | some (.reply _) => true | _ => false

/-- HLC takes the oldest request while no reply is owed and no RESTART awaits its effect (R184, R193). -/
def pump (s : State) : State :=
  if s.hlc.restarting || s.hlc.replying then s
  else match s.hlc.requests with
    | [] => s
    | f :: rest => dispatch f (s.onHlc ({ · with requests := rest }))

/-- The frame being sent has been sent whole; the request queue moves on (R184, R186). -/
def transmitComplete (s : State) : State :=
  if s.hlc.tx.isNone then s else pump (s.onHlc ({ · with tx := none }))

/-- TRANSMIT_COMPLETE (R184, R186). -/
def execTransmitComplete (s : State) : Host.Outcome State Fault Refusal := event s transmitComplete

/-! ## Presence (R189) -/

/-- HLC abandons its OPEN host-written document (R189). -/
def hostAbandon (s : State) : State :=
  match s.hlc.hostDoc with
  | none => s
  | some d => docAbandon .hlc d (s.onHlc ({ · with hostDoc := none, hostLost := d :: s.hlc.hostLost.filter (· != d) }))

/-- A change of mode: PRESENCE, the reports to DSC and CHG, the host document (R189, R143, R164). -/
def modeChange (attended : Bool) (s : State) : State :=
  let s := (s.onHlc ({ · with attended })).raise .presence (e8 0) (e8 (!attended).toNat)
  if attended then pass s else hostAbandon (chgUnattended s)

/-- A valid frame's effect on presence (R189). -/
def presenceHeard (s : State) : State := (if s.hlc.attended then s else modeChange true s).presenceStart

def presenceExpiry (s : State) : State :=
  if s.hlc.attended && s.hlc.presenceEnd.isSome then modeChange false (s.onHlc ({ · with presenceEnd := none })) else s

/-- PRESENCE_TIMER (R189). -/
def execPresenceTimer (s : State) : Host.Outcome State Fault Refusal := event s presenceExpiry

/-! ## Frames and characters (R182, R183) -/

/-- A frame that passed both tests: presence, then a place in the queue (R183). -/
def validFrame (f : Frame) (s : State) : State :=
  let s := presenceHeard s
  if s.hlc.requests.length < Config.requestPlaces then pump (s.onHlc fun h => { h with requests := h.requests ++ [f] })
  else s.flag ({ · with queueFull := true })

/-- The body is stuck at ones (R183). -/
def stuckBody (body : List Byte) : Bool := 4 ≤ body.length && body.all (· == 0xFF#8)

def State.toHunt (s : State) : State := s.onHlc ({ · with rx := .hunt })

/-- The end-of-frame tests (R183); a body above 1020 bytes is a LENGTH error (R182). -/
def frameEnd (kind tag : Byte) (body : List Byte) (check : BitVec 16) (s : State) : State :=
  let s := s.toHunt
  if Config.maxBody < body.length then s.flag ({ · with length := true })
  else if stuckBody body then s.flag ({ · with stuck := true })
  else if check ≠ frameCheck kind tag body then s.flag ({ · with check := true })
  else validFrame ⟨kind, tag, body⟩ s

/-- FRAME_RECEIVED (R183). -/
def execFrameReceived (kind tag : Byte) (body : List Byte) (check : BitVec 16) (s : State) : Host.Outcome State Fault Refusal :=
  event s (frameEnd kind tag body check)

def State.setRx (s : State) (r : Rx) : State := s.onHlc ({ · with rx := r })

/-- A two-byte number, low byte first. -/
def word16 (lo hi : Byte) : BitVec 16 := hi.zeroExtend 16 <<< 8 ||| lo.zeroExtend 16

/-- The state after the header: BODY, or CHECK when the length is 0 (R182). -/
def afterHeader (len : Nat) (kind tag : Byte) : Rx := if len = 0 then .check kind tag [] [] else .body len kind tag []

/-- A character without error, by the assembly state (R182). -/
def character (b : Byte) (s : State) : State :=
  match s.hlc.rx with
  | .hunt => if b = 0xC3#8 then s.setRx (.length []) else s
  | .length [] => s.setRx (.length [b])
  | .length (lo :: _) =>
    let n := (word16 lo b).toNat
    if Config.maxBody < n then s.toHunt.flag ({ · with length := true }) else s.setRx (.header n [])
  | .header n [] => s.setRx (.header n [b])
  | .header n (k :: _) => s.setRx (afterHeader n k b)
  | .body n k t got =>
    if n ≤ got.length + 1 then s.setRx (.check k t (got ++ [b]) []) else s.setRx (.body n k t (got ++ [b]))
  | .check k t data [] => s.setRx (.check k t data [b])
  | .check k t data (lo :: _) => frameEnd k t data (word16 lo b) s

/-- The receiver takes a character: a fault of it is a byte error of that kind, which sets its flag and discards the frame in progress; a character
without fault is taken as its data (R181, R182). -/
def linkCharacter (c : LinkChar) (overrun : Bool) (s : State) : State :=
  if parityFault c || framingFault c || overrun then
    s.toHunt.flag fun f =>
      { f with parity := f.parity || parityFault c, framing := f.framing || framingFault c, overrun := f.overrun || overrun }
  else character (charData c) s

/-- CHARACTER_RECEIVED (R181, R182). -/
def execCharacterReceived (c : LinkChar) (s : State) : Host.Outcome State Fault Refusal := event s (linkCharacter c false)

/-- BYTE_ERROR (R181, R182). -/
def execByteError (data : Byte) (parityStop : BitVec 2) (overrun : Bool) (s : State) : Host.Outcome State Fault Refusal :=
  event s (linkCharacter (charOf data parityStop) overrun)

/-- LENGTH_ERROR (R182). -/
def execLengthError (s : State) : Host.Outcome State Fault Refusal := event s fun s => s.toHunt.flag ({ · with length := true })

/-- The gap timer does not run in HUNT (R182). -/
def gapExpiry (s : State) : State := if s.hlc.rx = .hunt then s else s.toHunt.flag ({ · with truncated := true })

/-- GAP_TIMER (R182). -/
def execGapTimer (s : State) : Host.Outcome State Fault Refusal := event s gapExpiry

/-! ## RESTART takes effect (R193) -/

/-- A line at RESTART, with no notice (R90, R114). -/
def lineRestart (l : Line) (s : State) : State :=
  let u := s.lu l
  match u.call with
  | some c =>
    let s := commit l { c.endReport .restart with jobless := true } true s
    s.onLu l ({ · with call := none, state := .guard, episode := none, ringGap := false, ringCount := 0 })
  | none => if u.state = .ringing then s.onLu l ({ · with state := .guard, episode := none, ringGap := false, ringCount := 0 }) else s

/-- A document at RESTART, its FILLING page discarded (R25). -/
def Doc.restarted (d : Doc) : Doc :=
  { d with state := if d.state = .opened then .abandoned else d.state, pages := d.pages.filter (·.complete), holders := 0, retained := true }

/-- A document that RESTART keeps (R25). -/
def Doc.kept (d : Doc) : Bool := !d.deletePending && !(d.pages.filter (·.complete)).isEmpty

/-- The blocks of a document that RESTART returns (R25). -/
def Doc.returned (d : Doc) : List Nat := if d.kept then (d.pages.filter (! ·.complete)).flatMap (·.blocks) else d.blocks

/-- PMC at RESTART (R25). -/
def Pmc.restarted (p : Pmc) : Pmc :=
  { p with
    free := p.resv.flatMap (·.blocks) ++ p.docs.flatMap (·.2.returned) ++ p.free
    resv := [], cursors := []
    docs := (p.docs.filter (·.2.kept)).map fun x => (x.1, x.2.restarted) }

/-- SCN at RESTART (R47). -/
def scnRestart (s : State) : State :=
  if s.scn.state = .idle then s
  else scnHalt (s.onScn fun c => { c with job := c.job.map ({ · with outcome := some .restart }) })

/-- PRT at RESTART (R70). -/
def Prt.restarted (p : Prt) : Prt :=
  { p with
    entries := [], enqueueNo := 0, finishNo := 0, current := none
    page := none, spoiled := if p.page.isSome then p.spoiled + 1 else p.spoiled
    engine := if p.engine.isFault then p.engine else .idle, heater := false }

/-- SSC at RESTART: a save in progress stops when the row being written ends (R180). -/
def Ssc.restarted (c : Ssc) : Ssc :=
  match c.writing, c.queue with
  | some _, .save :: _ => { c with stopSave := true }
  | _, _ => c

/-- HLC at RESTART, its timer started afterwards (R193). -/
def Hlc.restarted (h : Hlc) : Hlc :=
  { h with
    rx := .hunt, requests := [], replies := [], tx := none, notices := [], lost := false, attended := true, restarting := false, hostDoc := none, hostLost := [] }

/-- Every block at RESTART (R25, R47, R70, R90, R127, R147, R170, R180, R193). The calls are ended and committed line by line from L0 to L3, an order that
is the model's choice (log entry 70). -/
def restartEffect (s : State) : State :=
  let s := eachDo lineRestart allLines s
  let s := s.onPmc Pmc.restarted
  let s := (scnRestart s).onPrt Prt.restarted
  let s := s.onDsc ({ · with jobs := [], enqueueNo := 0, finishNo := 0 })
  let s := s.onRrt ({ · with recs := Vector.replicate 4 none })
  let s := s.onChg fun g => { g with resvs := g.resvs.filter (·.carried) }
  let s := (s.onSsc Ssc.restarted).onArb fun _ => Arbiter.reset
  (s.onHlc Hlc.restarted).presenceStart

/-- RESTART_EFFECT (R193). -/
def execRestartEffect (s : State) : Host.Outcome State Fault Refusal := event s restartEffect

end Sys2Proof.Machine
end

