-- ==== Sys2Proof/Machine/Dispatch.lean ====
section
/-! DEFINITION. The meaning of every command: one arm per row of the table. -/

namespace Sys2Proof.Machine

def exec (i : Instr) (s : State) : Host.Outcome State Fault Refusal :=
  match i with
  | .powerUpReset x0 x1 => Sys2Proof.Machine.execPowerUpReset x0 x1 s
  | .settingsLoadComplete x0 => Sys2Proof.Machine.execSettingsLoadComplete x0 s
  | .byteError x0 x1 x2 => Sys2Proof.Machine.execByteError x0 x1 x2 s
  | .lengthError => Sys2Proof.Machine.execLengthError s
  | .gapTimer => Sys2Proof.Machine.execGapTimer s
  | .frameReceived x0 x1 x2 x3 => Sys2Proof.Machine.execFrameReceived x0 x1 x2 x3 s
  | .presenceTimer => Sys2Proof.Machine.execPresenceTimer s
  | .transmitComplete => Sys2Proof.Machine.execTransmitComplete s
  | .unknownKind x0 x1 => Sys2Proof.Machine.execUnknownKind x0 x1 s
  | .memFloorsSet x0 x1 x2 => Sys2Proof.Machine.execMemFloorsSet x0 x1 x2 s
  | .docCreate x0 x1 => Sys2Proof.Machine.execDocCreate x0 x1 s
  | .pageBegin x0 x1 x2 x3 => Sys2Proof.Machine.execPageBegin x0 x1 x2 x3 s
  | .stripData x0 x1 x2 x3 x4 => Sys2Proof.Machine.execStripData x0 x1 x2 x3 x4 s
  | .pageClose x0 x1 => Sys2Proof.Machine.execPageClose x0 x1 s
  | .docClose x0 x1 => Sys2Proof.Machine.execDocClose x0 x1 s
  | .docRetain x0 x1 x2 => Sys2Proof.Machine.execDocRetain x0 x1 x2 s
  | .docDelete x0 x1 x2 => Sys2Proof.Machine.execDocDelete x0 x1 x2 s
  | .docInfo x0 x1 x2 => Sys2Proof.Machine.execDocInfo x0 x1 x2 s
  | .docList x0 x1 => Sys2Proof.Machine.execDocList x0 x1 s
  | .cursorOpen x0 x1 x2 => Sys2Proof.Machine.execCursorOpen x0 x1 x2 s
  | .cursorClose x0 x1 => Sys2Proof.Machine.execCursorClose x0 x1 s
  | .stripRead x0 x1 x2 => Sys2Proof.Machine.execStripRead x0 x1 x2 s
  | .burstComplete => Sys2Proof.Machine.execBurstComplete s
  | .scan x0 x1 x2 x3 x4 x5 => Sys2Proof.Machine.execScan x0 x1 x2 x3 x4 x5 s
  | .scanStop x0 => Sys2Proof.Machine.execScanStop x0 s
  | .scanSettingsSet x0 x1 => Sys2Proof.Machine.execScanSettingsSet x0 x1 s
  | .scanPresetSet x0 x1 x2 x3 x4 x5 => Sys2Proof.Machine.execScanPresetSet x0 x1 x2 x3 x4 x5 s
  | .scanPresetClear x0 => Sys2Proof.Machine.execScanPresetClear x0 s
  | .scanStatus x0 => Sys2Proof.Machine.execScanStatus x0 s
  | .stopKey => Sys2Proof.Machine.execStopKey s
  | .startKey => Sys2Proof.Machine.execStartKey s
  | .paperSensor x0 => Sys2Proof.Machine.execPaperSensor x0 s
  | .waitPaperTimeout => Sys2Proof.Machine.execWaitPaperTimeout s
  | .linePulse x0 x1 => Sys2Proof.Machine.execLinePulse x0 x1 s
  | .detectWindowClose => Sys2Proof.Machine.execDetectWindowClose s
  | .acquireTimeout => Sys2Proof.Machine.execAcquireTimeout s
  | .pageSensorRise => Sys2Proof.Machine.execPageSensorRise s
  | .pageGapTimeout => Sys2Proof.Machine.execPageGapTimeout s
  | .pageSensorFall => Sys2Proof.Machine.execPageSensorFall s
  | .print x0 x1 x2 x3 x4 x5 x6 => Sys2Proof.Machine.execPrint x0 x1 x2 x3 x4 x5 x6 s
  | .printCancel x0 x1 => Sys2Proof.Machine.execPrintCancel x0 x1 s
  | .printResume x0 => Sys2Proof.Machine.execPrintResume x0 s
  | .printRearm x0 => Sys2Proof.Machine.execPrintRearm x0 s
  | .printThermalSet x0 x1 => Sys2Proof.Machine.execPrintThermalSet x0 x1 s
  | .printStatus x0 x1 x2 => Sys2Proof.Machine.execPrintStatus x0 x1 x2 s
  | .lineTime x0 x1 => Sys2Proof.Machine.execLineTime x0 x1 s
  | .warmupTimeout => Sys2Proof.Machine.execWarmupTimeout s
  | .printPaperSensor x0 => Sys2Proof.Machine.execPrintPaperSensor x0 s
  | .coverSensor x0 => Sys2Proof.Machine.execCoverSensor x0 s
  | .binFullSensor x0 x1 => Sys2Proof.Machine.execBinFullSensor x0 x1 s
  | .lineConfigSet x0 x1 x2 => Sys2Proof.Machine.execLineConfigSet x0 x1 x2 s
  | .answerWaitSet x0 x1 => Sys2Proof.Machine.execAnswerWaitSet x0 x1 s
  | .lineStatus x0 x1 x2 => Sys2Proof.Machine.execLineStatus x0 x1 x2 s
  | .stationTagSet x0 x1 => Sys2Proof.Machine.execStationTagSet x0 x1 s
  | .exchangeSet x0 x1 x2 => Sys2Proof.Machine.execExchangeSet x0 x1 x2 s
  | .ringOn x0 => Sys2Proof.Machine.execRingOn x0 s
  | .ringOff x0 => Sys2Proof.Machine.execRingOff x0 s
  | .ringGapTimer x0 => Sys2Proof.Machine.execRingGapTimer x0 s
  | .lineVoltageAbsent x0 => Sys2Proof.Machine.execLineVoltageAbsent x0 s
  | .lineVoltagePresent x0 => Sys2Proof.Machine.execLineVoltagePresent x0 s
  | .faultTimer x0 => Sys2Proof.Machine.execFaultTimer x0 s
  | .clearingTimer x0 => Sys2Proof.Machine.execClearingTimer x0 s
  | .meterPulse x0 => Sys2Proof.Machine.execMeterPulse x0 s
  | .binding x0 => Sys2Proof.Machine.execBinding x0 s
  | .dialToneWait x0 => Sys2Proof.Machine.execDialToneWait x0 s
  | .retryPauseEnd x0 => Sys2Proof.Machine.execRetryPauseEnd x0 s
  | .dialTone x0 => Sys2Proof.Machine.execDialTone x0 s
  | .dialCharacterDone x0 => Sys2Proof.Machine.execDialCharacterDone x0 s
  | .wWaitTimeout x0 => Sys2Proof.Machine.execWWaitTimeout x0 s
  | .busy x0 => Sys2Proof.Machine.execBusy x0 s
  | .ringback x0 => Sys2Proof.Machine.execRingback x0 s
  | .silence x0 => Sys2Proof.Machine.execSilence x0 s
  | .answerTone x0 => Sys2Proof.Machine.execAnswerTone x0 s
  | .callingTone x0 => Sys2Proof.Machine.execCallingTone x0 s
  | .answerWait x0 => Sys2Proof.Machine.execAnswerWait x0 s
  | .guardTimer x0 => Sys2Proof.Machine.execGuardTimer x0 s
  | .answerToneEnd x0 => Sys2Proof.Machine.execAnswerToneEnd x0 s
  | .controlFrameSent x0 => Sys2Proof.Machine.execControlFrameSent x0 s
  | .burstSent x0 => Sys2Proof.Machine.execBurstSent x0 s
  | .stripSent x0 => Sys2Proof.Machine.execStripSent x0 s
  | .replyWait x0 => Sys2Proof.Machine.execReplyWait x0 s
  | .capsWait x0 => Sys2Proof.Machine.execCapsWait x0 s
  | .caps x0 x1 x2 x3 x4 => Sys2Proof.Machine.execCaps x0 x1 x2 x3 x4 s
  | .plan x0 x1 x2 x3 x4 => Sys2Proof.Machine.execPlan x0 x1 x2 x3 x4 s
  | .rateCheckBurst x0 x1 => Sys2Proof.Machine.execRateCheckBurst x0 x1 s
  | .checkResult x0 x1 => Sys2Proof.Machine.execCheckResult x0 x1 s
  | .dataStrip x0 x1 x2 => Sys2Proof.Machine.execDataStrip x0 x1 x2 s
  | .pageEnd x0 x1 x2 x3 => Sys2Proof.Machine.execPageEnd x0 x1 x2 x3 s
  | .pageEndWait x0 x1 x2 => Sys2Proof.Machine.execPageEndWait x0 x1 x2 s
  | .stripReport x0 x1 => Sys2Proof.Machine.execStripReport x0 x1 s
  | .pageTaken x0 x1 x2 => Sys2Proof.Machine.execPageTaken x0 x1 x2 s
  | .waiting x0 => Sys2Proof.Machine.execWaiting x0 s
  | .waitInterval x0 => Sys2Proof.Machine.execWaitInterval x0 s
  | .clear x0 => Sys2Proof.Machine.execClear x0 s
  | .refuse x0 x1 => Sys2Proof.Machine.execRefuse x0 x1 s
  | .send x0 x1 x2 x3 x4 x5 x6 x7 x8 x9 => Sys2Proof.Machine.execSend x0 x1 x2 x3 x4 x5 x6 x7 x8 x9 s
  | .dialSet x0 x1 x2 x3 => Sys2Proof.Machine.execDialSet x0 x1 x2 x3 s
  | .jobCancel x0 x1 x2 => Sys2Proof.Machine.execJobCancel x0 x1 x2 s
  | .jobStatus x0 x1 x2 => Sys2Proof.Machine.execJobStatus x0 x1 x2 s
  | .jobList x0 x1 => Sys2Proof.Machine.execJobList x0 x1 s
  | .embargoExpiry x0 => Sys2Proof.Machine.execEmbargoExpiry x0 s
  | .retryExpiry x0 x1 => Sys2Proof.Machine.execRetryExpiry x0 x1 s
  | .routeSet x0 x1 x2 => Sys2Proof.Machine.execRouteSet x0 x1 x2 s
  | .routeClear x0 x1 => Sys2Proof.Machine.execRouteClear x0 x1 s
  | .routeDefaultSet x0 x1 x2 => Sys2Proof.Machine.execRouteDefaultSet x0 x1 x2 s
  | .routeRead x0 x1 x2 => Sys2Proof.Machine.execRouteRead x0 x1 x2 s
  | .tariffSet x0 x1 x2 x3 => Sys2Proof.Machine.execTariffSet x0 x1 x2 x3 s
  | .tariffClear x0 x1 => Sys2Proof.Machine.execTariffClear x0 x1 s
  | .bandSet x0 x1 x2 => Sys2Proof.Machine.execBandSet x0 x1 x2 s
  | .calendarSet x0 x1 x2 x3 => Sys2Proof.Machine.execCalendarSet x0 x1 x2 x3 s
  | .rateQuery x0 x1 => Sys2Proof.Machine.execRateQuery x0 x1 s
  | .tariffRead x0 x1 => Sys2Proof.Machine.execTariffRead x0 x1 s
  | .accountSet x0 x1 x2 x3 x4 x5 => Sys2Proof.Machine.execAccountSet x0 x1 x2 x3 x4 x5 s
  | .accountRead x0 x1 x2 => Sys2Proof.Machine.execAccountRead x0 x1 x2 s
  | .accountClosePeriod x0 x1 x2 => Sys2Proof.Machine.execAccountClosePeriod x0 x1 x2 s
  | .logRead x0 x1 x2 => Sys2Proof.Machine.execLogRead x0 x1 x2 s
  | .logStatus x0 x1 => Sys2Proof.Machine.execLogStatus x0 x1 s
  | .logDrop x0 x1 x2 => Sys2Proof.Machine.execLogDrop x0 x1 x2 s
  | .intervalTimer x0 => Sys2Proof.Machine.execIntervalTimer x0 s
  | .clockSet x0 x1 => Sys2Proof.Machine.execClockSet x0 x1 s
  | .clockRead x0 => Sys2Proof.Machine.execClockRead x0 s
  | .secondTick => Sys2Proof.Machine.execSecondTick s
  | .storeSave x0 => Sys2Proof.Machine.execStoreSave x0 s
  | .storeStatus x0 x1 => Sys2Proof.Machine.execStoreStatus x0 x1 s
  | .queueItemStart => Sys2Proof.Machine.execQueueItemStart s
  | .rowWriteComplete x0 => Sys2Proof.Machine.execRowWriteComplete x0 s
  | .pollTimeout => Sys2Proof.Machine.execPollTimeout s
  | .status x0 => Sys2Proof.Machine.execStatus x0 s
  | .noticeMaskSet x0 x1 => Sys2Proof.Machine.execNoticeMaskSet x0 x1 s
  | .presenceSet x0 x1 => Sys2Proof.Machine.execPresenceSet x0 x1 s
  | .restart x0 => Sys2Proof.Machine.execRestart x0 s
  | .restartEffect => Sys2Proof.Machine.execRestartEffect s
  | .characterReceived x0 => Sys2Proof.Machine.execCharacterReceived x0 s
  | .stripHeaderReceived x0 x1 x2 x3 x4 x5 => Sys2Proof.Machine.execStripHeaderReceived x0 x1 x2 x3 x4 x5 s

end Sys2Proof.Machine
end

