-- ==== Sys2Proof/Machine/Signals.lean ====
section
/-! DEFINITION. What the host link's transmitter and a line unit put on their lines, as functions of the state: characters (R181, R186), the forms of dialling (R78, R79), the tones (R80, R95), and the bytes of frames, bursts and strips (R96, R196, R197). -/

namespace Sys2Proof.Machine

/-- Bits a second of the host link, by the straps sampled at power-up (R181). -/
def linkBitRate (p : Pins) : Nat := 57600 * 2 ^ linkRate p

/-- The characters of the frame that the transmitter sends, in order and without gaps, none when it sends nothing; each is sent at `linkBitRate`, its
bit 0 first (R181, R186). -/
def State.linkSends (s : State) : List LinkChar := (s.hlc.tx.map fun o => (encodeFrame o.frame).map linkChar).getD []

/-- A signal on a line, with the lengths its rule gives. -/
inductive Sending where
  /-- the tone pair of a dial character, 70 ms on and then 70 ms quiet (R78) -/
  | tonePair (c : Byte)
  /-- a train of breaks, each 60 ms open and then 40 ms closed, and after the train the loop closed for `gap` ms (R79) -/
  | breaks (n gap : Nat)
  /-- a pause of so many ms (R78) -/
  | pause (ms : Nat)
  /-- 1250 Hz, 0.5 s on and 3 s off (R80) -/
  | callingTone
  /-- 1950 Hz for 2.0 s, and after it 75 ms of quiet (R95) -/
  | answerTone
  /-- bytes on the control channel, 600 bit/s (chapter 5) -/
  | control (bytes : List Byte)
  /-- bytes on the data channel at a rate step (chapter 5) -/
  | data (step : Nat) (bytes : List Byte)
  /-- the data channel's idle fill (R101) -/
  | idleFill
  deriving DecidableEq, Repr

/-- Breaks of a digit: n for 1 to 9, 10 for 0 (R79). -/
def breaksOf (c : Byte) : Nat := if c = 0x30#8 then 10 else c.toNat - 0x30

/-- How a dial character is signalled; `last` is the sequence's last character. In PULSE mode a digit is a train of breaks, every other digit, * and #
a tone pair; P is a pause of 2 s; W sends nothing and waits for dial tone (R78, R79). -/
def dialForm (mode : DialMode) (c : Byte) (last : Bool) : Option Sending :=
  if c = 0x50#8 then some (.pause 2000)
  else if c = 0x57#8 then none
  else if mode = .pulse ∧ digit c then some (.breaks (breaksOf c) (if last then 0 else 700))
  else some (.tonePair c)

/-- A frame, burst or strip as it travels: control frames on the control channel, bursts at the step under test, strips at the agreed step. -/
def Signal.form (c : Call) : Signal → Sending
  | .answerTone => .answerTone
  | .frame f => .control f.encode
  | .burst step => .data step (rateBurst step)
  | .strip _ bytes => .data (c.agreedStep.getD 1) bytes

/-- What the line unit of line `l` sends in a state; none when it sends nothing. A caller that reads the next strip holds the line with idle fill
(R101). -/
def State.sends (s : State) (l : Line) : Option Sending :=
  (s.call l).bind fun c =>
    match (s.lu l).state with
    | .dialling => c.dialLeft.head?.bind fun d => dialForm c.dialMode d (c.dialLeft.length == 1)
    | .awaitAnswer => some .callingTone
    | _ => match c.signal, c.reading with
      | some x, _ => some (x.form c)
      | none, some _ => some .idleFill
      | none, none => none

end Sys2Proof.Machine
end

