-- ==== Sys2Proof/Safety.lean ====
section
/-! DEFINITION. What claims are stated in: the condition under which a request is taken, a reply handed over, the parts of the state and what a command leaves unchanged, the laws the spec says hold at all times. -/

namespace Sys2Proof.Machine

/-! ## Requests and replies -/

/-- HLC takes a request: the blocks work (R175) and no RESTART awaits its effect (R193). -/
def State.takes (s : State) : Prop := s.running = true ∧ s.hlc.restarting = false

/-- The reply to a request handed to HLC, which begins to send it at once when its transmitter is free and no other reply waits (R186). -/
def State.replied (s : State) (kind tag : Nat) (r : Result) (body : List Byte) : State := (s.answer kind tag r body).kick

/-- The transmitter has nothing left to choose, as after every command while the blocks work (R186). -/
def State.settled (s : State) : Prop := s.kick = s

/-- A command that stands for a host request of a defined kind. -/
def isRequest (c : Instr) : Bool := (writeRequest c).isSome

/-- Commands run one after another, each from the next state of the one before. -/
def runCommands : List Instr → State → Option State
  | [], s => some s
  | c :: cs, s =>
    match exec c s with
    | .next t => runCommands cs t
    | _ => none

/-- Slot `d` is the lowest-numbered empty one of a table's slots 1 to `n`. -/
def Tbl.lowestEmpty {α : Type} (t : Tbl α) (n d : Nat) : Prop :=
  1 ≤ d ∧ d ≤ n ∧ t.get d = none ∧ ∀ k, 1 ≤ k → k < d → (t.get k).isSome = true

/-! ## The parts of the state -/

/-- Every piece of the state, in groups that commands change together. -/
inductive Part where
  | pending | pins | mem
  | freePool | reservations | docs | cursors | floors | arbiter
  | scanRun | scanJob | scanSettings | preset
  | entries | engine | heat | thermal
  | lines | lineConfig | lineSettings
  | jobs | dialSettings | lineSets
  | routes | receptions
  | tariffs | bands | calendar | accounts | logResvs | log
  | clock | elapsed
  | eeprom | loading | dirty | failed | store
  | receiver | requests | replies | transmitter | notices | mask | flags | period | presence | restarting | hostDoc
  | freeValues
  deriving DecidableEq, Repr

/-- A line unit but for its configuration. -/
def Lu.running (u : Lu) : Lu := { u with config := LineConfig.default }

/-- A part is the same in two states. -/
def Part.same (s t : State) : Part → Prop
  | .pending => t.pending = s.pending
  | .pins => t.pins = s.pins
  | .mem => t.mem = s.mem
  | .freePool => t.pmc.free = s.pmc.free
  | .reservations => t.pmc.resv = s.pmc.resv
  | .docs => t.pmc.docs = s.pmc.docs
  | .cursors => t.pmc.cursors = s.pmc.cursors
  | .floors => t.pmc.recvContinue = s.pmc.recvContinue ∧ t.pmc.scanFloor = s.pmc.scanFloor
  | .arbiter => t.arb = s.arb
  | .scanRun => t.scn = { s.scn with job := t.scn.job, settings := t.scn.settings, preset := t.scn.preset }
  | .scanJob => t.scn.job = s.scn.job
  | .scanSettings => t.scn.settings = s.scn.settings
  | .preset => t.scn.preset = s.scn.preset
  | .entries => t.prt.entries = s.prt.entries ∧ t.prt.enqueueNo = s.prt.enqueueNo ∧ t.prt.finishNo = s.prt.finishNo ∧ t.prt.current = s.prt.current
  | .engine => t.prt.engine = s.prt.engine ∧ t.prt.page = s.prt.page ∧ t.prt.heater = s.prt.heater ∧ t.prt.spoiled = s.prt.spoiled
  | .heat => t.prt.heat = s.prt.heat
  | .thermal => t.prt.thermal = s.prt.thermal
  | .lines => t.lines.map Lu.running = s.lines.map Lu.running
  | .lineConfig => t.lines.map (·.config) = s.lines.map (·.config)
  | .lineSettings => t.lus = s.lus
  | .jobs => t.dsc.jobs = s.dsc.jobs ∧ t.dsc.enqueueNo = s.dsc.enqueueNo ∧ t.dsc.finishNo = s.dsc.finishNo
  | .dialSettings => t.dsc.guard = s.dsc.guard ∧ t.dsc.attempts = s.dsc.attempts ∧ t.dsc.interval = s.dsc.interval
  | .lineSets => t.dsc.offered = s.dsc.offered ∧ t.dsc.idle = s.dsc.idle
  | .routes => t.rrt = { s.rrt with recs := t.rrt.recs }
  | .receptions => t.rrt.recs = s.rrt.recs
  | .tariffs => t.chg.tariffs = s.chg.tariffs
  | .bands => t.chg.bands = s.chg.bands
  | .calendar => t.chg.calendar = s.chg.calendar
  | .accounts => t.chg.accounts = s.chg.accounts
  | .logResvs => t.chg.resvs = s.chg.resvs
  | .log => t.chg.records = s.chg.records ∧ t.chg.nextLog = s.chg.nextLog
  | .clock => t.tmb = s.tmb
  | .elapsed => t.elapsed = s.elapsed
  | .eeprom => t.eeprom = s.eeprom
  | .loading => t.ssc.loading = s.ssc.loading
  | .dirty => t.ssc.dirty = s.ssc.dirty ∧ t.ssc.writing.map (·.row) = s.ssc.writing.map (·.row)
      ∧ t.ssc.writing.map (·.bytes) = s.ssc.writing.map (·.bytes) ∧ t.ssc.writing.map (·.redirtied) = s.ssc.writing.map (·.redirtied)
      ∧ t.ssc.writing.map (·.phase) = s.ssc.writing.map (·.phase)
  | .failed => t.ssc.failed = s.ssc.failed
  | .store => t.ssc.queue = s.ssc.queue ∧ t.ssc.savePos = s.ssc.savePos ∧ t.ssc.stopSave = s.ssc.stopSave ∧ t.ssc.status = s.ssc.status
      ∧ t.ssc.rowsWritten = s.ssc.rowsWritten ∧ t.ssc.fault = s.ssc.fault ∧ t.ssc.lastFail = s.ssc.lastFail
  | .receiver => t.hlc.rx = s.hlc.rx
  | .requests => t.hlc.requests = s.hlc.requests
  | .replies => t.hlc.replies = s.hlc.replies
  | .transmitter => t.hlc.tx = s.hlc.tx
  | .notices => t.hlc.notices = s.hlc.notices ∧ t.hlc.lost = s.hlc.lost
  | .mask => t.hlc.mask = s.hlc.mask
  | .flags => t.hlc.flags = s.hlc.flags
  | .period => t.hlc.period = s.hlc.period
  | .presence => t.hlc.presenceEnd = s.hlc.presenceEnd ∧ t.hlc.attended = s.hlc.attended
  | .restarting => t.hlc.restarting = s.hlc.restarting
  | .hostDoc => t.hlc.hostDoc = s.hlc.hostDoc ∧ t.hlc.hostLost = s.hlc.hostLost
  | .freeValues => t.freeCount = s.freeCount

/-- From `s` to `t` only the parts listed may have changed. -/
def OnlyChanges (ps : List Part) (s t : State) : Prop := ∀ p, p ∉ ps → p.same s t

/-- The parts through which a part of HLC tells the host anything: replies and notices waiting, and what is being sent. -/
def Part.outgoing : List Part := [.replies, .transmitter, .notices]

/-- The parts that a return of blocks to the pool changes: SCN retests when it waits for memory (R31). -/
def Part.returning : List Part := [.freePool, .scanRun, .notices]

/-- The parts that the freeing of a document changes (R13). -/
def Part.freeing : List Part := .docs :: Part.returning

/-- The parts that the end of a FILLING strip changes (R5, R6). -/
def Part.stripEnd : List Part := [.mem, .reservations, .arbiter] ++ Part.freeing

/-- The parts that the finishing of a job and an arbitration pass change (R135 to R140). -/
def Part.passing : List Part := [.jobs, .logResvs] ++ Part.freeing

/-- The parts that print entries and the engine change (R50 to R56). -/
def Part.printing : List Part := [.entries, .engine, .arbiter] ++ Part.freeing

/-- The parts that a line's call changes by itself. -/
def Part.exchanging : List Part := [.lines, .lineSets, .arbiter, .notices]

/-- The parts that PMC's reports of a page or of a document's end change (R8, R11). -/
def Part.reporting : List Part := [.jobs, .logResvs, .entries, .engine, .arbiter, .lines, .lineSets] ++ Part.freeing

/-- The parts that the end of a call changes (R85). -/
def Part.callEnding : List Part := [.log, .accounts, .store, .dirty, .reservations, .receptions] ++ Part.reporting

/-- The parts that a row write changes (R178). -/
def Part.writing : List Part := [.eeprom, .freeValues, .dirty, .failed, .store, .notices]

/-- The parts that the commitment of a call's record changes (R164). -/
def Part.committing : List Part := [.logResvs, .log, .accounts, .store, .dirty, .notices]

/-- The parts that the finishing of a job changes (R140). -/
def Part.settling : List Part := .jobs :: Part.freeing

/-- The parts that the routing of a stored page changes (R122). -/
def Part.routing : List Part := [.receptions, .scanJob] ++ Part.reporting

/-- The parts that a glare changes (R77). -/
def Part.glaring : List Part := [.log, .accounts, .store, .dirty, .lines, .lineSets, .arbiter] ++ Part.passing

/-- The parts that the end of a scan job changes (R41). -/
def Part.scanEnding : List Part := .scanJob :: Part.callEnding

/-- The parts that a scan line changes, when it does not end the job (R39). -/
def Part.lining : List Part := .scanRun :: Part.stripEnd

/-- The parts that scanning changes (R35 to R41). -/
def Part.scanning : List Part := .mem :: Part.scanEnding

/-- The parts that a chunk of a host strip changes (R19, R20). -/
def Part.hostStrip : List Part := [.hostDoc, .replies] ++ Part.stripEnd

/-- The parts that a forced delete changes (R16). -/
def Part.forcing : List Part := .cursors :: Part.callEnding

/-- The parts that a line time changes (R56, R60, R65). -/
def Part.lineTiming : List Part := [.pins, .heat] ++ Part.printing

/-- The parts that a line's report and the pass after it change (R86, R135). -/
def Part.offering : List Part := [.lines, .lineSets] ++ Part.passing

/-- The parts that receiving a page changes (R105 to R107). -/
def Part.receiving : List Part := [.mem, .reservations, .receptions, .scanJob, .routes] ++ Part.reporting

/-- The parts that the exchange may change at an end of the call (R85, R105). -/
def Part.anyCall : List Part := [.mem, .scanJob, .routes] ++ Part.callEnding

/-- The parts that a PLAN changes. -/
def Part.planning : List Part := [.docs, .lines, .lineSets, .receptions, .notices, .routes, .logResvs, .reservations, .arbiter] ++ Part.returning

/-- The parts that the bytes of a received strip change. -/
def Part.strip : List Part := [.lines, .lineSets] ++ Part.stripEnd

/-- Every part but the frames, the clocks' and the pins'. -/
def Part.asking : List Part :=
  [.mem, .freePool, .reservations, .docs, .cursors, .floors, .arbiter, .scanRun, .scanJob, .scanSettings, .preset, .entries, .engine, .thermal
   , .lines, .lineConfig, .lineSettings, .jobs, .dialSettings, .lineSets, .routes, .receptions, .tariffs, .bands, .calendar, .accounts, .logResvs, .log, .clock
   , .dirty, .store, .replies, .notices, .mask, .flags, .period, .presence, .restarting, .hostDoc]

/-- The parts that a change of presence mode changes. -/
def Part.moding : List Part := [.presence, .hostDoc, .reservations] ++ Part.reporting

/-- The parts that a character or a frame changes. -/
def Part.hearing : List Part := [.receiver, .requests] ++ Part.asking

/-- The parts that RESTART leaves: the settings, the call log and the accounts but for the calls it ends, the memories, the clock (R25, R47, R70, R90, R127, R147, R170, R180, R193). -/
def Part.restarted : List Part :=
  [.freePool, .reservations, .docs, .cursors, .arbiter, .scanRun, .scanJob, .entries, .engine, .lines, .lineSets, .jobs, .receptions, .accounts
   , .logResvs, .log, .dirty, .store, .receiver, .requests, .replies, .transmitter, .notices, .presence, .restarting, .hostDoc]

/-- The parts that a row of the settings image gives. -/
def Part.settings : List Part :=
  [.lines, .lineConfig, .lineSets, .lineSettings, .dialSettings, .routes, .tariffs, .bands, .calendar, .accounts, .scanSettings, .preset, .floors, .thermal
   , .period, .mask, .dirty, .failed]

/-- The line units of the other lines are unchanged. -/
def OtherLines (l : Line) (s t : State) : Prop := ∀ k, k ≠ l → t.lu k = s.lu k

/-- The byte of page memory at an address. -/
def State.byteAt (s : State) (a : Nat) : Byte := cellRead memDefault s.mem a

/-- The byte of the settings memory at an address. -/
def State.storedAt (s : State) (a : Nat) : Byte := cellRead eepromDefault s.eeprom a

/-! ## Laws the spec says hold at all times -/

/-- Both memories are in canonical form. -/
def MemoryLaw (s : State) : Prop := Memory.wf s.mem ∧ Eeprom.wf s.eeprom

/-- The committed records and the reservations together number at most 128 (R155). -/
def LogLaw (s : State) : Prop := s.chg.records.length + s.chg.resvs.length ≤ Config.logSlots

/-- The request queue and the notice queue hold no more than their places (R183, R187). -/
def QueueLaw (s : State) : Prop := s.hlc.requests.length ≤ Config.requestPlaces ∧ s.hlc.notices.length ≤ Config.noticePlaces

/-- DSC's offered set holds the lines that are IDLE, outgoing allowed and with voltage; its idle set the lines that are IDLE (R86, R134). -/
def OfferLaw (s : State) : Prop :=
  ∀ l : Line, at4 s.dsc.offered l = (s.lu l).offerable ∧ at4 s.dsc.idle l = ((s.lu l).state == .idle)

/-- An account's amounts and counts are in their ranges (section 8.3, R161). -/
def Account.inRange (a : Account) : Prop := a.spent ≤ maxAmount ∧ a.limit ≤ maxAmount ∧ a.calls ≤ 65535 ∧ a.pages ≤ 65535

/-- The accumulator stays at or below 65 535 (R60), log numbers below 65 536 (R164), the amounts and counts of the 32 accounts in their ranges, charges at
or below 4 294 967 295 (R161). -/
def RangeLaw (s : State) : Prop :=
  s.prt.heat ≤ 65535 ∧ s.chg.nextLog < 65536
    ∧ (s.chg.accounts.length = 32 ∧ ∀ a ∈ s.chg.accounts, a.inRange)
    ∧ (∀ r ∈ s.chg.resvs, r.charge ≤ maxAmount) ∧ ∀ r ∈ s.chg.records, r.charge ≤ maxAmount

/-- A line configuration in the ranges of R71. -/
def LineConfig.inRange (c : LineConfig) : Prop := c.answerRings ≤ 9 ∧ c.meterValue ≤ 65535 ∧ c.outside.all dialOk = true

/-- Copies of a print: 1 to 99. -/
def copiesOk (n : Nat) : Prop := 1 ≤ n ∧ n ≤ 99

/-- An action in the ranges of section 6.1. -/
def Action.inRange : Action → Prop
  | .print _ c _ | .printAndHold _ c _ => copiesOk c
  | .forward d a _ spec => dialOk d = true ∧ a ≤ 31 ∧ ∀ x, spec = some x → copiesOk x.2
  | .hold | .reject => True

/-- A route entry in the ranges of section 6.1. -/
def Route.inRange (r : Route) : Prop :=
  (∀ p, r.tagStart = some p → (1 ≤ p.length ∧ p.length ≤ 20) ∧ p.all printable = true)
    ∧ (∀ m, r.lineSet = some m → 1 ≤ m ∧ m ≤ 15)
    ∧ (∀ w, r.window = some w → w.1 ≤ 1439 ∧ w.2 ≤ 1439 ∧ w.1 ≠ w.2) ∧ r.action.inRange

/-- A tariff entry in the ranges of R149. -/
def Tariff.inRange (t : Tariff) : Prop := (1 ≤ t.digits.length ∧ t.digits.length ≤ 8) ∧ t.digits.all digit = true ∧ t.band ≤ 15

/-- A table's slots are below `n`, in rising order, and its records are as `p` says. -/
def Tbl.holds {α : Type} (t : Tbl α) (n : Nat) (p : α → Prop) : Prop := Tbl.wf t ∧ ∀ x ∈ t, x.1 < n ∧ p x.2

/-- Every setting is in the range that its owner takes (chapters 1 to 10): what a request or the load of a row can make it. -/
def SettingsLaw (s : State) : Prop :=
  (∀ l : Line, (s.lu l).config.inRange)
    ∧ (stationOk s.lus.stationTag = true ∧ between 20 120 s.lus.answerWait = true ∧ between 1 6 s.lus.maxStep = true ∧ s.lus.passThreshold ≤ 63)
    ∧ (s.dsc.guard ≤ 3 ∧ between 1 9 s.dsc.attempts = true ∧ between 1 60 s.dsc.interval = true)
    ∧ (s.rrt.routes.holds 32 Route.inRange ∧ s.rrt.dflt.inRange)
    ∧ s.chg.tariffs.holds 128 Tariff.inRange
    ∧ (s.chg.bands.length = 16 ∧ ∀ b ∈ s.chg.bands, bandOk b = true)
    ∧ (s.chg.calendar.start ≤ 1439 ∧ s.chg.calendar.stop ≤ 1439 ∧ s.chg.calendar.mask ≤ 127)
    ∧ scanSettingsOk s.scn.settings = true
    ∧ (∀ p, s.scn.preset = some p → ∀ x, p.spec = some x → copiesOk x.1)
    ∧ thermalOk s.prt.thermal = true
    ∧ (between 64 2048 s.pmc.recvContinue = true ∧ between 128 3072 s.pmc.scanFloor = true)
    ∧ ((s.hlc.period = 0 ∨ between 5 255 s.hlc.period = true) ∧ s.hlc.mask ≤ 255)

/-- The blocks in the block lists of a document's strips. -/
def docsBlocks (t : Tbl Doc) : List Nat := t.flatMap fun x => x.2.blocks

/-- A page's strips stand in rising order of strip number, and a document has at most one FILLING page, its last (section 1.4, R7). -/
def Doc.shaped (d : Doc) : Prop :=
  (∀ p ∈ d.pages, (p.strips.map (·.no)).Pairwise (· < ·)) ∧ ∀ p ∈ d.pages.dropLast, p.complete = true

/-- Each block is in exactly one of the free pool, one reservation, or the block list of one strip record (R1), over records of the shapes that the spec gives them. -/
def PoolLaw (s : State) : Prop :=
  (s.pmc.free ++ s.pmc.resv.flatMap (·.blocks) ++ docsBlocks s.pmc.docs).Perm (List.range Config.blocks)
    ∧ (s.pmc.resv.map (·.client)).Nodup ∧ Tbl.wf s.pmc.docs ∧ ∀ x ∈ s.pmc.docs, x.2.shaped

/-- How many records of a table are of a kind. -/
def Tbl.number {α : Type} (t : Tbl α) (p : α → Bool) : Nat := t.countP fun x => p x.2

/-- An unfinished send job on document `d`. -/
def Job.on (d : Nat) (x : Job) : Bool := x.doc == d && !x.finished
/-- An unfinished print entry on document `d`. -/
def Entry.on (d : Nat) (x : Entry) : Bool := x.doc == d && x.unfinished
/-- A read cursor on document `d` that is not REVOKED. -/
def Cursor.on (d : Nat) (x : Cursor) : Bool := x.doc == d && x.state != .revoked

/-- The holders that a document has: its unfinished send jobs, its unfinished print entries and its open read cursors (R12). -/
def State.holdersOf (s : State) (d : Nat) : Nat :=
  s.dsc.jobs.number (Job.on d) + s.prt.entries.number (Entry.on d) + s.pmc.cursors.number (Cursor.on d)

/-- The holder count in a document's record; 0 for an empty slot. -/
def State.holderCount (s : State) (d : Nat) : Nat := ((s.doc d).map (·.holders)).getD 0

/-- Each document's holder count is the number of its holders, and no empty slot has one (R12), over tables in their form. -/
def HolderLaw (s : State) : Prop :=
  Tbl.wf s.pmc.docs ∧ Tbl.wf s.dsc.jobs ∧ Tbl.wf s.prt.entries ∧ Tbl.wf s.pmc.cursors ∧ ∀ d, s.holderCount d = s.holdersOf d

/-! ## Calls, their recipients and their reservations -/

/-- The line is in an outgoing call: in a call state, as the caller (section 4.2). -/
def State.outgoing (s : State) (l : Line) : Bool := (s.lu l).state.inCall && (s.call l).any (·.caller)

/-- The recipient at position `p` of job `j`, whose record is `r`, is bound to a line: BOUND or IN_CALL on it (R137). -/
def State.boundTo (s : State) (l : Line) (j p : Nat) (r : Recip) : Prop := s.recip j p = some r ∧ r.state.calling = true ∧ r.line = some l

/-- A line is in an outgoing call if and only if exactly one recipient is bound to it, and no recipient is bound to another line (R137). -/
def BindingLaw (s : State) : Prop :=
  ∀ l, (s.outgoing l = true → ∃ j p r, s.boundTo l j p r ∧ ∀ k q x, s.boundTo l k q x → k = j ∧ q = p)
    ∧ (s.outgoing l = false → ∀ j p r, ¬s.boundTo l j p r)

/-- No two lines are in outgoing calls with the same dial string (R136). -/
def DialLaw (s : State) : Prop :=
  ∀ l m j p r k q x, l ≠ m → s.outgoing l = true → s.outgoing m = true → s.boundTo l j p r → s.boundTo m k q x → r.dial ≠ x.dial

/-- A recipient's resume page less 1 is at most its pages delivered, they are at most the complete pages of its document, and its attempts used are at
most its attempts (R139). A finished job no longer holds its document (R140), so its complete pages are not looked at. -/
def RecipientLaw (s : State) : Prop :=
  ∀ j x p r, s.job j = some x → s.recip j p = some r →
    r.used ≤ x.attempts ∧ r.resume - 1 ≤ r.delivered ∧ (x.finished = false → r.delivered ≤ s.completeCount x.doc)

/-- Each line in a call state holds exactly one CARRIED reservation, and a line in no call state none (R155). -/
def ReservationLaw (s : State) : Prop := ∀ l, s.chg.resvs.countP (·.carriedOn l) = if (s.lu l).state.inCall = true then 1 else 0

/-- An account's spent is above its non-zero limit only with the overrun flag or the limit-lowered flag (R161). -/
def Account.spentOk (a : Account) : Prop := a.limit ≠ 0 → a.limit < a.spent → a.overrun = true ∨ a.limitLowered = true

/-- The law of R161 for every account. -/
def SpentLaw (s : State) : Prop := ∀ a ∈ s.chg.accounts, a.spentOk

/-- A recipient in a call, or with a binding offered (R136). -/
def Recip.busy (r : Recip) : Bool := r.state.calling || r.offeredTo.isSome

/-- How many recipients have the binding of a line offered. -/
def State.offersOf (s : State) (l : Line) : Nat := (s.dsc.jobs.map fun x => x.2.recips.countP (·.offeredTo == some l)).sum

/-- How calls, recipients and reservations name each other: what the laws of R136, R137, R139 and R155 rest on from step to step. -/
structure CallForm (s : State) : Prop where
  /-- a line has a call in flight in the call states and in no other (section 4.2) -/
  states : ∀ l, (s.call l).isSome = (s.lu l).state.inCall
  /-- no call is in flight before the settings load has ended (R89, R175) -/
  loading : s.ssc.loading = true → ∀ l, s.call l = none
  /-- a caller's call names a recipient that is bound to its line, with that recipient's document and resume page; the highest page taken and the page in
  progress are complete pages of the document (R76, R94, R100, R103) -/
  callers : ∀ l c, s.call l = some c → c.caller = true → ∃ j p x r,
    c.recip = some (j, p) ∧ s.job j = some x ∧ s.boundTo l j p r ∧ c.doc = some x.doc ∧ c.firstPage = some r.resume
      ∧ (∀ q, c.highest = some q → q ≤ s.completeCount x.doc) ∧ (c.pageOpen = true → ∃ q, c.current = some q ∧ q ≤ s.completeCount x.doc)
  /-- an answerer's call names no recipient: the bound recipient is the caller's (section 4.3) -/
  answerers : ∀ l c, s.call l = some c → c.caller = false → c.recip = none
  /-- a recipient in a call is the one that its line's call names (R137) -/
  bound : ∀ j p r, s.recip j p = some r → r.state.calling = true →
    ∃ l c, r.line = some l ∧ s.call l = some c ∧ c.caller = true ∧ c.recip = some (j, p)
  /-- a recipient with a binding offered is ELIGIBLE, one that is busy has attempts to spare (R136, R137), those of a finished job are terminal (R140) -/
  ready : ∀ j x p r, s.job j = some x → s.recip j p = some r →
    (r.offeredTo.isSome = true → r.state = .eligible) ∧ (r.busy = true → r.used < x.attempts) ∧ (x.finished = true → r.state.terminal = true)
  /-- a line has at most one binding offered, and a GRANTED reservation for it (R134, R137, R155) -/
  offers : ∀ l, s.offersOf l = s.chg.resvs.countP (·.grantedOn l) ∧ s.offersOf l ≤ 1
  /-- no two busy recipients have the same dial string (R136) -/
  dials : ∀ j p r k q x, (j, p) ≠ (k, q) → s.recip j p = some r → s.recip k q = some x → r.busy = true → x.busy = true → r.dial ≠ x.dial
  /-- a document's pages are numbered from 1 on, and all but the last are COMPLETE (R7) -/
  pages : ∀ d x, s.doc d = some x → x.pages.map (·.number) = (List.range x.pages.length).map (· + 1) ∧ ∀ p ∈ x.pages.dropLast, p.complete = true

/-- The laws of R136, R137, R139 and R155, and the form of the records that carries them. -/
def CallLaw (s : State) : Prop := BindingLaw s ∧ DialLaw s ∧ RecipientLaw s ∧ ReservationLaw s ∧ CallForm s

end Sys2Proof.Machine
end

