-- ==== Sys2Proof/WellFormed.lean ====
section
/-! DEFINITION. Well-formed commands: every operand fits the field that carries it (R194 to R197) or the range its sensor, pulse or timer can give. A well-formed operand may still be out of the range its owner takes, and is then refused with BAD_FIELD. -/

namespace Sys2Proof

def fits8 (n : Nat) : Bool := n < 256
def fits16 (n : Nat) : Bool := n < 65536
def fits32 (n : Nat) : Bool := n < 4294967296
def fitsStr (t : Str) : Bool := t.length < 256
/-- An optional first item, two bytes (R195). -/
def fitsFirst (f : Option Nat) : Bool := f.all fits16
def fitsPair (p : Option (Nat × Nat)) : Bool := p.all fun x => fits8 x.1 && fits8 x.2
/-- Seven bytes: the year less 2000 and six small numbers (R195). -/
def fitsTime (t : CalTime) : Bool :=
  2000 ≤ t.year && t.year < 2256 && fits8 t.month && fits8 t.day && fits8 t.weekday && fits8 t.hour && fits8 t.minute && fits8 t.second

def ScanSettings.wf (v : ScanSettings) : Bool :=
  fits16 v.start && fits16 v.stop && fits8 v.topErase && fits8 v.light && fits8 v.normal && fits8 v.dark && fits8 v.noise

def Thermal.wf (v : Thermal) : Bool := fits16 v.trip && fits16 v.resume && fits16 v.cooling && fits8 v.ready && fits8 v.maximum

def Band.wf (v : Band) : Bool :=
  fits16 v.setupPeak && fits16 v.setupOff && fits16 v.unitPeak && fits16 v.unitOff && fits16 v.intervalPeak && fits16 v.intervalOff

def RawLineConfig.wf (v : RawLineConfig) : Bool :=
  fits8 v.answerRings && fits8 v.dialMode && v.outside.all fitsStr && fits8 v.metering && fits16 v.meterValue

/-- An undefined action code is above 4. -/
def RawAction.wf : RawAction → Bool
  | .print b c k => fits8 b && fits8 c && fits8 k
  | .hold => true
  | .printAndHold b c k => fits8 b && fits8 c && fits8 k
  | .reject => true
  | .forward d a k p => fitsStr d && fits8 a && fits8 k && fitsPair p
  | .undefined n => 5 ≤ n && fits8 n

def RawRoute.wf (v : RawRoute) : Bool :=
  v.tagStart.all fitsStr && v.lineSet.all fits8 && v.window.all (fun w => fits16 w.1 && fits16 w.2) && fits8 v.sense && v.action.wf

/-- Pixels of a line of either module class (R35). -/
def lineOfPixels (n : Nat) : Bool := n == 2048 || n == 2432

/-- A command is well formed. -/
def Instr.wf : Instr → Bool
  | .powerUpReset p _ => fits8 p.headTemp
  | .settingsLoadComplete rows => rows.all (· < 158)
  | .byteError d k o => let c := Machine.charOf d k; Machine.parityFault c || Machine.framingFault c || o
  | .characterReceived c => !c.getLsbD 0 && !Machine.parityFault c && !Machine.framingFault c
  | .frameReceived _ _ body _ => body.length ≤ 1020
  | .lengthError | .gapTimer | .presenceTimer | .transmitComplete | .burstComplete | .stopKey | .startKey | .waitPaperTimeout
  | .detectWindowClose | .acquireTimeout | .pageSensorRise | .pageGapTimeout | .pageSensorFall | .warmupTimeout | .secondTick
  | .queueItemStart | .pollTimeout | .restartEffect => true
  | .paperSensor _ | .printPaperSensor _ | .coverSensor _ | .binFullSensor _ _ | .rowWriteComplete _ => true
  | .unknownKind t k => fits8 t && fits8 k
  | .memFloorsSet t a b => fits8 t && fits16 a && fits16 b
  | .docCreate t _ => fits8 t
  | .pageBegin t d r w => fits8 t && fits8 d && fits8 r && fits8 w
  | .stripData t d n _ c => fits8 t && fits8 d && fits8 n && c.length ≤ 1017
  | .pageClose t d => fits8 t && fits8 d
  | .docClose t d => fits8 t && fits8 d
  | .docRetain t d _ => fits8 t && fits8 d
  | .docDelete t d _ => fits8 t && fits8 d
  | .docInfo t d f => fits8 t && fits8 d && fitsFirst f
  | .docList t f => fits8 t && fitsFirst f
  | .cursorOpen t d p => fits8 t && fits8 d && p.all fits8
  | .cursorClose t c => fits8 t && fits8 c
  | .stripRead t c n => fits8 t && fits8 c && fits16 n
  | .scan t r w d b p => fits8 t && fits8 r && fits8 w && fits8 d && fits8 b && fitsPair p
  | .scanStop t => fits8 t
  | .scanSettingsSet t v => fits8 t && v.wf
  | .scanPresetSet t r w d b p => fits8 t && fits8 r && fits8 w && fits8 d && fits8 b && fitsPair p
  | .scanPresetClear t => fits8 t
  | .scanStatus t => fits8 t
  | .linePulse _ px => lineOfPixels px.length
  | .print t d a z c b k => fits8 t && fits8 d && a.all fits8 && z.all fits8 && fits8 c && fits8 b && fits8 k
  | .printCancel t e => fits8 t && fits8 e
  | .printResume t => fits8 t
  | .printRearm t => fits8 t
  | .printThermalSet t v => fits8 t && v.wf
  | .printStatus t e f => fits8 t && e.all fits8 && fitsFirst f
  | .lineTime temp _ => fits8 temp
  | .lineConfigSet t l v => fits8 t && fits8 l && v.wf
  | .answerWaitSet t w => fits8 t && fits8 w
  | .lineStatus t l f => fits8 t && fits8 l && fitsFirst f
  | .stationTagSet t x => fits8 t && fitsStr x
  | .exchangeSet t m p => fits8 t && fits8 m && fits8 p
  | .ringOn _ | .ringOff _ | .ringGapTimer _ | .lineVoltageAbsent _ | .lineVoltagePresent _ | .faultTimer _ | .clearingTimer _
  | .meterPulse _ | .binding _ | .dialToneWait _ | .retryPauseEnd _ | .dialTone _ | .dialCharacterDone _ | .wWaitTimeout _ | .busy _
  | .ringback _ | .silence _ | .answerTone _ | .callingTone _ | .answerWait _ | .guardTimer _ | .answerToneEnd _ | .controlFrameSent _
  | .burstSent _ | .stripSent _ | .replyWait _ | .capsWait _ | .checkResult _ _ | .waiting _ | .waitInterval _ | .clear _
  | .intervalTimer _ => true
  | .caps _ x m r w => fitsStr x && fits8 m && fits8 r && fits8 w
  | .plan _ x st _ p => fitsStr x && fits8 st && fits8 p
  | .rateCheckBurst _ bs => bs.length ≤ 3600
  | .dataStrip _ bs _ => bs.length ≤ 16448
  | .pageEnd _ _ p n => fits8 p && fits8 n
  | .pageEndWait _ p n => fits8 p && fits8 n
  | .stripReport _ xs => xs.length ≤ 80 && xs.all fits8
  | .pageTaken _ d _ => fits8 d
  | .refuse _ r => fits8 r
  | .send t d a k e _ _ att int ds =>
    fits8 t && fits8 d && fits8 a && fits8 k && e.all fitsTime && att.all fits8 && int.all fits8 && ds.length < 256 && ds.all fitsStr
  | .dialSet t g a n => fits8 t && fits8 g && fits8 a && fits8 n
  | .jobCancel t j m => fits8 t && fits8 j && fits8 m
  | .jobStatus t j f => fits8 t && fits8 j && fitsFirst f
  | .jobList t f => fits8 t && fitsFirst f
  | .embargoExpiry j => 1 ≤ j && j ≤ 32
  | .retryExpiry j p => 1 ≤ j && j ≤ 32 && 1 ≤ p && p ≤ 64
  | .routeSet t n v => fits8 t && fits8 n && v.wf
  | .routeClear t n => fits8 t && fits8 n
  | .routeDefaultSet t a b => fits8 t && a.wf && fits8 b
  | .routeRead t n f => fits8 t && n.all fits8 && fitsFirst f
  | .tariffSet t n d b => fits8 t && fits8 n && fitsStr d && fits8 b
  | .tariffClear t n => fits8 t && fits8 n
  | .bandSet t b v => fits8 t && fits8 b && v.wf
  | .calendarSet t a b m => fits8 t && fits16 a && fits16 b && fits8 m
  | .rateQuery t d => fits8 t && fitsStr d
  | .tariffRead t f => fits8 t && fitsFirst f
  | .accountSet t a l p _ _ => fits8 t && fits8 a && fits32 l && fits8 p
  | .accountRead t a f => fits8 t && fits8 a && fitsFirst f
  | .accountClosePeriod t a f => fits8 t && fits8 a && fitsFirst f
  | .logRead t n f => fits8 t && fits8 n && fitsFirst f
  | .logStatus t l => fits8 t && fits8 l
  | .logDrop t n e => fits8 t && fits8 n && e.all fits16
  | .clockSet t v => fits8 t && v.all fitsTime
  | .clockRead t => fits8 t
  | .storeSave t => fits8 t
  | .storeStatus t f => fits8 t && fitsFirst f
  | .status t => fits8 t
  | .noticeMaskSet t m => fits8 t && fits8 m
  | .presenceSet t p => fits8 t && fits8 p
  | .restart t => fits8 t
  | .stripHeaderReceived _ p n ls f c => fits8 p && fits8 n && fits8 ls && fits8 f && fits16 c

end Sys2Proof
end

