-- ==== Sys2Proof/Certificates/Slice0/Obligations.lean ====
section
/-! DEFINITION. The statements for the provers: what every command does, where it completes and what it leaves unchanged; the laws of the part that every step keeps.

A statement that rests on a choice of the model names its log entry (notes/assumptions). -/

open Sys2Proof Sys2Proof.Machine

/-! ## The machine -/

/-- The command at the front of the queue runs with the queue's rest. An empty queue idles (the model's choice, log entry 10). -/
def Obligations.StepRunsTheFrontCommand : Prop :=
  (
  ∀ (c : Instr) (rest : List Instr) (s : State), step { s with pending := c :: rest } = exec c { s with pending := rest })
  ∧ (
 ∀ s : State, s.pending = [] → step s = .next s)

/-- No rule of the spec stops the part: every command ends in a next state, and no command touches the queue of commands. -/
def Obligations.EveryCommandCompletes : Prop := ∀ (c : Instr) (s : State), ∃ t, exec c s = .next t ∧ t.pending = s.pending

/-- Until the settings load has ended the blocks do no work (R175): of all commands only a power-up reset and the load's end act; input levels and the
time base go on (the levels so, log entry 2). While RESTART waits for its effect no request is taken (R193): the transmitter alone goes on. -/
def Obligations.CommandsWaitForTheBlocks : Prop :=
  (
  ∀ (c : Instr) (s : State), s.ssc.loading = true →
    match c with
    | .powerUpReset _ _ => True
    | .settingsLoadComplete _ => True
    | .paperSensor v => exec c s = .next { s with pins := { s.pins with feederPaper := v } }
    | .pageSensorRise => exec c s = .next { s with pins := { s.pins with pageSensor := true } }
    | .pageSensorFall => exec c s = .next { s with pins := { s.pins with pageSensor := false } }
    | .lineTime t o => exec c s = .next { s with pins := { s.pins with headTemp := t, overcurrent := o } }
    | .printPaperSensor v => exec c s = .next { s with pins := { s.pins with printPaper := v } }
    | .coverSensor v => exec c s = .next { s with pins := { s.pins with coverClosed := v } }
    | .binFullSensor b v => exec c s = .next { s with pins := { s.pins with binFull := set4 s.pins.binFull b v } }
    | .lineVoltageAbsent l => exec c s = .next (voltageLevel l false s)
    | .lineVoltagePresent l => exec c s = .next (voltageLevel l true s)
    | .secondTick => exec c s = .next (clockTick s)
    | _ => exec c s = .next s)
  ∧ (
  ∀ (c : Instr) (s : State), isRequest c = true → s.running = true → s.hlc.restarting = true → exec c s = .next s.kick)

/-- The state right after reset keeps every law of the part. What the settings hold before the settings load has ended, each its default, and what
bytes never written read as, are the model's choices (log entries 1 and 3), on which the laws of the settings and of the memories rest here. -/
def Obligations.LawsHoldAtReset : Prop :=
  MemoryLaw State.reset ∧ PoolLaw State.reset ∧ HolderLaw State.reset ∧ LogLaw State.reset ∧ QueueLaw State.reset ∧ OfferLaw State.reset ∧ RangeLaw State.reset
    ∧ SettingsLaw State.reset ∧ CallLaw State.reset ∧ SpentLaw State.reset

/-- Every step keeps each block of page memory in exactly one place: the free pool, one reservation, or one strip record (R1); and each document's holder
count at the number of its holders: its unfinished send jobs, its unfinished print entries and its read cursors that are not REVOKED (R12). -/
def Obligations.StepKeepsThePool : Prop :=
  (
  ∀ s t : State, PoolLaw s → step s = .next t → PoolLaw t)
  ∧ (
  ∀ s t : State, HolderLaw s → step s = .next t → HolderLaw t)

/-- Every step keeps the laws of calls (`CallLaw`): a line is in an outgoing call if and only if exactly one recipient is bound to it, and that one to no
other line (R137); no two lines are in outgoing calls with the same dial string (R136); a recipient's resume page less 1 is at most its pages delivered,
they are at most the complete pages of its document, of an unfinished job, and its attempts used are at most its attempts (R139); each line in a call
state holds exactly one CARRIED reservation (R155). The holders' law stands beside them, since a held document keeps its pages (R12). The law of
spent and limit (R161): spent is above a non-zero limit only with the overrun flag or the limit-lowered flag. The settings load takes an account's row as
it stands, so there the rows it reads must keep that law; a row whose write failed holds free values (log entry 4). -/
def Obligations.StepKeepsTheCalls : Prop :=
  (
  ∀ s t : State, HolderLaw s → CallLaw s → step s = .next t → CallLaw t)
  ∧ (
  ∀ s t : State, SpentLaw s →
    (∀ noAck rest, s.pending = .settingsLoadComplete noAck :: rest → ∀ (a : Nat) (bs : List Byte), a < 32 → busRead s noAck (121 + a) = some bs →
      r32 bs 0 ≠ 0 → r32 bs 0 < r32 bs 4 → (r8 bs 13).testBit 3 = true ∨ (r8 bs 13).testBit 2 = true) →
    step s = .next t → SpentLaw t)

/-- Every step keeps the call log within its 128 slots, reservations counted (R155); the request and notice queues within their places (R183, R187);
the bounded counters, the accounts' amounts and counts, and the charges within their ranges (R60, R161, R164, section 8.3); DSC's offered set and idle
set in agreement with the line units (R86, R134); both memories in canonical form; and every setting in the range that its request takes (R3, R27, R62,
R71, R91, R115, R130, R149 to R151, R188, R189). -/
def Obligations.StepKeepsTheRecords : Prop :=
  (
 ∀ s t : State, LogLaw s → step s = .next t → LogLaw t)
  ∧ (
  ∀ s t : State, step s = .next t → (QueueLaw s → QueueLaw t) ∧ (RangeLaw s → RangeLaw t))
  ∧ (
 ∀ s t : State, OfferLaw s → step s = .next t → OfferLaw t)
  ∧ (
 ∀ s t : State, MemoryLaw s → step s = .next t → MemoryLaw t)
  ∧ (
 ∀ s t : State, SettingsLaw s → step s = .next t → SettingsLaw t)

/-! ## The host link (chapter 10) -/

/-- Every well-formed request, written as a frame's kind, tag and body, reads back as itself (R184, R194, R195). -/
def Obligations.RequestReadsBackAsWritten : Prop :=
  ∀ (i : Instr) (k t : Nat) (body : List Byte), i.wf = true → writeRequest i = some (k, t, body) → readRequest k t body = some (some i)

/-- The characters of an encoded frame, one command each from HUNT, do what the frame's reception as one command does (R181, R182, R183, R194). `settled`:
nothing waits that the transmitter could send. -/
def Obligations.FrameCharactersReceiveTheFrame : Prop :=
  ∀ (f : Frame) (s : State), f.body.length ≤ 1020 → s.running = true → s.hlc.rx = .hunt → s.settled →
    runCommands ((encodeFrame f).map fun b => .characterReceived (linkChar b)) s
      = runCommands [.frameReceived f.kind f.tag f.body (frameCheck f.kind f.tag f.body)] s

/-- The characters of the host link (R181): start bit 0, the data with the least significant bit first, odd parity, stop bit 1, read back as they are
sent; the part sends its frames so. A character whose ones in data and parity bits are not odd, whose stop bit is 0 or that comes with an overrun is a
byte error: it sets the flag of each fault it has and discards the frame in progress. The receiver's assembly states (R182): what each takes from a
character without error, and what follows. LENGTH and TRUNCATED errors discard the frame in progress, enter HUNT and set the flag of their kind; the gap
timer does not run in HUNT. The end-of-frame tests (R183): STUCK before CHECK; a valid frame has its effect on presence and takes the next place of the
request queue, or is discarded with QUEUE_FULL. A queued frame is taken at once when no reply is owed (R184, `pump`). -/
def Obligations.FramesAreReceived : Prop :=
  (
  (∀ b : Byte, (linkChar b).getLsbD 0 = false ∧ (∀ i, i < 8 → (linkChar b).getLsbD (i + 1) = b.getLsbD i) ∧ (linkChar b).getLsbD 10 = true
    ∧ ((List.range 9).filter fun i => (linkChar b).getLsbD (i + 1)).length % 2 = 1)
  ∧ (∀ c : LinkChar, c.getLsbD 0 = false → c.getLsbD 10 = true → ((List.range 9).filter fun i => c.getLsbD (i + 1)).length % 2 = 1 → ∃ b, c = linkChar b)
  ∧ ∀ (s : State) (o : Outgoing), s.hlc.tx = some o → s.linkSends = (encodeFrame o.frame).map linkChar)
  ∧ (
  ∀ (s : State) (c : LinkChar), s.running = true →
    let p : Bool := decide (((List.range 9).filter fun i => c.getLsbD (i + 1)).length % 2 = 0)
    let f : Bool := !c.getLsbD 10
    let errs (o : Bool) : Host.Outcome State Fault Refusal := .next { s with hlc := { s.hlc with rx := .hunt, flags := { s.hlc.flags with
      parity := s.hlc.flags.parity || p, framing := s.hlc.flags.framing || f, overrun := s.hlc.flags.overrun || o } } }.kick
    (∀ (d : Byte) (k : BitVec 2) (o : Bool), c.getLsbD 0 = false → (∀ i, i < 8 → c.getLsbD (i + 1) = d.getLsbD i) → (∀ i, i < 2 → c.getLsbD (i + 9) = k.getLsbD i) →
      ((p || f || o) = true → exec (.byteError d k o) s = errs o)
      ∧ ((p || f) = false → exec (.byteError d k false) s = exec (.characterReceived c) s))
    ∧ ((p || f) = true → exec (.characterReceived c) s = errs false))
  ∧ (
  ∀ (s : State) (b : Byte), s.running = true →
    let goes (r : Rx) : Host.Outcome State Fault Refusal := .next { s with hlc := { s.hlc with rx := r } }.kick
    match s.hlc.rx with
    | .hunt => exec (.characterReceived (linkChar b)) s = if b = 0xC3#8 then goes (.length []) else .next s.kick
    | .length [] => exec (.characterReceived (linkChar b)) s = goes (.length [b])
    | .length (lo :: _) =>
      exec (.characterReceived (linkChar b)) s =
        if 1020 < lo.toNat + 256 * b.toNat then
          .next { s with hlc := { s.hlc with rx := .hunt, flags := { s.hlc.flags with length := true } } }.kick
        else goes (.header (lo.toNat + 256 * b.toNat) [])
    | .header n [] => exec (.characterReceived (linkChar b)) s = goes (.header n [b])
    | .header n (k :: _) => exec (.characterReceived (linkChar b)) s = goes (if n = 0 then .check k b [] [] else .body n k b [])
    | .body n k t got =>
      exec (.characterReceived (linkChar b)) s = goes (if got.length + 1 < n then .body n k t (got ++ [b]) else .check k t (got ++ [b]) [])
    | .check k t data [] => exec (.characterReceived (linkChar b)) s = goes (.check k t data [b])
    | .check k t data (lo :: _) =>
      exec (.characterReceived (linkChar b)) s = exec (.frameReceived k t data (BitVec.ofNat 16 (lo.toNat + 256 * b.toNat))) s)
  ∧ (
  ∀ s : State, s.running = true →
    exec .lengthError s = .next { s with hlc := { s.hlc with rx := .hunt, flags := { s.hlc.flags with length := true } } }.kick
    ∧ (s.hlc.rx ≠ .hunt →
      exec .gapTimer s = .next { s with hlc := { s.hlc with rx := .hunt, flags := { s.hlc.flags with truncated := true } } }.kick)
    ∧ (s.hlc.rx = .hunt → exec .gapTimer s = .next s.kick))
  ∧ (
  ∀ (s : State) (kind tag : Byte) (body : List Byte) (check : BitVec 16), s.running = true → body.length ≤ 1020 →
    let stuck := 4 ≤ body.length ∧ ∀ b ∈ body, b = 0xFF#8
    let s' : State := { s with hlc := { s.hlc with rx := .hunt } }
    let p := presenceHeard s'
    (stuck → exec (.frameReceived kind tag body check) s = .next { s' with hlc := { s'.hlc with flags := { s.hlc.flags with stuck := true } } }.kick)
    ∧ (¬stuck → check ≠ frameCheck kind tag body →
      exec (.frameReceived kind tag body check) s = .next { s' with hlc := { s'.hlc with flags := { s.hlc.flags with check := true } } }.kick)
    ∧ (¬stuck → check = frameCheck kind tag body → p.hlc.requests.length < 4 →
      exec (.frameReceived kind tag body check) s =
        .next (pump { p with hlc := { p.hlc with requests := p.hlc.requests ++ [⟨kind, tag, body⟩] } }).kick)
    ∧ (¬stuck → check = frameCheck kind tag body → 4 ≤ p.hlc.requests.length →
      exec (.frameReceived kind tag body check) s = .next { p with hlc := { p.hlc with flags := { p.hlc.flags with queueFull := true } } }.kick))

/-- A valid frame's effect on presence (R189): in ATTENDED the timer restarts at the full period; in UNATTENDED the mode becomes ATTENDED, with
PRESENCE, and DSC's pass. Expiry of the presence timer (R189, R164, R11): UNATTENDED, the timer stopped, PRESENCE raised, every log reservation
marked, the OPEN host-written document abandoned; without a running timer nothing. -/
def Obligations.PresenceFollowsTheFrames : Prop :=
  (
  ∀ s : State,
    (s.hlc.attended = true →
      presenceHeard s = { s with hlc := { s.hlc with presenceEnd := if s.hlc.period = 0 then none else some (s.elapsed + s.hlc.period) } })
    ∧ (s.hlc.attended = false →
      presenceHeard s = (pass (({ s with hlc := { s.hlc with attended := true } } : State).raise .presence [0] [0])).presenceStart
        ∧ (presenceHeard s).hlc.attended = true
        ∧ (presenceHeard s).hlc.presenceEnd = (if s.hlc.period = 0 then none else some (s.elapsed + s.hlc.period))
        ∧ OnlyChanges ([.presence] ++ Part.passing) s (presenceHeard s)))
  ∧ (
  ∀ s : State, s.running = true →
    let u : State := ({ s with hlc := { s.hlc with attended := false, presenceEnd := none } } : State).raise .presence [0] [1]
    let v : State := { u with chg := { u.chg with resvs := u.chg.resvs.map fun r => { r with unattended := true } } }
    ((s.hlc.attended = false ∨ s.hlc.presenceEnd = none) → exec .presenceTimer s = .next s.kick)
    ∧ (s.hlc.attended = true → s.hlc.presenceEnd.isSome = true → s.hlc.hostDoc = none → exec .presenceTimer s = .next v.kick)
    ∧ (s.hlc.attended = true → s.hlc.presenceEnd.isSome = true → ∀ d, s.hlc.hostDoc = some d →
      exec .presenceTimer s = .next (docAbandon .hlc d { v with hlc := { v.hlc with hostDoc := none, hostLost := d :: s.hlc.hostLost.filter (· != d) } }).kick))

/-- A notice raised (R187): not queued when its class is masked; in the place of a queued notice of its kind and object; dropped, with the
notices-lost flag, when no place is free; else in the next place. The transmitter chooses what to send when it is free (R186): a waiting reply, else
in ATTENDED the oldest notice, else nothing; after the reply to RESTART nothing (R193). -/
def Obligations.NoticesAndRepliesAreSent : Prop :=
  (
  ∀ (s : State) (k : NoticeKind) (object fields : List Byte),
    let same (n : Notice) : Prop := n.kind = k ∧ n.object = object
    let put (ns : List Notice) : State := { s with hlc := { s.hlc with notices := ns } }
    (s.hlc.mask.testBit k.cls.code = true → s.raise k object fields = s)
    ∧ (s.hlc.mask.testBit k.cls.code = false →
      (∀ pre n post, s.hlc.notices = pre ++ n :: post → same n → (∀ m ∈ pre ++ post, ¬same m) →
        s.raise k object fields = put (pre ++ ⟨k, object, fields⟩ :: post))
      ∧ ((∀ m ∈ s.hlc.notices, ¬same m) → 32 ≤ s.hlc.notices.length →
        s.raise k object fields = { s with hlc := { s.hlc with lost := true } })
      ∧ ((∀ m ∈ s.hlc.notices, ¬same m) → s.hlc.notices.length < 32 →
        s.raise k object fields = put (s.hlc.notices ++ [⟨k, object, fields⟩]))))
  ∧ (
  ∀ h : Hlc,
    (h.tx.isSome = true → h.kick = h)
    ∧ (∀ r rs, h.tx = none → h.replies = r :: rs → h.kick = { h with tx := some (.reply r), replies := rs })
    ∧ (∀ n ns, h.tx = none → h.replies = [] → h.notices = n :: ns →
      h.kick = if h.attended = true ∧ h.restarting = false then { h with tx := some (.notice n), notices := ns } else h)
    ∧ (h.tx = none → h.replies = [] → h.notices = [] → h.kick = h))

/-- The end of a frame sent (R184, R186): a waiting reply follows; with none owed the oldest queued request is taken, and does what its own command
does; a kind that is no request's is answered UNKNOWN_KIND, a body that does not fit its kind BAD_FIELD; after the reply to RESTART nothing is taken
(R193). -/
def Obligations.TransmitterEndTakesTheNextRequest : Prop :=
  ∀ s : State, s.running = true →
    (s.hlc.tx = none → exec .transmitComplete s = .next s.kick)
    ∧ (s.hlc.tx.isSome = true →
      (∀ r rs, s.hlc.replies = r :: rs → exec .transmitComplete s = .next { s with hlc := { s.hlc with tx := some (.reply r), replies := rs } })
      ∧ (s.hlc.replies = [] → (s.hlc.requests = [] ∨ s.hlc.restarting = true) →
        exec .transmitComplete s = .next { s with hlc := { s.hlc with tx := none } }.kick)
      ∧ (∀ f rest, s.hlc.replies = [] → s.hlc.restarting = false → s.hlc.requests = f :: rest →
        let u : State := { s with hlc := { s.hlc with tx := none, requests := rest } }
        (∀ i, readRequest f.kind.toNat f.tag.toNat f.body = some (some i) → exec .transmitComplete s = exec i u)
        ∧ (readRequest f.kind.toNat f.tag.toNat f.body = some none →
          exec .transmitComplete s = .next (u.replied f.kind.toNat f.tag.toNat .badField []))
        ∧ (readRequest f.kind.toNat f.tag.toNat f.body = none →
          exec .transmitComplete s = exec (.unknownKind f.tag.toNat f.kind.toNat) u)))
    ∧ ∀ tag kind, s.hlc.restarting = false → exec (.unknownKind tag kind) s = .next (s.replied 0 tag .unknownKind [BitVec.ofNat 8 kind])

/-- HLC's own requests (R188, R190, R191): the mask, the presence period, STATUS, which reports and clears the nine flags. Row 157 of the settings
image becomes dirty. Requests that replace the settings of the floors, the lines' answer wait, the station tag and the exchange (R3, R71, R91): the
value replaced, its row of the settings image dirty, OK; a value out of range refused with BAD_FIELD. The requests that replace scan settings, preset
and thermal settings (R26, R27, R62): the values replaced, their row of the settings image dirty, OK; BAD_FIELD for a value out of range or, in a
preset, a B4 width without a module of the B4 class. That a notice mask above 255 is BAD_FIELD is the model's reading (log entry 34). -/
def Obligations.SettingsRequestsReplaceValues : Prop :=
  (
  ∀ (s : State) (tag n : Nat), s.takes →
    exec (.noticeMaskSet tag n) s =
      .next (if n ≤ 255 then (({ s with hlc := { s.hlc with mask := n } } : State).dirty 157).replied 0x61 tag .ok [] else s.replied 0x61 tag .badField [])
    ∧ exec (.presenceSet tag n) s =
      .next (if n = 0 ∨ (5 ≤ n ∧ n ≤ 255) then
          (({ s with hlc := { s.hlc with
            period := n, presenceEnd := if s.hlc.attended = true ∧ n ≠ 0 then some (s.elapsed + n) else none } } : State).dirty 157).replied 0x62 tag .ok []
        else s.replied 0x62 tag .badField [])
    ∧ exec (.status tag) s =
      .next (({ s with hlc := { s.hlc with flags := LinkFlags.none, lost := false } } : State).replied 0x60 tag .ok (statusBody s)))
  ∧ (
  ∀ (s : State) (tag a b : Nat) (x : Str), s.takes →
    exec (.memFloorsSet tag a b) s =
      .next (if (64 ≤ a ∧ a ≤ 2048) ∧ 128 ≤ b ∧ b ≤ 3072 then
          ((({ s with pmc := { s.pmc with recvContinue := a, scanFloor := b } } : State).dirty 156).dirty 153).replied 0x10 tag .ok []
        else s.replied 0x10 tag .badField [])
    ∧ exec (.answerWaitSet tag a) s =
      .next (if 20 ≤ a ∧ a ≤ 120 then (({ s with lus := { s.lus with answerWait := a } } : State).dirty 5).replied 0x31 tag .ok []
        else s.replied 0x31 tag .badField [])
    ∧ exec (.stationTagSet tag x) s =
      .next (if x.length ≤ 20 ∧ ∀ c ∈ x, 0x20#8 ≤ c ∧ c ≤ 0x7E#8 then
          (({ s with lus := { s.lus with stationTag := x } } : State).dirty 0).replied 0x33 tag .ok []
        else s.replied 0x33 tag .badField [])
    ∧ exec (.exchangeSet tag a b) s =
      .next (if (1 ≤ a ∧ a ≤ 6) ∧ b ≤ 63 then
          (({ s with lus := { s.lus with maxStep := a, passThreshold := b } } : State).dirty 156).replied 0x34 tag .ok []
        else s.replied 0x34 tag .badField []))
  ∧ (
  ∀ (s : State) (tag : Nat), s.takes →
    (∀ v : ScanSettings, exec (.scanSettingsSet tag v) s =
      .next (if v.start ≤ 2431 ∧ v.stop ≤ 2431 ∧ v.start ≤ v.stop ∧ v.topErase ≤ 63 ∧ (1 ≤ v.light ∧ v.light ≤ 255) ∧ (1 ≤ v.normal ∧ v.normal ≤ 255)
          ∧ (1 ≤ v.dark ∧ v.dark ≤ 255) ∧ v.noise ≤ 15 then
          (({ s with scn := { s.scn with settings := v } } : State).dirty 153).replied 0x22 tag .ok []
        else s.replied 0x22 tag .badField []))
    ∧ (∀ v : Thermal, exec (.printThermalSet tag v) s =
      .next (if (1 ≤ v.trip ∧ v.trip ≤ 65535) ∧ v.resume < v.trip ∧ (1 ≤ v.cooling ∧ v.cooling ≤ 4095) ∧ v.ready ≤ 254 ∧ v.ready < v.maximum ∧ v.maximum ≤ 255 then
          (({ s with prt := { s.prt with thermal := v } } : State).dirty 155).replied 0x2C tag .ok []
        else s.replied 0x2C tag .badField []))
    ∧ (∀ (re : Resolution) (w : Width) (d : Density) (b : BlankPolicy) (spec : Option (Nat × Bin)), spec.all (fun x => 1 ≤ x.1 && x.1 ≤ 99) = true →
      exec (.scanPresetSet tag re.code w.code d.code b.code (spec.map fun x => (x.1, x.2.val))) s =
        .next (if w = .b4 ∧ s.pins.moduleB4 = false then s.replied 0x23 tag .badField []
          else (({ s with scn := { s.scn with preset := some ⟨re, w, d, b, spec⟩ } } : State).dirty 154).replied 0x23 tag .ok []))
    ∧ (∀ re w d b spec, (2 < re ∨ 1 < w ∨ 2 < d ∨ 1 < b ∨ ∃ c n, spec = some (c, n) ∧ (c = 0 ∨ 99 < c ∨ 3 < n)) →
      exec (.scanPresetSet tag re w d b spec) s = .next (s.replied 0x23 tag .badField []))
    ∧ exec (.scanPresetClear tag) s = .next ((({ s with scn := { s.scn with preset := none } } : State).dirty 154).replied 0x24 tag .ok []))

/-- RESTART is answered OK and waits for its effect (R193). Its effect (R25, R47, R70, R90, R127, R147, R170, R193): the documents kept are those with
a complete page that are not delete-pending, with exactly their complete pages, ABANDONED if they were OPEN, unheld and retained; no reservation,
cursor, print entry, job, call or reception; SCN idle, a scan in progress ended with outcome RESTART (R47); the engine in FAULT if it was, else IDLE,
the heater off (R70); each line's CARRIED log reservation is committed with outcome RESTART and without its job, in
line order, and every GRANTED one is returned (R90, R170); HLC as it is named here; and all else as it was. That the lines' records stand in the order
L0 to L3 is the model's choice (log entry 70). -/
def Obligations.RestartClearsTheWork : Prop :=
  ∀ s : State, s.running = true →
    (∀ tag, s.hlc.restarting = false →
      let t := s.replied 0x63 tag .ok []
      exec (.restart tag) s = .next { t with hlc := { t.hlc with restarting := true } })
    ∧ ∃ t, exec .restartEffect s = .next t ∧ OnlyChanges Part.restarted s t
      ∧ t.pmc.resv = [] ∧ t.pmc.cursors = []
      ∧ (∀ x ∈ t.pmc.docs, x.2.state ≠ .opened ∧ x.2.holders = 0 ∧ x.2.retained = true ∧ x.2.deletePending = false ∧ x.2.pages ≠ []
        ∧ ∀ p ∈ x.2.pages, p.complete = true)
      ∧ t.scn.state = .idle ∧ t.prt.entries = [] ∧ t.prt.current = none ∧ t.prt.page = none ∧ t.dsc.jobs = []
      ∧ (∀ r, s.prt.engine = .fault r → t.prt.engine = .fault r) ∧ ((∀ r, s.prt.engine ≠ .fault r) → t.prt.engine = .idle) ∧ t.prt.heater = false
      ∧ t.scn.job = (if s.scn.state = .idle then s.scn.job else s.scn.job.map ({ · with outcome := some .restart }))
      ∧ (∀ l, (t.lu l).call = none ∧ (t.lu l).state ≠ .ringing ∧ (t.lu l).config = (s.lu l).config ∧ at4 t.rrt.recs l = none)
      ∧ (∀ l, (s.lu l).call.isSome = true → (t.lu l).state = .guard)
      ∧ (Tbl.wf s.pmc.docs → ∀ d, t.doc d = (s.doc d).bind fun x =>
        if x.deletePending = false ∧ ∃ p ∈ x.pages, p.complete = true then
          some { x with
            state := if x.state = .opened then .abandoned else x.state, pages := x.pages.filter (·.complete), holders := 0, retained := true }
        else none)
      ∧ (let ended (l : Line) : Option Record := match s.call l, s.carried l with
          | some c, some r => some { recordOf s r (c.endReport .restart) with out := r.out.map ({ · with recip := none }) }
          | _, _ => none
        ∃ vs : List Record, t.chg.records = s.chg.records ++ vs
          ∧ vs.map ({ · with number := 0 }) = ([0, 1, 2, 3].filterMap ended).map ({ · with number := 0 })
          ∧ (∀ v ∈ vs, v.outcome = .restart)
          ∧ (s.chg.nextLog < 65536 → t.chg.nextLog = (s.chg.nextLog + vs.length) % 65536
            ∧ ∀ i v, vs[i]? = some v → v.number = (s.chg.nextLog + i) % 65536))
      ∧ t.chg.resvs = (([0, 1, 2, 3] : List Line).foldl (fun rs l => if (s.call l).isSome = true then rs.eraseP (·.carriedOn l) else rs) s.chg.resvs).filter (·.carried)
      ∧ t.hlc = { s.hlc with
          rx := .hunt, requests := [], replies := [], tx := none, notices := [], lost := false, attended := true
          presenceEnd := if s.hlc.period = 0 then none else some (s.elapsed + s.hlc.period), restarting := false, hostDoc := none, hostLost := [] }

/-- A power-up reset (R175, R25, R89, R147, R169, R171, R192): what every block holds; the settings hold the defaults that their chapters give
(sections 1.2, 2.1, 4.1, 5.1, 6.1, 7.1, 8.1 to 8.3, 10.5 and 10.6; R62, R151). R175 gives defaults at the load's end, to the owners of failed rows: that
every setting holds its default from the reset on is the model's choice (log entry 1). The settings memory is kept, but for a row whose write the reset
cuts off (log entry 4). -/
def Obligations.PowerUpResetsEveryBlock : Prop :=
  ∀ (s : State) (pins : Pins) (v : Vector Bool 4), ∃ t, exec (.powerUpReset pins v) s = .next t ∧ t.pending = s.pending ∧ t.pins = pins
    ∧ t.pmc.free = List.range 4096 ∧ t.pmc.resv = [] ∧ t.pmc.docs = [] ∧ t.pmc.cursors = [] ∧ t.scn.state = .idle ∧ t.scn.job = none
    ∧ t.prt.entries = [] ∧ t.prt.engine = .idle ∧ t.prt.heat = 0
    ∧ (∀ l, (t.lu l).state = .disabled ∧ (t.lu l).call = none ∧ (t.lu l).voltage = at4 v l)
    ∧ t.dsc.jobs = [] ∧ t.chg.resvs = [] ∧ t.chg.records = [] ∧ t.tmb.time = ⟨2000, 1, 1, 6, 0, 0, 0⟩ ∧ t.tmb.valid = false
    ∧ t.ssc.loading = true ∧ t.ssc.queue = [] ∧ t.ssc.status = .idle ∧ t.ssc.dirty = []
    ∧ t.hlc.rx = .hunt ∧ t.hlc.requests = [] ∧ t.hlc.notices = [] ∧ t.hlc.flags = LinkFlags.none ∧ t.hlc.lost = false ∧ t.hlc.attended = false
    ∧ t.hlc.presenceEnd = none
    ∧ t.scn.settings = ⟨0, 2431, 0, 160, 128, 96, 2⟩ ∧ t.scn.preset = none ∧ t.prt.thermal = ⟨40000, 24000, 96, 60, 200⟩
    ∧ t.pmc.recvContinue = 400 ∧ t.pmc.scanFloor = 512
    ∧ (∀ l, (t.lu l).config = ⟨false, true, true, 2, .tone, none, .none, 0⟩) ∧ t.lus = ⟨60, [], 6, 8⟩
    ∧ t.dsc.guard = 1 ∧ t.dsc.attempts = 3 ∧ t.dsc.interval = 5 ∧ t.rrt.routes = [] ∧ t.rrt.dflt = .print 0 1 .routine ∧ t.rrt.fallbackBin = 0
    ∧ t.chg.tariffs = [] ∧ t.chg.bands = List.replicate 16 ⟨0, 0, 0, 0, 60, 60, false⟩ ∧ t.chg.calendar = ⟨480, 1080, 31⟩
    ∧ t.chg.accounts = List.replicate 32 ⟨0, 0, 0, 0, .afterPage, false, false, false, false⟩ ∧ t.hlc.mask = 0 ∧ t.hlc.period = 30
    ∧ (s.ssc.writing = none → t.eeprom = s.eeprom)
    ∧ ∀ w, s.ssc.writing = some w → ∀ a, (a < w.row * 32 ∨ w.row * 32 + 32 ≤ a) → t.storedAt a = s.storedAt a

/-- The end of the settings load (R175, R89): the blocks begin work; a row not acknowledged, or whose 32 bytes do not sum to 255 modulo 256, is dirty
and counted failed, and so is row one of a route entry whose used flag or action is not a defined value, whatever became of row two (R198); a row that
passes gives its owner its values (the answer wait and the dial settings stand for all); an enabled line is IDLE, the fault timer running when its
voltage is absent. That a failed row's values keep what they were is the model's choice (log entry 1), and that the load raises no notices is too (log
entry 41). Without a load in progress the command has no effect. What SSC does on the bus for a row (R175): start, the device address to write, the two
address bytes, high byte first, start again, the device address to read, 31 bytes answered with ACK, the last with NACK, stop; what it takes so is the
row's 32 bytes, and a missing ACK or a bad sum leaves it without the row. -/
def Obligations.SettingsLoadStartsTheBlocks : Prop :=
  (
  ∀ (s : State) (noAck : List Nat),
    let fails (row : Nat) : Prop := row ∈ noAck ∨ byteSum (rowRead s.eeprom row) % 256 ≠ 255
    (s.ssc.loading = false → exec (.settingsLoadComplete noAck) s = .next s)
    ∧ (s.ssc.loading = true → ∃ t, exec (.settingsLoadComplete noAck) s = .next t ∧ t.running = true
      ∧ OnlyChanges (.loading :: Part.settings) s t
      ∧ (∀ row, row < 158 → fails row → row ∈ t.ssc.dirty ∧ row ∈ t.ssc.failed)
      ∧ (∀ i, i < 32 → ((2 ≤ (s.storedAt ((7 + 2 * i) * 32)).toNat) ∨ ((s.storedAt ((7 + 2 * i) * 32)).toNat = 1 ∧ 5 ≤ (s.storedAt ((7 + 2 * i) * 32 + 28)).toNat)) →
          7 + 2 * i ∈ t.ssc.dirty ∧ 7 + 2 * i ∈ t.ssc.failed)
      ∧ (fails 5 → t.lus.answerWait = s.lus.answerWait)
      ∧ (¬fails 5 → 20 ≤ (s.storedAt 160).toNat → (s.storedAt 160).toNat ≤ 120 → t.lus.answerWait = (s.storedAt 160).toNat)
      ∧ (¬fails 6 → (s.storedAt 192).toNat ≤ 3 → 1 ≤ (s.storedAt 193).toNat → (s.storedAt 193).toNat ≤ 9 → 1 ≤ (s.storedAt 194).toNat →
          (s.storedAt 194).toNat ≤ 60 →
          t.dsc.guard = (s.storedAt 192).toNat ∧ t.dsc.attempts = (s.storedAt 193).toNat ∧ t.dsc.interval = (s.storedAt 194).toNat)
      ∧ ∀ l, (t.lu l).config.enabled = true → (t.lu l).state = .idle ∧ (t.lu l).faultTimer = !(t.lu l).voltage))
  ∧ (
  ∀ (s : State) (noAck : List Nat) (row : Nat), row < 158 →
    readSteps row = [.start, .device false, .send (BitVec.ofNat 8 (row / 8)), .send (BitVec.ofNat 8 (32 * (row % 8))), .start, .device true]
        ++ List.replicate 31 (.receive true) ++ [.receive false, .stop]
      ∧ (busTake s.eeprom (readSteps row) 0).length = 32
      ∧ (∀ i, i < 32 → (busTake s.eeprom (readSteps row) 0)[i]? = some (s.storedAt (row * 32 + i)))
      ∧ ((row ∈ noAck ∨ byteSum (rowRead s.eeprom row) % 256 ≠ 255) → busRead s noAck row = none)
      ∧ (row ∉ noAck → byteSum (rowRead s.eeprom row) % 256 = 255 → busRead s noAck row = some (rowRead s.eeprom row)))

/-! ## Page memory and documents (chapter 1) -/

/-- DOC_CREATE and PAGE_BEGIN (R18, R7, R10): STATE while a host document is OPEN, FULL without a slot, else the lowest empty slot holds a new OPEN
document of origin HOST; a page is begun with the next number, refused in the order BAD_FIELD, STATE, FULL. A request that names another document is
answered NO_SUCH, or once STATE (log entry 13). PAGE_CLOSE and DOC_CLOSE (R21, R8): the FILLING page becomes COMPLETE, with its blank flag and damaged
strips, and PMC reports it: to DSC, whose readiness tests come first, to PRT, whose selection runs if the engine is IDLE, and to the callers, who leave a
WAIT interval for this page; then a pass runs if a recipient became ELIGIBLE (R8; in this order, log entry 23). The document is closed by its writer.
STATE while a strip is FILLING, for an empty page, or for a document with a FILLING page. A PAGE_CLOSE or DOC_CLOSE that names another document than the OPEN host-written one is NO_SUCH (R21), or once STATE (R11; log entry 13), and
changes nothing else. -/
def Obligations.HostWritesDocuments : Prop :=
  (
  ∀ (s : State) (tag : Nat), s.takes →
    (∀ retain, s.hlc.hostDoc.isSome = true → exec (.docCreate tag retain) s = .next (s.replied 0x11 tag .state []))
    ∧ (∀ retain, s.hlc.hostDoc = none → (∀ k, 1 ≤ k → k ≤ 64 → (s.doc k).isSome = true) →
      exec (.docCreate tag retain) s = .next (s.replied 0x11 tag .full []))
    ∧ (∀ retain d, s.hlc.hostDoc = none → s.pmc.docs.lowestEmpty 64 d →
      exec (.docCreate tag retain) s =
        .next (({ s with
          pmc := { s.pmc with docs := s.pmc.docs.put d ⟨.host, .opened, [], 0, retain, false, none, none, none, none⟩ }
          hlc := { s.hlc with hostDoc := some d } } : State).replied 0x11 tag .ok [BitVec.ofNat 8 d]))
    ∧ (∀ doc res width, s.hlc.hostDoc ≠ some doc →
      exec (.pageBegin tag doc res width) s =
        .next (if doc ∈ s.hlc.hostLost ∧ (s.doc doc).any (fun d => d.origin == .host && d.state == .abandoned) = true then
            ({ s with hlc := { s.hlc with hostLost := s.hlc.hostLost.filter (· != doc) } } : State).replied 0x12 tag .state []
          else s.replied 0x12 tag .noSuch []))
    ∧ ∀ doc res width r, s.hlc.hostDoc = some doc → s.doc doc = some r →
      (2 < res ∨ 1 < width → exec (.pageBegin tag doc res width) s = .next (s.replied 0x12 tag .badField []))
      ∧ ∀ (re : Resolution) (w : Width), res = re.code → width = w.code →
        (r.filling.isSome = true → exec (.pageBegin tag doc res width) s = .next (s.replied 0x12 tag .state []))
        ∧ (r.filling = none → (250 ≤ r.pages.length ∨ s.pmc.free.length < s.pmc.scanFloor) →
          exec (.pageBegin tag doc res width) s = .next (s.replied 0x12 tag .full []))
        ∧ (r.filling = none → r.pages.length < 250 → s.pmc.scanFloor ≤ s.pmc.free.length → r.state = .opened →
          exec (.pageBegin tag doc res width) s =
            .next ((s.onDoc doc fun d => { d with pages := d.pages ++ [⟨r.pages.length + 1, re, w, [], false, false, none⟩] }).replied 0x12 tag .ok
              [BitVec.ofNat 8 (r.pages.length + 1)])))
  ∧ (
  ∀ (s : State) (tag doc : Nat) (d : Doc), s.takes → s.hlc.hostDoc = some doc → s.doc doc = some d →
    (d.filling = none →
      exec (.pageClose tag doc) s = .next (s.replied 0x14 tag .state [])
      ∧ exec (.docClose tag doc) s = .next ((docClose doc { s with hlc := { s.hlc with hostDoc := none } }).replied 0x15 tag .ok []))
    ∧ ∀ p, d.filling = some p →
      exec (.docClose tag doc) s = .next (s.replied 0x15 tag .state [])
      ∧ (((s.resvOf .hlc).isSome = true ∨ p.strips = []) → exec (.pageClose tag doc) s = .next (s.replied 0x14 tag .state []))
      ∧ (s.resvOf .hlc = none → p.strips ≠ [] →
        let q : Page → Page := fun p => { p with complete := true, blank := s.pageBlank p, damaged := p.damagedStrips }
        exec (.pageClose tag doc) s =
          .next ((pageReport doc (s.onDoc doc fun d => { d with pages := d.pages.map fun p => if p.complete then p else q p })).replied 0x14 tag .ok
            (e8 p.number ++ e16 (p.strips.map (·.lines)).sum))))
  ∧ (
  ∀ (s : State) (tag doc : Nat), s.takes → s.hlc.hostDoc ≠ some doc →
    let out (kind : Nat) : Host.Outcome State Fault Refusal :=
      .next (if doc ∈ s.hlc.hostLost ∧ (s.doc doc).any (fun d => d.origin == .host && d.state == .abandoned) = true then
          ({ s with hlc := { s.hlc with hostLost := s.hlc.hostLost.filter (· != doc) } } : State).replied kind tag .state []
        else s.replied kind tag .noSuch [])
    exec (.pageClose tag doc) s = out 0x14 ∧ exec (.docClose tag doc) s = out 0x15)
  ∧ (
  ∀ (s : State) (d : Nat), pageReport d s = passIfNew s (eachDo (earlyBoundary d) [0, 1, 2, 3] (selectIfIdle (readinessDoc d s))))

/-- Coded bytes written into a strip's blocks stand there in order, and no other byte of page memory changes (R4). The end of a FILLING strip (R5, R6,
R196). A strip opens when its client holds no reservation and 17 blocks are free; the eight bytes of its header are then written at the start of its
blocks from the page and strip records (R2, R4, R19, R196), with a coded length of 0 (log entry 22). Closed, it keeps as many of its blocks as its header
and coded bytes use, from the first on, its header is written with its line count, its coded length and the damaged mark of a DAMAGED copy (at the close,
log entry 22), and the rest of the reservation and the blocks of the copy it replaces are back in the pool; the page's other strips stay. Discarded,
every block is back and no record is made. A copy that gets no reservation leaves a strip without a copy DAMAGED with no blocks, and gives a DAMAGED one
its line count. -/
def Obligations.StripBytesReadBack : Prop :=
  (
  ∀ (m : List Host.Cell) (blocks : List Nat) (i : Nat) (bytes : List Byte), Memory.wf m → blocks.Nodup → i + bytes.length ≤ 1024 * blocks.length →
    Memory.wf (stripWrite m blocks i bytes)
      ∧ stripRead (stripWrite m blocks i bytes) blocks i bytes.length = bytes
      ∧ ∀ a, (∀ j, j < bytes.length → a ≠ stripAddr blocks (i + j)) → cellRead memDefault (stripWrite m blocks i bytes) a = cellRead memDefault m a)
  ∧ (∀ (page strip lines : Nat) (res : Resolution) (w : Width) (damaged : Bool) (coded : Nat),
    stripHeader page strip lines res w damaged coded =
      [0x5A#8, 0xA5#8, BitVec.ofNat 8 page, BitVec.ofNat 8 strip, BitVec.ofNat 8 lines,
        BitVec.ofNat 8 (res.code + 4 * w.code + (if damaged = true then 8 else 0)), BitVec.ofNat 8 coded, BitVec.ofNat 8 (coded / 256)])
  ∧ (∀ (s : State) (c : Client) (d no lines : Nat),
    ((s.resvOf c ≠ none ∨ s.pmc.free.length < 17) → stripOpen c d no lines s = none)
    ∧ ∀ p, s.resvOf c = none → 17 ≤ s.pmc.free.length → (s.doc d).bind (·.filling) = some p →
      let blocks := s.pmc.free.take 17
      headerOpened blocks d no lines s = stripWrite s.mem blocks 0 (stripHeader p.number no lines p.res p.width false 0)
      ∧ stripOpen c d no lines s = some { s with
        mem := headerOpened blocks d no lines s
        pmc := { s.pmc with free := s.pmc.free.drop 17, resv := s.pmc.resv ++ [⟨c, blocks, d, ⟨no, lines, 0, [], .filling⟩⟩] } })
  ∧ (
  (∀ (s : State) (c : Client) (st : StripState), s.resvOf c = none → stripClose c st s = s ∧ stripDiscard c s = s)
  ∧ (∀ (s : State) (c : Client) (st : StripState) (r : Resv) (p : Page), s.resvOf c = some r → (s.doc r.doc).bind (·.filling) = some p →
    let n := (8 + r.strip.coded + 1023) / 1024
    let t := stripClose c st s
    t.resvOf c = none
      ∧ t.mem = stripWrite s.mem r.blocks 0 (stripHeader p.number r.strip.no r.strip.lines p.res p.width (st == .damaged) r.strip.coded)
      ∧ t.pmc.free = r.blocks.drop n ++ (match p.strip r.strip.no with | none => [] | some x => x.blocks) ++ s.pmc.free
      ∧ (∃ q, (t.doc r.doc).bind (·.filling) = some q ∧ q.number = p.number ∧ q.res = p.res ∧ q.width = p.width
        ∧ q.strip r.strip.no = some { r.strip with blocks := r.blocks.take n, state := st } ∧ ∀ k, k ≠ r.strip.no → q.strip k = p.strip k)
      ∧ OnlyChanges Part.stripEnd s t)
  ∧ (∀ (s : State) (c : Client) (r : Resv), s.resvOf c = some r →
    let t := stripDiscard c s
    t.resvOf c = none ∧ t.pmc.free = r.blocks ++ s.pmc.free ∧ t.pmc.docs = s.pmc.docs ∧ t.arb.need c = 0
      ∧ OnlyChanges [.freePool, .reservations, .arbiter, .scanRun, .notices] s t)
  ∧ ∀ (s : State) (d no lines : Nat) (p : Page), (s.doc d).bind (·.filling) = some p → (∀ x, p.strip no = some x → x.state = .damaged) →
    let t := stripMissed d no lines s
    OnlyChanges [.docs] s t ∧ ∃ q, (t.doc d).bind (·.filling) = some q ∧ (∀ k, k ≠ no → q.strip k = p.strip k)
      ∧ q.strip no = some (match p.strip no with | none => ⟨no, lines, 0, [], .damaged⟩ | some x => { x with lines := lines }))

/-- STRIP_DATA (R19, R20, R5): the first chunk opens the next strip in 17 blocks of the pool with its header, a later one continues it; the chunk's bytes
follow those already there, and no other byte of page memory changes. At the last chunk the strip is verified: it is STORED and closed, or its blocks return with
BAD_CODING. What the verification of a host strip accepts (R20): as many lines as its line count with no byte left over, each BLANK, REPEAT but not at
the first, RAW with 256 bytes, or RUNS whose runs come to the width in at most 255 run bytes. The refusals of STRIP_DATA (R19): a field out of range,
a changed line count or a strip over its greatest coded length is BAD_FIELD and discards the strip; no FILLING page or a short last strip is STATE; no
strip number or no 17 blocks left is FULL. A STRIP_DATA that names another document than the OPEN host-written one is NO_SUCH (R19), or once STATE
(R11; log entry 13), whatever its line count and chunk, and changes nothing else. R19 gives its refusals in no order: that NO_SUCH comes before
BAD_FIELD, and BAD_FIELD before STATE and FULL, is the model's choice (log entry 35); that a chunk of more than 960 bytes discards the strip it continues
too (log entry 75), and that the header's coded length is 0 until the close (log entry 22). -/
def Obligations.HostStripsAreWritten : Prop :=
  (
  ∀ (s : State) (tag doc lines : Nat) (last : Bool) (chunk : List Byte) (d : Doc) (p : Page), s.takes → s.hlc.hostDoc = some doc → s.doc doc = some d → d.filling = some p →
    1 ≤ lines → lines ≤ 64 → 1 ≤ chunk.length → chunk.length ≤ 960 →
    ∀ (blocks : List Nat) (x : Strip) (u : State),
      ((s.resvOf .hlc = none ∧ (∀ y ∈ p.strips, 64 ≤ y.lines) ∧ p.strips.length < 80 ∧ 17 ≤ s.pmc.free.length ∧ blocks = s.pmc.free.take 17
          ∧ x = ⟨p.strips.length, lines, 0, [], .filling⟩
          ∧ u = { s with
            mem := stripWrite s.mem blocks 0 [0x5A#8, 0xA5#8, BitVec.ofNat 8 p.number, BitVec.ofNat 8 p.strips.length, BitVec.ofNat 8 lines,
              BitVec.ofNat 8 (p.res.code + 4 * p.width.code), 0x00#8, 0x00#8]
            pmc := { s.pmc with free := s.pmc.free.drop 17, resv := s.pmc.resv ++ [⟨.hlc, blocks, doc, x⟩] } })
        ∨ (s.resvOf .hlc = some ⟨.hlc, blocks, doc, x⟩ ∧ lines = x.lines ∧ x.coded + chunk.length ≤ 16448 ∧ u = s)) →
      let v := stripAppend .hlc chunk u
      let m := stripWrite u.mem blocks (8 + x.coded) chunk
      let coded := stripRead m blocks 8 (x.coded + chunk.length)
      v.mem = m ∧ v.resvOf .hlc = some ⟨.hlc, blocks, doc, { x with coded := x.coded + chunk.length }⟩
        ∧ OnlyChanges [.mem, .freePool, .reservations, .arbiter] s v
        ∧ exec (.stripData tag doc lines last chunk) s =
          .next (if last = false then v.replied 0x13 tag .ok (e16 (x.coded + chunk.length))
            else if verifyStrip p.width none x.lines coded = true then
              (stripClose .hlc .stored v).replied 0x13 tag .ok [BitVec.ofNat 8 x.no, BitVec.ofNat 8 ((8 + (x.coded + chunk.length) + 1023) / 1024)]
            else (stripDiscard .hlc v).replied 0x13 tag .badCoding []))
  ∧ (
  ∀ (w : Width) (prev : Option Pixels) (bs : List Byte),
    (verifyStrip w prev 0 bs = true ↔ bs = [])
    ∧ ∀ n, let goesOn (rest : List Byte) : Prop := ∀ q, verifyStrip w (some q) n rest = true
      verifyStrip w prev (n + 1) bs = true ↔
        (∃ rest, bs = 0x00#8 :: rest ∧ goesOn rest)
        ∨ (prev ≠ none ∧ ∃ rest, bs = 0x01#8 :: rest ∧ goesOn rest)
        ∨ (∃ bits rest, bits.length = 256 ∧ bs = 0x02#8 :: (bits ++ rest) ∧ goesOn rest)
        ∨ ∃ (rs : List Nat) (rest : List Byte), bs = 0x03#8 :: (rs.flatMap runBytes ++ rest) ∧ rs.sum = (if w = .a4 then 2048 else 2432) ∧ 0 < rs.getLastD 0
          ∧ (rs.flatMap runBytes).length ≤ 255 ∧ goesOn rest)
  ∧ (
  ∀ (s : State) (tag doc lines : Nat) (last : Bool) (chunk : List Byte), s.takes → s.hlc.hostDoc = some doc →
    ((lines = 0 ∨ 64 < lines ∨ chunk = [] ∨ 960 < chunk.length) →
      exec (.stripData tag doc lines last chunk) s = .next ((stripDiscard .hlc s).replied 0x13 tag .badField []))
    ∧ (1 ≤ lines → lines ≤ 64 → 1 ≤ chunk.length → chunk.length ≤ 960 →
      (∀ r, s.resvOf .hlc = some r → (lines ≠ r.strip.lines ∨ 16448 < r.strip.coded + chunk.length) →
        exec (.stripData tag doc lines last chunk) s = .next ((stripDiscard .hlc s).replied 0x13 tag .badField []))
      ∧ (s.resvOf .hlc = none →
        ((s.doc doc).bind (·.filling) = none → exec (.stripData tag doc lines last chunk) s = .next (s.replied 0x13 tag .state []))
        ∧ ∀ p, (s.doc doc).bind (·.filling) = some p →
          ((∃ y ∈ p.strips, y.lines < 64) → exec (.stripData tag doc lines last chunk) s = .next (s.replied 0x13 tag .state []))
          ∧ ((∀ y ∈ p.strips, 64 ≤ y.lines) → (80 ≤ p.strips.length ∨ s.pmc.free.length < 17) →
            exec (.stripData tag doc lines last chunk) s = .next (s.replied 0x13 tag .full [])))))
  ∧ (
  ∀ (s : State) (tag doc lines : Nat) (last : Bool) (chunk : List Byte), s.takes → s.hlc.hostDoc ≠ some doc →
    exec (.stripData tag doc lines last chunk) s =
      .next (if doc ∈ s.hlc.hostLost ∧ (s.doc doc).any (fun d => d.origin == .host && d.state == .abandoned) = true then
          ({ s with hlc := { s.hlc with hostLost := s.hlc.hostLost.filter (· != doc) } } : State).replied 0x13 tag .state []
        else s.replied 0x13 tag .noSuch []))

/-- An OPEN document leaves OPEN by its writer's close or abandonment (R11): it becomes CLOSED or ABANDONED with DOC_CHANGED, with PMC's reports to
DSC (readiness), PRT (range ends) and the callers in a WAIT interval, its freeing if nothing holds it, and a pass if a recipient became ELIGIBLE; R11
orders none of these, and that they come in this order, DOC_CHANGED first, is the model's choice (log entry 23); so at the end the slot holds the
document in its new state with its pages, or it has been freed. At an abandonment the writer's FILLING strip and the FILLING page are discarded first,
every block of them back in the pool (R9). A document that is not OPEN is left as it is. PMC frees a document exactly when its holder count is 0, it
is not OPEN and not retained (R13): its slot is empty, its blocks are back in the pool and DOC_CHANGED FREED is raised, in the order of R13's sentences
(log entry 7); otherwise nothing changes. The
release of a hold takes one from the holder count, which may free the document (R12). When blocks return to the pool in MEMORY_WAIT, SCN makes the
page-begin test again (R31): it acquires sync for the next sheet, or waits on; that each failed retest raises MEMORY_LOW again is the model's reading (log entry 20), that FREED has
code 3 in DOC_CHANGED its choice (log entry 38). DOC_RETAIN (R14): NO_SUCH for an
empty slot or a delete-pending document; else the flag is set or cleared, which may free the document. -/
def Obligations.DocumentsAreEndedAndFreed : Prop :=
  (
  ∀ (s : State) (c : Client) (d : Nat),
    (s.docOpen d = false → docClose d s = s ∧ docAbandon c d s = s)
    ∧ (s.docOpen d = true →
      OnlyChanges Part.reporting s (docClose d s) ∧ OnlyChanges (.reservations :: Part.reporting) s (docAbandon c d s)
        ∧ docClose d s = docLeave d .closed s ∧ docAbandon c d s = docLeave d .abandoned (pageDiscard c d s))
    ∧ (∀ st : DocState,
      let u : State := ({ s with pmc := { s.pmc with docs := s.pmc.docs.mod d ({ · with state := st }) } } : State).raise .docChanged [BitVec.ofNat 8 d] [BitVec.ofNat 8 st.code]
      docLeave d st s = passIfNew s (docFree d (eachDo (earlyBoundary d) [0, 1, 2, 3] (prtDocClosed d (u.completeCount d) (readinessDoc d u)))))
    ∧ (∀ r, s.doc d = some r → r.state = .opened → Tbl.wf s.pmc.docs →
      ((∃ h, h ≤ r.holders ∧ (docClose d s).doc d = some { r with state := .closed, holders := h }) ∨ (r.retained = false ∧ (docClose d s).doc d = none))
        ∧ ((∃ h, h ≤ r.holders ∧ (docAbandon c d s).doc d = some { r with state := .abandoned, holders := h, pages := r.pages.filter (·.complete) })
          ∨ (r.retained = false ∧ (docAbandon c d s).doc d = none)))
    ∧ ∀ r, s.doc d = some r →
      let v := pageDiscard c d s
      v.resvOf c = none ∧ v.doc d = some { r with pages := r.pages.filter (·.complete) } ∧ v.mem = s.mem
        ∧ v.pmc.free = (match r.filling with | none => [] | some p => p.strips.flatMap (·.blocks)) ++ (match s.resvOf c with | none => [] | some x => x.blocks) ++ s.pmc.free
        ∧ OnlyChanges [.freePool, .reservations, .docs, .arbiter, .scanRun, .notices] s v)
  ∧ (
  ∀ (s : State) (d : Nat) (r : Doc), s.doc d = some r → Tbl.wf s.pmc.docs →
    ((r.holders = 0 ∧ r.state ≠ .opened ∧ r.retained = false) →
      (docFree d s).doc d = none ∧ (docFree d s).pmc.free = r.blocks ++ s.pmc.free ∧ OnlyChanges Part.freeing s (docFree d s)
        ∧ (∀ k, k ≠ d → (docFree d s).doc k = s.doc k)
        ∧ docFree d s = (poolReturn r.blocks { s with pmc := { s.pmc with docs := s.pmc.docs.del d } }).raise .docChanged [BitVec.ofNat 8 d] [3])
    ∧ (¬(r.holders = 0 ∧ r.state ≠ .opened ∧ r.retained = false) → docFree d s = s))
  ∧ (
  ∀ (s : State) (d : Nat) (bs : List Nat),
    docRelease d s = docFree d { s with pmc := { s.pmc with docs := s.pmc.docs.mod d fun r => { r with holders := r.holders - 1 } } }
    ∧ poolReturn [] s = s
    ∧ (bs ≠ [] →
      let u : State := { s with pmc := { s.pmc with free := bs ++ s.pmc.free } }
      (s.scn.state ≠ .memoryWait → poolReturn bs s = u)
      ∧ (s.scn.state = .memoryWait → s.pmc.scanFloor ≤ u.pmc.free.length →
        poolReturn bs s = { u with scn := { s.scn with
          state := .acquire, feeder := false, moduleOn := true, hits := 0, misses := 0, expecting := false, locked := false } })
      ∧ (s.scn.state = .memoryWait → u.pmc.free.length < s.pmc.scanFloor → poolReturn bs s = scnMemoryWait u)))
  ∧ (
  ∀ (s : State) (tag doc : Nat) (set : Bool), s.takes →
    ((s.doc doc = none ∨ ∃ d, s.doc doc = some d ∧ d.deletePending = true) → exec (.docRetain tag doc set) s = .next (s.replied 0x16 tag .noSuch []))
    ∧ (∀ d, s.doc doc = some d → d.deletePending = false →
      exec (.docRetain tag doc set) s = .next ((docFree doc (s.onDoc doc ({ · with retained := set }))).replied 0x16 tag .ok [])))

/-- DOC_DELETE (R15, R16): NO_SUCH for an empty slot; STATE for an OPEN document, with FORCE or without; OK with nothing changed when it is
delete-pending; with no holder the retained flag is cleared and the document freed; with holders IN_USE, or with FORCE the request of R16:
delete-pending, its jobs and entries cancelled and its cursors revoked: each unfinished job of the document is cancelled NOW (R142), each unfinished
print entry is cancelled (R67), and each of its cursors becomes REVOKED with its hold released at once (R22), the others as they were. The order of
these three is the model's (log entry 25), and within each kind the order of ascending id too (log entry 47). -/
def Obligations.DocDeleteByHolders : Prop :=
  (
  ∀ (s : State) (tag doc : Nat) (force : Bool), s.takes →
    (s.doc doc = none → exec (.docDelete tag doc force) s = .next (s.replied 0x17 tag .noSuch []))
    ∧ ∀ d, s.doc doc = some d →
      (d.state = .opened → exec (.docDelete tag doc force) s = .next (s.replied 0x17 tag .state []))
      ∧ (d.state ≠ .opened → d.deletePending = true → exec (.docDelete tag doc force) s = .next (s.replied 0x17 tag .ok []))
      ∧ (d.state ≠ .opened → d.deletePending = false → d.holders = 0 →
        exec (.docDelete tag doc force) s = .next ((docFree doc (s.onDoc doc ({ · with retained := false }))).replied 0x17 tag .ok []))
      ∧ (d.state ≠ .opened → d.deletePending = false → 0 < d.holders → force = false →
        exec (.docDelete tag doc force) s = .next (s.replied 0x17 tag .inUse []))
      ∧ (d.state ≠ .opened → d.deletePending = false → 0 < d.holders → force = true →
        exec (.docDelete tag doc force) s =
          .next ((cursorsRevoke doc (entriesCancel doc (jobsCancel doc (s.onDoc doc ({ · with retained := false, deletePending := true }))))).replied
            0x17 tag .ok [])))
  ∧ (
  ∀ (s : State) (d : Nat),
    jobsCancel d s = eachDo (fun j u => if (u.job j).any (fun x => x.doc == d && !x.finished) = true then jobCancel j true u else u) s.dsc.jobs.keys s
    ∧ entriesCancel d s = eachDo (fun e u => if (u.entry e).any (fun r => r.doc == d && r.unfinished) = true then entryCancel e u else u) s.prt.entries.keys s
    ∧ cursorsRevoke d s = eachDo (fun k u => match u.pmc.cursors.get k with
        | some c => if c.doc = d ∧ c.state ≠ .revoked then
            docRelease d { u with pmc := { u.pmc with cursors := u.pmc.cursors.mod k ({ · with state := .revoked }) } }
          else u
        | none => u) s.pmc.cursors.keys s
    ∧ ∀ k, (cursorsRevoke d s).pmc.cursors.get k = (s.pmc.cursors.get k).map fun c => if c.doc = d then { c with state := .revoked } else c)

/-- CURSOR_OPEN and CURSOR_CLOSE (R22, R12). STRIP_READ (R23): the refusals, and the read of an OPEN cursor: the bytes of the stream from its position
on, up to the length asked for, and the position past them: the strip in which they end, or at the stream's end its last, and the offset there; NOT_YET
or the end where the complete pages give none; the traffic is asked of the arbiter. The stream (section 1.7): the strips of the complete pages in order
from the position's strip on, a STORED one with the bytes of its blocks, header and coded lines, a DAMAGED one as a header alone with the damaged mark
and coded length 0 (R6). Where the new position stands when a read ends at a strip's end is the model's choice (log entry 36). -/
def Obligations.CursorsReadTheStream : Prop :=
  (
  ∀ (s : State) (tag : Nat), s.takes →
    (∀ doc (page : Option Nat), let n := page.getD 1
      ((n = 0 ∨ 250 < n) → exec (.cursorOpen tag doc page) s = .next (s.replied 0x1A tag .badField []))
      ∧ (1 ≤ n → n ≤ 250 →
        ((∀ k, 1 ≤ k → k ≤ 4 → (s.pmc.cursors.get k).isSome = true) → exec (.cursorOpen tag doc page) s = .next (s.replied 0x1A tag .full []))
        ∧ ∀ k, s.pmc.cursors.lowestEmpty 4 k →
          ((s.doc doc = none ∨ ∃ d, s.doc doc = some d ∧ d.deletePending = true) → exec (.cursorOpen tag doc page) s = .next (s.replied 0x1A tag .noSuch []))
          ∧ ∀ d, s.doc doc = some d → d.deletePending = false →
            exec (.cursorOpen tag doc page) s =
              .next (({ s with pmc := { s.pmc with
                docs := s.pmc.docs.mod doc fun d => { d with holders := d.holders + 1 }
                cursors := s.pmc.cursors.put k ⟨doc, n, 0, 0, .opened⟩ } } : State).replied 0x1A tag .ok [BitVec.ofNat 8 k])))
    ∧ ∀ k, let u : State := { s with pmc := { s.pmc with cursors := s.pmc.cursors.del k } }
      (s.pmc.cursors.get k = none → exec (.cursorClose tag k) s = .next (s.replied 0x1B tag .noSuch []))
      ∧ ∀ c, s.pmc.cursors.get k = some c →
        exec (.cursorClose tag k) s = .next (if c.state = .revoked then u.replied 0x1B tag .noSuch [] else (docRelease c.doc u).replied 0x1B tag .ok []))
  ∧ (
  ∀ (s : State) (tag k len : Nat), s.takes →
    ((len = 0 ∨ 960 < len) → exec (.stripRead tag k len) s = .next (s.replied 0x1C tag .badField []))
    ∧ (1 ≤ len → len ≤ 960 →
      (s.pmc.cursors.get k = none → exec (.stripRead tag k len) s = .next (s.replied 0x1C tag .noSuch []))
      ∧ ∀ c, s.pmc.cursors.get k = some c →
        (c.state = .revoked →
          exec (.stripRead tag k len) s = .next (({ s with pmc := { s.pmc with cursors := s.pmc.cursors.del k } } : State).replied 0x1C tag .noSuch []))
        ∧ (c.state = .atEnd → exec (.stripRead tag k len) s =
          .next (s.replied 0x1C tag .ok (e8 c.page ++ e8 c.strip ++ e16 c.offset ++ [1] ++ [0, 0])))
        ∧ (c.state = .opened → ∀ d, s.doc c.doc = some d →
          let all := (s.stream d c.page c.strip).flatMap (·.2.2)
          let bytes := (all.drop c.offset).take len
          let atEnd := decide (all.length ≤ c.offset + len ∧ d.state ≠ .opened)
          (∀ y rest, s.stream d c.page c.strip = y :: rest → c.offset ≤ y.2.2.length) →
            (bytes = [] → d.state = .opened → exec (.stripRead tag k len) s = .next (s.replied 0x1C tag .notYet []))
            ∧ ((bytes ≠ [] ∨ d.state ≠ .opened) → ∃ pos : Nat × Nat × Nat,
              (s.stream d c.page c.strip = [] → pos = (c.page, c.strip, c.offset))
              ∧ (∀ pre y post, s.stream d c.page c.strip = pre ++ y :: post →
                let n := (pre.flatMap (·.2.2)).length
                let m := c.offset + bytes.length
                n ≤ m → (m < n + y.2.2.length ∨ (post = [] ∧ m = n + y.2.2.length)) → pos = (y.1, y.2.1, m - n))
              ∧ (bytes ≠ [] → ∃ bs, (pos.1, pos.2.1, bs) ∈ s.stream d c.page c.strip ∧ pos.2.2 ≤ bs.length)
              ∧ let c' : Cursor := { c with page := pos.1, strip := pos.2.1, offset := pos.2.2, state := if atEnd then .atEnd else .opened }
                exec (.stripRead tag k len) s =
                  .next ((arbAsk .hlc ((bytes.length + 63) / 64) { s with pmc := { s.pmc with cursors := s.pmc.cursors.put k c' } }).replied 0x1C tag .ok
                    (e8 c'.page ++ e8 c'.strip ++ e16 c'.offset ++ e8 c'.state.code ++ e16 bytes.length ++ bytes))))))
  ∧ ∀ (s : State) (d : Doc) (page strip : Nat),
    let form (p : Page) (x : Strip) : List Byte :=
      if x.state = .stored then (List.range (8 + x.coded)).map fun i => s.byteAt (stripAddr x.blocks i)
      else [0x5A#8, 0xA5#8, BitVec.ofNat 8 p.number, BitVec.ofNat 8 x.no, BitVec.ofNat 8 x.lines, BitVec.ofNat 8 (p.res.code + 4 * p.width.code + 8), 0, 0]
    s.stream d page strip =
      ((d.pages.filter (·.complete)).flatMap fun p => p.strips.map fun x => (p.number, x.no, form p x)).filter fun y =>
        decide (page < y.1 ∨ (y.1 = page ∧ strip ≤ y.2.1))

/-- BURST_COMPLETE (R24): the burst that moved is ended, its reader goes on if its last burst has moved, and the next burst is granted by group,
receiving lines, sending lines, SCN, PRT, HLC: in each of the two line groups the first line with a request waiting at or after the group's pointer,
which the grant moves to the line after it; nothing else of the arbiter changes but the granted client's requests. With no burst in progress nothing
happens. PRT reads the strips of the page in progress in order (R55), at most one ahead of the strip being fired: a STORED strip through the arbiter, by
as many bursts as its stored form has, its lines ready when the last of them has moved; a DAMAGED strip without bursts. The lines of a strip: decoded,
narrowed to A4 at B4 width, then each line twice at COARSE, as it is at FINE, joined in pairs at SUPER; a DAMAGED strip gives as many white lines. -/
def Obligations.ArbiterGrantsByGroup : Prop :=
  (
  ∀ s : State, s.running = true →
    (s.arb.busy = none → exec .burstComplete s = .next s.kick)
    ∧ (∀ c, s.arb.busy = some c →
      let u : State := { s with arb := { s.arb with busy := none } }
      exec .burstComplete s = .next (arbGrant (match c with | .prt => prtStripRead u | .lu l => luStripRead l u | _ => u)).kick)
    ∧ ∀ u : State, u.arb.busy = none →
      (u.nextClient = none → arbGrant u = u)
      ∧ (∀ receiving l, u.lineWaits receiving l = true ↔ 0 < u.arb.need (.lu l) ∧ ∃ x, u.call l = some x ∧ x.caller = !receiving)
      ∧ (∀ c, u.nextClient = some c →
        let a := (arbGrant u).arb
        0 < u.arb.need c ∧ a.busy = some c ∧ a.need c = u.arb.need c - 1 ∧ (∀ k, k ≠ c → a.need k = u.arb.need k) ∧ OnlyChanges [.arbiter] u (arbGrant u)
          ∧ (∀ l, c = .lu l → u.lineWaits true l = true → a.recvPtr = l + 1 ∧ a.sendPtr = u.arb.sendPtr)
          ∧ (∀ l, c = .lu l → u.lineWaits true l = false → a.recvPtr = u.arb.recvPtr ∧ a.sendPtr = l + 1)
          ∧ ((∀ l, c ≠ .lu l) → a.recvPtr = u.arb.recvPtr ∧ a.sendPtr = u.arb.sendPtr))
      ∧ (∀ k, u.lineWaits true k = true → (∀ l, (l - u.arb.recvPtr).val < (k - u.arb.recvPtr).val → u.lineWaits true l = false) → u.nextClient = some (.lu k))
      ∧ ((∀ l, u.lineWaits true l = false) →
        ∀ k, u.lineWaits false k = true → (∀ l, (l - u.arb.sendPtr).val < (k - u.arb.sendPtr).val → u.lineWaits false l = false) → u.nextClient = some (.lu k))
      ∧ ((∀ r l, u.lineWaits r l = false) →
        u.nextClient = if 0 < u.arb.scn then some .scn else if 0 < u.arb.prt then some .prt else if 0 < u.arb.hlc then some .hlc else none))
  ∧ (
  ∀ s : State,
    (∀ e r d, s.prt.current = some e → s.entry e = some r → s.doc r.doc = some d → s.currentPage = d.pages.find? (·.number == r.page))
    ∧ ((s.prt.page = none ∨ s.currentPage = none) → prtReadOn s = s ∧ prtStripRead s = s)
    ∧ (∀ g p, s.prt.page = some g → s.currentPage = some p →
      let with? (g : PrintPage) : State := { s with prt := { s.prt with page := some g } }
      ((g.reading.isSome = true ∨ g.ahead.isSome = true ∨ g.toRead = []) → prtReadOn s = s)
      ∧ (g.reading = none → g.ahead = none → ∀ n rest x, g.toRead = n :: rest → p.strip n = some x →
        let ls := s.stripPrintLines p x
        (x.state = .stored → prtReadOn s = arbAsk .prt ((8 + x.coded + 63) / 64) (with? { g with toRead := rest, reading := some n }))
        ∧ (x.state ≠ .stored → g.ready ≠ [] → prtReadOn s = with? { g with toRead := rest, ahead := some ls, reading := none })
        ∧ (x.state ≠ .stored → g.ready = [] → ls ≠ [] → (∀ m ∈ rest, (p.strip m).isSome = true) →
          prtReadOn s = prtReadOn (with? { g with toRead := rest, ready := ls, reading := none })))
      ∧ (g.reading = none → prtStripRead s = s)
      ∧ ∀ n x, g.reading = some n → p.strip n = some x →
        let ls := s.stripPrintLines p x
        (s.arb.prt ≠ 0 → prtStripRead s = s)
        ∧ (s.arb.prt = 0 → g.ready = [] → prtStripRead s = prtReadOn (with? { g with ready := ls, reading := none }))
        ∧ (s.arb.prt = 0 → g.ready ≠ [] → prtStripRead s = prtReadOn (with? { g with ahead := some ls, reading := none })))
    ∧ ∀ (p : Page) (x : Strip),
      (x.state = .stored →
        let ls := decodeStrip p.width x.lines (stripRead s.mem x.blocks 8 x.coded)
        let ms := if p.width = .b4 then ls.map (narrow 0) else ls
        s.stripPrintLines p x = match p.res with | .coarse => ms.flatMap fun px => [px, px] | .fine => ms | .super => mergePairs ms)
      ∧ (x.state ≠ .stored → s.stripPrintLines p x =
        List.replicate (match p.res with | .coarse => 2 * x.lines | .fine => x.lines | .super => (x.lines + 1) / 2) (List.replicate 2048 false)))

/-! ## Scanning (chapter 2) -/

/-- SCAN and START_KEY (R28, R30, R43). In IDLE, with good parameters, a document slot and no print spec, a new OPEN document of origin SCAN is made
and SCN waits for paper, taking the page-begin test at once when paper is present. With a print spec PRT makes a ROUTINE follow entry on that document
from page 1 too, and without a place for it the document is abandoned. Refusals: STATE, BAD_FIELD, FULL; the key raises NO_PRESET instead. -/
def Obligations.ScanJobsBegin : Prop :=
  ∀ (s : State) (tag : Nat) (byKey : Bool) (p : Preset), s.takes →
    let start (f : State → State) : Prop :=
      if byKey = true then s.scn.preset = some p → exec .startKey s = .next (f s).kick
      else p.spec.all (fun x => 1 ≤ x.1 && x.1 ≤ 99) = true →
        exec (.scan tag p.res.code p.width.code p.density.code p.blank.code (p.spec.map fun x => (x.1, x.2.val))) s = .next (f s).kick
    let tell (d : Nat) (e : Option Nat) (t : State) : State :=
      if byKey = true then t.raise .scanStarted [BitVec.ofNat 8 d] (eOpt e8 e) else t.answer 0x20 tag .ok ([BitVec.ofNat 8 d] ++ eOpt e8 e)
    let refuse (r : Result) (reason : Byte) (t : State) : State := if byKey = true then t.raise .noPreset [0] [reason] else t.answer 0x20 tag r []
    (s.scn.state ≠ .idle → start (refuse .state 0))
    ∧ (s.scn.state = .idle → s.scn.preset = none → exec .startKey s = .next (s.raise .noPreset [0] [1]).kick)
    ∧ (s.scn.state = .idle → ∀ re w d b spec, (2 < re ∨ 1 < w ∨ 2 < d ∨ 1 < b ∨ ∃ c n, spec = some (c, n) ∧ (c = 0 ∨ 99 < c ∨ 3 < n)) →
      exec (.scan tag re w d b spec) s = .next (s.replied 0x20 tag .badField []))
    ∧ (s.scn.state = .idle → (p.width = .b4 ∧ s.pins.moduleB4 = false) → start (refuse .badField 1))
    ∧ (s.scn.state = .idle → ¬(p.width = .b4 ∧ s.pins.moduleB4 = false) →
      (∀ t, scanMake byKey p s = .error t → start fun _ => refuse .full 2 t)
      ∧ (∀ d e t, scanMake byKey p s = .ok (d, e, t) → start fun _ => waitPaper (tell d e t))
      ∧ ((∀ k, 1 ≤ k → k ≤ 64 → (s.doc k).isSome = true) → scanMake byKey p s = .error s)
      ∧ ∀ d, s.pmc.docs.lowestEmpty 64 d → p.spec = none →
        scanMake byKey p s = .ok (d, none, { s with
          pmc := { s.pmc with docs := s.pmc.docs.put d ⟨.scan, .opened, [], 0, false, false, none, none, none, none⟩ }
          scn := { s.scn with state := .waitPaper, job := some ⟨d, p, 0, none, none, byKey, none, s.scn.settings⟩ } }))
    ∧ (∀ d copies bin, s.pmc.docs.lowestEmpty 64 d → p.spec = some (copies, bin) → 1 ≤ copies → copies ≤ 99 →
      let made (holders : Nat) : Pmc := { s.pmc with docs := s.pmc.docs.put d ⟨.scan, .opened, [], holders, false, false, none, none, none, none⟩ }
      ((∀ k, 1 ≤ k → k ≤ 48 → ∃ e, s.entry k = some e ∧ e.unfinished = true) → (∀ x ∈ s.prt.entries, x.2.unfinished = true) →
        scanMake byKey p s = .error (docAbandon .scn d { s with pmc := made 0 }))
      ∧ ∀ k, (s.prt.entries.lowestEmpty 48 k
          ∨ ((∀ j, 1 ≤ j → j ≤ 48 → (s.entry j).isSome = true) ∧ ∃ f, (k, f) ∈ s.prt.entries ∧ f.unfinished = false
            ∧ ∀ x ∈ s.prt.entries, x.2.unfinished = false → x.1 ≠ k → f.finish.getD 0 < x.2.finish.getD 0)) →
        let n := (s.prt.enqueueNo + 1) % 4294967296
        let e : Entry := ⟨d, 1, none, none, copies, bin, .routine, true, 1, 1, 0, false, .waiting, n, none⟩
        let t : State := { s with pmc := made 1, prt := { s.prt with enqueueNo := n, entries := s.prt.entries.put k e } }
        let u := if s.prt.engine = .idle then selectWarm t else t
        scanMake byKey p s = .ok (d, some k, { u with scn := { u.scn with state := .waitPaper, job := some ⟨d, p, 0, some k, none, byKey, none, u.scn.settings⟩ } }))
    ∧ ∀ u : State, waitPaper u =
      if u.scn.state = .waitPaper ∧ u.pins.feederPaper = true then
        (if u.pmc.scanFloor ≤ u.pmc.free.length then
          { u with scn := { u.scn with state := .acquire, feeder := false, moduleOn := true, hits := 0, misses := 0, expecting := false, locked := false } }
        else scnMemoryWait u)
      else u

/-- The feeder's paper sensor (R30, R31): its level is tracked; in WAIT_PAPER the page-begin test is taken when paper comes, SCN then running the
module in ACQUIRE, or waiting for memory with MEMORY_LOW; in MEMORY_WAIT the removal of the paper ends the job DONE; otherwise nothing. What ends a
scan job (R30, R32, R34, R42): the wait for paper NO_PAPER, the wait for sync SYNC_LOST, the page gap JAM, each in its own state alone; STOP and
SCAN_STOP by state: SCANNING goes on to STOPPING, the other states of a job end it STOPPED, IDLE refuses the request. The end of a scan job (R41): the
FILLING page and strip discarded, feeder and module stopped and sync given up; the print entry and the send job of a document without a complete page
cancelled; the document closed after DONE with a complete page, else abandoned; the outcome in the job's record, and SCAN_END raised. Nothing else of
that record changes. The print entry and the send job are cancelled only while they stand on the job's document (log entry 48). -/
def Obligations.ScanJobsAreStopped : Prop :=
  (
  ∀ (s : State) (present : Bool), s.running = true →
    let u : State := { s with pins := { s.pins with feederPaper := present } }
    (s.scn.state = .waitPaper → present = true →
      exec (.paperSensor present) s =
        .next (if s.pmc.scanFloor ≤ s.pmc.free.length then
            { u with scn := { s.scn with state := .acquire, feeder := false, moduleOn := true, hits := 0, misses := 0, expecting := false, locked := false } }
          else scnMemoryWait u).kick)
    ∧ scnMemoryWait u = ({ u with scn := { s.scn with
        state := .memoryWait, feeder := false, moduleOn := false, locked := false, hits := 0, misses := 0, expecting := false } } : State).raise .memoryLow
          [BitVec.ofNat 8 ((s.scn.job.map (·.doc)).getD 0)] (e16 s.pmc.free.length ++ e16 s.pmc.scanFloor)
    ∧ (s.scn.state = .memoryWait → present = false → exec (.paperSensor present) s = .next (scanEnd .done u).kick)
    ∧ ((s.scn.state ≠ .waitPaper ∨ present = false) → (s.scn.state ≠ .memoryWait ∨ present = true) → exec (.paperSensor present) s = .next u.kick))
  ∧ (
  ∀ s : State, s.running = true →
    exec .waitPaperTimeout s = .next (if s.scn.state = .waitPaper ∧ s.pins.feederPaper = false then scanEnd .noPaper s else s).kick
    ∧ exec .acquireTimeout s = .next (if s.scn.state = .acquire then scanEnd .syncLost s else s).kick
    ∧ exec .pageGapTimeout s = .next (if s.scn.state = .pageGap then scanEnd .jam s else s).kick
    ∧ (let stopped : State := match s.scn.state with
        | .idle => s
        | .stopping => s
        | .scanning => { s with scn := { s.scn with state := .stopping } }
        | .waitPaper => scanEnd .stopped s
        | .acquire => scanEnd .stopped s
        | .pageGap => scanEnd .stopped s
        | .memoryWait => scanEnd .stopped s
      exec .stopKey s = .next stopped.kick
        ∧ ∀ tag, s.hlc.restarting = false → exec (.scanStop tag) s =
          .next (if s.scn.state = .idle then s.replied 0x21 tag .state [] else stopped.replied 0x21 tag .ok [])))
  ∧ (
  ∀ (s : State) (o : ScanOutcome) (r : ScanJob), s.scn.job = some r →
    (scnHalt s).scn = { s.scn with
      state := .idle, feeder := false, moduleOn := false, locked := false, hits := 0, misses := 0, expecting := false, lineNo := 0, prevLine := none, prevDecoded := none }
    ∧ (let h := scnHalt (pageDiscard .scn r.doc s)
      let whole := h.completeCount r.doc
      let entry (u : State) : State := match r.entry with
        | some e => if (u.entry e).any (·.doc == r.doc) = true then entryCancel e u else u
        | none => u
      let send (u : State) : State := match r.sendJob with
        | some j => if (u.job j).any (·.doc == r.doc) = true then jobCancel j true u else u
        | none => u
      let v := if whole = 0 then send (entry h) else h
      let w := if o = .done ∧ whole ≠ 0 then docClose r.doc v else docAbandon .scn r.doc v
      scanEnd o s = ({ w with scn := { w.scn with job := w.scn.job.map ({ · with outcome := some o }) } } : State).raise .scanEnd [BitVec.ofNat 8 r.doc]
        [BitVec.ofNat 8 o.code, BitVec.ofNat 8 r.pagesDone])
    ∧ (scanEnd o s).scn.job = some { r with outcome := some o }
    ∧ (scanEnd o s).mem = s.mem
    ∧ OnlyChanges Part.scanEnding s (scanEnd o s))

/-- Sync in ACQUIRE (R32): the first pulse sets the expected time; then eight consecutive pulses inside the detect window lock sync and start the
feed, and a pulse outside it or a window without one starts the count again. That the window's two ends belong to it is the model's choice (log entry
18). Pulses with sync locked (R33, R35, R40): a miss counts, two in a row end the job SYNC_LOST, a good pulse clears the count; with a sheet under the
scan line each pulse gives a cleaned scan line, and a window without one a copy of the line before; line 5121 of a sheet ends the job JAM. That
SYNC_LOST comes before the line, and that copies count towards line 5121, is the model's choice (log entry 19), as are the window's ends (log entry
18). A scan line is made from the module's pixels (R35, R36): the job's range of them, black where the darkness reaches the threshold of the job's
density, white outside the window; the first top-erase lines of a page, and a line with no more black pixels than the noise allowance, are all white.
A pixel that the command does not give has darkness 0, which is the model's choice (log entry 65). Lines are coded and decoded (R37, R38, R196): a
line is coded BLANK, REPEAT, RUNS in at most 255 run bytes, or RAW, the first that applies, and what is coded decodes to the line that the coding
records, which is the line itself but for a B4 line coded RAW. The run list starts with white, and no run but its first is 0. BLANK decodes to white,
REPEAT to the line before, RAW to its bits, at B4 width spread over groups of 19 pixels, RUNS to its runs, white first, which must come to the width;
nothing else is legal. A scan line into its strip (R37, R39): without room for a new strip the job ends MEMORY; otherwise the line's coded bytes
follow those of the FILLING strip, a new strip's after its header, the strip's line count goes up by one, and it is closed at the last of its 64 lines.
That the header's line count and coded length are 0 until the close is the model's choice (log entry 22). -/
def Obligations.ScanLinesAreTaken : Prop :=
  (
  ∀ (s : State) (r : ScanJob) (dt : Nat) (px : List Byte), s.running = true → s.scn.job = some r → s.scn.state = .acquire →
    let w := match r.params.res with | .coarse => (9000, 11000) | .fine => (4500, 5500) | .super => (2250, 2750)
    let counted (n : Nat) : State := { s with scn := { s.scn with hits := n } }
    let locked : State := { s with scn := { s.scn with hits := 8, misses := 0, locked := true, feeder := true, state := .pageGap } }
    (s.scn.expecting = false →
      exec (.linePulse dt px) s = .next ({ s with scn := { s.scn with expecting := true } } : State).kick ∧ exec .detectWindowClose s = .next s.kick)
    ∧ (s.scn.expecting = true → s.scn.hits ≤ 7 →
      exec (.linePulse dt px) s = .next (if w.1 ≤ dt ∧ dt ≤ w.2 then (if s.scn.hits = 7 then locked else counted (s.scn.hits + 1)) else counted 0).kick
      ∧ exec .detectWindowClose s = .next (counted 0).kick))
  ∧ (
  ∀ (s : State) (r : ScanJob) (dt : Nat) (px : List Byte), s.running = true → s.scn.job = some r →
    (s.scn.state = .pageGap ∨ s.scn.state = .scanning ∨ s.scn.state = .stopping) →
    let w := match r.params.res with | .coarse => (9000, 11000) | .fine => (4500, 5500) | .super => (2250, 2750)
    let missed : State := { s with scn := { s.scn with misses := s.scn.misses + 1 } }
    let sheet := s.scn.state ≠ .pageGap ∧ s.pins.pageSensor = true
    let pulse : State := if w.1 ≤ dt ∧ dt ≤ w.2 then { s with scn := { s.scn with misses := 0 } } else missed
    let line := cleanLine s.pins.moduleB4 r.params r.settings (s.scn.lineNo + 1) px
    let copy := s.scn.prevLine.getD (whiteLine r.params.width.pixels)
    exec (.linePulse dt px) s =
        .next (if 2 ≤ pulse.scn.misses then scanEnd .syncLost pulse else if sheet then scanTake r line pulse else pulse).kick
      ∧ exec .detectWindowClose s =
        .next (if 2 ≤ missed.scn.misses then scanEnd .syncLost missed else if sheet then scanTake r copy missed else missed).kick
      ∧ ∀ (u : State) (x : Pixels), scanTake r x u = if 5120 ≤ u.scn.lineNo then scanEnd .jam u else scanCode r x u)
  ∧ (
  ∀ (b4 : Bool) (p : Preset) (v : ScanSettings) (lineNo : Nat) (dark : List Byte),
    let n := if p.width = .a4 then 2048 else 2432
    let base := if b4 = true ∧ p.width = .a4 then 192 else 0
    let threshold := match p.density with | .light => v.light | .normal => v.normal | .dark => v.dark
    let line : Pixels := (List.range n).map fun i => decide (threshold ≤ (dark.getD (base + i) 0).toNat ∧ v.start ≤ i ∧ i ≤ v.stop)
    cleanLine b4 p v lineNo dark = if lineNo ≤ v.topErase ∨ line.count true ≤ v.noise then List.replicate n false else line)
  ∧ (
  ∀ (w : Width) (prev : Option Pixels),
    let n := if w = .a4 then 2048 else 2432
    let laid (rs : List Nat) : Pixels := rs.zipIdx.flatMap fun x => List.replicate x.1 (x.2 % 2 == 1)
    (∀ px : Pixels, px.length = n →
      let runs := (runList px).flatMap runBytes
      let raw := if w = .a4 then px else narrow 0 px
      codeLine w prev px =
          (if px = List.replicate n false then ([0x00#8], px) else if prev = some px then ([0x01#8], px) else if runs.length ≤ 255 then (0x03#8 :: runs, px)
            else (0x02#8 :: packBits raw, if w = .a4 then px else widen 2432 0 false raw))
        ∧ (∀ bs, decodeLine w prev ((codeLine w prev px).1 ++ bs) = some ((codeLine w prev px).2, bs))
        ∧ laid (runList px) = px ∧ ∀ r ∈ (runList px).tail, 0 < r)
    ∧ (∀ r, runBytes r = if r < 128 then [BitVec.ofNat 8 r] else [BitVec.ofNat 8 (128 + r / 256), BitVec.ofNat 8 r])
    ∧ ∀ bs : List Byte, decodeLine w prev [] = none ∧ decodeLine w prev (0x00#8 :: bs) = some (List.replicate n false, bs)
      ∧ decodeLine w prev (0x01#8 :: bs) = prev.map (·, bs)
      ∧ (bs.length < 256 → decodeLine w prev (0x02#8 :: bs) = none)
      ∧ (256 ≤ bs.length → ∃ px, decodeLine w prev (0x02#8 :: bs) = some (px, bs.drop 256) ∧ px.length = n ∧
        let bit (i : Nat) : Bool := (bs.getD (i / 8) 0).getLsbD (7 - i % 8)
        let dropped (j : Nat) : Nat := if j ≤ 3 then 0 else if j ≤ 9 then 1 else if j ≤ 15 then 2 else 3
        (w = .a4 → ∀ i, i < n → px[i]? = some (bit i))
          ∧ (w = .b4 → ∀ i, i < n → px[i]? = if i % 19 = 3 ∨ i % 19 = 9 ∨ i % 19 = 15 then px[i - 1]? else some (bit (16 * (i / 19) + (i % 19 - dropped (i % 19))))))
      ∧ (∀ px rest, decodeLine w prev (0x03#8 :: bs) = some (px, rest) ↔
        ∃ rs : List Nat, bs = rs.flatMap runBytes ++ rest ∧ rs.sum = n ∧ 0 < rs.getLastD 0 ∧ (rs.flatMap runBytes).length ≤ 255 ∧ px = laid rs)
      ∧ ∀ k : Byte, 3 < k.toNat → decodeLine w prev (k :: bs) = none)
  ∧ (
  ∀ (s : State) (r : ScanJob) (px : Pixels),
    (s.scn.lineNo % 64 = 0 → (s.resvOf .scn = none → s.pmc.free.length < 17 → scanCode r px s = scanEnd .memory s))
    ∧ (∀ (blocks : List Nat) (x : Strip) (u : State),
      ((s.scn.lineNo % 64 = 0 ∧ s.resvOf .scn = none ∧ 17 ≤ s.pmc.free.length ∧ blocks = s.pmc.free.take 17 ∧ x = ⟨s.scn.lineNo / 64, 0, 0, [], .filling⟩
          ∧ u = { s with
            mem := headerOpened blocks r.doc (s.scn.lineNo / 64) 0 s
            pmc := { s.pmc with free := s.pmc.free.drop 17, resv := s.pmc.resv ++ [⟨.scn, blocks, r.doc, x⟩] }, scn := { s.scn with prevDecoded := none } })
        ∨ (s.scn.lineNo % 64 ≠ 0 ∧ s.resvOf .scn = some ⟨.scn, blocks, r.doc, x⟩ ∧ u = s)) →
      let c := codeLine r.params.width u.scn.prevDecoded px
      let v := (stripAppend .scn c.1 u).onResv .scn fun v => { v with strip := { v.strip with lines := v.strip.lines + 1 } }
      let t : State := { v with scn := { u.scn with lineNo := s.scn.lineNo + 1, prevLine := some px, prevDecoded := some c.2 } }
      scanCode r px s = (if (s.scn.lineNo + 1) % 64 = 0 then stripClose .scn .stored t else t)
        ∧ t.mem = stripWrite u.mem blocks (8 + x.coded) c.1
        ∧ t.resvOf .scn = some ⟨.scn, blocks, r.doc, { x with coded := x.coded + c.1.length, lines := x.lines + 1 }⟩
        ∧ OnlyChanges [.mem, .freePool, .reservations, .arbiter, .scanRun] s t))

/-- The page sensor (R34, R40): its rise in PAGE_GAP begins a page of the job's document; its fall under a sheet ends the page and decides what comes
next: STOPPED, DONE without paper, PAGE_LIMIT at 250 pages, the next PAGE_GAP, or the wait for memory. -/
def Obligations.SheetsBeginAndEnd : Prop :=
  ∀ (s : State) (r : ScanJob), s.running = true → s.scn.job = some r →
    let up : State := { s with pins := { s.pins with pageSensor := true } }
    let down : State := { s with pins := { s.pins with pageSensor := false } }
    (∀ d, s.scn.state = .pageGap → s.doc r.doc = some d → d.state = .opened → d.pages.length < 250 → d.filling = none →
      exec .pageSensorRise s =
        .next ({ up.onDoc r.doc (fun x => { x with pages := x.pages ++ [⟨d.pages.length + 1, r.params.res, r.params.width, [], false, false, none⟩] }) with
          scn := { s.scn with state := .scanning, lineNo := 0, prevLine := none, prevDecoded := none } } : State).kick)
    ∧ (s.scn.state ≠ .pageGap → exec .pageSensorRise s = .next up.kick)
    ∧ (s.scn.state ≠ .scanning → s.scn.state ≠ .stopping → exec .pageSensorFall s = .next down.kick)
    ∧ ((s.scn.state = .scanning ∨ s.scn.state = .stopping) →
      let t := sheetPage r down
      exec .pageSensorFall s =
        .next (if s.scn.state = .stopping then scanEnd .stopped t
          else if t.pins.feederPaper = false then scanEnd .done t
          else if (t.doc r.doc).any (fun d => 250 ≤ d.pages.length) = true then scanEnd .pageLimit t
          else if t.pmc.scanFloor ≤ t.pmc.free.length then
            { t with scn := { t.scn with state := .pageGap, feeder := true, lineNo := 0, prevLine := none, prevDecoded := none } }
          else scnMemoryWait { t with scn := { t.scn with lineNo := 0, prevLine := none, prevDecoded := none } }).kick
      ∧ t.pins = { s.pins with pageSensor := false }
      ∧ ∀ p, let u := stripClose .scn .stored down
        (u.doc r.doc).bind (·.filling) = some p →
        t = if p.strips = [] ∨ (r.params.blank = .drop ∧ u.pageBlank p = true) then pageDiscard .scn r.doc u
          else pageFinish .scn r.doc { u with scn := { u.scn with job := u.scn.job.map fun r => { r with pagesDone := r.pagesDone + 1 } } })

/-! ## Printing (chapter 3) -/

/-- PRINT (R48, R49): the refusals, and the new WAITING entry in the lowest empty slot of 48 with the next enqueue order, or in the place of the
record that finished first, its hold on the document, its range end fixed for a document that is not OPEN; selection runs if the engine is IDLE. That a
document id outside 1 to 64 is BAD_FIELD is the model's reading (log entry 34). -/
def Obligations.PrintQueuesAnEntry : Prop :=
  ∀ (s : State) (tag doc : Nat) (first last : Option Nat) (copies bin cls : Nat), s.takes →
    let a := first.getD 1
    let out (r : Result) : Prop := exec (.print tag doc first last copies bin cls) s = .next (s.replied 0x28 tag r [])
    ((3 < bin ∨ 2 < cls ∨ doc = 0 ∨ 64 < doc ∨ a = 0 ∨ 250 < a ∨ copies = 0 ∨ 99 < copies ∨ ∃ z, last = some z ∧ (z = 0 ∨ 250 < z ∨ z < a)) → out .badField)
    ∧ ∀ (b : Bin) (c : Cls), bin = b.val → cls = c.code → 1 ≤ doc → doc ≤ 64 → 1 ≤ a → a ≤ 250 → 1 ≤ copies → copies ≤ 99 →
      (∀ z, last = some z → a ≤ z ∧ z ≤ 250) →
      ((∀ k, 1 ≤ k → k ≤ 48 → ∃ e, s.entry k = some e ∧ e.unfinished = true) → (∀ x ∈ s.prt.entries, x.2.unfinished = true) → out .full)
      ∧ ∀ k, (s.prt.entries.lowestEmpty 48 k
          ∨ ((∀ j, 1 ≤ j → j ≤ 48 → (s.entry j).isSome = true) ∧ ∃ f, (k, f) ∈ s.prt.entries ∧ f.unfinished = false
            ∧ ∀ x ∈ s.prt.entries, x.2.unfinished = false → x.1 ≠ k → f.finish.getD 0 < x.2.finish.getD 0)) →
        ((s.doc doc = none ∨ ∃ d, s.doc doc = some d ∧ d.deletePending = true) → out .noSuch)
        ∧ ∀ d, s.doc doc = some d → d.deletePending = false →
          (d.state ≠ .opened → d.pages = [] → out .state)
          ∧ (d.state ≠ .opened → d.pages ≠ [] → d.pages.length < a → out .badField)
          ∧ ((d.state = .opened ∨ (d.pages ≠ [] ∧ a ≤ d.pages.length)) →
            let n := (s.prt.enqueueNo + 1) % 4294967296
            let e : Entry := ⟨doc, a, last, if d.state = .opened then none else some (min (last.getD 250) d.pages.length), copies, b, c, decide (d.state = .opened), 1, a, 0,
              false, .waiting, n, none⟩
            let t : State := { s with
              pmc := { s.pmc with docs := s.pmc.docs.mod doc fun d => { d with holders := d.holders + 1 } }
              prt := { s.prt with enqueueNo := n, entries := s.prt.entries.put k e } }
            exec (.print tag doc first last copies bin cls) s =
              .next ((if s.prt.engine = .idle then selectWarm t else t).replied 0x28 tag .ok [BitVec.ofNat 8 k]))

/-- PRINT_CANCEL, PRINT_RESUME, PRINT_REARM (R59, R66, R67): when each is taken and when it is refused. A cancelled WAITING entry is CANCELLED at
once; a PRINTING entry with a page in progress becomes cancel-pending. An unfinished entry that finishes (R51): its state, finish order, the release of
its hold, and PRINT_END with the document, the state and the pages printed; it is no longer current. A finished one is left as it is. The cancelling of
an entry by another block is that of PRINT_CANCEL (R67, R16). The model's choices: an entry id outside 1 to 48 is answered NO_SUCH (log entry 34), and the
PRINT_ENGINE of a resume or a rearm carries the state that selection leads to (log entry 12, `engineLeave`), and PRINT_END comes after the release of
the hold (log entry 7). -/
def Obligations.PrintEntriesAreEnded : Prop :=
  (
  ∀ (s : State) (tag : Nat), s.takes →
    (∀ e, s.entry e = none → exec (.printCancel tag e) s = .next (s.replied 0x29 tag .noSuch []))
    ∧ (∀ e r, s.entry e = some r →
      ((r.state = .done ∨ r.state = .cancelled) → exec (.printCancel tag e) s = .next (s.replied 0x29 tag .state []))
      ∧ (r.state = .waiting → exec (.printCancel tag e) s = .next ((selectIfIdle (entryFinish e .cancelled s)).replied 0x29 tag .ok []))
      ∧ (r.state = .printing → s.prt.page.isSome = true →
        exec (.printCancel tag e) s = .next ((s.onEntry e ({ · with cancelPending := true })).replied 0x29 tag .ok []))
      ∧ (r.state = .printing → s.prt.page = none →
        let t := entryFinish e .cancelled s
        exec (.printCancel tag e) s = .next ((if t.prt.engine = .warmup then selectPick t else t).replied 0x29 tag .ok [])))
    ∧ exec (.printResume tag) s =
      .next (if s.prt.engine = .halted .warmupFail then (engineLeave s).replied 0x2A tag .ok [] else s.replied 0x2A tag .state [])
    ∧ ((∃ r, s.prt.engine = .fault r) → s.pins.overcurrent = false → s.pins.headTemp < s.prt.thermal.maximum →
      exec (.printRearm tag) s = .next ((engineLeave s).replied 0x2B tag .ok []))
    ∧ (((∀ r, s.prt.engine ≠ .fault r) ∨ s.pins.overcurrent = true ∨ s.prt.thermal.maximum ≤ s.pins.headTemp) →
      exec (.printRearm tag) s = .next (s.replied 0x2B tag .state [])))
  ∧ (
  ∀ (s : State) (e : Nat) (r : Entry) (st : EntryState), s.entry e = some r →
    let t := entryFinish e st s
    (r.unfinished = false → t = s)
    ∧ (r.unfinished = true → t.entry e = some { r with state := st, cancelPending := false, finish := some ((s.prt.finishNo + 1) % 4294967296) }
      ∧ (∀ k, k ≠ e → t.entry k = s.entry k) ∧ t.prt.current ≠ some e
      ∧ (∀ d, s.doc r.doc = some d → Tbl.wf s.pmc.docs →
        t.doc r.doc = some { d with holders := d.holders - 1 }
          ∨ (d.holders - 1 = 0 ∧ d.state ≠ .opened ∧ d.retained = false ∧ t.doc r.doc = none))
      ∧ OnlyChanges (.entries :: Part.freeing) s t
      ∧ t = (docRelease r.doc { s with prt := { s.prt with
          finishNo := (s.prt.finishNo + 1) % 4294967296
          entries := s.prt.entries.mod e fun r => { r with state := st, cancelPending := false, finish := some ((s.prt.finishNo + 1) % 4294967296) }
          current := if s.prt.current = some e then none else s.prt.current } }).raise .printEnd
        [BitVec.ofNat 8 e] ([BitVec.ofNat 8 r.doc, BitVec.ofNat 8 st.code] ++ e16 r.printed)))
  ∧ (
  ∀ (s : State) (e : Nat),
    (s.entry e = none → entryCancel e s = s)
    ∧ ∀ r, s.entry e = some r →
      (r.unfinished = false → entryCancel e s = s)
      ∧ (r.state = .waiting → entryCancel e s = selectIfIdle (entryFinish e .cancelled s))
      ∧ (r.state = .printing → s.prt.page.isSome = true → entryCancel e s = s.onEntry e ({ · with cancelPending := true }))
      ∧ (r.state = .printing → s.prt.page = none →
        let t := entryFinish e .cancelled s
        entryCancel e s = if t.prt.engine = .warmup then selectPick t else t))

/-- Selection (R52 to R54): an entry is selectable when it is WAITING, or the current one and PRINTING, not cancel-pending, its bin not full and the
page at its resume point complete. The choice is one of the selectable entries whenever there is one: the one of the highest class, then the current
one, then the one of lowest enqueue order; none when none is selectable. The chosen entry becomes PRINTING and current, a current entry that it
replaces WAITING; with none chosen the engine is IDLE, heater off. What selection starts (R54, R58, R63): in IDLE, or on leaving HALTED or FAULT, the
warm-up, heater on, which ends at once when the head is at the ready value; at the end of a page or of warm-up the chosen entry's page at its resume
point, with the heater off and the reading of its strips begun. Either halts instead when the cover is open, COVER_OPEN coming first, or paper is out.
Leaving HALTED or FAULT (R59, R64, R66) is selection, then PRINT_ENGINE; that it carries the state which selection leads to is the model's choice (log
entry 12), as are the notice's body, the state and then a reason with its presence byte (log entry 69), and the reasons' codes (log entry 38). -/
def Obligations.SelectionTakesTheBestEntry : Prop :=
  (
  ∀ s : State,
    (∀ e r, s.selectable e r = true ↔
      (r.state = .waiting ∨ (s.prt.current = some e ∧ r.state = .printing)) ∧ r.cancelPending = false ∧ at4 s.pins.binFull r.bin = false
        ∧ r.page ≤ s.completeCount r.doc)
    ∧ ((∀ x ∈ s.prt.entries, s.selectable x.1 x.2 = false) → s.choice = none)
    ∧ (∀ x ∈ s.prt.entries, s.selectable x.1 x.2 = true → ∃ e, s.choice = some e)
    ∧ (let t := selectPick s
      OnlyChanges [.entries, .engine] s t
        ∧ (s.choice = none → t.prt.current = none ∧ t.prt.engine = .idle ∧ t.prt.heater = false)
        ∧ (∀ e r, s.choice = some e → s.entry e = some r → t.prt.current = some e ∧ t.prt.engine = s.prt.engine ∧ t.entry e = some { r with state := .printing })
        ∧ (∀ k q, s.prt.current = some k → s.choice ≠ some k → s.entry k = some q → q.unfinished = true → t.entry k = some { q with state := .waiting })
        ∧ ∀ k, s.prt.current ≠ some k → s.choice ≠ some k → t.entry k = s.entry k)
    ∧ ∀ e, s.choice = some e → ∃ r, (e, r) ∈ s.prt.entries ∧ s.selectable e r = true
      ∧ ∀ x ∈ s.prt.entries, s.selectable x.1 x.2 = true →
        r.cls.code ≤ x.2.cls.code
          ∧ (r.cls = x.2.cls → s.prt.current = some x.1 → s.prt.current = some e)
          ∧ (r.cls = x.2.cls → s.prt.current ≠ some e → r.enqueue ≤ x.2.enqueue))
  ∧ (
  ∀ s : State,
    let halts : Prop := s.pins.coverClosed = false ∨ s.pins.printPaper = false
    let reason : HaltReason := if s.pins.coverClosed = false then .coverOpen else .paperOut
    let warm : State := { s with prt := { s.prt with engine := .warmup, heater := true } }
    let tell (t : State) : State := t.raise .printEngine [0]
      (BitVec.ofNat 8 t.prt.engine.code :: match t.prt.engine.reason with | none => [0] | some n => [1, BitVec.ofNat 8 n])
    selectWarm s = (if (selectPick s).prt.current.isSome = true then warmupBegin (selectPick s) else selectPick s)
    ∧ selectStart s = (if (selectPick s).prt.current.isSome = true then pageStart (selectPick s) else selectPick s)
    ∧ selectIfIdle s = (if s.prt.engine = .idle then selectWarm s else s)
    ∧ (halts → warmupBegin s = prtHalt reason s ∧ pageStart s = prtHalt reason s)
    ∧ (¬halts → warmupBegin s = if s.prt.thermal.ready ≤ s.pins.headTemp then selectStart warm else warm)
    ∧ (¬halts → s.currentPage = none → pageStart s = s)
    ∧ (¬halts → ∀ p, s.currentPage = some p → pageStart s =
      prtReadOn { s with prt := { s.prt with engine := .printing, heater := false, page := some ⟨p.strips.map (·.no), none, [], none, 0⟩ } })
    ∧ (∀ r, prtHalt r s = tell { s with prt := { s.prt with engine := .halted r, heater := false } })
    ∧ engineLeave s = tell (selectWarm s))

/-- A line time (R56, R58, R60, R61, R65): the head fires the line that is ready, the accumulator cools whatever the engine's state, and the head's
levels are read; then THERMAL_PAUSE ends when the accumulator is at or below the resume limit and warm-up when the head is at the ready value, or a
head condition latches FAULT, the page in progress spoiled and the heater off. A line to be fired waits in THERMAL_PAUSE at the trip limit; otherwise
its dots join the accumulator, which stays at or below 65 535; after the page's last line the page is printed: the entry counts it and its resume
point moves on (R51), and selection runs (R53). The body of the PRINT_ENGINE of a FAULT, state, presence byte and reason, and the reasons' codes are the
model's choices (log entries 69 and 38). -/
def Obligations.LineTimesHeatAndCool : Prop :=
  ∀ (s : State) (temp : Nat) (oc : Bool), s.running = true →
    exec (.lineTime temp oc) s = .next (lineTime temp oc s).kick
      ∧ OnlyChanges (Part.lineTiming ++ Part.outgoing) s (lineTime temp oc s).kick
      ∧ (s.prt.heat ≤ 65535 → (lineTime temp oc s).prt.heat ≤ 65535)
      ∧ (lineTime temp oc s).pins = { s.pins with headTemp := temp, overcurrent := oc }
      ∧ (let u := headLine s
        let v : State := { u with pins := { u.pins with headTemp := temp, overcurrent := oc }, prt := { u.prt with heat := u.prt.heat - u.prt.thermal.cooling } }
        let hot : Prop := oc = true ∨ v.prt.thermal.maximum ≤ temp
        ((¬hot ∨ ∃ r, v.prt.engine = .fault r) →
          lineTime temp oc s =
            if v.prt.engine = .thermalPause ∧ v.prt.heat ≤ v.prt.thermal.resume then { v with prt := { v.prt with engine := .printing } }
            else if v.prt.engine = .warmup ∧ v.prt.thermal.ready ≤ temp then selectStart v else v)
        ∧ (hot → (∀ r, v.prt.engine ≠ .fault r) →
          let r : FaultReason := if oc = true then .headShort else .headHot
          let w := pageSpoil v
          lineTime temp oc s =
            ({ w with prt := { w.prt with engine := .fault r, heater := false } } : State).raise .printEngine [0] [5, 1, BitVec.ofNat 8 r.code]))
      ∧ ((s.prt.engine ≠ .printing ∨ s.prt.page = none ∨ (s.prt.page.any (·.ready.isEmpty)) = true) → headLine s = s)
      ∧ (s.prt.engine = .idle → oc = false → temp < s.prt.thermal.maximum →
        lineTime temp oc s = { s with
          pins := { s.pins with headTemp := temp, overcurrent := oc }, prt := { s.prt with heat := s.prt.heat - s.prt.thermal.cooling } })
      ∧ (∀ g line rest, s.prt.engine = .printing → s.prt.page = some g → g.ready = line :: rest → s.prt.thermal.trip ≤ s.prt.heat →
        headLine s = { s with prt := { s.prt with engine := .thermalPause } })
      ∧ (∀ g line rest, s.prt.engine = .printing → s.prt.page = some g → g.ready = line :: rest → s.prt.heat < s.prt.thermal.trip → rest ≠ [] →
        headLine s = { s with prt := { s.prt with
          heat := min 65535 (s.prt.heat + line.count true), page := some { g with ready := rest, fired := g.fired + 1 } } })
      ∧ (∀ g line, s.prt.engine = .printing → s.prt.page = some g → g.ready = [line] → s.prt.heat < s.prt.thermal.trip →
        let h : State := { s with prt := { s.prt with heat := min 65535 (s.prt.heat + line.count true) } }
        (∀ ls, g.ahead = some ls →
          headLine s = prtReadOn { h with prt := { h.prt with page := some { g with ready := ls, ahead := none, fired := g.fired + 1 } } })
        ∧ (g.ahead = none → (g.reading.isSome = true ∨ g.toRead ≠ []) →
          headLine s = { h with prt := { h.prt with page := some { g with ready := [], fired := g.fired + 1 } } })
        ∧ (g.ahead = none → g.reading = none → g.toRead = [] → headLine s = pagePrinted h))
      ∧ (∀ e r, s.prt.current = some e → s.entry e = some r →
        let w : State := { s with prt := { s.prt with page := none } }
        let p : Entry := { r with printed := r.printed + 1 }
        let last := match r.rangeEnd with | some z => some z | none => r.last
        let m := if last = some r.page then
            (if r.copy < r.copies then w.onEntry e fun _ => { p with copy := r.copy + 1, page := r.first } else entryFinish e .done (w.onEntry e fun _ => p))
          else w.onEntry e fun _ => { p with page := r.page + 1 }
        pagePrinted s = selectStart (if (m.entry e).any (fun q => q.cancelPending && q.unfinished) = true then entryFinish e .cancelled m else m))
      ∧ ((oc = true ∨ s.prt.thermal.maximum ≤ temp) → (∀ r, s.prt.engine ≠ .fault r) →
        (lineTime temp oc s).prt.engine = .fault (if oc = true then .headShort else .headHot) ∧ (lineTime temp oc s).prt.page = none
          ∧ (lineTime temp oc s).prt.heater = false)

/-- Paper, cover, the warm-up limit and the bins (R57, R58, R63, R64); a page that a halt spoils leaves the engine, is counted, and ends a
cancel-pending entry (R56, R67). That the PRINT_ENGINE of leaving HALTED carries the state that selection leads to is the model's choice (log entry
12, `engineLeave`). -/
def Obligations.PrintSensorsHaltTheEngine : Prop :=
  ∀ s : State, s.running = true →
    (∀ (c : Instr) (u : State),
      ((∃ v, c = .printPaperSensor v ∧ u = { s with pins := { s.pins with printPaper := v } })
        ∨ (∃ v, c = .coverSensor v ∧ u = { s with pins := { s.pins with coverClosed := v } })) →
      let r : HaltReason := if u.pins.coverClosed = false then .coverOpen else .paperOut
      let halt : Prop := u.pins.coverClosed = false ∨ u.pins.printPaper = false
      (halt → (s.prt.engine = .printing ∨ s.prt.engine = .thermalPause) → exec c s = .next (prtHalt r (pageSpoil u)).kick)
      ∧ (halt → s.prt.engine = .warmup → exec c s = .next (prtHalt r u).kick)
      ∧ (¬halt → (s.prt.engine = .halted .paperOut ∨ s.prt.engine = .halted .coverOpen) → exec c s = .next (engineLeave u).kick)
      ∧ (((s.prt.engine = .idle ∨ s.prt.engine = .halted .warmupFail ∨ ∃ f, s.prt.engine = .fault f)
          ∨ (halt ∧ ∃ h, s.prt.engine = .halted h) ∨ (¬halt ∧ (s.prt.engine = .printing ∨ s.prt.engine = .thermalPause ∨ s.prt.engine = .warmup))) →
        exec c s = .next u.kick))
    ∧ exec .warmupTimeout s = .next (if s.prt.engine = .warmup then prtHalt .warmupFail s else s).kick
    ∧ (∀ r, (prtHalt r s).prt = { s.prt with engine := .halted r, heater := false })
    ∧ (s.prt.page = none → pageSpoil s = s)
    ∧ (s.prt.page.isSome = true →
      let t : State := arbWithdraw .prt { s with prt := { s.prt with page := none, spoiled := s.prt.spoiled + 1 } }
      (∀ e r, s.prt.current = some e → s.entry e = some r → pageSpoil s = if r.cancelPending = true then entryFinish e .cancelled t else t)
        ∧ (s.prt.current = none → pageSpoil s = t))
    ∧ ∀ (b : Bin) (full : Bool),
      let u : State := ({ s with pins := { s.pins with binFull := set4 s.pins.binFull b full } } : State).raise .binChanged [BitVec.ofNat 8 b.val]
        [BitVec.ofNat 8 full.toNat]
      exec (.binFullSensor b full) s =
        .next (if at4 s.pins.binFull b = full then s else if full = false ∧ s.prt.engine = .idle then selectWarm u else u).kick

/-! ## Lines and calls (chapter 4) -/

/-- LINE_CONFIG_SET (R71, R72, R88): the configuration replaced and its row dirty; an IDLE, RINGING or FAULT line that is cleared is DISABLED with its
timers stopped, a DISABLED line that is enabled is IDLE with the fault timer running when the voltage is absent; a line that comes into the offered
set runs a pass (R86). BAD_FIELD for a line above 3 or a field out of range. A change of line state (R88, R86, R134): the unit's state, LINE_CHANGED
with the line, the state and at GUARD the outcome, and DSC's line sets kept in step. -/
def Obligations.LineConfigurationIsReplaced : Prop :=
  (
  ∀ (s : State) (tag line : Nat) (v : RawLineConfig), s.takes →
    ((3 < line ∨ 1 < v.dialMode ∨ 1 < v.metering ∨ 9 < v.answerRings ∨ 65535 < v.meterValue ∨ ∃ x, v.outside = some x ∧ dialOk x = false) →
      exec (.lineConfigSet tag line v) s = .next (s.replied 0x30 tag .badField []))
    ∧ ∀ (l : Line) (d : DialMode) (m : Metering), line = l.val → v.dialMode = d.code → v.metering = m.code → v.answerRings ≤ 9 → v.meterValue ≤ 65535 →
      v.outside.all dialOk = true →
      let u := (s.onLu l ({ · with config := ⟨v.enabled, v.incoming, v.outgoing, v.answerRings, d, v.outside, m, v.meterValue⟩ })).dirty (1 + l.val)
      let t := if v.enabled = false ∧ ((s.lu l).state = .idle ∨ (s.lu l).state = .ringing ∨ (s.lu l).state = .fault) then
          lineMove l .disabled none (u.onLu l ({ · with
            faultTimer := false, faultExpired := false, clearingTimer := false, episode := none, ringGap := false, ringCount := 0 }))
        else if v.enabled = true ∧ (s.lu l).state = .disabled then
          lineMove l .idle none (u.onLu l ({ · with faultTimer := !(s.lu l).voltage, faultExpired := false }))
        else u
      exec (.lineConfigSet tag line v) s =
        .next ((if at4 t.dsc.offered l = true ∧ at4 s.dsc.offered l = false then pass t else t).replied 0x30 tag .ok []))
  ∧ (
  ∀ (s : State) (l : Line) (st : LineState) (o : Option CallOutcome),
    let t := lineMove l st o s
    t.lu l = { s.lu l with state := st } ∧ (∀ k, k ≠ l → t.lu k = s.lu k)
      ∧ t = ((s.onLu l ({ · with state := st })).raise .lineChanged [BitVec.ofNat 8 l.val] ([BitVec.ofNat 8 st.code] ++ eOpt (fun o => e8 o.code) o))
      ∧ at4 t.dsc.idle l = (st == .idle) ∧ at4 t.dsc.offered l = (st == .idle && (s.lu l).config.outgoing && (s.lu l).voltage)
      ∧ OnlyChanges [.lines, .lineSets, .notices] s t)

/-- Rings (R82, R83): the first ring of an episode makes an IDLE line RINGING; each later one counts up to 9; at a ring's end the gap timer starts and
the answer conditions are tested; the gap timer's expiry ends the episode, with RING_UNANSWERED where the line may not answer. In other states rings
have no effect. The answer decision (R83, R84, R157): without memory for a page RING_UNANSWERED once an episode; without a log slot LOG_FULL; else a
log reservation is taken and the line is ANSWERING, sending the answer tone, the call started at the episode's first ring and answered now; the
reservation has ring time now, the time of its grant. That the gap timer's expiry raises RING_UNANSWERED for a line that may not answer is the model's
reading (log entry 26), the reasons' codes are its choice (log entry 38). -/
def Obligations.RingsAreCountedAndAnswered : Prop :=
  (
  ∀ (s : State) (l : Line), s.running = true →
    let u := s.lu l
    ((u.state = .idle →
      exec (.ringOn l) s = .next (lineMove l .ringing none (s.onLu l ({ · with
        ringCount := 1, episode := some s.now, ringGap := false, condHeld := false, unanswered := false }))).kick)
    ∧ (u.state = .ringing → exec (.ringOn l) s = .next (s.onLu l ({ · with ringCount := min 9 (u.ringCount + 1), ringGap := false })).kick)
    ∧ (u.state ≠ .idle → u.state ≠ .ringing → exec (.ringOn l) s = .next s.kick))
    ∧ (u.state ≠ .ringing → exec (.ringOff l) s = .next s.kick ∧ exec (.ringGapTimer l) s = .next s.kick)
    ∧ (u.state = .ringing →
      let g := s.onLu l ({ · with ringGap := true })
      exec (.ringOff l) s =
        .next (if u.config.incoming = true ∧ 1 ≤ u.config.answerRings ∧ u.config.answerRings ≤ u.ringCount then answerDecision l g else g).kick)
    ∧ (u.state = .ringing → u.ringGap = false → exec (.ringGapTimer l) s = .next s.kick)
    ∧ (u.state = .ringing → u.ringGap = true →
      let n := if u.condHeld = false ∧ (u.config.answerRings = 0 ∨ u.config.incoming = false) then s.raise .ringUnanswered [BitVec.ofNat 8 l.val] [0, BitVec.ofNat 8 u.ringCount]
        else s
      let t := lineMove l .idle none (n.onLu l ({ · with episode := none, ringGap := false, ringCount := 0 }))
      exec (.ringGapTimer l) s = .next (if at4 t.dsc.offered l = true ∧ at4 s.dsc.offered l = false then pass t else t).kick))
  ∧ (
  ∀ (s : State) (l : Line),
    let h := s.onLu l ({ · with condHeld := true })
    (s.pmc.free.length < 64 →
      answerDecision l s = if (s.lu l).unanswered = true then h
        else (h.onLu l ({ · with unanswered := true })).raise .ringUnanswered [BitVec.ofNat 8 l.val] [1, BitVec.ofNat 8 (s.lu l).ringCount])
    ∧ (64 ≤ s.pmc.free.length → 128 ≤ s.chg.records.length + s.chg.resvs.length →
      answerDecision l s = h.raise .logFull [0] ([0, BitVec.ofNat 8 l.val] ++ [0]))
    ∧ (64 ≤ s.pmc.free.length → s.chg.records.length + s.chg.resvs.length < 128 →
      let t := answerDecision l s
      (t.lu l).state = .answering ∧ (t.lu l).episode = none
        ∧ (∃ c, t.call l = some c ∧ c.caller = false ∧ c.answer = some s.now ∧ c.start = (s.lu l).episode.getD s.now ∧ c.signal = some .answerTone)
        ∧ t.chg.resvs.length = s.chg.resvs.length + 1 ∧ (t.carried l).isSome = true
        ∧ (s.carried l = none → ∃ g, t.carried l = some g ∧ g.out = none ∧ g.start = some s.now ∧ g.answer = some s.now ∧ g.charge = 0)
        ∧ (∀ k, k ≠ l → t.lu k = s.lu k) ∧ OnlyChanges [.lines, .lineSets, .logResvs, .notices] s t))

/-- Line voltage and its timers (R72, R73, R86): the loss of voltage ends an episode or a call, LINE_LOST unless its end was decided, and starts the
fault timer; its return stops it and in FAULT starts the clearing timer; the fault timer's expiry makes an IDLE or RINGING line FAULT; the clearing
and guard timers bring a line back, the guard timer to FAULT where the fault timer has by then expired, the voltage's return or not. That an expiry in
a call state is remembered like one in GUARD is the model's reading (log entry 27). -/
def Obligations.LineVoltageAndTimers : Prop :=
  ∀ (s : State) (l : Line), s.running = true →
    let u := s.lu l
    let offer (t : State) : State := if at4 t.dsc.offered l = true ∧ at4 s.dsc.offered l = false then pass t else t
    let level (v : Bool) : State := s.onLu l fun u => if u.voltage = v then u else { u with voltage := v, voltageSince := s.elapsed }
    let idle (t : State) : State := t.onLu l ({ · with episode := none, ringGap := false, ringCount := 0 })
    let timed : State := (level false).onLu l ({ · with faultTimer := true, clearingTimer := false })
    (u.state = .disabled → exec (.lineVoltageAbsent l) s = .next (level false).kick)
    ∧ ((u.state = .idle ∨ u.state = .fault ∨ u.state = .guard) → exec (.lineVoltageAbsent l) s = .next timed.kick)
    ∧ (u.state = .ringing → exec (.lineVoltageAbsent l) s = .next (lineMove l .idle none (idle timed)).kick)
    ∧ (u.state.inCall = true → ∀ c, u.call = some c → exec (.lineVoltageAbsent l) s = .next (callEnd l (c.outcome.getD .lineLost) timed).kick)
    ∧ exec (.lineVoltagePresent l) s =
      .next (offer ((level true).onLu l ({ · with faultTimer := false, clearingTimer := u.state == .fault }))).kick
    ∧ (u.faultTimer = false → exec (.faultTimer l) s = .next s.kick)
    ∧ (u.faultTimer = true →
      let t := s.onLu l ({ · with faultTimer := false })
      exec (.faultTimer l) s =
        .next (if u.state = .idle ∨ u.state = .ringing then lineMove l .fault none (idle t)
          else if u.state = .fault ∨ u.state = .disabled then t else t.onLu l ({ · with faultExpired := true })).kick)
    ∧ exec (.clearingTimer l) s =
      .next (if u.state = .fault ∧ u.clearingTimer = true then offer (lineMove l .idle none (s.onLu l ({ · with clearingTimer := false }))) else s).kick
    ∧ (u.state ≠ .guard → exec (.guardTimer l) s = .next s.kick)
    ∧ (u.state = .guard → exec (.guardTimer l) s =
      .next (if u.config.enabled = false then
          lineMove l .disabled none (s.onLu l ({ · with
            faultTimer := false, faultExpired := false, clearingTimer := false, episode := none, ringGap := false, ringCount := 0 }))
        else if u.faultExpired = true then lineMove l .fault none (s.onLu l ({ · with faultExpired := false }))
        else offer (lineMove l .idle none s)).kick)

/-- A binding offered to a line (R75, R76, R137): an IDLE, enabled, outgoing line with voltage seizes for the recipient, which is BOUND on it, its job
ACTIVE, the log reservation CARRIED from now; when the job has been cancelled meanwhile the call ends CANCELLED at once (R81, R141). Any other line
refuses, and the reservation is given back (R158): the recipient has no binding offered and no attempt counted, and is as the readiness test leaves it,
or CANCELLED when its job has been cancelled (R137, R141, R144; that the readiness test is made at each refusal is the model's reading, log entry 44).
Then an arbitration pass runs. That the call holds its document and first page from the seizure on, where
R94 sets them at hand-over, is the model's choice (log entry 60). -/
def Obligations.BindingsAreTakenOrRefused : Prop :=
  ∀ (s : State) (l : Line), s.running = true →
    (s.offer l = none → exec (.binding l) s = .next s.kick)
    ∧ ∀ j p x r, s.offer l = some (j, p) → s.job j = some x → s.recip j p = some r →
      let u := s.lu l
      let free : Prop := u.state = .idle ∧ u.config.enabled = true ∧ u.config.outgoing = true ∧ u.voltage = true
      (free → exec (.binding l) s = .next (pass (bindingTaken l j p x r s)).kick
        ∧ let t := seize l j p x r s
          (t.lu l).state = .seized ∧ OnlyChanges [.lines, .lineSets, .logResvs, .notices] s t
            ∧ ∃ c, t.call l = some c ∧ c.caller = true ∧ c.recip = some (j, p) ∧ c.start = s.now ∧ c.doc = some x.doc ∧ c.firstPage = some r.resume
              ∧ c.attempts = 1 ∧ c.dialMode = u.config.dialMode ∧ c.outside = u.config.outside ∧ c.metering = u.config.metering)
      ∧ (let t := seize l j p x r s
        let a : State := { t with dsc := { t.dsc with jobs := t.dsc.jobs.mod j fun x => if x.state = .queued then { x with state := .active } else x } }
        let b := recipSet j p ({ · with state := .bound, line := some l, offeredTo := none }) a
        bindingTaken l j p x r s = if x.cancelRequested = true then callEnd l .cancelled b else b)
      ∧ (x.cancelRequested = false →
        let v := bindingTaken l j p x r s
        v.lines = (seize l j p x r s).lines ∧ (v.lu l).state = .seized
          ∧ v.recip j p = some { r with state := .bound, line := some l, offeredTo := none }
          ∧ (v.job j).map (·.state) = some (if x.state = .queued then .active else x.state)
          ∧ ∀ g, s.chg.resvs.find? (·.grantedOn l) = some g → s.carried l = none →
            v.carried l = some { g with carried := true, start := some s.now, clockInvalid := g.clockInvalid || !s.tmb.valid })
      ∧ (¬free → exec (.binding l) s = .next (pass (bindingRefused l j p x s)).kick)
      ∧ (bindingRefused l j p x s).chg.resvs = s.chg.resvs.eraseP (·.grantedOn l)
      ∧ (let v := recipSet j p ({ · with offeredTo := none }) { s with chg := { s.chg with resvs := s.chg.resvs.eraseP (·.grantedOn l) } }
        v.recip j p = some { r with offeredTo := none }
          ∧ (x.cancelRequested = false → bindingRefused l j p x s = readinessTest j p v)
          ∧ (x.cancelRequested = true →
            bindingRefused l j p x s = jobSettle j (recipSet j p ({ · with state := .cancelled, last := some .cancelled }) v))
          ∧ ∃ q, (bindingRefused l j p x s).recip j p = some q ∧ q.offeredTo = none ∧ q.used = r.used ∧ q.delivered = r.delivered ∧ q.resume = r.resume
            ∧ q.line = r.line ∧ q.nextAttempt = r.nextAttempt)
      ∧ (x.cancelRequested = true →
        (bindingRefused l j p x s).recip j p = some { r with offeredTo := none, state := .cancelled, last := some .cancelled })

/-- Dialling (R76, R78, R79): dial tone, or a retry pause and a second wait, else NO_DIALTONE; the dial sequence is the outside prefix and the dial
string, a W waiting for a dial tone of its own and any other character for its own end; after the last one the line is AWAIT_ANSWER. The forms of
dialling (R78, R79): a P is a pause of 2 s and W sends nothing; in PULSE mode a digit n is a train of n breaks, 10 for the digit 0, and 700 ms more of
closed loop before the character after it; every other character is a tone pair, * and # in either mode. A line in DIALLING sends the character in
hand in the form of the mode its call was seized with, one in AWAIT_ANSWER the calling tone (R80). -/
def Obligations.DiallingGoesOnByCharacter : Prop :=
  (
  ∀ (s : State) (l : Line) (c : Call), s.running = true → s.call l = some c →
    let st := (s.lu l).state
    let went : State := s.onCall l fun c => { c with dialLeft := c.dialLeft.tail }
    let goes : State := if c.dialLeft.length ≤ 1 then lineMove l .awaitAnswer none (went.onCall l ({ · with ringbackHeard := false })) else went
    let digits : List Byte := (c.outside.getD []) ++ ((c.recip.bind fun jp => s.recip jp.1 jp.2).map (·.dial)).getD []
    let w : Prop := st = .dialling ∧ c.dialLeft.head? = some 0x57#8
    let other : Prop := st = .dialling ∧ ∃ b, c.dialLeft.head? = some b ∧ b ≠ 0x57#8
    (st = .seized → c.retryPause = false →
      exec (.dialToneWait l) s = .next (if 2 ≤ c.attempts then callEnd l .noDialtone s else s.onCall l ({ · with retryPause := true })).kick
      ∧ exec (.dialTone l) s = .next (lineMove l .dialling none (s.onCall l ({ · with dialLeft := digits }))).kick)
    ∧ ((st ≠ .seized ∨ c.retryPause = true) → exec (.dialToneWait l) s = .next s.kick)
    ∧ (st = .seized → exec (.retryPauseEnd l) s =
      .next (s.onCall l fun c => if c.retryPause then { c with retryPause := false, attempts := 2 } else c).kick)
    ∧ (st ≠ .seized → exec (.retryPauseEnd l) s = .next s.kick)
    ∧ (w → exec (.dialTone l) s = .next goes.kick ∧ exec (.wWaitTimeout l) s = .next (callEnd l .noDialtone s).kick)
    ∧ (other → exec (.dialCharacterDone l) s = .next goes.kick)
    ∧ (¬w → exec (.wWaitTimeout l) s = .next s.kick ∧ ((st ≠ .seized ∨ c.retryPause = true) → exec (.dialTone l) s = .next s.kick))
    ∧ (¬other → exec (.dialCharacterDone l) s = .next s.kick))
  ∧ (
  (∀ (mode : DialMode) (last : Bool),
    dialForm mode 0x50#8 last = some (.pause 2000) ∧ dialForm mode 0x57#8 last = none
      ∧ dialForm mode 0x2A#8 last = some (.tonePair 0x2A#8) ∧ dialForm mode 0x23#8 last = some (.tonePair 0x23#8)
      ∧ ∀ n, n ≤ 9 → dialForm mode (BitVec.ofNat 8 (0x30 + n)) last =
        match mode with
        | .tone => some (.tonePair (BitVec.ofNat 8 (0x30 + n)))
        | .pulse => some (.breaks (if n = 0 then 10 else n) (if last = true then 0 else 700)))
  ∧ ∀ (s : State) (l : Line) (c : Call), s.call l = some c →
    ((s.lu l).state = .dialling → ∀ b rest, c.dialLeft = b :: rest → s.sends l = dialForm c.dialMode b rest.isEmpty)
    ∧ ((s.lu l).state = .awaitAnswer → s.sends l = some .callingTone))

/-- Awaiting the answer (R80, R138, R159): BUSY, the answer wait, and silence before any ringback end the call; ringback is noted; the answer tone
makes the line HANDSHAKE, waiting for CAPS, with the reports to DSC and CHG: the bound recipient becomes IN_CALL (R138). That HANDSHAKE is entered
before the reports is the model's choice (log entry 72). A calling tone heard in SEIZED is a glare (R77). In other states these
have no effect. Glare, and the answer of a caller. At glare (R77, R138, R158) the OUT reservation is given up, committed as GLARE only when an accrual
has reached it, and the recipient goes back to DSC, CANCELLED when its job was cancelled; then the line answers, when incoming calls are allowed,
memory and a log slot are free; otherwise it goes to GUARD, with RING_UNANSWERED and GLARE, or with LOG_FULL. A pass follows. The ring count of that
RING_UNANSWERED, 0, is the model's choice (log entry 55), and so is the slot of the log that the IN reservation takes, chosen after the OUT slot is
given up (log entry 43); that the barred test is made when the recipient goes back is the model's reading (log entry 44). -/
def Obligations.AnswersAreAwaited : Prop :=
  (
  ∀ (s : State) (l : Line) (c : Call), s.running = true → s.call l = some c →
    ((s.lu l).state = .awaitAnswer →
      exec (.busy l) s = .next (callEnd l .busy s).kick ∧ exec (.answerWait l) s = .next (callEnd l .noAnswer s).kick
      ∧ exec (.silence l) s = .next (if c.ringbackHeard = false then callEnd l .noAnswer s else s).kick
      ∧ exec (.ringback l) s = .next (s.onCall l ({ · with ringbackHeard := true })).kick
      ∧ exec (.answerTone l) s =
        .next (chgAnswered l (c.metering == .pulse) (answerReport c (lineMove l .handshake none (s.onCall l ({ · with answer := some s.now, capsWait := true }))))).kick)
    ∧ ((s.lu l).state ≠ .awaitAnswer → ∀ i ∈ [Instr.busy l, .answerWait l, .silence l, .ringback l, .answerTone l], exec i s = .next s.kick)
    ∧ exec (.callingTone l) s = .next (if (s.lu l).state = .seized ∧ c.retryPause = false then glare l s else s).kick)
  ∧ (
  ∀ (u : State) (c : Call), (c.recip = none → answerReport c u = u)
    ∧ ∀ j p r, c.recip = some (j, p) → u.recip j p = some r →
      answerReport c u = recipSet j p ({ · with state := .inCall }) u ∧ (answerReport c u).recip j p = some { r with state := .inCall })
  ∧ (
  ∀ (s : State) (l : Line) (c : Call), s.call l = some c →
    let free (u : State) : State := match c.recip with
      | none => u
      | some (j, p) => match u.job j with
        | none => u
        | some x =>
          if x.cancelRequested = true then jobSettle j (recipSet j p ({ · with state := .cancelled, line := none, last := some .cancelled }) u)
          else barredTest j p (recipSet j p ({ · with state := .eligible, line := none, last := some .glare }) u)
    let given (u : State) : State := free (match u.carried l with
      | none => u
      | some r => if r.accrued = true then commit l ⟨.glare, none, 0, 0, true, false⟩ false u
        else { u with chg := { u.chg with resvs := u.chg.resvs.eraseP (·.carriedOn l) } })
    let used := s.chg.records.length + s.chg.resvs.length
    ((s.lu l).config.incoming = false →
      glare l s = pass ((glareOff l .glare (given s)).raise .ringUnanswered [BitVec.ofNat 8 l.val] [0, 0]))
    ∧ ((s.lu l).config.incoming = true → s.pmc.free.length < 64 →
      glare l s = pass ((glareOff l .glare (given s)).raise .ringUnanswered [BitVec.ofNat 8 l.val] [1, 0]))
    ∧ ((s.lu l).config.incoming = true → 64 ≤ s.pmc.free.length → 128 ≤ used →
      glare l s = pass (glareOff l .logFull (given (s.raise .logFull [0] [0, BitVec.ofNat 8 l.val, 0]))))
    ∧ ((s.lu l).config.incoming = true → 64 ≤ s.pmc.free.length → used < 128 →
      let g := given s
      let t : State := { g with chg := { g.chg with
        resvs := g.chg.resvs ++ [⟨g.freeLogSlot, l, true, none, none, none, some s.now, none, 0, false, false, !s.tmb.valid, !s.hlc.attended, false, none, none, none, 0, false⟩] } }
      glare l s = pass (answering l s.now t))
    ∧ (∀ o, let t := glareOff l o s
      t.lu l = { s.lu l with state := .guard, call := none, episode := none, ringGap := false, ringCount := 0 } ∧ OtherLines l s t ∧ t.arb.need (.lu l) = 0
        ∧ OnlyChanges Part.exchanging s t)
    ∧ ∀ start, let t := answering l start s
      (t.lu l).state = .answering ∧ (t.lu l).episode = none ∧ OtherLines l s t
        ∧ ∃ d, t.call l = some d ∧ d.caller = false ∧ d.start = start ∧ d.answer = some s.now ∧ d.signal = some .answerTone ∧ d.recip = none ∧ d.pendingEnd = none)

/-- The end of a call (R85, R86, R139, R164): the line rests in GUARD without a call; its log reservation becomes the next committed record in the
slot that it held, with the outcome; at an OUT record its account counts the call and its pages, each held at 65 535, and the account's row is queued
when the charge is not 0; CALL_LOGGED follows, then DSC's report at a caller; nothing but what a call's end touches changes, and at a caller no other
line. An end request from another block
(R81, R109): an outgoing call not yet answered ends at once with the request's outcome; in HANDSHAKE or TRANSFER the request is the pending end, an
end now taking the place of an end after page and nothing else of a request already pending; an end now is carried out at once when nothing is being
sent, and either kind in a WAIT interval. An answerer's call, a line without a call and the other states take no request. A line that hangs up ends
its call with the outcome decided (R85). That the end's steps come in this order, settling, commitment, DSC's report, withdrawal, GUARD and the pass last,
is the model's choice where R85 numbers only some of them (log entry 24). -/
def Obligations.CallsEndInGuard : Prop :=
  (
  ∀ (s : State) (l : Line) (o : CallOutcome) (c : Call), s.call l = some c →
    let s' := if c.caller = true then s else settle l c s
    let t := callEnd l o s
    (t.lu l).state = .guard ∧ (t.lu l).call = none
      ∧ (c.caller = true → t.lu l = { s.lu l with state := .guard, call := none, episode := none, ringGap := false, ringCount := 0 } ∧ OtherLines l s t)
      ∧ (∀ r, s'.carried l = some r →
        t.chg.records = s.chg.records ++ [recordOf s' r (c.endReport o)] ∧ t.chg.nextLog = (s.chg.nextLog + 1) % 65536
          ∧ (recordOf s' r (c.endReport o)).outcome = o ∧ (recordOf s' r (c.endReport o)).number = s.chg.nextLog
          ∧ (recordOf s' r (c.endReport o)).slot = r.slot ∧ (recordOf s' r (c.endReport o)).charge = r.charge ∧ (recordOf s' r (c.endReport o)).stop = s.now)
      ∧ (s'.carried l = none → t.chg.records = s.chg.records ∧ t.chg.nextLog = s.chg.nextLog)
      ∧ OnlyChanges Part.callEnding s t
      ∧ (let reported (u : State) : State := match c.recip with
          | some (j, p) => if c.caller = true then
              dscCallEnd j p o c.highest (match c.highest with | some q => q + 1 | none => c.firstPage.getD 1) u
            else u
          | none => u
        let u := arbWithdraw (.lu l) (reported (commit l (c.endReport o) false s'))
        let v := lineMove l .guard (some o) (u.onLu l ({ · with call := none, episode := none, ringGap := false, ringCount := 0 }))
        t = if c.caller = true then pass v else v))
  ∧ (
  ∀ (s : State) (l : Line) (e : EndReport) (quiet : Bool),
    (s.carried l = none → commit l e quiet s = s)
    ∧ ∀ r, s.carried l = some r →
      let v := recordOf s r e
      let u : State := { s with chg := { s.chg with
        resvs := s.chg.resvs.eraseP (·.carriedOn l), records := s.chg.records ++ [v], nextLog := (s.chg.nextLog + 1) % 65536 } }
      let w : State := match r.out with
        | none => u
        | some o =>
          let a := s.account o.account
          let counted : State := { u with chg := { u.chg with accounts := s.chg.accounts.set o.account { a with
            calls := min 65535 (a.calls + 1), pages := min 65535 (a.pages + e.pagesDone) } } }
          if r.charge = 0 then counted else accountRow o.account counted
      commit l e quiet s = if quiet = true then w
        else w.raise .callLogged [BitVec.ofNat 8 l.val] (e16 v.number ++ [BitVec.ofNat 8 r.out.isSome.toNat, BitVec.ofNat 8 e.outcome.code]))
  ∧ (
  ∀ (s : State) (l : Line) (e : EndRequest),
    (s.call l = none → endRequest l e s = s)
    ∧ ∀ c, s.call l = some c →
      (∀ o, c.outcome = some o → hangUp l s = callEnd l o s)
      ∧ (c.caller = false → endRequest l e s = s)
      ∧ (c.caller = true →
        (((s.lu l).state = .seized ∨ (s.lu l).state = .dialling ∨ (s.lu l).state = .awaitAnswer) → endRequest l e s = callEnd l e.outcome s)
        ∧ (((s.lu l).state = .handshake ∨ (s.lu l).state = .transfer) →
          let m : EndRequest := match c.pendingEnd with
            | none => e
            | some o => if e.now = true ∧ o.now = false then e else o
          let t := s.onCall l ({ · with pendingEnd := some m })
          endRequest l e s = if (m.now = true ∧ c.signal = none) ∨ c.waitInterval = true then clearWith l m.outcome t else t)
        ∧ ((s.lu l).state ∉ [LineState.seized, .dialling, .awaitAnswer, .handshake, .transfer] → endRequest l e s = s)))

/-- Meter pulses and interval timers (R87, R159 to R162): in a metered outgoing call a pulse counts and accrues the meter value; at a timed call's
answer the setup and unit charge, and at its interval one unit charge accrues and the timer starts again. An accrual adds to the call's charge and its
account's spent total the amount due, or as much of it as leaves neither above 4 294 967 295 (R161); then the check of R162: where the next accrual
would take spent above a limit, and no action has been taken in the call, the account's policy asks for the call's end, now or after the page, but for
a FLASH job of a flash-exempt account, with BUDGET_ACTION. That BUDGET_ACTION comes before the notices of an end at once is the model's choice (log
entry 67), and so is that the line stands as its object alone (log entry 69). -/
def Obligations.CallsAreCharged : Prop :=
  ∀ (s : State) (l : Line), s.running = true →
    (∀ c, s.call l = some c → c.caller = true → c.metering = .pulse →
      (s.lu l).state ∈ [LineState.seized, .dialling, .awaitAnswer, .handshake, .transfer, .clearing] →
      exec (.meterPulse l) s = .next (accrueCheck l c.meterValue ((s.onCall l fun c => { c with pulses := c.pulses + 1 }).onCarried l fun r =>
        { r with lastPulse := c.meterValue, metered := true })).kick)
    ∧ ((s.call l = none ∨ ∃ c, s.call l = some c ∧ (c.caller = false ∨ c.metering = .none)) → exec (.meterPulse l) s = .next s.kick)
    ∧ (∀ r unit every z, s.carried l = some r → r.unit = some (unit, every) → r.intervalEnd = some z →
      exec (.intervalTimer l) s = .next (accrueCheck l unit (s.onCarried l ({ · with intervalEnd := some (s.elapsed + every) }))).kick)
    ∧ ((s.carried l = none ∨ ∃ r, s.carried l = some r ∧ (r.unit = none ∨ r.intervalEnd = none)) → exec (.intervalTimer l) s = .next s.kick)
    ∧ (∀ (due : Nat) (u : State),
      accrueCheck l due u = overrunCheck l (accrue l due u)
        ∧ ((u.carried l).bind (·.out) = none → accrue l due u = u ∧ overrunCheck l u = u)
        ∧ ∀ r o, u.carried l = some r → r.out = some o →
          let a := u.account o.account
          let next := match r.unit with | some x => x.1 | none => r.lastPulse
          let passes : Prop := a.limit ≠ 0 ∧ a.limit < a.spent + next ∧ r.actionTaken = false ∧ ¬(o.cls = .flash ∧ a.flashExempt = true) ∧ a.policy ≠ .afterCall
          let jp := o.recip.getD (0, 0)
          (¬passes → overrunCheck l u = u)
          ∧ (passes → overrunCheck l u = endRequest l ⟨a.policy == .cut, .budget⟩ ((u.onCarried l ({ · with actionTaken := true })).raise .budgetAction
            [BitVec.ofNat 8 l.val] [BitVec.ofNat 8 o.account, BitVec.ofNat 8 jp.1, BitVec.ofNat 8 jp.2, BitVec.ofNat 8 a.policy.code])))
    ∧ (∀ r o, s.carried l = some r → r.out = some o →
      let b := s.band o.band
      let p := s.period
      let told (m : Bool) (g : LogResv) : LogResv := { g with
        answer := some s.now, period := some p, clockInvalid := g.clockInvalid || !s.tmb.valid, metered := g.metered || m }
      chgAnswered l true s = s.onCarried l (told true)
        ∧ chgAnswered l false s = accrueCheck l (Band.setup b p + Band.unit b p) (s.onCarried l fun g => { told false g with
          setup := some (Band.setup b p), unit := some (Band.unit b p, Band.interval b p), intervalEnd := some (s.elapsed + Band.interval b p) }))
    ∧ ∀ (due : Nat) (r : LogResv) (o : OutPart), s.carried l = some r → r.out = some o → o.account < s.chg.accounts.length → r.charge ≤ maxAmount →
      (s.account o.account).spent ≤ maxAmount →
      let a := s.account o.account
      let t := accrue l due s
      let d := min due (min (4294967295 - r.charge) (4294967295 - a.spent))
      ∃ r', t.carried l = some r' ∧ r'.charge = r.charge + d ∧ (t.account o.account).spent = a.spent + d ∧ r'.accrued = true
        ∧ r'.charge ≤ maxAmount ∧ (t.account o.account).spent ≤ maxAmount
        ∧ (r.charge + due ≤ maxAmount → a.spent + due ≤ maxAmount → d = due)
        ∧ (t.account o.account).overrun = (a.overrun || (a.limit != 0 && decide (a.limit < a.spent + d)))
        ∧ r'.overrun = (r.overrun || (a.limit != 0 && decide (a.limit < a.spent + d)))
        ∧ (∀ k, k ≠ o.account → t.account k = s.account k) ∧ OnlyChanges [.accounts, .logResvs] s t

/-! ## The strip exchange (chapter 5) -/

/-- A control frame begins to be sent (R93): its first sending, the waits stopped; a resending raises the count. The end of a call is CLEARING with
CLEAR or REFUSE on the line, the outcome decided (R85, R109 to R111). What follows the end of what a line sends (R93, R95, R96, R101, R109 to R111):
CAPS after the answer tone; on-hook after the frame of CLEARING; a pending end now; the burst after a PLAN; the reply wait, and HANDSHAKE after the
first CAPS; the next strip or PAGE_END after a strip, also when its bursts still wait, which withdraws them (the model's choice, log entry 17). An end
of what is not being sent has no effect. The caller's page boundary (R100, R102 to R104, R109): a pending end is carried out; a complete page is sent
in the page format, REFUSED when it has none; with no complete page the PAGE_END is WAIT while the document is OPEN or the page incomplete, else LAST
with count 0. The page format takes the page's own resolution and width where the CAPS has them, else the next lower one. A resend round sends the
strips asked for that the page holds. The strips of a page on the line (R101, R24): the next strip is read through the arbiter, or, DAMAGED, sent at
once; after the last one PAGE_END follows, LAST when the document is not OPEN and this is its last complete page. A strip goes out as stored in the
page's own format; otherwise decoded, converted and coded afresh; a DAMAGED strip as BLANK lines. While the caller reads, the line carries idle fill;
a burst carries the bytes 0 to 255 and again from 0, 600 for each step (R96). A strip decodes line by line from its first (R38), each against the one
before; from the first line that is not legal on its lines are free values (log entry 4). Lines coded afresh pass the verification, and at A4 width
decode to themselves. The conversions for sending (R44, R45): from B4 to A4 the pixels at positions 3, 9 and 15, counted from 0, of every 19 are
dropped; SUPER to FINE joins each pair of lines, a line alone at the end standing for itself; FINE to COARSE keeps the first of each pair; SUPER to
COARSE is both in turn; the width goes first. -/
def Obligations.FramesAreSent : Prop :=
  (
  ∀ (s : State) (l : Line) (c : Call) (f : CtlFrame) (o : CallOutcome), s.call l = some c →
    let sent (n : Nat) (g : CtlFrame) : Call := { c with
      lastFrame := some g, sendings := n, signal := some (.frame g), waitOn := false, capsWait := false, waitInterval := false, waitOver := false }
    (sendFrame l f s).call l = some { sent 1 f with stripAfterFrame := false }
      ∧ (∀ g, c.lastFrame = some g → (resendFrame l s).call l = some { sent (c.sendings + 1) g with stripAfterFrame := false })
      ∧ (let t := enterClearing l o f s
        (t.lu l).state = .clearing ∧ t.arb.need (.lu l) = 0
          ∧ t.call l = some { sent 1 f with
              outcome := some (match c.pendingEnd with
                | some e => if o = .noReply ∨ o = .checkFail ∨ o = .refused ∨ o = .remoteFull then e.outcome else o
                | none => o)
              reading := none, toSend := [], resend := none, burstReply := none }
          ∧ OtherLines l s t ∧ OnlyChanges Part.exchanging s t))
  ∧ (
  ∀ (s : State) (l : Line) (c : Call), s.running = true → s.call l = some c →
    let quiet : State := s.onCall l ({ · with signal := none })
    let onward (t u : State) : State := match c.pendingEnd with
      | some e => if e.now = true then clearWith l e.outcome t else u
      | none => u
    (c.signal = some .answerTone →
      exec (.answerToneEnd l) s =
        .next (sendFrame l (.caps s.lus.stationTag s.lus.maxStep 7 3) (s.onCall l ({ · with capsMax := s.lus.maxStep }))).kick)
    ∧ (c.signal ≠ some .answerTone → exec (.answerToneEnd l) s = .next s.kick)
    ∧ (∀ f, c.signal = some (.frame f) →
      ((s.lu l).state = .clearing → exec (.controlFrameSent l) s = .next (hangUp l quiet).kick)
      ∧ ((s.lu l).state ≠ .clearing →
        (∀ a b d e, f = .plan a b d e →
          exec (.controlFrameSent l) s = .next (onward quiet (quiet.onCall l ({ · with signal := some (.burst (c.planStep.getD 1)) }))).kick)
        ∧ ((∀ a b d e, f ≠ .plan a b d e) →
          let t := quiet.onCall l ({ · with waitOn := true })
          exec (.controlFrameSent l) s = .next (onward quiet (if (s.lu l).state = .answering then lineMove l .handshake none t else t)).kick)))
    ∧ ((∀ f, c.signal ≠ some (.frame f)) → exec (.controlFrameSent l) s = .next s.kick)
    ∧ (∀ n, c.signal = some (.burst n) → exec (.burstSent l) s = .next (onward quiet (quiet.onCall l ({ · with waitOn := true }))).kick)
    ∧ ((∀ n, c.signal ≠ some (.burst n)) → exec (.burstSent l) s = .next s.kick)
    ∧ (∀ n bytes, c.signal = some (.strip n bytes) →
      let t := (arbWithdraw (.lu l) s).onCall l ({ · with signal := none, reading := none })
      exec (.stripSent l) s = .next (onward t (nextStrip l t)).kick)
    ∧ (c.signal = none → c.reading.isSome = true →
      let t := (arbWithdraw (.lu l) s).onCall l ({ · with signal := none, reading := none })
      exec (.stripSent l) s = .next (onward t (nextStrip l t)).kick)
    ∧ ((∀ n bytes, c.signal ≠ some (.strip n bytes)) → (c.signal ≠ none ∨ c.reading = none) → exec (.stripSent l) s = .next s.kick))
  ∧ (
  (∀ (rs ws : Nat) (p : Page) (r : Resolution) (w : Width), pageFormat (rs, ws) p = some (r, w) ↔
    (List.range (p.res.code + 1)).reverse.find? rs.testBit = some r.code ∧ (List.range (p.width.code + 1)).reverse.find? ws.testBit = some w.code)
  ∧ ∀ (s : State) (l : Line) (c : Call), s.call l = some c →
    let q := c.current.getD 0
    let u := s.onCall l ({ · with waitInterval := false, waitOn := false, waitOver := false })
    (∀ e, c.pendingEnd = some e → boundary l s = clearWith l e.outcome u)
    ∧ (c.pendingEnd = none →
      (∀ p, s.sendPage c = some p → p.complete = true →
        boundary l s = match pageFormat c.accepts p with
          | some f => nextStrip l (u.onCall l ({ · with format := some f, pageOpen := true, toSend := p.strips.map (·.no), resend := none }))
          | none => clearWith l .refused u)
      ∧ (∀ p, s.sendPage c = some p → p.complete = false → boundary l s = sendFrame l (.pageEnd .wait q 0) u)
      ∧ (s.sendPage c = none → boundary l s = sendFrame l (.pageEnd (if s.docOpen (c.doc.getD 0) = true then .wait else .last) q 0) u))
    ∧ (∀ d n r, c.doc = some d → c.current = some n → s.doc d = some r → s.sendPage c = r.pages.find? (·.number == n))
    ∧ ∀ xs p, s.sendPage c = some p →
      resendRound l xs s = nextStrip l (s.onCall l ({ · with round := min 3 (c.round + 1), resend := none, waitOn := false, toSend := (p.strips.map (·.no)).filter (· ∈ xs) })))
  ∧ (
  (∀ (s : State) (l : Line) (c : Call) (p : Page), s.call l = some c → s.sendPage c = some p →
    let q := c.current.getD 0
    let bytes := s.stripOnLine q p (c.format.getD (p.res, p.width))
    (c.toSend = [] →
      nextStrip l s = sendFrame l (.pageEnd (if s.docOpen (c.doc.getD 0) = false ∧ s.completeCount (c.doc.getD 0) = q then .last else .more) q p.strips.length) s)
    ∧ (∀ n rest x, c.toSend = n :: rest → p.strip n = some x →
      nextStrip l s = if x.state = .stored then arbAsk (.lu l) ((8 + x.coded + 63) / 64) (s.onCall l ({ · with toSend := rest, reading := some n }))
        else s.onCall l ({ · with toSend := rest, signal := some (.strip n (bytes x)) }))
    ∧ (s.arb.need (.lu l) ≠ 0 → luStripRead l s = s)
    ∧ ∀ n x, c.reading = some n → p.strip n = some x → s.arb.need (.lu l) = 0 →
      luStripRead l s = s.onCall l ({ · with reading := none, signal := some (.strip n (bytes x)) }))
  ∧ (∀ (s : State) (q : Nat) (p : Page) (r : Resolution) (w : Width) (x : Strip),
    let n := convertedCount p.res r x.lines
    (x.state ≠ .stored → s.stripOnLine q p (r, w) x = dataStripBytes q x.no n r w (List.replicate n 0))
    ∧ (x.state = .stored → (r, w) = (p.res, p.width) → s.stripOnLine q p (r, w) x = dataStripBytes q x.no x.lines r w (stripRead s.mem x.blocks 8 x.coded))
    ∧ (x.state = .stored → (r, w) ≠ (p.res, p.width) →
      s.stripOnLine q p (r, w) x = dataStripBytes q x.no n r w
        (codeLines w none (convertLines p.width w p.res r (decodeStrip p.width x.lines (stripRead s.mem x.blocks 8 x.coded))))))
  ∧ (∀ step, (rateBurst step).length = 600 * step ∧ ∀ i, i < 600 * step → (rateBurst step)[i]? = some (BitVec.ofNat 8 i))
  ∧ ∀ (s : State) (l : Line) (c : Call), s.call l = some c → (s.lu l).state ≠ .dialling → (s.lu l).state ≠ .awaitAnswer →
    (∀ f, c.signal = some (.frame f) → s.sends l = some (.control f.encode))
    ∧ (∀ n, c.signal = some (.burst n) → s.sends l = some (.data n (rateBurst n)))
    ∧ (∀ n b, c.signal = some (.strip n b) → s.sends l = some (.data (c.agreedStep.getD 1) b))
    ∧ (c.signal = some .answerTone → s.sends l = some .answerTone)
    ∧ (c.signal = none → s.sends l = if c.reading.isSome = true then some .idleFill else none))
  ∧ (
  (∀ (w : Width) (n : Nat) (bs : List Byte),
    let ls := decodeStrip w n bs
    let before (k : Nat) : Option Pixels := if k = 0 then none else ls[k - 1]?
    ls.length = n ∧ ∃ (m : Nat) (rest : Nat → List Byte), m ≤ n ∧ rest 0 = bs
      ∧ (∀ k, k < m → decodeLine w (before k) (rest k) = some (ls.getD k [], rest (k + 1)))
      ∧ (m < n → decodeLine w (before m) (rest m) = none)
      ∧ (verifyStrip w none n bs = true ↔ m = n ∧ rest n = []))
  ∧ ∀ (w : Width) (ls : List Pixels), (∀ px ∈ ls, px.length = if w = .a4 then 2048 else 2432) →
    verifyStrip w none ls.length (codeLines w none ls) = true ∧ (w = .a4 → decodeStrip w ls.length (codeLines w none ls) = ls))
  ∧ (
  (∀ px : Pixels, narrow 0 px = ((List.range px.length).filter fun i => i % 19 ≠ 3 ∧ i % 19 ≠ 9 ∧ i % 19 ≠ 15).map fun i => px.getD i false)
  ∧ (∀ ls : List Pixels, (mergePairs ls).length = (ls.length + 1) / 2
    ∧ (∀ k a b, ls[2 * k]? = some a → ls[2 * k + 1]? = some b → (mergePairs ls)[k]? = some (List.zipWith (· || ·) a b))
    ∧ ∀ k a, ls[2 * k]? = some a → 2 * k + 1 = ls.length → (mergePairs ls)[k]? = some a)
  ∧ (∀ (ls : List Pixels) (k : Nat), (keepOdd ls)[k]? = ls[2 * k]?)
  ∧ (∀ (w v : Width) (ls : List Pixels),
    let ms := if w = .b4 ∧ v = .a4 then ls.map (narrow 0) else ls
    (∀ r, convertLines w v r r ls = ms) ∧ convertLines w v .super .fine ls = mergePairs ms ∧ convertLines w v .fine .coarse ls = keepOdd ms
      ∧ convertLines w v .super .coarse ls = keepOdd (mergePairs ms))
  ∧ ∀ (w v : Width) (r t : Resolution) (ls : List Pixels), t.code ≤ r.code → (convertLines w v r t ls).length = convertedCount r t ls.length)

/-- The waits of the exchange (R93, R104, R109): a reply wait sends the last frame again, up to three sendings in all, then the end; the wait for CAPS
ends NO_REPLY; a WAIT interval, at its end or at PMC's report that page q has completed or that the document has left OPEN, is followed by the page
boundary, which waits for the WAITING where that is still awaited (log entry 53); a wait that is not running has no effect. CLEAR and REFUSE end the
call whatever the station waits for (R92, R110, R111): the line passes through CLEARING and goes on-hook with its outcome. A CLEAR taken in ANSWERING
ends the call too, which is the model's reading (log entry 28), and so is ABANDONED for one taken after an unacceptable first PLAN (log entry 71). In
other states they have no effect. -/
def Obligations.WaitsAndClearsEndTheCall : Prop :=
  (
  ∀ (s : State) (l : Line) (c : Call), s.running = true → s.call l = some c →
    (c.waitOn = false → exec (.replyWait l) s = .next s.kick)
    ∧ (c.waitOn = true →
      (∀ e, c.caller = true → c.pageOpen = false → c.pendingEnd = some e → exec (.replyWait l) s = .next (clearWith l e.outcome s).kick)
      ∧ ((c.caller = false ∨ c.pageOpen = true ∨ c.pendingEnd = none) →
        (c.sendings < 3 → exec (.replyWait l) s = .next (resendFrame l s).kick)
        ∧ (3 ≤ c.sendings → exec (.replyWait l) s =
          .next (clearWith l (if c.caller = true then .noReply else match c.lastFrame with | some (.caps ..) => .noPlan | _ => c.clearedOutcome) s).kick)))
    ∧ exec (.capsWait l) s = .next (if c.capsWait = true then clearWith l .noReply s else s).kick
    ∧ (let awaits : Prop := c.caller = true ∧ c.waitOn = true ∧ ∃ p n, c.lastFrame = some (.pageEnd .wait p n)
      (c.waitInterval = true → exec (.waitInterval l) s = .next (boundary l s).kick)
      ∧ (c.waitInterval = false → awaits → exec (.waitInterval l) s = .next (s.onCall l ({ · with waitOver := true })).kick)
      ∧ (c.waitInterval = false → ¬awaits → exec (.waitInterval l) s = .next s.kick))
    ∧ ∀ d, let reported : Prop := c.caller = true ∧ c.doc = some d ∧ (c.current.getD 0 ≤ s.completeCount d ∨ s.docOpen d = false)
      (reported → exec (.waitInterval l) s = .next (earlyBoundary d l s).kick) ∧ (¬reported → earlyBoundary d l s = s))
  ∧ (
  ∀ (s : State) (l : Line) (c : Call), s.running = true → s.call l = some c →
    let ended (o : CallOutcome) : State := hangUp l (lineMove l .clearing none (s.onCall l ({ · with outcome := some o })))
    let pending (o : CallOutcome) : CallOutcome := match c.pendingEnd with | some e => e.outcome | none => o
    let reached : CallOutcome := if c.planned = false then .noPlan
      else match c.ended with
        | .last => if 0 < c.damagedPages then .receivedDamaged else .received
        | .holdFull => .storeFull
        | .neither => .abandoned
    (((s.lu l).state = .handshake ∨ (s.lu l).state = .transfer) →
      (c.caller = true → (∀ n, exec (.refuse l n) s = .next (ended (pending .refused)).kick) ∧ exec (.clear l) s = .next (ended (pending .remoteFull)).kick)
      ∧ (c.caller = false → (∀ n, exec (.refuse l n) s = .next s.kick) ∧ exec (.clear l) s = .next (ended reached).kick))
    ∧ ((s.lu l).state = .answering → exec (.clear l) s = .next (ended (if c.caller = true then pending .remoteFull else reached)).kick)
    ∧ ((s.lu l).state ≠ .handshake → (s.lu l).state ≠ .transfer → (∀ n, exec (.refuse l n) s = .next s.kick)
      ∧ ((s.lu l).state ≠ .answering → exec (.clear l) s = .next s.kick)))

/-- The caller's handshake (R96, R98, R99, R102, R109): the first CAPS leads to a PLAN at the lower maximum step, to REFUSED when it is not usable, or
to a pending end; a CAPS in place of the reply to a PLAN has it sent again, after its third sending a fourth time, which is the model's choice (log
entry 57); CHECK_RESULT OK agrees the step and goes on to the page boundary or the
resend round, FAIL steps down, and at step 1 ends CHECK_FAIL. Frames out of place have no effect. The caller's page replies (R102 to R104, R109):
STRIP_REPORT starts a resend round, with a fallback of one step when more than half the page's strips are asked for again; PAGE_TAKEN counts the page
and goes on, or ends the call DELIVERED after LAST and REMOTE_FULL at HOLD_FULL; WAITING raises the WAIT count and keeps the turn for the WAIT
interval, or gives the boundary at once when that is over already (log entry 53). Out of place they have no effect. -/
def Obligations.CallersTakeReplies : Prop :=
  (
  ∀ (s : State) (l : Line) (c : Call), s.running = true → s.call l = some c → c.caller = true → ((s.lu l).state = .handshake ∨ (s.lu l).state = .transfer) →
    let planned : Prop := c.waitOn = true ∧ ∃ a b d e, c.lastFrame = some (.plan a b d e)
    (∀ x m r w, c.capsWait = true →
      let t := chgTag l (x.take 20) (s.onCall l ({ · with remoteTag := some (x.take 20), accepts := (r, w), capsWait := false }))
      exec (.caps l x m r w) s =
        .next (match c.pendingEnd with
          | some e => clearWith l e.outcome t
          | none => if (1 ≤ m ∧ m ≤ 6) ∧ r % 8 ≠ 0 ∧ w % 4 ≠ 0 then sendPlan l (min s.lus.maxStep m) t else clearWith l .refused t).kick)
    ∧ (∀ x m r w, c.capsWait = false →
      (planned → (s.lu l).state = .handshake → exec (.caps l x m r w) s = .next (resendFrame l s).kick)
      ∧ ((¬planned ∨ (s.lu l).state = .transfer) → exec (.caps l x m r w) s = .next s.kick))
    ∧ (planned →
      let t := s.onCall l ({ · with agreedStep := c.planStep, waitOn := false })
      let u := if (s.lu l).state = .handshake then lineMove l .transfer none t else t
      exec (.checkResult l true) s = .next (match c.resend with | some xs => resendRound l xs u | none => boundary l u).kick
      ∧ exec (.checkResult l false) s =
        .next (if c.pageOpen = false ∧ c.pendingEnd.isSome = true then clearWith l ((c.pendingEnd.map (·.outcome)).getD .noReply) s
          else if 1 < c.planStep.getD 1 then sendPlan l (c.planStep.getD 1 - 1) s else clearWith l .checkFail s).kick)
    ∧ (¬planned → ∀ ok, exec (.checkResult l ok) s = .next s.kick))
  ∧ (
  ∀ (s : State) (l : Line) (c : Call), s.running = true → s.call l = some c → c.caller = true → ((s.lu l).state = .handshake ∨ (s.lu l).state = .transfer) →
    let sent (k : PageEndKind) : Prop := c.waitOn = true ∧ ∃ p n, c.lastFrame = some (.pageEnd k p n)
    let taken (d : Nat) : State := s.onCall l fun c => { c with
      pagesDone := c.pagesDone + 1, highest := c.current, damagedPages := if 0 < d then c.damagedPages + 1 else c.damagedPages
      round := 0, waits := 0, pageOpen := false, waitOn := false }
    (∀ xs, (sent .more ∨ sent .last) → c.pageOpen = true →
      let held := ((s.sendPage c).map (·.strips.length)).getD 0
      exec (.stripReport l xs) s =
        .next (if held < 2 * xs.length ∧ 1 < c.planStep.getD 1 then sendPlan l (c.planStep.getD 1 - 1) (s.onCall l ({ · with resend := some xs }))
          else resendRound l xs s).kick)
    ∧ (∀ xs, (¬sent .more ∧ ¬sent .last) ∨ c.pageOpen = false → exec (.stripReport l xs) s = .next s.kick)
    ∧ (∀ d full, sent .last → exec (.pageTaken l d full) s = .next (clearWith l .delivered (if c.pageOpen = true then taken d else s)).kick)
    ∧ (∀ d full, sent .more → c.pageOpen = true →
      exec (.pageTaken l d full) s =
        .next (match c.pendingEnd with
          | some e => clearWith l e.outcome (taken d)
          | none => if full = true then clearWith l .remoteFull (taken d)
            else boundary l ((taken d).onCall l fun c => { c with current := c.current.map (· + 1) })).kick)
    ∧ (∀ d full, ¬sent .last → (¬sent .more ∨ c.pageOpen = false) → exec (.pageTaken l d full) s = .next s.kick)
    ∧ (sent .wait →
      let t := s.onCall l ({ · with waits := c.waits + 1, waitOn := false, waitInterval := true })
      exec (.waiting l) s =
        .next (match c.pendingEnd with
          | some e => clearWith l e.outcome t
          | none => if c.waitOver = true then boundary l t else t).kick)
    ∧ (¬sent .wait → exec (.waiting l) s = .next s.kick))

/-- The answerer's PLAN and rate check (R97, R98): the first PLAN, when acceptable, is routed and makes the received document, else the answer is a
REFUSE; a later PLAN sets the step alone; the burst is measured against the pass threshold that stood when the measurement began and answered OK or
FAIL, or with the REFUSE or the CLEAR that the PLAN earned. The places where a later PLAN is taken are the model's reading (log entry 29), and so is
the PLAN as the beginning of its measurement (log entry 33). The received document takes the lowest empty slot, its reception record the disposition,
with DOC_ROUTED (R121); without a slot the call ends STORE_FULL. -/
def Obligations.AnswerersTakePlansAndBursts : Prop :=
  ∀ (s : State) (l : Line) (c : Call), s.running = true → s.call l = some c → c.caller = false → ((s.lu l).state = .handshake ∨ (s.lu l).state = .transfer) →
    (∀ x step cont page, c.burstReply = none → c.waitOn = true → c.reception = none →
      (c.planned = false →
        let t := chgTag l (x.take 20) ((s.onCall l ({ · with reception := none })).onCall l ({ · with
          planned := true, waitOn := false, remoteTag := some (x.take 20), planStep := some step }))
        exec (.plan l x step cont page) s =
          .next (if (1 ≤ step ∧ step ≤ c.capsMax) ∧ (1 ≤ page ∧ page ≤ 250) ∧ cont = decide (1 < page) then
              let u := t.onCall l ({ · with firstPage := some page, current := some page })
              let m := routeMatch (x.take 20) l u
              if m.1.action = .reject then m.2.onCall l ({ · with burstReply := some (.refuse .barredCaller) }) else createReceived l (x.take 20) m.1 m.2
            else t.onCall l ({ · with burstReply := some (.refuse .notAccepted) })).kick)
      ∧ (c.planned = true → ((s.lu l).state = .handshake ∨ (c.stripAfterFrame = false ∧ c.ended = .neither)) →
        exec (.plan l x step cont page) s = .next ((s.onCall l ({ · with reception := none })).onCall l ({ · with
          planStep := some step, waitOn := false, burstReply := some (if 1 ≤ step ∧ step ≤ c.capsMax then .measure s.lus.passThreshold else .refuse .notAccepted) })).kick))
    ∧ (∀ bytes, (c.burstReply = none → exec (.rateCheckBurst l bytes) s = .next s.kick)
      ∧ (∀ r, c.burstReply = some (.refuse r) → exec (.rateCheckBurst l bytes) s = .next (enterClearing l .rejected (.refuse r) s).kick)
      ∧ (c.burstReply = some .storeFull → exec (.rateCheckBurst l bytes) s = .next (clearWith l .storeFull s).kick)
      ∧ (∀ threshold, c.burstReply = some (.measure threshold) →
        let n := 600 * c.planStep.getD 0
        let bad := ((List.range n).filter fun i => bytes[i]? ≠ some (BitVec.ofNat 8 i)).length
        let t := s.onCall l ({ · with burstReply := none, agreedStep := c.planStep })
        exec (.rateCheckBurst l bytes) s =
          .next (if bad ≤ threshold then sendFrame l (.checkResult true) (if (s.lu l).state = .handshake then lineMove l .transfer none t else t)
            else sendFrame l (.checkResult false) (s.onCall l ({ · with burstReply := none }))).kick))
    ∧ ∀ (u : State) (x : Str) (m : Disposition),
      ((∀ k, 1 ≤ k → k ≤ 64 → (u.doc k).isSome = true) → createReceived l x m u = u.onCall l ({ · with burstReply := some .storeFull }))
      ∧ ∀ d, u.pmc.docs.lowestEmpty 64 d →
        let v : State := { u with pmc := { u.pmc with docs := u.pmc.docs.put d ⟨.receive, .opened, [], 0, false, false, m.route, if x = [] then none else some x, some l,
          if u.tmb.valid = true then some u.tmb.time else none⟩ } }
        let w := v.onCall l ({ · with doc := some d, disposition := some m, burstReply := some (.measure u.lus.passThreshold) })
        createReceived l x m u = ({ w with rrt := { w.rrt with recs := set4 w.rrt.recs l (some ⟨d, m, 0, false, none, none⟩) } } : State).raise .docRouted [BitVec.ofNat 8 d]
          ([BitVec.ofNat 8 l.val] ++ eOpt e8 m.route ++ [BitVec.ofNat 8 m.action.code, BitVec.ofNat 8 m.converted.toNat])

/-- Strips at the answerer (R105, R106, R196, R6): the header of a strip of the expected page in a format of the page takes a reservation for it, any
other strip is dropped; the first header accepted for a page begins it in its format (R7); a strip that gets no reservation is recorded as the copy
missed. A strip with an acceptable header ends when its coded length and two check bytes have come: the coded bytes are then stored and the strip closed
STORED when the CRC-16 over its header and them equals the check bytes, low byte first, DAMAGED when not; then the reply wait runs; a strip after the end
was reached is answered CLEAR. A header within such a strip is part of its bytes; one after a strip that passes ends that strip. A copy of a strip of the
expected page that is dropped for its header or its format leaves its line count, 64 when it is not 1 to 64: a DAMAGED strip of that number takes it at
once, and the call keeps it for a number without a record (R6). The model's readings: how the commands carry a strip's bytes and when a strip that
passes ends (log entry 32), and which copies are copies received (log entry 50). -/
def Obligations.ReceivedStripsAreStored : Prop :=
  (
  ∀ (s : State) (l : Line) (c : Call), s.running = true → s.call l = some c → c.caller = false → (s.lu l).state = .transfer →
    (∀ page strip lines format coded, c.burstReply = none → (∀ ok, c.lastFrame ≠ some (.checkResult ok) ∨ ok = true) →
      let heads := exec (.stripHeaderReceived l page strip lines format coded) s
      let t := s.onCall l fun c => { c with waitOn := false, stripAfterFrame := true, stripSince := c.stripSince || page == c.expected }
      let header : List Byte := [0x5A, 0xA5, BitVec.ofNat 8 page, BitVec.ofNat 8 strip, BitVec.ofNat 8 lines, BitVec.ofNat 8 format,
        BitVec.ofNat 8 coded, BitVec.ofNat 8 (coded / 256)]
      let begins (held : Bool) (u : State) : Host.Outcome State Fault Refusal :=
        .next (u.onCall l ({ · with reception := some (.counted header coded held []) })).kick
      let wanted : Prop := page = c.expected ∧ strip ≤ 79 ∧ 1 ≤ lines ∧ lines ≤ 64 ∧ coded ≤ 16448
      (∀ h n b got, c.reception = some (.counted h n b got) → heads = .next s.kick)
      ∧ (c.reception = some .passing → heads =
        .next (headerTaken l page strip lines format coded (
          let u := s.onCall l ({ · with reception := none, waits := 0, waitOn := true })
          if c.ended = .neither then u else clearWith l c.clearedOutcome u)).kick)
      ∧ (c.reception = none → c.waitOn = true →
        heads = .next (headerTaken l page strip lines format coded s).kick
        ∧ (∀ (re : Resolution) (w : Width), wanted → format % 4 = re.code → format / 4 % 2 = w.code →
          ((c.ended ≠ .neither ∨ c.doc = none) → heads = begins false t)
          ∧ ∀ d, c.ended = .neither → c.doc = some d →
            let r := stripIn l d strip lines (re, w) t
            heads = begins r.1 r.2
              ∧ (∀ k, t.doc d = some k → k.state = .opened → k.filling = none → k.pages.length < 250 →
                let n := k.pages.length + 1
                let begun : State := { t with pmc := { t.pmc with docs := t.pmc.docs.mod d fun k => { k with pages := k.pages ++ [⟨n, re, w, [], false, false, none⟩] } } }
                (t.resvOf (.lu l) = none → 17 ≤ t.pmc.free.length →
                  r = (true, { begun with mem := headerOpened (t.pmc.free.take 17) d strip lines begun, pmc := { begun.pmc with
                    free := t.pmc.free.drop 17, resv := t.pmc.resv ++ [⟨.lu l, t.pmc.free.take 17, d, ⟨strip, lines, 0, [], .filling⟩⟩] } }))
                ∧ (t.pmc.free.length < 17 → r = (false, stripMissed d strip lines begun)))
              ∧ (∀ k, t.doc d = some k → k.filling = none → (k.state ≠ .opened ∨ 250 ≤ k.pages.length) → r = (false, copyDropped l d strip lines t))
              ∧ ∀ p, (t.doc d).bind (·.filling) = some p →
                ((p.res, p.width) ≠ (re, w) → r = (false, copyDropped l d strip lines t))
                ∧ ((p.res, p.width) = (re, w) → (∃ y, p.strip strip = some y ∧ y.state = .stored) → r = (false, t))
                ∧ ((p.res, p.width) = (re, w) → (∀ y, p.strip strip = some y → y.state ≠ .stored) → t.pmc.free.length < 17 → r = (false, stripMissed d strip lines t))
                ∧ ((p.res, p.width) = (re, w) → (∀ y, p.strip strip = some y → y.state ≠ .stored) → t.resvOf (.lu l) = none → 17 ≤ t.pmc.free.length →
                  r = (true, { t with mem := headerOpened (t.pmc.free.take 17) d strip lines t, pmc := { t.pmc with
                    free := t.pmc.free.drop 17, resv := t.pmc.resv ++ [⟨.lu l, t.pmc.free.take 17, d, ⟨strip, lines, 0, [], .filling⟩⟩] } })))
        ∧ ((¬wanted ∨ format % 4 = 3) → heads =
          .next ((match c.doc with
            | some d => if c.ended = EndReached.neither ∧ page = c.expected ∧ strip ≤ 79 then copyDropped l d strip lines t else t
            | none => t).onCall l ({ · with reception := some .passing })).kick)))
    ∧ (∀ bytes check, c.reception = none → exec (.dataStrip l bytes check) s = .next s.kick)
    ∧ ∀ bytes (check : Option (BitVec 16)),
      let gone (u : State) : Host.Outcome State Fault Refusal :=
        let v := u.onCall l ({ · with reception := none, waits := 0, waitOn := true })
        .next (if c.ended = .neither then v else clearWith l c.clearedOutcome v).kick
      (c.reception = some .passing → exec (.dataStrip l bytes check) s = gone s)
      ∧ ∀ header coded held got, c.reception = some (.counted header coded held got) →
        let all := got ++ bytes ++ (match check with | none => [] | some k => [BitVec.ofNat 8 k.toNat, BitVec.ofNat 8 (k.toNat / 256)])
        (all.length < coded + 2 → exec (.dataStrip l bytes check) s = .next (s.onCall l ({ · with reception := some (.counted header coded held all) })).kick)
        ∧ (coded + 2 ≤ all.length → held = false → exec (.dataStrip l bytes check) s = gone s)
        ∧ (coded + 2 ≤ all.length → held = true →
          let crc := crc16 (header ++ all.take coded)
          let good : Prop := (all.drop coded).take 2 = [BitVec.ofNat 8 crc.toNat, BitVec.ofNat 8 (crc.toNat / 256)]
          let stored := stripAppend (.lu l) (all.take coded) s
          (good → exec (.dataStrip l bytes check) s = gone (stripClose (.lu l) .stored stored))
          ∧ (¬good → exec (.dataStrip l bytes check) s = gone (stripClose (.lu l) .damaged stored))))
  ∧ (
  ∀ (s : State) (l : Line) (c : Call) (d strip lines : Nat), s.call l = some c →
    let n := if 1 ≤ lines ∧ lines ≤ 64 then lines else 64
    let t := copyDropped l d strip lines s
    t.call l = some { c with copyLines := c.copyLines.put strip n } ∧ OtherLines l s t ∧ OnlyChanges [.docs, .lines, .lineSets] s t
      ∧ ((s.doc d).bind (·.filling) = none → (t.doc d).bind (·.filling) = none)
      ∧ ∀ p, (s.doc d).bind (·.filling) = some p → ∃ q, (t.doc d).bind (·.filling) = some q ∧ q.number = p.number ∧ q.res = p.res ∧ q.width = p.width
        ∧ ∀ k, q.strip k = (p.strip k).map fun x => if k = strip ∧ x.state = .damaged then { x with lines := n } else x)

/-- PAGE_END at the answerer (R106 to R108): a page already taken is answered again; the end marker is answered PAGE_TAKEN and reached; a page of the
expected number is judged, and stored when no strip is bad or three rounds have been held, else its bad strips are reported; another page number is
refused, but for a new page after the end was reached, which is answered CLEAR; WAIT is answered WAITING, 24 times in a row at most. The model's
choices: a count above 80 is treated as 80 (log entry 30); after the end a repeated end marker is answered again and a WAIT with CLEAR (log entry 31); a
page of count 0 with no strip held is refused (log entry 51); a PAGE_TAKEN sent again begins its sendings at 1 (log entry 58); a WAIT's page number is
not examined (log entry 33). A page at the answerer is stored (R107, R6, R8): with a bad strip the damage decision first, by which DAMAGED
strips give up their blocks and strip numbers below the count without a record become DAMAGED strips of the line count of the last copy that came, or
of 64 lines; then PMC completes the page and RRT has its report; PAGE_TAKEN carries the number of DAMAGED strips, and HOLD_FULL for a page sent as MORE when the free pool is below the
continuation floor or the document has 250 pages. -/
def Obligations.AnswerersJudgePages : Prop :=
  (
  ∀ (s : State) (l : Line) (c : Call), s.running = true → s.call l = some c → c.caller = false → (s.lu l).state = .transfer → c.waitOn = true → c.burstReply = none →
    c.reception = none → (∀ ok, c.lastFrame ≠ some (.checkResult ok) ∨ ok = true) →
    let t : State := (s.onCall l ({ · with reception := none })).onCall l ({ · with waits := 0 })
    (∀ last p n, c.highest = some p → c.stripSince = false →
      exec (.pageEnd l last p n) s = .next (sendFrame l (.pageTaken (c.lastTaken.getD (0, false)).1 (c.lastTaken.getD (0, false)).2) t).kick)
    ∧ (∀ last p n, (c.highest ≠ some p ∨ c.stripSince = true) →
      (p ≠ c.expected → exec (.pageEnd l last p n) s =
        .next (if c.ended ≠ .neither ∧ c.expected < p then clearWith l c.clearedOutcome t else enterClearing l .rejected (.refuse .notAccepted) t).kick)
      ∧ (p = c.expected → n = 0 → t.recvPage c = none → last = true → c.ended ≠ .holdFull →
        exec (.pageEnd l last p n) s = .next (sendFrame l (.pageTaken 0 false) (t.onCall l ({ · with ended := .last }))).kick)
      ∧ (p = c.expected → c.ended ≠ .neither → ¬(n = 0 ∧ t.recvPage c = none ∧ last = true ∧ c.ended ≠ .holdFull) →
        exec (.pageEnd l last p n) s = .next (clearWith l c.clearedOutcome t).kick)
      ∧ (p = c.expected → c.ended = .neither → n = 0 → (∀ q, t.recvPage c = some q → q.strips = []) → ¬(t.recvPage c = none ∧ last = true) →
        exec (.pageEnd l last p n) s = .next (enterClearing l .rejected (.refuse .notAccepted) t).kick)
      ∧ (p = c.expected → c.ended = .neither → (n ≠ 0 ∨ ∃ q, t.recvPage c = some q ∧ q.strips ≠ []) →
        let page := t.recvPage c
        let count := min 80 (match page with | none => n | some q => q.strips.foldl (fun m x => max m (x.no + 1)) n)
        let bad := (List.range count).filter fun k => ¬((page.bind (·.strip k)).any (·.state == .stored)) = true
        let round := if c.reported = true then min 3 (c.round + 1) else c.round
        let u := t.onCall l ({ · with round })
        exec (.pageEnd l last p n) s =
          .next (if page.isSome = true ∧ (bad = [] ∨ 3 ≤ round) then pageStore l (c.doc.getD 0) p count last (!bad.isEmpty) u
            else if 3 ≤ round then clearWith l .abandoned u
            else sendFrame l (.stripReport bad) (u.onCall l ({ · with reported := true }))).kick))
    ∧ ∀ p n,
      let w : State := (s.onCall l ({ · with reception := none })).onCall l ({ · with waits := c.waits + 1 })
      exec (.pageEndWait l p n) s =
        .next (if c.ended ≠ .neither then clearWith l c.clearedOutcome w else if 24 ≤ c.waits then clearWith l .abandoned w else sendFrame l .waiting w).kick)
  ∧ (
  (∀ (s : State) (l : Line) (d p count : Nat) (last bad : Bool),
    let v := if bad = true then damageDecision d count (((s.call l).map (·.copyLines)).getD []) s else s
    let damaged := (((v.doc d).bind (·.filling)).map fun q => (q.strips.filter (·.state == .damaged)).length).getD 0
    let w := pageFinish (.lu l) d v
    let x := routePageStored l d (w.completeCount d) w
    let hold := decide (last = false ∧ (x.pmc.free.length < x.pmc.recvContinue ∨ (x.doc d).any (fun k => 250 ≤ k.pages.length) = true))
    pageStore l d p count last bad s = sendFrame l (.pageTaken damaged hold) (x.onCall l fun c => { c with
      pagesDone := c.pagesDone + 1, damagedPages := if 0 < damaged then c.damagedPages + 1 else c.damagedPages, highest := some p, current := some (p + 1), round := 0
      reported := false, stripSince := false, lastTaken := some (damaged, hold), copyLines := [], ended := if last = true then .last else if hold = true then .holdFull else c.ended }))
  ∧ (∀ (s : State) (c : Client) (d : Nat) (p : Page), (s.doc d).bind (·.filling) = some p →
    pageFinish c d s = if s.resvOf c = none ∧ p.strips ≠ [] then
        pageReport d (s.onDoc d fun k => { k with pages := k.pages.map fun q =>
          if q.complete = true then q else { q with complete := true, blank := s.pageBlank q, damaged := q.damagedStrips } })
      else s)
  ∧ ∀ (s : State) (d count : Nat) (copies : Tbl Nat) (p : Page), (s.doc d).bind (·.filling) = some p →
    let t := damageDecision d count copies s
    t.pmc.free = (p.strips.filter (·.state == .damaged)).flatMap (·.blocks) ++ s.pmc.free
      ∧ OnlyChanges [.freePool, .docs, .scanRun, .notices] s t
      ∧ ∃ q, (t.doc d).bind (·.filling) = some q ∧ q.number = p.number ∧ ∀ n, q.strip n =
        match p.strip n with
        | some x => some (if x.state = .damaged then { x with blocks := [], coded := 0 } else x)
        | none => if n < count then some ⟨n, (copies.get n).getD 64, 0, [], .damaged⟩ else none)

/-! ## Routing (chapter 6) -/

/-- The requests of the routing table (R115, R116), and the match (R117 to R120): an entry matches by its sense over its present conditions, the first
used entry in index order that matches decides, else the default, and its match count rises. The conditions of a route entry (R117): the tag begins
with the prefix, the line is in the set, the minute of day is in the window, which may wrap past midnight and holds its start and not its end, false
while the clock is invalid; an absent condition does not count. A HOLD given in UNATTENDED is PRINT_AND_HOLD to the fallback bin, one copy, ROUTINE,
marked converted; every other action stands (R120). A disposition is carried out (R122 to R125) on the line's reception record: at the report of the
first stored page the document is retained for HOLD and PRINT_AND_HOLD, a FLASH print entry and the forward job are asked for; later reports change
the pages stored alone. At the settling of a document with a complete page the other print entries are asked for, and the record is removed. A refused
entry or job leaves the document retained, with PRINT_FAILED or FORWARD_FAILED. The fields of a route entry and of an action are checked against their
ranges (R115). -/
def Obligations.RoutesDecideDispositions : Prop :=
  (
  (∀ (sense : Sense) (cs : List Bool), sense.holds cs = true ↔
    cs = [] ∨ match sense with | .any => true ∈ cs | .all => false ∉ cs | .none => true ∉ cs)
  ∧ (∀ (s : State) (tag : Str) (l : Line),
    let matches? (x : Nat × Route) : Prop := x.2.sense.holds (x.2.conditions tag l s.clock) = true
    ((∀ x ∈ s.rrt.routes, ¬matches? x) →
      routeMatch tag l s = (convert s.hlc.attended s.rrt.fallbackBin none s.rrt.dflt, { s with rrt := { s.rrt with dfltCount := (s.rrt.dfltCount + 1) % 65536 } }))
    ∧ ∀ pre x post, s.rrt.routes = pre ++ x :: post → (∀ y ∈ pre, ¬matches? y) → matches? x →
      routeMatch tag l s = (convert s.hlc.attended s.rrt.fallbackBin (some x.1) x.2.action,
        { s with rrt := { s.rrt with routes := s.rrt.routes.mod x.1 fun r => { r with count := (r.count + 1) % 65536 } } }))
  ∧ ∀ (s : State) (tag i : Nat) (v : RawRoute) (a : RawAction) (bin : Nat), s.takes →
    (exec (.routeSet tag i v) s = match routeOf? v with
      | some r => .next (if i ≤ 31 then
          ((({ s with rrt := { s.rrt with routes := s.rrt.routes.put i r } } : State).dirty (7 + 2 * i)).dirty (8 + 2 * i)).replied 0x40 tag .ok []
        else s.replied 0x40 tag .badField [])
      | none => .next (s.replied 0x40 tag .badField []))
    ∧ exec (.routeClear tag i) s =
      .next (if i ≤ 31 then
          ((({ s with rrt := { s.rrt with routes := s.rrt.routes.del i } } : State).dirty (7 + 2 * i)).dirty (8 + 2 * i)).replied 0x41 tag .ok []
        else s.replied 0x41 tag .badField [])
    ∧ (∀ x (b : Bin), actionOf? a = some x → bin = b.val →
      exec (.routeDefaultSet tag a bin) s =
        .next ((({ s with rrt := { s.rrt with dflt := x, dfltCount := 0, fallbackBin := b } } : State).dirty 71).replied 0x42 tag .ok []))
    ∧ ((actionOf? a = none ∨ 3 < bin) → exec (.routeDefaultSet tag a bin) s = .next (s.replied 0x42 tag .badField [])))
  ∧ (
  (∀ (r : Route) (tag : Str) (l : Line) (clock : Option CalTime), (∀ w, r.window = some w → w.1 ≠ w.2) →
    r.conditions tag l clock =
      (match r.tagStart with | none => [] | some p => [decide (p <+: tag)])
        ++ (match r.lineSet with | none => [] | some m => [m.testBit l.val])
        ++ (match r.window with
          | none => []
          | some w => [match clock with
            | none => false
            | some t => let m := 60 * t.hour + t.minute
              decide ((w.1 < w.2 ∧ w.1 ≤ m ∧ m < w.2) ∨ (w.2 < w.1 ∧ (w.1 ≤ m ∨ m < w.2)))]))
  ∧ (∀ s : State, s.clock = if s.tmb.valid = true then some s.tmb.time else none)
  ∧ ∀ (fallback : Bin) (route : Option Nat) (a : Action),
    convert true fallback route a = ⟨route, a, false⟩ ∧ convert false fallback route .hold = ⟨route, .printAndHold fallback 1 .routine, true⟩
      ∧ (a ≠ .hold → convert false fallback route a = ⟨route, a, false⟩))
  ∧ (
  (∀ (s : State) (l : Line) (d n : Nat),
    (at4 s.rrt.recs l = none → routePageStored l d n s = s ∧ routeSettle l d s = s)
    ∧ ∀ r, at4 s.rrt.recs l = some r →
      let u : State := { s with rrt := { s.rrt with recs := set4 s.rrt.recs l (some { r with stored := n }) } }
      let gone (t : State) : State := { t with rrt := { t.rrt with recs := set4 t.rrt.recs l none } }
      ((n ≠ 1 ∨ r.applied = true) → routePageStored l d n s = u)
      ∧ (n = 1 → r.applied = false → routePageStored l d n s = (firstPageSteps l d r.disp u).onRec l ({ · with applied := true }))
      ∧ ((s.completeCount d = 0 ∨ r.disp.action.printCls = none ∨ r.disp.action.printCls = some .flash) → routeSettle l d s = gone s)
      ∧ (0 < s.completeCount d → ∀ k, r.disp.action.printCls = some k → k ≠ .flash → routeSettle l d s = gone (routePrint l d r.disp s)))
  ∧ (∀ (s : State) (l : Line) (d : Nat) (route : Option Nat) (conv : Bool) (b : Bin) (c : Nat) (k : Cls) (dial : Str) (a : Nat),
    let disp (x : Action) : Disposition := ⟨route, x, conv⟩
    firstPageSteps l d (disp .hold) s = docRetainSet d s
      ∧ firstPageSteps l d (disp .reject) s = s
      ∧ firstPageSteps l d (disp (.print b c k)) s = (if k = .flash then routePrint l d (disp (.print b c k)) s else s)
      ∧ firstPageSteps l d (disp (.printAndHold b c k)) s =
        (if k = .flash then routePrint l d (disp (.printAndHold b c k)) (docRetainSet d s) else docRetainSet d s)
      ∧ firstPageSteps l d (disp (.forward dial a k none)) s = routeForward l d (disp (.forward dial a k none)) s
      ∧ firstPageSteps l d (disp (.forward dial a k (some (b, c)))) s =
        routeForward l d (disp (.forward dial a k (some (b, c)))) (if k = .flash then routePrint l d (disp (.forward dial a k (some (b, c)))) s else s))
  ∧ ∀ (s : State) (l : Line) (d : Nat) (m : Disposition),
    (∀ b c k, m.action.printSpec = some (b, c) → m.action.printCls = some k →
      (∀ e t, entryCreate d none none c b.val k.code s = .ok (e, t) → routePrint l d m s = t.onRec l ({ · with entry := some e }))
      ∧ ∀ x, entryCreate d none none c b.val k.code s = .error x →
        routePrint l d m s = (docRetainSet d s).raise .printFailed [BitVec.ofNat 8 d] (eOpt e8 m.route ++ [BitVec.ofNat 8 b.val]))
    ∧ ∀ dial a k spec, m.action = .forward dial a k spec →
      (∀ j t, jobCreate true d a k.code none true true (some 3) (some 5) [dial] s = .ok (j, t) → routeForward l d m s = t.onRec l ({ · with job := some j }))
      ∧ ∀ x, jobCreate true d a k.code none true true (some 3) (some 5) [dial] s = .error x →
        routeForward l d m s = (docRetainSet d s).raise .forwardFailed [BitVec.ofNat 8 d] (eOpt e8 m.route ++ eStr dial))
  ∧ (
  (∀ v : RawRoute, (routeOf? v).isSome = true ↔
    v.sense ≤ 2 ∧ (actionOf? v.action).isSome = true
      ∧ (∀ p, v.tagStart = some p → (1 ≤ p.length ∧ p.length ≤ 20) ∧ ∀ c ∈ p, 0x20#8 ≤ c ∧ c ≤ 0x7E#8)
      ∧ (∀ m, v.lineSet = some m → 1 ≤ m ∧ m ≤ 15) ∧ ∀ w, v.window = some w → w.1 ≤ 1439 ∧ w.2 ≤ 1439 ∧ w.1 ≠ w.2)
  ∧ (∀ v r, routeOf? v = some r → r.tagStart = v.tagStart ∧ r.lineSet = v.lineSet ∧ r.window = v.window ∧ r.sense.code = v.sense
      ∧ actionOf? v.action = some r.action ∧ r.count = 0)
  ∧ ∀ b c k : Nat,
    ((actionOf? (.print b c k)).isSome = true ↔ b ≤ 3 ∧ (1 ≤ c ∧ c ≤ 99) ∧ k ≤ 2)
    ∧ ((actionOf? (.printAndHold b c k)).isSome = true ↔ b ≤ 3 ∧ (1 ≤ c ∧ c ≤ 99) ∧ k ≤ 2)
    ∧ (∀ d a spec, (actionOf? (.forward d a k spec)).isSome = true ↔
      dialOk d = true ∧ a ≤ 31 ∧ k ≤ 2 ∧ ∀ x, spec = some x → x.1 ≤ 3 ∧ 1 ≤ x.2 ∧ x.2 ≤ 99)
    ∧ actionOf? (.undefined k) = none)

/-! ## Send jobs (chapter 7) -/

/-- SEND (R128, R129, R29): the refusals in their order, and the new QUEUED job in the lowest empty slot once finished jobs have yielded theirs, those
of lowest finish order first and no more of them than the job needs, its
recipients WAITING from page 1, its hold on the document; then the readiness test and an arbitration pass. That an embargo's calendar time is valid
only with its own weekday is the model's reading (log entry 37). -/
def Obligations.SendMakesAJob : Prop :=
  ∀ (s : State) (tag doc account cls : Nat) (embargo : Option CalTime) (early unattended : Bool) (attempts interval : Option Nat) (dials : List Str), s.takes →
    let att := attempts.getD s.dsc.attempts
    let int := interval.getD s.dsc.interval
    let out (r : Result) : Prop := exec (.send tag doc account cls embargo early unattended attempts interval dials) s = .next (s.replied 0x38 tag r [])
    let fields : Prop := account ≤ 31 ∧ cls ≤ 2 ∧ (1 ≤ att ∧ att ≤ 9) ∧ (1 ≤ int ∧ int ≤ 60) ∧ (∀ e, embargo = some e → e.valid = true)
      ∧ (1 ≤ dials.length ∧ dials.length ≤ 64) ∧ ∀ d ∈ dials, dialOk d = true
    let unfinished := s.dsc.jobs.filter fun x => !x.2.finished
    let fits : Prop := (s.dsc.jobs.length < 32 ∨ ∃ x ∈ s.dsc.jobs, x.2.finished = true) ∧ dials.length + (unfinished.map (·.2.recips.length)).sum ≤ 256
    (¬fields → out .badField)
    ∧ (fields → ¬fits → out .full)
    ∧ (fields → fits → (s.doc doc = none ∨ ∃ d, s.doc doc = some d ∧ d.deletePending = true) → out .noSuch)
    ∧ (∀ d, fields → fits → s.doc doc = some d → d.deletePending = false → d.state ≠ .opened → d.completeCount = 0 → out .state)
    ∧ (s.dsc.jobs.length < 32 → dials.length + (s.dsc.jobs.map (·.2.recips.length)).sum ≤ 256 → s.dsc.reclaim dials.length 32 = s.dsc)
    ∧ (∀ x ∈ (s.dsc.reclaim dials.length 32).jobs, x ∈ s.dsc.jobs)
    ∧ (Tbl.wf s.dsc.jobs → ∀ x ∈ unfinished, x ∈ (s.dsc.reclaim dials.length 32).jobs)
    ∧ (Tbl.wf s.dsc.jobs →
      let kept := (s.dsc.reclaim dials.length 32).jobs
      let gone := s.dsc.jobs.filter fun x => !kept.contains x
      (∀ x ∈ gone, ∀ y ∈ kept, y.2.finished = true → x.2.finish.getD 0 ≤ y.2.finish.getD 0)
        ∧ (gone ≠ [] → ∃ x ∈ gone, (∀ y ∈ gone, y.2.finish.getD 0 ≤ x.2.finish.getD 0)
          ∧ (32 ≤ kept.length + 1 ∨ 256 < dials.length + (kept.map (·.2.recips.length)).sum + x.2.recips.length)))
    ∧ ∀ d (k : Cls) j, fields → fits → s.doc doc = some d → d.deletePending = false → (d.state = .opened ∨ 0 < d.completeCount) → cls = k.code →
      (s.dsc.reclaim dials.length 32).jobs.lowestEmpty 32 j →
      let n := (s.dsc.enqueueNo + 1) % 4294967296
      let x : Job := ⟨doc, account, k, embargo, early, unattended, att, int, false, false, false, n, none, .queued,
        dials.map fun d => ⟨d, .waiting, none, 0, none, 0, 1, none, none⟩⟩
      let t : State := { s with
        pmc := { s.pmc with docs := s.pmc.docs.mod doc fun d => { d with holders := d.holders + 1 } }
        dsc := { s.dsc.reclaim dials.length 32 with enqueueNo := n, jobs := (s.dsc.reclaim dials.length 32).jobs.put j x } }
      exec (.send tag doc account cls embargo early unattended attempts interval dials) s =
        .next ((pass (readinessJob j (scnAttach doc j t))).replied 0x38 tag .ok [BitVec.ofNat 8 j])

/-- JOB_CANCEL (R141, R140): the refusals (that they come in the order NO_SUCH, STATE, BAD_FIELD is the model's choice, log entry 35); a job none of
whose recipients is in a call or has a binding offered is CANCELLED at once with the next finish order, its recipients that are not terminal CANCELLED.
A recipient that is BOUND or IN_CALL is ended through its line: the end request CANCELLED goes to the line that it is bound to, now or after the page by
the mode, and the recipient otherwise stays as it is, as one with a binding offered does. DIAL_SET (R130). -/
def Obligations.JobsAreCancelled : Prop :=
  (
  ∀ (s : State) (tag job mode : Nat), s.takes →
    (s.job job = none → exec (.jobCancel tag job mode) s = .next (s.replied 0x3A tag .noSuch []))
    ∧ (∀ x, s.job job = some x →
      ((x.state = .done ∨ x.state = .cancelled) → exec (.jobCancel tag job mode) s = .next (s.replied 0x3A tag .state []))
      ∧ ((x.state = .queued ∨ x.state = .active) →
        (2 ≤ mode → exec (.jobCancel tag job mode) s = .next (s.replied 0x3A tag .badField []))
        ∧ (mode ≤ 1 →
          let t := jobCancel job (mode == 0) s
          exec (.jobCancel tag job mode) s = .next (t.replied 0x3A tag .ok [])
          ∧ ((∀ r ∈ x.recips, r.state ≠ .bound ∧ r.state ≠ .inCall ∧ r.offeredTo = none) →
            t.job job = some { x with
                cancelRequested := true, cancelNow := mode == 0, state := .cancelled, finish := some ((s.dsc.finishNo + 1) % 4294967296)
                recips := x.recips.map fun r =>
                  if r.state = .delivered ∨ r.state = .failed ∨ r.state = .cancelled then r
                  else { r with state := .cancelled, last := some .cancelled, nextAttempt := none } }
              ∧ OnlyChanges Part.settling s t))))
    ∧ ∀ guard att int, exec (.dialSet tag guard att int) s =
      .next (if guard ≤ 3 ∧ (1 ≤ att ∧ att ≤ 9) ∧ 1 ≤ int ∧ int ≤ 60 then
          (({ s with dsc := { s.dsc with guard := guard, attempts := att, interval := int } } : State).dirty 6).replied 0x39 tag .ok []
        else s.replied 0x39 tag .badField []))
  ∧ (
  ∀ (s : State) (j : Nat) (now : Bool) (x : Job), s.job j = some x →
    let marked : State := { s with dsc := { s.dsc with jobs := s.dsc.jobs.mod j ({ · with cancelRequested := true, cancelNow := now }) } }
    let places := (List.range x.recips.length).map (· + 1)
    ((x.state = .done ∨ x.state = .cancelled) → jobCancel j now s = s)
    ∧ ((x.state = .queued ∨ x.state = .active) →
      jobCancel j now s = jobSettle j (eachDo (cancelCalling now j) places (eachDo (cancelIdle j) places marked))
      ∧ ((∀ r ∈ x.recips, r.state ≠ .bound ∧ r.state ≠ .inCall ∧ (r.state.terminal = true ∨ r.offeredTo.isSome = true)) →
        (∃ r ∈ x.recips, r.state.terminal = false) → jobCancel j now s = marked)
      ∧ ∀ (p : Nat) (r : Recip) (l : Line) (c : Call), s.recip j p = some r → (∀ k q, k ≠ p → s.recip j k = some q → q.state.terminal = true) →
        (r.state = .bound ∨ r.state = .inCall) → r.line = some l → s.call l = some c → c.caller = true →
        ((s.lu l).state = .handshake ∨ (s.lu l).state = .transfer) → c.signal ≠ none → c.waitInterval = false → c.pendingEnd = none →
        jobCancel j now s = marked.onCall l ({ · with pendingEnd := some ⟨now, .cancelled⟩ })
          ∧ (jobCancel j now s).recip j p = some r))
  ∧ (
  ∀ (u : State) (j p : Nat) (now : Bool) (r : Recip), u.recip j p = some r →
    let left : Prop := r.state.terminal = true ∨ r.state = .bound ∨ r.state = .inCall ∨ r.offeredTo.isSome = true
    (left → cancelIdle j p u = u)
    ∧ (¬left → cancelIdle j p u = recipSet j p ({ · with state := .cancelled, last := some .cancelled, nextAttempt := none }) u)
    ∧ (r.state ≠ .bound → r.state ≠ .inCall → cancelCalling now j p u = u)
    ∧ ((r.state = .bound ∨ r.state = .inCall) → ∀ l, r.line = some l → cancelCalling now j p u = endRequest l ⟨now, .cancelled⟩ u))

/-- The readiness test and the barred test (R131, R132) on a recipient that is WAITING or ELIGIBLE without a binding offered, and the expiries that
run them (R133): the embargo's, and the end of a retry wait whose next attempt time has come by the clock as it stands (R173), after which a pass runs
if a recipient became ELIGIBLE. A job's readiness tests are those of its recipients in list order, a document's those of the unfinished jobs on it. That
an ELIGIBLE recipient whose embargo is again in the future becomes WAITING at a report is the model's choice (log entry 66). -/
def Obligations.RecipientsBecomeReady : Prop :=
  (
  ∀ (s : State) (j p : Nat) (x : Job) (r : Recip), s.job j = some x → s.recip j p = some r →
    let c := s.completeCount x.doc
    let opened : Prop := s.docOpen x.doc = true
    let held : Prop := ∃ e, x.embargo = some e ∧ (s.tmb.valid = false ∨ s.now.secs < e.secs)
    let waits : Prop := r.state = .waiting ∨ r.state = .eligible
    let t := readinessTest j p s
    (¬waits ∨ r.offeredTo.isSome = true → t = s)
    ∧ (waits → r.offeredTo = none →
      (held → t.recip j p = some { r with state := .waiting })
      ∧ (¬held → ¬opened →
        (c < r.resume → c = 0 → t.recip j p = some { r with state := .failed, last := some .noPages })
        ∧ (c < r.resume → c ≠ 0 → r.delivered = c → t.recip j p = some { r with state := .delivered }))
      ∧ (¬held → opened → (x.early = false ∨ c < r.resume) → t.recip j p = some { r with state := .waiting })
      ∧ (¬held → ((¬opened ∧ (r.resume ≤ c ∨ (c ≠ 0 ∧ r.delivered ≠ c))) ∨ (opened ∧ x.early = true ∧ r.resume ≤ c)) →
        (r.state = .eligible → t = s)
        ∧ (r.state = .waiting → t.recip j p = some (if s.preCheck x.account r.dial = .barred then { r with state := .failed, last := some .barred }
          else { r with state := .eligible }))))
    ∧ (s.running = true →
      exec (.embargoExpiry j) s =
        .next (if (x.state = .queued ∨ x.state = .active) ∧ s.tmb.valid = true then passIfNew s (readinessJob j s) else s).kick
      ∧ exec (.retryExpiry j p) s =
        .next (if r.state = .retryWait ∧ (∀ n, r.nextAttempt = some n → n ≤ s.now.secs) then passIfNew s (readinessTest j p (recipSet j p ({ · with state := .waiting, nextAttempt := none }) s)) else s).kick))
  ∧ (
  ∀ s : State,
    (∀ j x, s.job j = some x → readinessJob j s = eachDo (readinessTest j) ((List.range x.recips.length).map (· + 1)) s)
    ∧ (∀ d, readinessDoc d s =
      eachDo (fun j u => if (u.job j).any (fun x => x.doc == d && x.state != .done && x.state != .cancelled) = true then readinessJob j u else u) s.dsc.jobs.keys s)
    ∧ (∀ before : State, passIfNew before s = if ∃ x ∈ s.madeEligible, x ∉ before.madeEligible then pass s else s)
    ∧ (Tbl.wf s.dsc.jobs → ∀ j p, (j, p) ∈ s.madeEligible ↔
      ∃ r, s.recip j p = some r ∧ (r.state = .eligible ∨ (r.state = .failed ∧ r.last = some .barred))))

/-- A call-end report at its recipient (R139): pages, resume page, bound line, last outcome, attempts used; DELIVERED, CANCELLED, a retry after the
job's interval, or FAILED, by the outcome; and a job all of whose recipients are terminal finishes (R140): DONE, or CANCELLED when its cancellation was
requested, with the next finish order, the release of its hold, and JOB_END with the numbers delivered, failed and cancelled. A recipient that changes
into a state other than WAITING and ELIGIBLE raises RECIPIENT_CHANGED (R145). That a next attempt time past the end of
the calendar is kept as the sum is the model's choice (log entry 63). -/
def Obligations.OutcomesMoveRecipients : Prop :=
  (
  ∀ (s : State) (j p : Nat) (x : Job) (r : Recip) (o : CallOutcome) (taken : Option Nat) (resume : Nat), s.job j = some x → s.recip j p = some r →
    let q := r.ended x s.now.secs o taken resume
    let again : Prop := o ∈ [CallOutcome.busy, .noAnswer, .noDialtone, .checkFail, .noReply, .lineLost, .remoteFull]
    let counted : Prop := again ∨ o ∈ [CallOutcome.delivered, .refused, .budget]
    ((x.state = .queued ∨ x.state = .active) → q.state.terminal = true → (∀ k y, k ≠ p → s.recip j k = some y → y.state.terminal = true) →
        ∃ y, (dscCallEnd j p o taken resume s).job j = some y ∧ y.finish = some ((s.dsc.finishNo + 1) % 4294967296)
          ∧ y.state = (if x.cancelRequested then .cancelled else .done))
      ∧ (dscCallEnd j p o taken resume s).recip j p = some q ∧ OnlyChanges Part.settling s (dscCallEnd j p o taken resume s)
      ∧ q.dial = r.dial ∧ q.offeredTo = r.offeredTo ∧ q.delivered = max r.delivered (taken.getD 0) ∧ q.resume = resume ∧ q.line = none ∧ q.last = some o
      ∧ (counted → q.used = r.used + 1) ∧ (¬counted → q.used = r.used)
      ∧ (o = .delivered → q.state = .delivered)
      ∧ ((o = .cancelled ∨ (x.cancelRequested = true ∧ o ≠ .delivered)) → q.state = .cancelled)
      ∧ (x.cancelRequested = false → again → r.used + 1 < x.attempts → q.state = .retryWait ∧ q.nextAttempt = some (s.now.secs + 60 * x.interval))
      ∧ (x.cancelRequested = false → ((again ∧ x.attempts ≤ r.used + 1) ∨ o = .refused ∨ o = .budget) → q.state = .failed)
      ∧ dscCallEnd j p o taken resume s = jobSettle j (recipSet j p (fun _ => q) s))
  ∧ (
  ∀ (s : State) (j p : Nat) (f : Recip → Recip),
    (s.recip j p = none → recipSet j p f s = s)
    ∧ ∀ r, s.recip j p = some r →
      let q := f r
      let u : State := { s with dsc := { s.dsc with jobs := s.dsc.jobs.mod j fun x => { x with recips := x.recips.set (p - 1) q } } }
      (u.recip j p = some q ∧ (∀ k n, (k, n) ≠ (j, p) → u.recip k n = s.recip k n))
        ∧ recipSet j p f s = if q.state ≠ .waiting ∧ q.state ≠ .eligible ∧ q.state ≠ r.state then
            u.raise .recipientChanged [BitVec.ofNat 8 j, BitVec.ofNat 8 p] ([BitVec.ofNat 8 q.state.code] ++ eOpt (fun o => e8 o.code) q.last
              ++ [BitVec.ofNat 8 q.used, BitVec.ofNat 8 q.delivered, BitVec.ofNat 8 q.resume])
          else u)
  ∧ (
  ∀ (s : State) (j : Nat),
    (s.job j = none → jobSettle j s = s)
    ∧ ∀ x, s.job j = some x →
      ((x.state = .done ∨ x.state = .cancelled ∨ ∃ r ∈ x.recips, r.state.terminal = false) → jobSettle j s = s)
      ∧ (x.state ≠ .done → x.state ≠ .cancelled → (∀ r ∈ x.recips, r.state.terminal = true) →
        let n := (s.dsc.finishNo + 1) % 4294967296
        let st : JobState := if x.cancelRequested = true then .cancelled else .done
        let count (k : RecipState) : Byte := BitVec.ofNat 8 (x.recips.filter (·.state == k)).length
        jobSettle j s =
          (docRelease x.doc { s with dsc := { s.dsc with finishNo := n, jobs := s.dsc.jobs.mod j ({ · with state := st, finish := some n }) } }).raise .jobEnd
            [BitVec.ofNat 8 j] [BitVec.ofNat 8 x.doc, BitVec.ofNat 8 st.code, count .delivered, count .failed, count .cancelled]))

/-- The arbitration pass (R135 to R137, R156): the offered lines that are not pending in ascending order; for each the recipients in order of class,
enqueue order and position are tried until one is bound, and a line for which none is bound ends the pass, as a full log does. A recipient is bound to
a line exactly when it passes every candidate test and the log has more than LOG_RESERVE free slots, and it then holds an OUT log reservation; one
that the pre-check finds barred becomes FAILED BARRED (R132) and the next is tried, as after one that no test passes; without a free slot above the
reserve LOG_FULL is raised. Which free slot of the log the reservation takes, the lowest-numbered, is the model's choice (log entry 43). -/
def Obligations.PassBindsTheFirstCandidate : Prop :=
  ∀ s : State,
    ((sortJobs s.dsc.jobs).Perm s.dsc.jobs
      ∧ (sortJobs s.dsc.jobs).Pairwise fun a b => a.2.cls.rank < b.2.cls.rank ∨ (a.2.cls.rank = b.2.cls.rank ∧ a.2.enqueue ≤ b.2.enqueue))
    ∧ s.inOrder = (sortJobs s.dsc.jobs).flatMap (fun x => (List.range x.2.recips.length).map fun i => (x.1, i + 1))
    ∧ pass s = passLines [0, 1, 2, 3] s
    ∧ (∀ (l : Line) (ls : List Line),
      passLines [] s = s
        ∧ ((at4 s.dsc.offered l = false ∨ s.linePending l = true) → passLines (l :: ls) s = passLines ls s)
        ∧ (at4 s.dsc.offered l = true → s.linePending l = false →
          ∀ bound t, passLine l s.inOrder s = (bound, t) → passLines (l :: ls) s = if bound = true then passLines ls t else t))
    ∧ (∀ (l : Line) (j p : Nat) (rest : List (Nat × Nat)),
      passLine l [] s = (false, s)
        ∧ (∀ t, tryRecip l j p s = .bound t → passLine l ((j, p) :: rest) s = (true, t))
        ∧ (∀ t, tryRecip l j p s = .skipped t → passLine l ((j, p) :: rest) s = passLine l rest t)
        ∧ ∀ t, tryRecip l j p s = .logFull t → passLine l ((j, p) :: rest) s = (false, t))
    ∧ (∀ (l : Line), s.linePending l = true ↔ ∃ x ∈ s.dsc.jobs, ∃ r ∈ x.2.recips, r.offeredTo = some l)
    ∧ ((∀ l, at4 s.dsc.offered l = true → s.linePending l = true) → pass s = s)
    ∧ OnlyChanges Part.passing s (pass s)
    ∧ (∀ (l : Line) (j p : Nat),
      ((s.job j = none ∨ s.recip j p = none) → tryRecip l j p s = .skipped s)
      ∧ ∀ x r, s.job j = some x → s.recip j p = some r →
        let test : Prop := r.state = .eligible ∧ r.offeredTo = none ∧ r.used < x.attempts ∧ (s.hlc.attended = true ∨ x.unattended = true)
          ∧ (∀ y ∈ s.dsc.jobs, ∀ q ∈ y.2.recips, q.dial = r.dial → q.state ≠ .bound ∧ q.state ≠ .inCall ∧ q.offeredTo = none)
          ∧ (x.cls = .flash ∨ s.dsc.guard ≤ s.idleBut l)
        (¬test → tryRecip l j p s = .skipped s)
        ∧ (test →
          (s.preCheck x.account r.dial = .barred →
            tryRecip l j p s = .skipped (jobSettle j (recipSet j p ({ · with state := .failed, last := some .barred }) s)))
          ∧ (s.preCheck x.account r.dial = .refused → tryRecip l j p s = .skipped s)
          ∧ (s.preCheck x.account r.dial = .pass → 124 ≤ s.chg.records.length + s.chg.resvs.length →
            tryRecip l j p s = .logFull (s.raise .logFull [0] [1, BitVec.ofNat 8 (128 - (s.chg.records.length + s.chg.resvs.length))]))))
    ∧ (∀ (l : Line), s.idleBut l = ([0, 1, 2, 3].filter fun k : Line => at4 s.dsc.idle k && k != l && !s.linePending k).length)
    ∧ (let used := s.chg.records.map (·.slot) ++ s.chg.resvs.map (·.slot)
      used.length < 128 → s.freeLogSlot < 128 ∧ s.freeLogSlot ∉ used ∧ ∀ n, n < s.freeLogSlot → n ∈ used)
    ∧ ∀ (l : Line) (j p : Nat) (t : State),
      tryRecip l j p s = .bound t ↔ ∃ x r, s.job j = some x ∧ s.recip j p = some r ∧ r.state = .eligible ∧ r.offeredTo = none ∧ r.used < x.attempts
        ∧ (s.hlc.attended = true ∨ x.unattended = true)
        ∧ (∀ y ∈ s.dsc.jobs, ∀ q ∈ y.2.recips, q.dial = r.dial → q.state ≠ .bound ∧ q.state ≠ .inCall ∧ q.offeredTo = none)
        ∧ (x.cls = .flash ∨ s.dsc.guard ≤ s.idleBut l)
        ∧ s.preCheck x.account r.dial = .pass ∧ s.chg.records.length + s.chg.resvs.length < 124
        ∧ t = recipSet j p ({ · with offeredTo := some l }) { s with chg := { s.chg with
            resvs := s.chg.resvs ++ [⟨s.freeLogSlot, l, false, some ⟨x.account, some (j, p), x.cls, r.dial, s.rate r.dial⟩, none, none, none, none, 0, false, false,
              !s.tmb.valid, !s.hlc.attended, false, none, none, none, 0, false⟩] } }

/-! ## Charging (chapter 8) -/

/-- Rating (R148) and the pre-check (R154): the used entry with the longest prefix of the dial string less its P and W, then of the lowest index,
gives the band, 15 where none matches; a BARRED band, a suspended account and a limit the call would pass are told apart. The period (R151). -/
def Obligations.CallsAreRatedAndPreChecked : Prop :=
  ∀ (s : State) (dial : Str) (account : Nat),
    let n := dial.filter fun c => c ≠ 0x50#8 ∧ c ≠ 0x57#8
    let begins (x : Nat × Tariff) : Prop := x.2.digits <+: n
    ((∀ x ∈ s.chg.tariffs, ¬begins x) → s.rate dial = 15)
    ∧ (∀ x ∈ s.chg.tariffs, begins x → Tbl.wf s.chg.tariffs →
      (∀ y ∈ s.chg.tariffs, begins y → y.2.digits.length < x.2.digits.length ∨ (y.2.digits.length = x.2.digits.length ∧ x.1 ≤ y.1)) →
      s.rateEntry dial = some x ∧ s.rate dial = x.2.band)
    ∧ (let b := s.band (s.rate dial)
      let a := s.account account
      s.preCheck account dial =
        if b.barred = true then .barred
        else if a.suspended = true then .refused
        else if a.limit = 0 then .pass
        else if a.spent + Band.setup b s.period + Band.unit b s.period ≤ a.limit then .pass
        else .refused)
    ∧ (let c := s.chg.calendar
      let m := s.now.minuteOfDay
      let window : Prop := (c.start < c.stop ∧ c.start ≤ m ∧ m < c.stop) ∨ (c.stop < c.start ∧ (c.start ≤ m ∨ m < c.stop)) ∨ c.start = c.stop
      s.period = .peak ↔ s.tmb.valid = false ∨ (c.mask.testBit (s.now.weekday - 1) = true ∧ window))

/-- The requests of the tariffs, the bands, the calendar and the accounts (R149 to R151, R153, R163): the values replaced, the row dirty or queued, a
pass run, OK; BAD_FIELD for a value out of its range. That a calendar mask above 127 is out of its range is the model's reading (log entry 34). -/
def Obligations.ChargingTablesAreReplaced : Prop :=
  ∀ (s : State) (tag i : Nat), s.takes →
    let bad (kind : Nat) : Host.Outcome State Fault Refusal := .next (s.replied kind tag .badField [])
    let done (kind : Nat) (t : State) : Host.Outcome State Fault Refusal := .next ((pass t).replied kind tag .ok [])
    (∀ (digits : Str) (band : Nat), exec (.tariffSet tag i digits band) s =
      if i ≤ 127 ∧ (1 ≤ digits.length ∧ digits.length ≤ 8) ∧ (∀ c ∈ digits, 0x30#8 ≤ c ∧ c ≤ 0x39#8) ∧ band ≤ 15 then
        done 0x48 (({ s with chg := { s.chg with tariffs := s.chg.tariffs.put i ⟨digits, band⟩ } } : State).dirty (72 + i / 4))
      else bad 0x48)
    ∧ exec (.tariffClear tag i) s =
      (if i ≤ 127 then done 0x49 (({ s with chg := { s.chg with tariffs := s.chg.tariffs.del i } } : State).dirty (72 + i / 4)) else bad 0x49)
    ∧ (∀ v : Band, exec (.bandSet tag i v) s =
      if i ≤ 15 ∧ (v.setupPeak ≤ 65535 ∧ v.setupOff ≤ 65535 ∧ v.unitPeak ≤ 65535 ∧ v.unitOff ≤ 65535)
          ∧ (1 ≤ v.intervalPeak ∧ v.intervalPeak ≤ 600) ∧ 1 ≤ v.intervalOff ∧ v.intervalOff ≤ 600 then
        done 0x4A (({ s with chg := { s.chg with bands := s.chg.bands.set i v } } : State).dirty (104 + i))
      else bad 0x4A)
    ∧ (∀ start stop mask, exec (.calendarSet tag start stop mask) s =
      if start ≤ 1439 ∧ stop ≤ 1439 ∧ mask ≤ 127 then
        done 0x4B (({ s with chg := { s.chg with calendar := ⟨start, stop, mask⟩ } } : State).dirty 120)
      else bad 0x4B)
    ∧ (∀ (limit policy : Nat) (flash suspended : Bool),
      ((31 < i ∨ 4294967295 < limit ∨ 2 < policy) → exec (.accountSet tag i limit policy flash suspended) s = bad 0x4E)
      ∧ ∀ (p : Policy), i ≤ 31 → limit ≤ 4294967295 → policy = p.code →
        let a := s.account i
        exec (.accountSet tag i limit policy flash suspended) s =
          done 0x4E (({ s with chg := { s.chg with accounts := s.chg.accounts.set i { a with
            limit := limit, policy := p, flashExempt := flash, suspended := suspended
            limitLowered := a.limitLowered || decide (limit ≠ 0 ∧ limit < a.spent) } } } : State).dirty (121 + i)))
    ∧ ∀ first : Option Nat,
      let closed (a : Nat) (t : State) : State :=
        accountRow a { t with chg := { t.chg with accounts := t.chg.accounts.set a { t.account a with
          spent := 0, calls := 0, pages := 0, limitLowered := false, overrun := false } } }
      (((31 < i ∧ i ≠ 255) ∨ first = some 0) → exec (.accountClosePeriod tag i first) s = bad 0x50)
      ∧ ((i ≤ 31 ∨ i = 255) → first ≠ some 0 →
        let named := if i = 255 then List.range 32 else [i]
        exec (.accountClosePeriod tag i first) s =
          .next ((pass (named.foldl (fun t a => closed a t) s)).replied 0x50 tag .ok (listBody [] first (named.map (totalsItem s)))))

/-- LOG_DROP (R166): the oldest committed records are removed, the number removed and the number now at the head answered; reservations stay; freed
slots run a pass. -/
def Obligations.LogDropRemovesTheOldest : Prop :=
  ∀ (s : State) (tag count : Nat) (expected : Option Nat), s.takes →
    ((count = 0 ∨ 128 < count) → exec (.logDrop tag count expected) s = .next (s.replied 0x53 tag .badField []))
    ∧ (1 ≤ count → count ≤ 128 →
      (∀ n, expected = some n → (s.chg.records = [] ∨ ∃ r rest, s.chg.records = r :: rest ∧ r.number ≠ n) →
        exec (.logDrop tag count expected) s = .next (s.replied 0x53 tag .state []))
      ∧ ((expected = none ∨ ∃ r rest, s.chg.records = r :: rest ∧ expected = some r.number) →
        let k := min count s.chg.records.length
        let left := s.chg.records.drop count
        let t : State := { s with chg := { s.chg with records := left } }
        exec (.logDrop tag count expected) s =
          .next ((if k = 0 then s else pass t).replied 0x53 tag .ok
            (BitVec.ofNat 8 k :: match left with | [] => [0] | r :: _ => 1 :: e16 r.number))))

/-! ## Clock and store (chapter 9) -/

/-- CLOCK_SET and the second (R171, R172): the time given, or the invalid mark, with DSC's report; one second on by the calendar, wrapping at the last
second of 2099, and at no other, to 1 January 2000 with the clock invalid and DSC told. Elapsed seconds count on whatever the calendar does. What a clock report does (R144): the jobs
one by one in ascending id (the model's order, log entry 61); an unfinished job's readiness tests, then for each recipient with a next attempt time: a
time that has come ends the wait, one that is further off than the job's interval is brought to it; then a pass. -/
def Obligations.ClockIsSetAndTicks : Prop :=
  (
  ∀ (s : State) (tag : Nat),
    (s.takes →
      exec (.clockSet tag none) s = .next ((clockReport { s with tmb := ⟨s.tmb.time, false⟩ }).replied 0x58 tag .ok [])
      ∧ ∀ t : CalTime,
        let valid : Prop := (2000 ≤ t.year ∧ t.year ≤ 2099) ∧ (1 ≤ t.month ∧ t.month ≤ 12) ∧ (1 ≤ t.day ∧ t.day ≤ daysInMonth t.year t.month)
          ∧ t.hour ≤ 23 ∧ t.minute ≤ 59 ∧ t.second ≤ 59 ∧ t.weekday = (t.days + 5) % 7 + 1
        (valid → exec (.clockSet tag (some t)) s = .next ((clockReport { s with tmb := ⟨t, true⟩ }).replied 0x58 tag .ok []))
        ∧ (¬valid → exec (.clockSet tag (some t)) s = .next (s.replied 0x58 tag .badField [])))
    ∧ (s.running = true →
      let t : State := { s with elapsed := s.elapsed + 1, tmb := ⟨s.tmb.time.tick.1, s.tmb.valid && !s.tmb.time.tick.2⟩ }
      exec .secondTick s = .next (if s.tmb.valid = true ∧ s.tmb.time.tick.2 = true then clockReport t else t).kick)
    ∧ (∀ t : CalTime, t.valid = true → t.tick.2 = false → t.tick.1.valid = true ∧ t.tick.1.secs = t.secs + 1)
    ∧ (∀ t : CalTime, t.valid = true → (t.tick.2 = true ↔ t = ⟨2099, 12, 31, 4, 23, 59, 59⟩))
    ∧ CalTime.tick ⟨2099, 12, 31, 4, 23, 59, 59⟩ = (⟨2000, 1, 1, 6, 0, 0, 0⟩, true))
  ∧ (
  ∀ s : State,
    clockReport s = pass (eachDo clockJob s.dsc.jobs.keys s)
    ∧ (∀ j x, s.job j = some x →
      clockJob j s = eachDo (retryAdjust j) ((List.range x.recips.length).map (· + 1))
        (if x.state = .queued ∨ x.state = .active then readinessJob j s else s))
    ∧ ∀ j p x r, s.job j = some x → s.recip j p = some r →
      (r.nextAttempt = none → retryAdjust j p s = s)
      ∧ ∀ n, r.nextAttempt = some n →
        (n ≤ s.now.secs → r.state = .retryWait →
          retryAdjust j p s = readinessTest j p (recipSet j p ({ · with state := .waiting, nextAttempt := none }) s))
        ∧ (n ≤ s.now.secs → r.state ≠ .retryWait → retryAdjust j p s = s)
        ∧ (s.now.secs < n → (retryAdjust j p s).recip j p = some { r with nextAttempt := some (min n (s.now.secs + 60 * x.interval)) }
          ∧ OnlyChanges [.jobs] s (retryAdjust j p s)))

/-- The settings store (R174, R176 to R178): STORE_SAVE; an item taken composes its row with a good check byte; a write that succeeds puts the row in
the settings memory and clears its marks, one that fails leaves it dirty, sets the flag and raises STORE_FAULT with row, section and cause, and the save
is ABORTed; no other byte of the memory changes. The save takes the dirty rows in ascending order, which their list keeps; with none left it ends END and
clears the flag; either end leaves the queue and raises STORE_END with status and rows written (codes: log entry 38). An account row
that is asked for joins one that waits, takes the next place also while it is being written, or becomes dirty when no place is free (R176). At RESTART
a save that is writing a row is told to stop, and the row's end, good or bad, ends it ABORT (R180). That the count of rows written is 0 from the
moment the save is taken, and that the save's next row begins without another QUEUE_ITEM_START, is the model's reading (log entry 39). A write has two
phases (R178). The transfer: start, device address, the two address bytes, high byte first, the 32 bytes, each to be answered with ACK, and stop; a NACK
ends it at once, with stop and cause NACK. The poll: start and device address, and on NACK stop and the same again, until an ACK ends the write well. The
answers of the memory come with ROW_WRITE_COMPLETE (log entry 68). -/
def Obligations.RowsAreWritten : Prop :=
  (
  ∀ s : State,
    (∀ tag, s.takes → exec (.storeSave tag) s =
      .next (if s.ssc.status = .run then s.replied 0x5C tag .state []
        else if 32 ≤ s.ssc.queue.length then s.replied 0x5C tag .full []
        else ({ s with ssc := { s.ssc with queue := s.ssc.queue ++ [.save], status := .run } } : State).replied 0x5C tag .ok []))
    ∧ (∀ row, (composeRow s row).length = 32 ∧ byteSum (composeRow s row) % 256 = 255)
    ∧ (s.running = true →
      ((s.ssc.writing.isSome = true ∨ s.ssc.queue = []) → exec .queueItemStart s = .next s.kick)
      ∧ (∀ a rest, s.ssc.writing = none → s.ssc.queue = .account a :: rest →
        exec .queueItemStart s = .next ({ s with ssc := { s.ssc with writing := some ⟨121 + a, composeRow s (121 + a), false, .transfer 0⟩ } } : State).kick)
      ∧ (∀ rest, s.ssc.writing = none → s.ssc.queue = .save :: rest →
        exec .queueItemStart s = .next (saveAdvance { s with ssc := { s.ssc with savePos := 0, rowsWritten := 0 } }).kick)
      ∧ (s.ssc.writing = none → ∀ answers, exec (.rowWriteComplete answers) s = .next s.kick ∧ exec .pollTimeout s = .next s.kick)
      ∧ ∀ w, s.ssc.writing = some w →
        let good : State := { s with
          eeprom := bytesWrite s.eeprom (w.row * 32) w.bytes
          ssc := { s.ssc with
            writing := none, dirty := if w.redirtied then s.ssc.dirty else s.ssc.dirty.filter (· != w.row), failed := s.ssc.failed.filter (· != w.row) } }
        (∀ answers, w.phase.run answers = .ends none → exec (.rowWriteComplete answers) s = .next (itemEnd true good).kick)
          ∧ (∀ answers c, w.phase.run answers = .ends (some c) → exec (.rowWriteComplete answers) s = .next (itemEnd false (writeBad w c s)).kick)
          ∧ (∀ answers p, w.phase.run answers = .goes p →
            exec (.rowWriteComplete answers) s = .next ({ s with ssc := { s.ssc with writing := some { w with phase := p } } } : State).kick)
          ∧ exec .pollTimeout s = .next (itemEnd false (writeBad w .pollTimeout s)).kick
          ∧ (Eeprom.wf s.eeprom → ∀ i, i < w.bytes.length → good.storedAt (w.row * 32 + i) = w.bytes.getD i 0)
          ∧ (∀ a, (a < w.row * 32 ∨ w.row * 32 + w.bytes.length ≤ a) → good.storedAt a = s.storedAt a)
          ∧ ∀ c, let t := writeBad w c s
            (∃ bytes : List Byte, bytes.length = 32 ∧ t = ({ s with
              eeprom := bytesWrite s.eeprom (w.row * 32) bytes, freeCount := s.freeCount + 1
              ssc := { s.ssc with writing := none, dirty := insertRow w.row s.ssc.dirty, fault := true, lastFail := some (w.row, c) } } : State).raise
                .storeFault [0] [BitVec.ofNat 8 w.row, BitVec.ofNat 8 (sectionOf w.row), BitVec.ofNat 8 c.code])
              ∧ (∀ a, (a < w.row * 32 ∨ w.row * 32 + 32 ≤ a) → t.storedAt a = s.storedAt a)
              ∧ w.row ∈ t.ssc.dirty ∧ t.ssc.fault = true ∧ t.ssc.lastFail = some (w.row, c) ∧ t.ssc.writing = none)
    ∧ (∀ r, s.ssc.dirty.find? (s.ssc.savePos ≤ ·) = some r →
      saveAdvance s = { s with ssc := { s.ssc with savePos := r + 1, writing := some ⟨r, composeRow s r, false, .transfer 0⟩ } })
    ∧ (s.ssc.dirty.find? (s.ssc.savePos ≤ ·) = none → saveAdvance s = saveEnd .ended s)
    ∧ (s.ssc.dirty.Pairwise (· < ·) → ∀ r, s.ssc.dirty.find? (s.ssc.savePos ≤ ·) = some r ↔
      r ∈ s.ssc.dirty ∧ s.ssc.savePos ≤ r ∧ ∀ q ∈ s.ssc.dirty, s.ssc.savePos ≤ q → r ≤ q)
    ∧ (∀ t, s.ssc.dirty.Pairwise (· < ·) → step s = .next t → t.ssc.dirty.Pairwise (· < ·))
    ∧ (∀ a rest good, s.ssc.queue = .account a :: rest → itemEnd good s = { s with ssc := { s.ssc with queue := rest } })
    ∧ (∀ rest, s.ssc.queue = .save :: rest → itemEnd false s = saveEnd .abort s)
    ∧ (∀ rest, s.ssc.queue = .save :: rest → s.ssc.stopSave = true →
      itemEnd true s = saveEnd .abort { s with ssc := { s.ssc with rowsWritten := s.ssc.rowsWritten + 1 } })
    ∧ (s.running = true → ∃ t, exec .restartEffect s = .next t
      ∧ (t.ssc.stopSave = true ↔ s.ssc.stopSave = true ∨ (s.ssc.writing.isSome = true ∧ s.ssc.queue.head? = some .save)))
    ∧ (∀ (st : StoreStatus), saveEnd st s = ({ s with ssc := { s.ssc with
        status := st, queue := s.ssc.queue.tail, stopSave := false, fault := if st = .ended then false else s.ssc.fault } } : State).raise
      .storeEnd [0] [BitVec.ofNat 8 st.code, BitVec.ofNat 8 s.ssc.rowsWritten])
    ∧ (∀ (r : Nat) (rows : List Nat), rows.Pairwise (· < ·) → (insertRow r rows).Pairwise (· < ·) ∧ ∀ q, q ∈ insertRow r rows ↔ q = r ∨ q ∈ rows)
    ∧ (∀ a, let waits := if s.ssc.writing.isSome = true then s.ssc.queue.tail else s.ssc.queue
      (.account a ∈ waits → accountRow a s = s)
      ∧ (.account a ∉ waits → s.ssc.queue.length < 32 → accountRow a s = { s with ssc := { s.ssc with queue := s.ssc.queue ++ [.account a] } })
      ∧ (.account a ∉ waits → 32 ≤ s.ssc.queue.length → let t := accountRow a s
        t = { s with ssc := { s.ssc with dirty := t.ssc.dirty, writing := t.ssc.writing } }
          ∧ (∀ r, r ∈ t.ssc.dirty ↔ r ∈ s.ssc.dirty ∨ r = 121 + a)
          ∧ t.ssc.writing = s.ssc.writing.map fun w => if w.row = 121 + a then { w with redirtied := true } else w))
    ∧ (∀ rest, s.ssc.queue = .save :: rest → s.ssc.stopSave = false →
      itemEnd true s = saveAdvance { s with ssc := { s.ssc with rowsWritten := s.ssc.rowsWritten + 1 } }))
  ∧ (
  let acks (n : Nat) : List Bool := List.replicate n true
  let nacks (n : Nat) : List Bool := List.replicate n false
  (∀ n k rest, n + k < 35 →
    (BusPhase.transfer n).run (acks k) = .goes (.transfer (n + k)) ∧ (BusPhase.transfer n).run (acks k ++ false :: rest) = .ends (some .nack))
    ∧ (∀ n rest, n < 35 → (BusPhase.transfer n).run (acks (35 - n) ++ rest) = BusPhase.poll.run rest)
    ∧ (∀ k rest, BusPhase.poll.run (nacks k) = .goes .poll ∧ BusPhase.poll.run (nacks k ++ true :: rest) = .ends none)
    ∧ ∀ w : RowWrite, w.row < 158 → w.bytes.length = 32 →
      let sent : List BusStep := [.start, .device false] ++
        ((BitVec.ofNat 8 (w.row / 8) :: BitVec.ofNat 8 (32 * (w.row % 8)) :: w.bytes).map .send)
      (∀ k, rowWires w (.transfer 0) (acks 35 ++ nacks k ++ [true]) = sent ++ [.stop] ++ (List.replicate (k + 1) [.start, .device false, .stop]).flatten)
        ∧ ∀ n, n < 35 → rowWires w (.transfer 0) (acks n ++ [false]) = sent.take (n + 2) ++ [.stop])

/-- The rows of the settings image (R174, R198, section 9.2). A composed row is 31 data bytes, zeros after its owner's, and the check byte, 255 less
their sum modulo 256; its owner's values stand in it as R198 lays them out. And what a save has written comes back: when every row of the settings memory
is the one that the settings compose, a power-up reset and its load, every ACK given, leave every setting as it was, a route entry's match count at 0,
and no row dirty or failed. The settings are in the ranges that their requests take (`SettingsLaw`, `RangeLaw`: every step keeps them). That the bytes
of unused route and tariff entries, and what an action does not carry, are 0 is the model's choice (log entry 74). -/
def Obligations.RowsHoldTheSettings : Prop :=
  (
  ∀ s : State,
    let pad (n : Nat) (bs : List Byte) : List Byte := (bs ++ List.replicate n 0).take n
    let flags (a b c d : Bool) : List Byte := e8 (a.toNat + 2 * b.toNat + 4 * c.toNat + 8 * d.toNat)
    let holds (row : Nat) (data : List Byte) : Prop :=
      composeRow s row = pad 31 data ++ [BitVec.ofNat 8 (255 - byteSum (pad 31 data) % 256)]
    let str (x : Option Str) : List Byte := pad 21 (e8 (x.getD []).length ++ x.getD [])
    let action (a : Action) : List Byte := match a with
      | .print b c k => e8 0 ++ packDial none ++ e8 0 ++ e8 k.code ++ e8 b.val ++ e8 c
      | .hold => e8 1 ++ packDial none ++ [0, 0, 0, 0]
      | .printAndHold b c k => e8 2 ++ packDial none ++ e8 0 ++ e8 k.code ++ e8 b.val ++ e8 c
      | .reject => e8 3 ++ packDial none ++ [0, 0, 0, 0]
      | .forward d a k spec => e8 4 ++ packDial (some d) ++ e8 a ++ e8 k.code ++ match spec with | none => [0, 0] | some x => e8 x.1.val ++ e8 x.2
    let route (r : Route) : List Byte := pad 62 (e8 1 ++ str r.tagStart ++ e8 (r.lineSet.getD 0) ++ e16 (r.window.getD (0, 0)).1 ++ e16 (r.window.getD (0, 0)).2
      ++ e8 r.sense.code ++ action r.action)
    let tariff (i : Nat) : List Byte := match s.chg.tariffs.get i with
      | none => List.replicate 6 0
      | some x => pad 6 (e8 (128 + x.digits.length) ++ e8 x.band ++ packPairs x.digits)
    holds 0 (str (some s.lus.stationTag))
    ∧ (∀ l : Line, let c := (s.lu l).config
      holds (1 + l.val) (flags c.enabled c.incoming c.outgoing false ++ e8 c.answerRings ++ e8 c.dialMode.code ++ packDial c.outside ++ e8 c.metering.code
        ++ e16 c.meterValue))
    ∧ holds 5 (e8 s.lus.answerWait)
    ∧ holds 6 (e8 s.dsc.guard ++ e8 s.dsc.attempts ++ e8 s.dsc.interval)
    ∧ (∀ i, i < 32 →
      (s.rrt.routes.get i = none → holds (7 + 2 * i) [] ∧ holds (8 + 2 * i) [])
      ∧ ∀ r, s.rrt.routes.get i = some r → holds (7 + 2 * i) ((route r).take 31) ∧ holds (8 + 2 * i) ((route r).drop 31))
    ∧ holds 71 (action s.rrt.dflt ++ e8 s.rrt.fallbackBin.val)
    ∧ (∀ j, j < 32 → holds (72 + j) (tariff (4 * j) ++ tariff (4 * j + 1) ++ tariff (4 * j + 2) ++ tariff (4 * j + 3)))
    ∧ (∀ b, b < 16 → let v := s.band b
      holds (104 + b) (e16 v.setupPeak ++ e16 v.unitPeak ++ e16 v.intervalPeak ++ e16 v.setupOff ++ e16 v.unitOff ++ e16 v.intervalOff ++ eFlag v.barred))
    ∧ holds 120 (e16 s.chg.calendar.start ++ e16 s.chg.calendar.stop ++ e8 s.chg.calendar.mask)
    ∧ (∀ a, a < 32 → let v := s.account a
      holds (121 + a) (e32 v.limit ++ e32 v.spent ++ e16 v.calls ++ e16 v.pages ++ e8 v.policy.code
        ++ flags v.flashExempt v.suspended v.limitLowered v.overrun))
    ∧ (let v := s.scn.settings
      holds 153 (e16 v.start ++ e16 v.stop ++ e8 v.topErase ++ e8 v.light ++ e8 v.normal ++ e8 v.dark ++ e8 v.noise ++ e16 s.pmc.scanFloor))
    ∧ holds 154 (match s.scn.preset with
      | none => []
      | some p => e8 1 ++ e8 p.res.code ++ e8 p.width.code ++ e8 p.density.code ++ e8 p.blank.code
        ++ match p.spec with | none => [0, 0] | some x => e8 x.1 ++ e8 x.2.val)
    ∧ (let v := s.prt.thermal
      holds 155 (e16 v.trip ++ e16 v.resume ++ e16 v.cooling ++ e8 v.ready ++ e8 v.maximum))
    ∧ holds 156 (e16 s.pmc.recvContinue ++ e8 s.lus.maxStep ++ e8 s.lus.passThreshold)
    ∧ holds 157 (e8 s.hlc.period ++ e8 s.hlc.mask))
  ∧ (
  packDial none = List.replicate 21 0
  ∧ (∀ d : Str, d.length ≤ 40 → (packDial (some d)).length = 21 ∧ r8 (packDial (some d)) 0 = d.length)
  ∧ (∀ (d : Str) (k : Nat) (c : Byte), d.all dialChar = true → d[k]? = some c →
    let b := r8 (packPairs d) (k / 2)
    (packPairs d).length = (d.length + 1) / 2 ∧ (if k % 2 = 0 then b / 16 else b % 16) = dialCode c)
  ∧ (∀ d : Str, d.length ≤ 40 → ∀ k, k < 20 → r8 (packDial (some d)) (k + 1) = r8 (packPairs d) k)
  ∧ (∀ n, n ≤ 9 → dialCode (BitVec.ofNat 8 (0x30 + n)) = n)
  ∧ dialCode 0x2A#8 = 10 ∧ dialCode 0x23#8 = 11 ∧ dialCode 0x50#8 = 12 ∧ dialCode 0x57#8 = 13)
  ∧ (
  ∀ (s : State) (pins : Pins) (v : Vector Bool 4), SettingsLaw s → RangeLaw s → s.ssc.writing = none →
    (∀ row, row < 158 → rowRead s.eeprom row = composeRow s row) →
    ∃ t, runCommands [.powerUpReset pins v, .settingsLoadComplete []] s = some t
      ∧ (∀ l, (t.lu l).config = (s.lu l).config) ∧ t.lus = s.lus
      ∧ t.dsc.guard = s.dsc.guard ∧ t.dsc.attempts = s.dsc.attempts ∧ t.dsc.interval = s.dsc.interval
      ∧ (∀ i, t.rrt.routes.get i = (s.rrt.routes.get i).map ({ · with count := 0 })) ∧ t.rrt.dflt = s.rrt.dflt ∧ t.rrt.fallbackBin = s.rrt.fallbackBin
      ∧ (∀ i, t.chg.tariffs.get i = s.chg.tariffs.get i) ∧ t.chg.bands = s.chg.bands ∧ t.chg.calendar = s.chg.calendar ∧ t.chg.accounts = s.chg.accounts
      ∧ t.scn.settings = s.scn.settings ∧ t.scn.preset = s.scn.preset ∧ t.prt.thermal = s.prt.thermal
      ∧ t.pmc.recvContinue = s.pmc.recvContinue ∧ t.pmc.scanFloor = s.pmc.scanFloor ∧ t.hlc.period = s.hlc.period ∧ t.hlc.mask = s.hlc.mask
      ∧ t.ssc.dirty = [] ∧ t.ssc.failed = [])

/-- The requests that only read (R17, R46, R68, R88, R146, R126, R152, R165, R168, R172, R179): the reply is all their effect. A list starts at the
first item asked for, a first item of 0 is BAD_FIELD, and a body is at most 1020 bytes with its result code; it holds as many whole items as fit, and
tells how many it does not give (R185). Then the fields as bytes (R195), the codes of the enumerations, the outcomes (section 11.5) and the control
frames (R197), and the layout, byte for byte, of every item and of every fixed part of these replies: the documents and pages, the scan settings,
preset and job, the print entries and the engine, the lines and their calls, the jobs and recipients, the routes and reception records, the tariffs,
bands and accounts, the call records and reservations, the settings store and the link; beside them the totals of a period close (R163). The model's
choices: the layouts of the replies and the codes that no list numbers (log entry 38), values above their field given at its largest or modulo (log
entry 49), the three charging values that a reservation's fields leave out (log entry 62), BAD_FIELD for a line above 3 of LOG_STATUS and NO_SUCH for
an entry id outside 1 to 48 of PRINT_STATUS (log entry 34), and a first item of 0 refused before an unknown id (log entry 35). An account takes at
most 16 bytes of its reply (R185), its four flags in one of them, which is the model's reading (log entry 64). -/
def Obligations.ReadingRequestsOnlyReply : Prop :=
  (∀ (before after : List Byte) (first : Option Nat) (items : List (List Byte)), before.length + after.length ≤ 1016 →
    let rest := items.drop (first.getD 1 - 1)
    let size (k : Nat) : Nat := before.length + 3 + ((rest.take k).map (·.length)).sum + after.length
    ∃ k, k ≤ rest.length ∧ size k ≤ 1019 ∧ (k < rest.length → 1019 < size (k + 1)) ∧ (listBody before first items after).length = size k
      ∧ listBody before first items after = before ++ e16 (rest.length - k) ++ e8 k ++ (rest.take k).flatten ++ after)
  ∧ (
  (∀ n, e8 n = [BitVec.ofNat 8 n] ∧ e16 n = e8 n ++ e8 (n / 256) ∧ e32 n = e16 n ++ e16 (n / 65536))
  ∧ (∀ b, eFlag b = e8 (if b = true then 1 else 0)) ∧ (∀ l : Line, eLine l = e8 l.val) ∧ (∀ x : Str, eStr x = e8 x.length ++ x)
  ∧ (∀ t : CalTime, eTime t = e8 (t.year - 2000) ++ e8 t.month ++ e8 t.day ++ e8 t.weekday ++ e8 t.hour ++ e8 t.minute ++ e8 t.second)
  ∧ (∀ (α : Type) (f : α → List Byte), eOpt f none = e8 0 ∧ (∀ x, eOpt f (some x) = e8 1 ++ f x)
    ∧ ∀ xs, eList f xs = e8 xs.length ++ (xs.map f).flatten)
  ∧ ∀ (bits : List Bool) (k : Nat), (setOf bits).testBit k = bits.getD k false)
  ∧ (
  [Resolution.coarse, .fine, .super].map Resolution.code = List.range 3 ∧ [Width.a4, .b4].map Width.code = List.range 2
  ∧ [Density.light, .normal, .dark].map Density.code = List.range 3 ∧ [BlankPolicy.keep, .drop].map BlankPolicy.code = List.range 2
  ∧ [Cls.flash, .urgent, .routine].map Cls.code = List.range 3 ∧ [Origin.scan, .receive, .host].map Origin.code = List.range 3
  ∧ [DocState.opened, .closed, .abandoned].map DocState.code = List.range 3
  ∧ [ScanState.idle, .waitPaper, .acquire, .pageGap, .scanning, .stopping, .memoryWait].map ScanState.code = List.range 7
  ∧ [ScanOutcome.done, .noPaper, .jam, .syncLost, .memory, .stopped, .pageLimit, .restart].map ScanOutcome.code = List.range 8
  ∧ [EntryState.waiting, .printing, .done, .cancelled].map EntryState.code = List.range 4
  ∧ [Engine.idle, .warmup, .printing, .thermalPause].map Engine.code = List.range 4
  ∧ (∀ h, (Engine.halted h).code = 4 ∧ (Engine.halted h).reason = some h.code) ∧ (∀ f, (Engine.fault f).code = 5 ∧ (Engine.fault f).reason = some f.code)
  ∧ [Engine.idle, .warmup, .printing, .thermalPause].map Engine.reason = List.replicate 4 none
  ∧ [HaltReason.paperOut, .coverOpen, .warmupFail].map HaltReason.code = List.range 3
  ∧ [FaultReason.headHot, .headShort].map FaultReason.code = List.range 2
  ∧ [DialMode.tone, .pulse].map DialMode.code = List.range 2 ∧ [Metering.none, .pulse].map Metering.code = List.range 2
  ∧ [LineState.disabled, .idle, .ringing, .seized, .dialling, .awaitAnswer, .answering, .handshake, .transfer, .clearing, .guard, .fault].map
      LineState.code = List.range 12
  ∧ [EndReached.last, .holdFull, .neither].map EndReached.code = List.range 3
  ∧ [RecipState.waiting, .eligible, .bound, .inCall, .retryWait, .delivered, .failed, .cancelled].map RecipState.code = List.range 8
  ∧ [JobState.queued, .active, .done, .cancelled].map JobState.code = List.range 4
  ∧ [Sense.any, .all, .none].map Sense.code = List.range 3 ∧ [Period.peak, .offpeak].map Period.code = List.range 2
  ∧ [Policy.cut, .afterPage, .afterCall].map Policy.code = List.range 3
  ∧ [StoreStatus.idle, .run, .ended, .abort].map StoreStatus.code = List.range 4 ∧ [WriteCause.nack, .pollTimeout].map WriteCause.code = List.range 2
  ∧ [CallOutcome.delivered, .busy, .noAnswer, .noDialtone, .checkFail, .noReply, .lineLost, .remoteFull, .refused, .budget, .cancelled, .glare, .barred,
      .noPages, .restart, .logFull, .received, .receivedDamaged, .abandoned, .rejected, .storeFull, .noPlan].map CallOutcome.code = List.range 22
  ∧ (∀ t m r w, (CtlFrame.caps t m r w).kind = 1) ∧ (∀ t p c n, (CtlFrame.plan t p c n).kind = 2) ∧ (∀ b, (CtlFrame.checkResult b).kind = 3)
  ∧ (∀ k p n, (CtlFrame.pageEnd k p n).kind = 4) ∧ (∀ xs, (CtlFrame.stripReport xs).kind = 5) ∧ (∀ d h, (CtlFrame.pageTaken d h).kind = 6)
  ∧ CtlFrame.waiting.kind = 7 ∧ CtlFrame.clear.kind = 8 ∧ ∀ r, (CtlFrame.refuse r).kind = 9)
  ∧ (
  (∀ p : Page, Page.item p = e8 p.number ++ e8 p.res.code ++ e8 p.width.code ++ e16 p.lineCount ++ eFlag p.complete ++ eFlag p.blank
    ++ eOpt (eList e8) p.damaged)
  ∧ (∀ (d : Doc) (id : Nat), d.fixed id = e8 id ++ e8 d.origin.code ++ e8 d.state.code ++ e8 d.pages.length ++ e8 (d.pages.countP (·.complete))
    ++ e8 d.holders ++ eFlag d.retained ++ eFlag d.deletePending ++ e16 d.blocks.length ++ eOpt e8 d.route ++ eOpt eStr d.remoteTag ++ eOpt eLine d.line
    ++ eOpt eTime d.arrival)
  ∧ (∀ (id : Nat) (d : Doc), docItem (id, d) = e8 id ++ e8 d.origin.code ++ e8 d.state.code ++ e8 d.pages.length ++ e8 d.holders ++ eFlag d.retained
    ++ eFlag d.deletePending)
  ∧ (∀ v : ScanSettings, eScanSettings v = e16 v.start ++ e16 v.stop ++ e8 v.topErase ++ e8 v.light ++ e8 v.normal ++ e8 v.dark ++ e8 v.noise)
  ∧ (∀ x : Nat × Bin, eSpec x = e8 x.1 ++ e8 x.2.val)
  ∧ (∀ p : Preset, ePreset p = e8 p.res.code ++ e8 p.width.code ++ e8 p.density.code ++ e8 p.blank.code ++ eOpt eSpec p.spec)
  ∧ (∀ (s : State) (r : ScanJob), eScanJob s r = e8 r.doc ++ e8 r.params.res.code ++ e8 r.params.width.code ++ e8 r.params.density.code
    ++ e8 r.params.blank.code ++ e8 r.pagesDone ++ eOpt eSpec r.params.spec ++ eOpt e8 r.entry ++ eOpt e8 r.sendJob ++ eFlag r.byKey
    ++ e8 s.scn.state.code ++ eOpt (fun o => e8 o.code) r.outcome ++ eOpt eScanSettings (if s.scn.state = .idle then none else some r.settings)
    ++ eOpt e8 (if s.scn.state = .scanning ∨ s.scn.state = .stopping
      then ((s.doc r.doc).bind (·.filling)).map (·.number) else none))
  ∧ (∀ (id : Nat) (e : Entry), entryItem (id, e) = e8 id ++ e8 e.doc ++ e8 e.first ++ eOpt e8 e.last ++ eOpt e8 e.rangeEnd ++ e8 e.copies
    ++ e8 e.bin.val ++ e8 e.cls.code ++ eFlag e.follow ++ e8 e.copy ++ e8 e.page ++ e16 e.printed ++ eFlag e.cancelPending ++ e8 e.state.code
    ++ e32 e.enqueue ++ eOpt e32 e.finish)
  ∧ (∀ s : State, enginePart s = e8 s.prt.engine.code ++ eOpt e8 s.prt.engine.reason ++ e16 s.prt.heat ++ e8 s.pins.headTemp
    ++ eFlag s.pins.printPaper ++ eFlag s.pins.coverClosed ++ eFlag s.pins.overcurrent ++ (s.pins.binFull.toList.map eFlag).flatten ++ e16 s.prt.spoiled
    ++ (e16 s.prt.thermal.trip ++ e16 s.prt.thermal.resume ++ e16 s.prt.thermal.cooling ++ e8 s.prt.thermal.ready ++ e8 s.prt.thermal.maximum)
    ++ eOpt e8 s.prt.current ++ eFlag s.prt.page.isSome))
  ∧ (
  (∀ c : LineConfig, eLineConfig c = eFlag c.enabled ++ eFlag c.incoming ++ eFlag c.outgoing ++ e8 c.answerRings ++ e8 c.dialMode.code
    ++ eOpt eStr c.outside ++ e8 c.metering.code ++ e16 c.meterValue)
  ∧ (∀ (slot : Nat) (c : Call), eCall slot c =
    let seizure : Option Call := if c.caller = true then some c else none
    e8 (if c.caller = true then 0 else 1) ++ eOpt (fun x => e8 x.1 ++ e8 x.2) c.recip ++ e8 slot ++ eTime c.start ++ eOpt eTime c.answer
      ++ eOpt (fun c => e8 c.dialMode.code ++ eOpt eStr c.outside ++ e8 c.metering.code ++ e16 c.meterValue) seizure
      ++ eOpt (fun c => e8 c.attempts) seizure ++ eFlag c.ringbackHeard ++ e16 (min c.pulses 65535)
      ++ eOpt (fun e => e8 (if e.now = true then 0 else 1) ++ e8 e.outcome.code) c.pendingEnd
      ++ eOpt e8 c.doc ++ eOpt e8 c.firstPage ++ eOpt e8 c.planStep ++ eOpt e8 c.agreedStep ++ eOpt e8 c.current
      ++ eOpt (fun f => e8 f.1.code ++ e8 f.2.code) c.format ++ eOpt e8 c.highest ++ e8 c.pagesDone ++ e8 c.damagedPages ++ e8 c.round ++ e8 c.waits
      ++ eOpt eStr c.remoteTag ++ eOpt (fun f => e8 f.kind ++ e8 c.sendings) c.lastFrame ++ e8 c.ended.code)
  ∧ (∀ (s : State) (l : Line), lineItem s l =
    let u := s.lu l
    e8 u.state.code ++ eFlag u.voltage ++ eLineConfig u.config ++ eOpt (eCall (((s.carried l).map (·.slot)).getD 0)) u.call
      ++ eOpt e16 (if u.state = .fault ∨ u.faultTimer = true then some (min (s.elapsed - u.voltageSince) 65535) else none)
      ++ eOpt (fun t => e8 u.ringCount ++ eTime t) (if u.state = .ringing then u.episode else none))
  ∧ (∀ r : Recip, recipItem r = eStr r.dial ++ e8 r.state.code ++ eOpt eLine r.offeredTo ++ e8 r.used
    ++ eOpt (fun n => eTime (CalTime.ofSecs n)) r.nextAttempt ++ e8 r.delivered ++ e8 r.resume ++ eOpt (fun o => e8 o.code) r.last ++ eOpt eLine r.line)
  ∧ (∀ (id : Nat) (j : Job), jobFixed id j = e8 id ++ e8 j.doc ++ e8 j.account ++ e8 j.cls.code ++ eOpt eTime j.embargo ++ eFlag j.early
    ++ eFlag j.unattended ++ e8 j.attempts ++ e8 j.interval ++ e8 (if j.byRoute = true then 1 else 0) ++ eFlag j.cancelRequested ++ e32 j.enqueue
    ++ eOpt e32 j.finish ++ e8 j.state.code)
  ∧ (∀ (id : Nat) (j : Job), jobItem (id, j) = e8 id ++ e8 j.doc ++ e8 j.cls.code ++ e8 j.state.code ++ e32 j.enqueue
    ++ ([RecipState.waiting, .eligible, .bound, .inCall, .retryWait, .delivered, .failed, .cancelled].map fun st =>
      e8 (j.recips.countP (·.state == st))).flatten)
  ∧ (∀ s : State, let set (f : Line → Bool) : List Byte := e8 (setOf [f 0, f 1, f 2, f 3])
    dscPart s = e8 s.dsc.guard ++ e8 s.dsc.attempts ++ e8 s.dsc.interval ++ set (at4 s.dsc.offered) ++ set (at4 s.dsc.idle) ++ set s.linePending
      ++ e16 (256 - s.dsc.poolUsed))
  ∧ eAction .hold = e8 1 ∧ eAction .reject = e8 3
  ∧ (∀ b c k, eAction (.print b c k) = e8 0 ++ e8 b.val ++ e8 c ++ e8 k.code ∧ eAction (.printAndHold b c k) = e8 2 ++ e8 b.val ++ e8 c ++ e8 k.code)
  ∧ (∀ d a k spec, eAction (.forward d a k spec) = e8 4 ++ eStr d ++ e8 a ++ e8 k.code ++ eOpt (fun x => e8 x.1.val ++ e8 x.2) spec)
  ∧ (∀ (s : State) (i : Nat), routeItem s i = eOpt (fun r => eOpt eStr r.tagStart ++ eOpt e8 r.lineSet ++ eOpt (fun w => e16 w.1 ++ e16 w.2) r.window
    ++ e8 r.sense.code ++ eAction r.action ++ e16 r.count) (s.rrt.routes.get i))
  ∧ ∀ s : State, rrtPart s =
    let item (l : Line) (r : RecvRec) : List Byte := eLine l ++ e8 r.doc ++ (eOpt e8 r.disp.route ++ eAction r.disp.action ++ eFlag r.disp.converted)
      ++ e8 r.stored ++ eFlag r.applied ++ eOpt e8 r.entry ++ eOpt e8 r.job
    eAction s.rrt.dflt ++ e16 s.rrt.dfltCount ++ e8 s.rrt.fallbackBin.val
      ++ eList id ([0, 1, 2, 3].filterMap fun l => (at4 s.rrt.recs l).map (item l)))
  ∧ (
  (∀ (s : State) (i : Nat), tariffItem s i = eOpt (fun t => eStr t.digits ++ e8 t.band) (s.chg.tariffs.get i))
  ∧ (∀ s : State, tariffPart s = (s.chg.bands.map fun v => e16 v.setupPeak ++ e16 v.setupOff ++ e16 v.unitPeak ++ e16 v.unitOff ++ e16 v.intervalPeak
    ++ e16 v.intervalOff ++ eFlag v.barred).flatten ++ e16 s.chg.calendar.start ++ e16 s.chg.calendar.stop ++ e8 s.chg.calendar.mask)
  ∧ (∀ (s : State) (a : Nat), accountItem s a =
    let v := s.account a
    e32 v.limit ++ e32 v.spent ++ e16 v.calls ++ e16 v.pages ++ e8 v.policy.code ++ e8 (setOf [v.flashExempt, v.suspended, v.limitLowered, v.overrun])
      ++ e8 (s.chg.resvs.countP fun r => r.carried && r.out.any (·.account == a)))
  ∧ (∀ (s : State) (a : Nat), totalsItem s a = e32 (s.account a).spent ++ e16 (s.account a).calls ++ e16 (s.account a).pages)
  ∧ (∀ s : State, logPart s = e8 s.chg.records.length ++ e8 s.chg.resvs.length ++ e8 s.logFree ++ e8 4)
  ∧ (∀ r : Record, Record.encode r = e16 r.number ++ eFlag r.out.isSome ++ eLine r.line
    ++ e8 (setOf [r.overrun, r.metered, r.unattended, r.clockInvalid]) ++ e8 r.outcome.code ++ eTime r.start ++ eTime r.stop ++ e8 r.pagesDone
    ++ e8 r.damaged ++ e32 r.charge ++ eOpt eTime r.answer ++ eOpt e8 r.step ++ eOpt eStr r.remoteTag
    ++ eOpt (fun o => e8 o.account ++ e8 o.band ++ eOpt (fun p => e8 p.code) r.period ++ eOpt (fun x => e8 x.1 ++ e8 x.2) o.recip ++ eStr o.dial) r.out)
  ∧ (∀ (s : State) (r : LogResv), resvPart s r = eFlag r.out.isSome ++ eLine r.line ++ eOpt (fun o => e8 o.account) r.out
    ++ eOpt (fun x => e8 x.1 ++ e8 x.2) (r.out.bind (·.recip)) ++ eOpt (fun o => e8 o.cls.code) r.out ++ eOpt (fun o => eStr o.dial) r.out
    ++ eOpt (fun o => e8 o.band) r.out ++ eOpt (fun p => e8 p.code) r.period ++ eOpt eStr r.remoteTag ++ eOpt eTime r.start ++ eOpt eTime r.answer
    ++ e8 (setOf [r.overrun, r.metered, r.unattended, r.clockInvalid]) ++ e32 r.charge ++ eFlag r.actionTaken
    ++ eOpt (fun t => e16 (t - s.elapsed)) r.intervalEnd)
  ∧ (∀ a, storeItem (.account a) = e8 0 ++ e8 a) ∧ storeItem .save = e8 1
  ∧ (∀ row, row < 158 → sectionOf row + 1 = ([0, 1, 6, 7, 72, 104, 120, 121, 153, 155, 156, 157].filter fun first => decide (first ≤ row)).length)
  ∧ (∀ c : Ssc, let rowsIn (k : Nat) (rows : List Nat) : List Nat := rows.filter fun r => sectionOf r == k
    sscPart c = e8 c.status.code ++ e8 c.rowsWritten ++ eFlag c.fault ++ eOpt (fun x => e8 x.1 ++ e8 x.2.code) c.lastFail ++ e8 c.dirty.length
      ++ ((List.range 12).map fun k => eList e8 (rowsIn k c.dirty)).flatten
      ++ eList (fun k => e8 k ++ e8 (rowsIn k c.failed).length) ((List.range 12).filter fun k => rowsIn k c.failed ≠ []))
  ∧ (∀ c : Ssc, sscCurrent c = eOpt storeItem (if c.writing.isSome then c.queue.head? else none))
  ∧ ∀ s : State, statusBody s = e8 (if s.hlc.attended = true then 0 else 1) ++ e8 s.hlc.period ++ eOpt (fun t => e8 (t - s.elapsed)) s.hlc.presenceEnd
    ++ e8 (setOf [s.pins.strap0, s.pins.strap1]) ++ e8 s.hlc.mask ++ e8 s.hlc.requests.length ++ e8 s.hlc.notices.length
    ++ e8 (setOf [s.hlc.flags.parity, s.hlc.flags.framing, s.hlc.flags.overrun, s.hlc.flags.length, s.hlc.flags.truncated, s.hlc.flags.stuck,
      s.hlc.flags.check, s.hlc.flags.queueFull]) ++ eFlag s.hlc.lost)
  ∧ ∀ (s : State) (tag n : Nat) (k : Option Nat) (first : Option Nat) (dial : Str), s.takes →
    let reply (kind : Nat) (body : List Byte) : Host.Outcome State Fault Refusal := .next (s.replied kind tag .ok body)
    let refuse (kind : Nat) (r : Result) : Host.Outcome State Fault Refusal := .next (s.replied kind tag r [])
    (∀ a, (accountItem s a).length ≤ 16)
    ∧ exec (.scanStatus tag) s = reply 0x25 (e8 s.scn.state.code ++ eFlag s.scn.locked ++ e8 s.pins.moduleB4.toNat ++ eFlag s.pins.feederPaper
        ++ eFlag s.pins.pageSensor ++ eScanSettings s.scn.settings ++ eOpt ePreset s.scn.preset ++ eOpt (eScanJob s) s.scn.job)
    ∧ exec (.clockRead tag) s = reply 0x59 (eTime s.tmb.time ++ eFlag s.tmb.valid)
    ∧ exec (.rateQuery tag dial) s = (if dialOk dial = true then
        let b := s.band (s.rate dial)
        reply 0x4C (e8 (s.rate dial) ++ eOpt e8 (if s.rate dial = 15 then none else (s.rateEntry dial).map (·.1)) ++ eFlag b.barred ++ e8 s.period.code ++ e16 (Band.setup b s.period)
          ++ e16 (Band.unit b s.period) ++ e16 (Band.interval b s.period))
      else refuse 0x4C .badField)
    ∧ (3 < n → exec (.logStatus tag n) s = refuse 0x52 .badField)
    ∧ (∀ l : Line, n = l.val → exec (.logStatus tag n) s = reply 0x52 (eOpt (resvPart s) (s.carried l)))
    ∧ (first = some 0 →
      ∀ x ∈ [(Instr.docInfo tag n first, 0x18), (.docList tag first, 0x19), (.printStatus tag k first, 0x2D), (.lineStatus tag n first, 0x32),
          (.jobStatus tag n first, 0x3B), (.jobList tag first, 0x3C), (.routeRead tag k first, 0x43), (.tariffRead tag first, 0x4D),
          (.accountRead tag n first, 0x4F), (.logRead tag n first, 0x51), (.storeStatus tag first, 0x5D)],
        exec x.1 s = refuse x.2 .badField)
    ∧ (first ≠ some 0 →
      (s.doc n = none → exec (.docInfo tag n first) s = refuse 0x18 .noSuch)
      ∧ (∀ d, s.doc n = some d → exec (.docInfo tag n first) s = reply 0x18 (listBody (d.fixed n) first (d.pages.map Page.item)))
      ∧ exec (.docList tag first) s = reply 0x19 (listBody (e16 s.pmc.free.length ++ e8 s.pmc.resv.length) first (s.pmc.docs.map docItem))
      ∧ (k = none → exec (.printStatus tag k first) s = reply 0x2D (listBody (enginePart s) first (s.prt.entries.map entryItem)))
      ∧ (∀ e, k = some e → s.entry e = none → exec (.printStatus tag k first) s = refuse 0x2D .noSuch)
      ∧ (∀ e r, k = some e → s.entry e = some r → exec (.printStatus tag k first) s = reply 0x2D (listBody (enginePart s) first [entryItem (e, r)]))
      ∧ (3 < n → n ≠ 255 → exec (.lineStatus tag n first) s = refuse 0x32 .badField)
      ∧ (n = 255 → exec (.lineStatus tag n first) s = reply 0x32 (listBody [] first ([0, 1, 2, 3].map (lineItem s)) (e8 s.lus.answerWait)))
      ∧ (∀ l : Line, n = l.val → exec (.lineStatus tag n first) s = reply 0x32 (listBody [] first [lineItem s l] (e8 s.lus.answerWait)))
      ∧ (s.job n = none → exec (.jobStatus tag n first) s = refuse 0x3B .noSuch)
      ∧ (∀ x, s.job n = some x → exec (.jobStatus tag n first) s = reply 0x3B (listBody (jobFixed n x) first (x.recips.map recipItem)))
      ∧ exec (.jobList tag first) s = reply 0x3C (listBody (dscPart s) first (s.dsc.jobs.map jobItem))
      ∧ (k = none → exec (.routeRead tag k first) s = reply 0x43 (listBody [] first ((List.range 32).map (routeItem s)) (rrtPart s)))
      ∧ (∀ i, k = some i → exec (.routeRead tag k first) s =
        if i ≤ 31 then reply 0x43 (listBody [] first [routeItem s i] (rrtPart s)) else refuse 0x43 .badField)
      ∧ exec (.tariffRead tag first) s = reply 0x4D (listBody [] first ((List.range 128).map (tariffItem s)) (tariffPart s))
      ∧ exec (.accountRead tag n first) s =
        (if n = 255 then reply 0x4F (listBody [] first ((List.range 32).map (accountItem s)))
          else if n ≤ 31 then reply 0x4F (listBody [] first [accountItem s n]) else refuse 0x4F .badField)
      ∧ exec (.logRead tag n first) s =
        (if 1 ≤ n ∧ n ≤ 8 then reply 0x51 (listBody (logPart s) first ((s.chg.records.take n).map Record.encode)) else refuse 0x51 .badField)
      ∧ exec (.storeStatus tag first) s = reply 0x5D (listBody (sscPart s.ssc) first (s.ssc.queue.map storeItem) (sscCurrent s.ssc)))
end

