-- ==== Sys2Proof/Laws/State.lean ====
section
/-! SUPPORT. One lemma per field per update of one block: what an update of State leaves and what it gives. -/

namespace Sys2Proof.Machine

set_option Elab.async false

@[simp] theorem State.onPmc_pending (s : State) (f : Pmc → Pmc) : (s.onPmc f).pending = s.pending := rfl
@[simp] theorem State.onPmc_pins (s : State) (f : Pmc → Pmc) : (s.onPmc f).pins = s.pins := rfl
@[simp] theorem State.onPmc_mem (s : State) (f : Pmc → Pmc) : (s.onPmc f).mem = s.mem := rfl
@[simp] theorem State.onPmc_pmc (s : State) (f : Pmc → Pmc) : (s.onPmc f).pmc = f s.pmc := rfl
@[simp] theorem State.onPmc_arb (s : State) (f : Pmc → Pmc) : (s.onPmc f).arb = s.arb := rfl
@[simp] theorem State.onPmc_scn (s : State) (f : Pmc → Pmc) : (s.onPmc f).scn = s.scn := rfl
@[simp] theorem State.onPmc_prt (s : State) (f : Pmc → Pmc) : (s.onPmc f).prt = s.prt := rfl
@[simp] theorem State.onPmc_lines (s : State) (f : Pmc → Pmc) : (s.onPmc f).lines = s.lines := rfl
@[simp] theorem State.onPmc_lus (s : State) (f : Pmc → Pmc) : (s.onPmc f).lus = s.lus := rfl
@[simp] theorem State.onPmc_dsc (s : State) (f : Pmc → Pmc) : (s.onPmc f).dsc = s.dsc := rfl
@[simp] theorem State.onPmc_rrt (s : State) (f : Pmc → Pmc) : (s.onPmc f).rrt = s.rrt := rfl
@[simp] theorem State.onPmc_chg (s : State) (f : Pmc → Pmc) : (s.onPmc f).chg = s.chg := rfl
@[simp] theorem State.onPmc_tmb (s : State) (f : Pmc → Pmc) : (s.onPmc f).tmb = s.tmb := rfl
@[simp] theorem State.onPmc_elapsed (s : State) (f : Pmc → Pmc) : (s.onPmc f).elapsed = s.elapsed := rfl
@[simp] theorem State.onPmc_eeprom (s : State) (f : Pmc → Pmc) : (s.onPmc f).eeprom = s.eeprom := rfl
@[simp] theorem State.onPmc_ssc (s : State) (f : Pmc → Pmc) : (s.onPmc f).ssc = s.ssc := rfl
@[simp] theorem State.onPmc_hlc (s : State) (f : Pmc → Pmc) : (s.onPmc f).hlc = s.hlc := rfl
@[simp] theorem State.onPmc_freeCount (s : State) (f : Pmc → Pmc) : (s.onPmc f).freeCount = s.freeCount := rfl

@[simp] theorem State.onArb_pending (s : State) (f : Arbiter → Arbiter) : (s.onArb f).pending = s.pending := rfl
@[simp] theorem State.onArb_pins (s : State) (f : Arbiter → Arbiter) : (s.onArb f).pins = s.pins := rfl
@[simp] theorem State.onArb_mem (s : State) (f : Arbiter → Arbiter) : (s.onArb f).mem = s.mem := rfl
@[simp] theorem State.onArb_pmc (s : State) (f : Arbiter → Arbiter) : (s.onArb f).pmc = s.pmc := rfl
@[simp] theorem State.onArb_arb (s : State) (f : Arbiter → Arbiter) : (s.onArb f).arb = f s.arb := rfl
@[simp] theorem State.onArb_scn (s : State) (f : Arbiter → Arbiter) : (s.onArb f).scn = s.scn := rfl
@[simp] theorem State.onArb_prt (s : State) (f : Arbiter → Arbiter) : (s.onArb f).prt = s.prt := rfl
@[simp] theorem State.onArb_lines (s : State) (f : Arbiter → Arbiter) : (s.onArb f).lines = s.lines := rfl
@[simp] theorem State.onArb_lus (s : State) (f : Arbiter → Arbiter) : (s.onArb f).lus = s.lus := rfl
@[simp] theorem State.onArb_dsc (s : State) (f : Arbiter → Arbiter) : (s.onArb f).dsc = s.dsc := rfl
@[simp] theorem State.onArb_rrt (s : State) (f : Arbiter → Arbiter) : (s.onArb f).rrt = s.rrt := rfl
@[simp] theorem State.onArb_chg (s : State) (f : Arbiter → Arbiter) : (s.onArb f).chg = s.chg := rfl
@[simp] theorem State.onArb_tmb (s : State) (f : Arbiter → Arbiter) : (s.onArb f).tmb = s.tmb := rfl
@[simp] theorem State.onArb_elapsed (s : State) (f : Arbiter → Arbiter) : (s.onArb f).elapsed = s.elapsed := rfl
@[simp] theorem State.onArb_eeprom (s : State) (f : Arbiter → Arbiter) : (s.onArb f).eeprom = s.eeprom := rfl
@[simp] theorem State.onArb_ssc (s : State) (f : Arbiter → Arbiter) : (s.onArb f).ssc = s.ssc := rfl
@[simp] theorem State.onArb_hlc (s : State) (f : Arbiter → Arbiter) : (s.onArb f).hlc = s.hlc := rfl
@[simp] theorem State.onArb_freeCount (s : State) (f : Arbiter → Arbiter) : (s.onArb f).freeCount = s.freeCount := rfl

@[simp] theorem State.onScn_pending (s : State) (f : Scn → Scn) : (s.onScn f).pending = s.pending := rfl
@[simp] theorem State.onScn_pins (s : State) (f : Scn → Scn) : (s.onScn f).pins = s.pins := rfl
@[simp] theorem State.onScn_mem (s : State) (f : Scn → Scn) : (s.onScn f).mem = s.mem := rfl
@[simp] theorem State.onScn_pmc (s : State) (f : Scn → Scn) : (s.onScn f).pmc = s.pmc := rfl
@[simp] theorem State.onScn_arb (s : State) (f : Scn → Scn) : (s.onScn f).arb = s.arb := rfl
@[simp] theorem State.onScn_scn (s : State) (f : Scn → Scn) : (s.onScn f).scn = f s.scn := rfl
@[simp] theorem State.onScn_prt (s : State) (f : Scn → Scn) : (s.onScn f).prt = s.prt := rfl
@[simp] theorem State.onScn_lines (s : State) (f : Scn → Scn) : (s.onScn f).lines = s.lines := rfl
@[simp] theorem State.onScn_lus (s : State) (f : Scn → Scn) : (s.onScn f).lus = s.lus := rfl
@[simp] theorem State.onScn_dsc (s : State) (f : Scn → Scn) : (s.onScn f).dsc = s.dsc := rfl
@[simp] theorem State.onScn_rrt (s : State) (f : Scn → Scn) : (s.onScn f).rrt = s.rrt := rfl
@[simp] theorem State.onScn_chg (s : State) (f : Scn → Scn) : (s.onScn f).chg = s.chg := rfl
@[simp] theorem State.onScn_tmb (s : State) (f : Scn → Scn) : (s.onScn f).tmb = s.tmb := rfl
@[simp] theorem State.onScn_elapsed (s : State) (f : Scn → Scn) : (s.onScn f).elapsed = s.elapsed := rfl
@[simp] theorem State.onScn_eeprom (s : State) (f : Scn → Scn) : (s.onScn f).eeprom = s.eeprom := rfl
@[simp] theorem State.onScn_ssc (s : State) (f : Scn → Scn) : (s.onScn f).ssc = s.ssc := rfl
@[simp] theorem State.onScn_hlc (s : State) (f : Scn → Scn) : (s.onScn f).hlc = s.hlc := rfl
@[simp] theorem State.onScn_freeCount (s : State) (f : Scn → Scn) : (s.onScn f).freeCount = s.freeCount := rfl

@[simp] theorem State.onPrt_pending (s : State) (f : Prt → Prt) : (s.onPrt f).pending = s.pending := rfl
@[simp] theorem State.onPrt_pins (s : State) (f : Prt → Prt) : (s.onPrt f).pins = s.pins := rfl
@[simp] theorem State.onPrt_mem (s : State) (f : Prt → Prt) : (s.onPrt f).mem = s.mem := rfl
@[simp] theorem State.onPrt_pmc (s : State) (f : Prt → Prt) : (s.onPrt f).pmc = s.pmc := rfl
@[simp] theorem State.onPrt_arb (s : State) (f : Prt → Prt) : (s.onPrt f).arb = s.arb := rfl
@[simp] theorem State.onPrt_scn (s : State) (f : Prt → Prt) : (s.onPrt f).scn = s.scn := rfl
@[simp] theorem State.onPrt_prt (s : State) (f : Prt → Prt) : (s.onPrt f).prt = f s.prt := rfl
@[simp] theorem State.onPrt_lines (s : State) (f : Prt → Prt) : (s.onPrt f).lines = s.lines := rfl
@[simp] theorem State.onPrt_lus (s : State) (f : Prt → Prt) : (s.onPrt f).lus = s.lus := rfl
@[simp] theorem State.onPrt_dsc (s : State) (f : Prt → Prt) : (s.onPrt f).dsc = s.dsc := rfl
@[simp] theorem State.onPrt_rrt (s : State) (f : Prt → Prt) : (s.onPrt f).rrt = s.rrt := rfl
@[simp] theorem State.onPrt_chg (s : State) (f : Prt → Prt) : (s.onPrt f).chg = s.chg := rfl
@[simp] theorem State.onPrt_tmb (s : State) (f : Prt → Prt) : (s.onPrt f).tmb = s.tmb := rfl
@[simp] theorem State.onPrt_elapsed (s : State) (f : Prt → Prt) : (s.onPrt f).elapsed = s.elapsed := rfl
@[simp] theorem State.onPrt_eeprom (s : State) (f : Prt → Prt) : (s.onPrt f).eeprom = s.eeprom := rfl
@[simp] theorem State.onPrt_ssc (s : State) (f : Prt → Prt) : (s.onPrt f).ssc = s.ssc := rfl
@[simp] theorem State.onPrt_hlc (s : State) (f : Prt → Prt) : (s.onPrt f).hlc = s.hlc := rfl
@[simp] theorem State.onPrt_freeCount (s : State) (f : Prt → Prt) : (s.onPrt f).freeCount = s.freeCount := rfl

@[simp] theorem State.onLus_pending (s : State) (f : Lus → Lus) : (s.onLus f).pending = s.pending := rfl
@[simp] theorem State.onLus_pins (s : State) (f : Lus → Lus) : (s.onLus f).pins = s.pins := rfl
@[simp] theorem State.onLus_mem (s : State) (f : Lus → Lus) : (s.onLus f).mem = s.mem := rfl
@[simp] theorem State.onLus_pmc (s : State) (f : Lus → Lus) : (s.onLus f).pmc = s.pmc := rfl
@[simp] theorem State.onLus_arb (s : State) (f : Lus → Lus) : (s.onLus f).arb = s.arb := rfl
@[simp] theorem State.onLus_scn (s : State) (f : Lus → Lus) : (s.onLus f).scn = s.scn := rfl
@[simp] theorem State.onLus_prt (s : State) (f : Lus → Lus) : (s.onLus f).prt = s.prt := rfl
@[simp] theorem State.onLus_lines (s : State) (f : Lus → Lus) : (s.onLus f).lines = s.lines := rfl
@[simp] theorem State.onLus_lus (s : State) (f : Lus → Lus) : (s.onLus f).lus = f s.lus := rfl
@[simp] theorem State.onLus_dsc (s : State) (f : Lus → Lus) : (s.onLus f).dsc = s.dsc := rfl
@[simp] theorem State.onLus_rrt (s : State) (f : Lus → Lus) : (s.onLus f).rrt = s.rrt := rfl
@[simp] theorem State.onLus_chg (s : State) (f : Lus → Lus) : (s.onLus f).chg = s.chg := rfl
@[simp] theorem State.onLus_tmb (s : State) (f : Lus → Lus) : (s.onLus f).tmb = s.tmb := rfl
@[simp] theorem State.onLus_elapsed (s : State) (f : Lus → Lus) : (s.onLus f).elapsed = s.elapsed := rfl
@[simp] theorem State.onLus_eeprom (s : State) (f : Lus → Lus) : (s.onLus f).eeprom = s.eeprom := rfl
@[simp] theorem State.onLus_ssc (s : State) (f : Lus → Lus) : (s.onLus f).ssc = s.ssc := rfl
@[simp] theorem State.onLus_hlc (s : State) (f : Lus → Lus) : (s.onLus f).hlc = s.hlc := rfl
@[simp] theorem State.onLus_freeCount (s : State) (f : Lus → Lus) : (s.onLus f).freeCount = s.freeCount := rfl

@[simp] theorem State.onDsc_pending (s : State) (f : Dsc → Dsc) : (s.onDsc f).pending = s.pending := rfl
@[simp] theorem State.onDsc_pins (s : State) (f : Dsc → Dsc) : (s.onDsc f).pins = s.pins := rfl
@[simp] theorem State.onDsc_mem (s : State) (f : Dsc → Dsc) : (s.onDsc f).mem = s.mem := rfl
@[simp] theorem State.onDsc_pmc (s : State) (f : Dsc → Dsc) : (s.onDsc f).pmc = s.pmc := rfl
@[simp] theorem State.onDsc_arb (s : State) (f : Dsc → Dsc) : (s.onDsc f).arb = s.arb := rfl
@[simp] theorem State.onDsc_scn (s : State) (f : Dsc → Dsc) : (s.onDsc f).scn = s.scn := rfl
@[simp] theorem State.onDsc_prt (s : State) (f : Dsc → Dsc) : (s.onDsc f).prt = s.prt := rfl
@[simp] theorem State.onDsc_lines (s : State) (f : Dsc → Dsc) : (s.onDsc f).lines = s.lines := rfl
@[simp] theorem State.onDsc_lus (s : State) (f : Dsc → Dsc) : (s.onDsc f).lus = s.lus := rfl
@[simp] theorem State.onDsc_dsc (s : State) (f : Dsc → Dsc) : (s.onDsc f).dsc = f s.dsc := rfl
@[simp] theorem State.onDsc_rrt (s : State) (f : Dsc → Dsc) : (s.onDsc f).rrt = s.rrt := rfl
@[simp] theorem State.onDsc_chg (s : State) (f : Dsc → Dsc) : (s.onDsc f).chg = s.chg := rfl
@[simp] theorem State.onDsc_tmb (s : State) (f : Dsc → Dsc) : (s.onDsc f).tmb = s.tmb := rfl
@[simp] theorem State.onDsc_elapsed (s : State) (f : Dsc → Dsc) : (s.onDsc f).elapsed = s.elapsed := rfl
@[simp] theorem State.onDsc_eeprom (s : State) (f : Dsc → Dsc) : (s.onDsc f).eeprom = s.eeprom := rfl
@[simp] theorem State.onDsc_ssc (s : State) (f : Dsc → Dsc) : (s.onDsc f).ssc = s.ssc := rfl
@[simp] theorem State.onDsc_hlc (s : State) (f : Dsc → Dsc) : (s.onDsc f).hlc = s.hlc := rfl
@[simp] theorem State.onDsc_freeCount (s : State) (f : Dsc → Dsc) : (s.onDsc f).freeCount = s.freeCount := rfl

@[simp] theorem State.onRrt_pending (s : State) (f : Rrt → Rrt) : (s.onRrt f).pending = s.pending := rfl
@[simp] theorem State.onRrt_pins (s : State) (f : Rrt → Rrt) : (s.onRrt f).pins = s.pins := rfl
@[simp] theorem State.onRrt_mem (s : State) (f : Rrt → Rrt) : (s.onRrt f).mem = s.mem := rfl
@[simp] theorem State.onRrt_pmc (s : State) (f : Rrt → Rrt) : (s.onRrt f).pmc = s.pmc := rfl
@[simp] theorem State.onRrt_arb (s : State) (f : Rrt → Rrt) : (s.onRrt f).arb = s.arb := rfl
@[simp] theorem State.onRrt_scn (s : State) (f : Rrt → Rrt) : (s.onRrt f).scn = s.scn := rfl
@[simp] theorem State.onRrt_prt (s : State) (f : Rrt → Rrt) : (s.onRrt f).prt = s.prt := rfl
@[simp] theorem State.onRrt_lines (s : State) (f : Rrt → Rrt) : (s.onRrt f).lines = s.lines := rfl
@[simp] theorem State.onRrt_lus (s : State) (f : Rrt → Rrt) : (s.onRrt f).lus = s.lus := rfl
@[simp] theorem State.onRrt_dsc (s : State) (f : Rrt → Rrt) : (s.onRrt f).dsc = s.dsc := rfl
@[simp] theorem State.onRrt_rrt (s : State) (f : Rrt → Rrt) : (s.onRrt f).rrt = f s.rrt := rfl
@[simp] theorem State.onRrt_chg (s : State) (f : Rrt → Rrt) : (s.onRrt f).chg = s.chg := rfl
@[simp] theorem State.onRrt_tmb (s : State) (f : Rrt → Rrt) : (s.onRrt f).tmb = s.tmb := rfl
@[simp] theorem State.onRrt_elapsed (s : State) (f : Rrt → Rrt) : (s.onRrt f).elapsed = s.elapsed := rfl
@[simp] theorem State.onRrt_eeprom (s : State) (f : Rrt → Rrt) : (s.onRrt f).eeprom = s.eeprom := rfl
@[simp] theorem State.onRrt_ssc (s : State) (f : Rrt → Rrt) : (s.onRrt f).ssc = s.ssc := rfl
@[simp] theorem State.onRrt_hlc (s : State) (f : Rrt → Rrt) : (s.onRrt f).hlc = s.hlc := rfl
@[simp] theorem State.onRrt_freeCount (s : State) (f : Rrt → Rrt) : (s.onRrt f).freeCount = s.freeCount := rfl

@[simp] theorem State.onChg_pending (s : State) (f : Chg → Chg) : (s.onChg f).pending = s.pending := rfl
@[simp] theorem State.onChg_pins (s : State) (f : Chg → Chg) : (s.onChg f).pins = s.pins := rfl
@[simp] theorem State.onChg_mem (s : State) (f : Chg → Chg) : (s.onChg f).mem = s.mem := rfl
@[simp] theorem State.onChg_pmc (s : State) (f : Chg → Chg) : (s.onChg f).pmc = s.pmc := rfl
@[simp] theorem State.onChg_arb (s : State) (f : Chg → Chg) : (s.onChg f).arb = s.arb := rfl
@[simp] theorem State.onChg_scn (s : State) (f : Chg → Chg) : (s.onChg f).scn = s.scn := rfl
@[simp] theorem State.onChg_prt (s : State) (f : Chg → Chg) : (s.onChg f).prt = s.prt := rfl
@[simp] theorem State.onChg_lines (s : State) (f : Chg → Chg) : (s.onChg f).lines = s.lines := rfl
@[simp] theorem State.onChg_lus (s : State) (f : Chg → Chg) : (s.onChg f).lus = s.lus := rfl
@[simp] theorem State.onChg_dsc (s : State) (f : Chg → Chg) : (s.onChg f).dsc = s.dsc := rfl
@[simp] theorem State.onChg_rrt (s : State) (f : Chg → Chg) : (s.onChg f).rrt = s.rrt := rfl
@[simp] theorem State.onChg_chg (s : State) (f : Chg → Chg) : (s.onChg f).chg = f s.chg := rfl
@[simp] theorem State.onChg_tmb (s : State) (f : Chg → Chg) : (s.onChg f).tmb = s.tmb := rfl
@[simp] theorem State.onChg_elapsed (s : State) (f : Chg → Chg) : (s.onChg f).elapsed = s.elapsed := rfl
@[simp] theorem State.onChg_eeprom (s : State) (f : Chg → Chg) : (s.onChg f).eeprom = s.eeprom := rfl
@[simp] theorem State.onChg_ssc (s : State) (f : Chg → Chg) : (s.onChg f).ssc = s.ssc := rfl
@[simp] theorem State.onChg_hlc (s : State) (f : Chg → Chg) : (s.onChg f).hlc = s.hlc := rfl
@[simp] theorem State.onChg_freeCount (s : State) (f : Chg → Chg) : (s.onChg f).freeCount = s.freeCount := rfl

@[simp] theorem State.onSsc_pending (s : State) (f : Ssc → Ssc) : (s.onSsc f).pending = s.pending := rfl
@[simp] theorem State.onSsc_pins (s : State) (f : Ssc → Ssc) : (s.onSsc f).pins = s.pins := rfl
@[simp] theorem State.onSsc_mem (s : State) (f : Ssc → Ssc) : (s.onSsc f).mem = s.mem := rfl
@[simp] theorem State.onSsc_pmc (s : State) (f : Ssc → Ssc) : (s.onSsc f).pmc = s.pmc := rfl
@[simp] theorem State.onSsc_arb (s : State) (f : Ssc → Ssc) : (s.onSsc f).arb = s.arb := rfl
@[simp] theorem State.onSsc_scn (s : State) (f : Ssc → Ssc) : (s.onSsc f).scn = s.scn := rfl
@[simp] theorem State.onSsc_prt (s : State) (f : Ssc → Ssc) : (s.onSsc f).prt = s.prt := rfl
@[simp] theorem State.onSsc_lines (s : State) (f : Ssc → Ssc) : (s.onSsc f).lines = s.lines := rfl
@[simp] theorem State.onSsc_lus (s : State) (f : Ssc → Ssc) : (s.onSsc f).lus = s.lus := rfl
@[simp] theorem State.onSsc_dsc (s : State) (f : Ssc → Ssc) : (s.onSsc f).dsc = s.dsc := rfl
@[simp] theorem State.onSsc_rrt (s : State) (f : Ssc → Ssc) : (s.onSsc f).rrt = s.rrt := rfl
@[simp] theorem State.onSsc_chg (s : State) (f : Ssc → Ssc) : (s.onSsc f).chg = s.chg := rfl
@[simp] theorem State.onSsc_tmb (s : State) (f : Ssc → Ssc) : (s.onSsc f).tmb = s.tmb := rfl
@[simp] theorem State.onSsc_elapsed (s : State) (f : Ssc → Ssc) : (s.onSsc f).elapsed = s.elapsed := rfl
@[simp] theorem State.onSsc_eeprom (s : State) (f : Ssc → Ssc) : (s.onSsc f).eeprom = s.eeprom := rfl
@[simp] theorem State.onSsc_ssc (s : State) (f : Ssc → Ssc) : (s.onSsc f).ssc = f s.ssc := rfl
@[simp] theorem State.onSsc_hlc (s : State) (f : Ssc → Ssc) : (s.onSsc f).hlc = s.hlc := rfl
@[simp] theorem State.onSsc_freeCount (s : State) (f : Ssc → Ssc) : (s.onSsc f).freeCount = s.freeCount := rfl

@[simp] theorem State.onHlc_pending (s : State) (f : Hlc → Hlc) : (s.onHlc f).pending = s.pending := rfl
@[simp] theorem State.onHlc_pins (s : State) (f : Hlc → Hlc) : (s.onHlc f).pins = s.pins := rfl
@[simp] theorem State.onHlc_mem (s : State) (f : Hlc → Hlc) : (s.onHlc f).mem = s.mem := rfl
@[simp] theorem State.onHlc_pmc (s : State) (f : Hlc → Hlc) : (s.onHlc f).pmc = s.pmc := rfl
@[simp] theorem State.onHlc_arb (s : State) (f : Hlc → Hlc) : (s.onHlc f).arb = s.arb := rfl
@[simp] theorem State.onHlc_scn (s : State) (f : Hlc → Hlc) : (s.onHlc f).scn = s.scn := rfl
@[simp] theorem State.onHlc_prt (s : State) (f : Hlc → Hlc) : (s.onHlc f).prt = s.prt := rfl
@[simp] theorem State.onHlc_lines (s : State) (f : Hlc → Hlc) : (s.onHlc f).lines = s.lines := rfl
@[simp] theorem State.onHlc_lus (s : State) (f : Hlc → Hlc) : (s.onHlc f).lus = s.lus := rfl
@[simp] theorem State.onHlc_dsc (s : State) (f : Hlc → Hlc) : (s.onHlc f).dsc = s.dsc := rfl
@[simp] theorem State.onHlc_rrt (s : State) (f : Hlc → Hlc) : (s.onHlc f).rrt = s.rrt := rfl
@[simp] theorem State.onHlc_chg (s : State) (f : Hlc → Hlc) : (s.onHlc f).chg = s.chg := rfl
@[simp] theorem State.onHlc_tmb (s : State) (f : Hlc → Hlc) : (s.onHlc f).tmb = s.tmb := rfl
@[simp] theorem State.onHlc_elapsed (s : State) (f : Hlc → Hlc) : (s.onHlc f).elapsed = s.elapsed := rfl
@[simp] theorem State.onHlc_eeprom (s : State) (f : Hlc → Hlc) : (s.onHlc f).eeprom = s.eeprom := rfl
@[simp] theorem State.onHlc_ssc (s : State) (f : Hlc → Hlc) : (s.onHlc f).ssc = s.ssc := rfl
@[simp] theorem State.onHlc_hlc (s : State) (f : Hlc → Hlc) : (s.onHlc f).hlc = f s.hlc := rfl
@[simp] theorem State.onHlc_freeCount (s : State) (f : Hlc → Hlc) : (s.onHlc f).freeCount = s.freeCount := rfl

@[simp] theorem State.onPins_pending (s : State) (f : Pins → Pins) : (s.onPins f).pending = s.pending := rfl
@[simp] theorem State.onPins_pins (s : State) (f : Pins → Pins) : (s.onPins f).pins = f s.pins := rfl
@[simp] theorem State.onPins_mem (s : State) (f : Pins → Pins) : (s.onPins f).mem = s.mem := rfl
@[simp] theorem State.onPins_pmc (s : State) (f : Pins → Pins) : (s.onPins f).pmc = s.pmc := rfl
@[simp] theorem State.onPins_arb (s : State) (f : Pins → Pins) : (s.onPins f).arb = s.arb := rfl
@[simp] theorem State.onPins_scn (s : State) (f : Pins → Pins) : (s.onPins f).scn = s.scn := rfl
@[simp] theorem State.onPins_prt (s : State) (f : Pins → Pins) : (s.onPins f).prt = s.prt := rfl
@[simp] theorem State.onPins_lines (s : State) (f : Pins → Pins) : (s.onPins f).lines = s.lines := rfl
@[simp] theorem State.onPins_lus (s : State) (f : Pins → Pins) : (s.onPins f).lus = s.lus := rfl
@[simp] theorem State.onPins_dsc (s : State) (f : Pins → Pins) : (s.onPins f).dsc = s.dsc := rfl
@[simp] theorem State.onPins_rrt (s : State) (f : Pins → Pins) : (s.onPins f).rrt = s.rrt := rfl
@[simp] theorem State.onPins_chg (s : State) (f : Pins → Pins) : (s.onPins f).chg = s.chg := rfl
@[simp] theorem State.onPins_tmb (s : State) (f : Pins → Pins) : (s.onPins f).tmb = s.tmb := rfl
@[simp] theorem State.onPins_elapsed (s : State) (f : Pins → Pins) : (s.onPins f).elapsed = s.elapsed := rfl
@[simp] theorem State.onPins_eeprom (s : State) (f : Pins → Pins) : (s.onPins f).eeprom = s.eeprom := rfl
@[simp] theorem State.onPins_ssc (s : State) (f : Pins → Pins) : (s.onPins f).ssc = s.ssc := rfl
@[simp] theorem State.onPins_hlc (s : State) (f : Pins → Pins) : (s.onPins f).hlc = s.hlc := rfl
@[simp] theorem State.onPins_freeCount (s : State) (f : Pins → Pins) : (s.onPins f).freeCount = s.freeCount := rfl

@[simp] theorem State.setMem_pending (s : State) (m : List Host.Cell) : (s.setMem m).pending = s.pending := rfl
@[simp] theorem State.setMem_pins (s : State) (m : List Host.Cell) : (s.setMem m).pins = s.pins := rfl
@[simp] theorem State.setMem_mem (s : State) (m : List Host.Cell) : (s.setMem m).mem = m := rfl
@[simp] theorem State.setMem_pmc (s : State) (m : List Host.Cell) : (s.setMem m).pmc = s.pmc := rfl
@[simp] theorem State.setMem_arb (s : State) (m : List Host.Cell) : (s.setMem m).arb = s.arb := rfl
@[simp] theorem State.setMem_scn (s : State) (m : List Host.Cell) : (s.setMem m).scn = s.scn := rfl
@[simp] theorem State.setMem_prt (s : State) (m : List Host.Cell) : (s.setMem m).prt = s.prt := rfl
@[simp] theorem State.setMem_lines (s : State) (m : List Host.Cell) : (s.setMem m).lines = s.lines := rfl
@[simp] theorem State.setMem_lus (s : State) (m : List Host.Cell) : (s.setMem m).lus = s.lus := rfl
@[simp] theorem State.setMem_dsc (s : State) (m : List Host.Cell) : (s.setMem m).dsc = s.dsc := rfl
@[simp] theorem State.setMem_rrt (s : State) (m : List Host.Cell) : (s.setMem m).rrt = s.rrt := rfl
@[simp] theorem State.setMem_chg (s : State) (m : List Host.Cell) : (s.setMem m).chg = s.chg := rfl
@[simp] theorem State.setMem_tmb (s : State) (m : List Host.Cell) : (s.setMem m).tmb = s.tmb := rfl
@[simp] theorem State.setMem_elapsed (s : State) (m : List Host.Cell) : (s.setMem m).elapsed = s.elapsed := rfl
@[simp] theorem State.setMem_eeprom (s : State) (m : List Host.Cell) : (s.setMem m).eeprom = s.eeprom := rfl
@[simp] theorem State.setMem_ssc (s : State) (m : List Host.Cell) : (s.setMem m).ssc = s.ssc := rfl
@[simp] theorem State.setMem_hlc (s : State) (m : List Host.Cell) : (s.setMem m).hlc = s.hlc := rfl
@[simp] theorem State.setMem_freeCount (s : State) (m : List Host.Cell) : (s.setMem m).freeCount = s.freeCount := rfl

@[simp] theorem State.setLu_pending (s : State) (l : Line) (u : Lu) : (s.setLu l u).pending = s.pending := rfl
@[simp] theorem State.setLu_pins (s : State) (l : Line) (u : Lu) : (s.setLu l u).pins = s.pins := rfl
@[simp] theorem State.setLu_mem (s : State) (l : Line) (u : Lu) : (s.setLu l u).mem = s.mem := rfl
@[simp] theorem State.setLu_pmc (s : State) (l : Line) (u : Lu) : (s.setLu l u).pmc = s.pmc := rfl
@[simp] theorem State.setLu_arb (s : State) (l : Line) (u : Lu) : (s.setLu l u).arb = s.arb := rfl
@[simp] theorem State.setLu_scn (s : State) (l : Line) (u : Lu) : (s.setLu l u).scn = s.scn := rfl
@[simp] theorem State.setLu_prt (s : State) (l : Line) (u : Lu) : (s.setLu l u).prt = s.prt := rfl
@[simp] theorem State.setLu_lines (s : State) (l : Line) (u : Lu) : (s.setLu l u).lines = set4 s.lines l u := rfl
@[simp] theorem State.setLu_lus (s : State) (l : Line) (u : Lu) : (s.setLu l u).lus = s.lus := rfl
@[simp] theorem State.setLu_dsc (s : State) (l : Line) (u : Lu) : (s.setLu l u).dsc = { s.dsc with offered := set4 s.dsc.offered l u.offerable, idle := set4 s.dsc.idle l (u.state == .idle) } := rfl
@[simp] theorem State.setLu_rrt (s : State) (l : Line) (u : Lu) : (s.setLu l u).rrt = s.rrt := rfl
@[simp] theorem State.setLu_chg (s : State) (l : Line) (u : Lu) : (s.setLu l u).chg = s.chg := rfl
@[simp] theorem State.setLu_tmb (s : State) (l : Line) (u : Lu) : (s.setLu l u).tmb = s.tmb := rfl
@[simp] theorem State.setLu_elapsed (s : State) (l : Line) (u : Lu) : (s.setLu l u).elapsed = s.elapsed := rfl
@[simp] theorem State.setLu_eeprom (s : State) (l : Line) (u : Lu) : (s.setLu l u).eeprom = s.eeprom := rfl
@[simp] theorem State.setLu_ssc (s : State) (l : Line) (u : Lu) : (s.setLu l u).ssc = s.ssc := rfl
@[simp] theorem State.setLu_hlc (s : State) (l : Line) (u : Lu) : (s.setLu l u).hlc = s.hlc := rfl
@[simp] theorem State.setLu_freeCount (s : State) (l : Line) (u : Lu) : (s.setLu l u).freeCount = s.freeCount := rfl

@[simp] theorem State.answer_pending (s : State) (k t : Nat) (r : Result) (b : List Byte) : (s.answer k t r b).pending = s.pending := rfl
@[simp] theorem State.answer_pins (s : State) (k t : Nat) (r : Result) (b : List Byte) : (s.answer k t r b).pins = s.pins := rfl
@[simp] theorem State.answer_mem (s : State) (k t : Nat) (r : Result) (b : List Byte) : (s.answer k t r b).mem = s.mem := rfl
@[simp] theorem State.answer_pmc (s : State) (k t : Nat) (r : Result) (b : List Byte) : (s.answer k t r b).pmc = s.pmc := rfl
@[simp] theorem State.answer_arb (s : State) (k t : Nat) (r : Result) (b : List Byte) : (s.answer k t r b).arb = s.arb := rfl
@[simp] theorem State.answer_scn (s : State) (k t : Nat) (r : Result) (b : List Byte) : (s.answer k t r b).scn = s.scn := rfl
@[simp] theorem State.answer_prt (s : State) (k t : Nat) (r : Result) (b : List Byte) : (s.answer k t r b).prt = s.prt := rfl
@[simp] theorem State.answer_lines (s : State) (k t : Nat) (r : Result) (b : List Byte) : (s.answer k t r b).lines = s.lines := rfl
@[simp] theorem State.answer_lus (s : State) (k t : Nat) (r : Result) (b : List Byte) : (s.answer k t r b).lus = s.lus := rfl
@[simp] theorem State.answer_dsc (s : State) (k t : Nat) (r : Result) (b : List Byte) : (s.answer k t r b).dsc = s.dsc := rfl
@[simp] theorem State.answer_rrt (s : State) (k t : Nat) (r : Result) (b : List Byte) : (s.answer k t r b).rrt = s.rrt := rfl
@[simp] theorem State.answer_chg (s : State) (k t : Nat) (r : Result) (b : List Byte) : (s.answer k t r b).chg = s.chg := rfl
@[simp] theorem State.answer_tmb (s : State) (k t : Nat) (r : Result) (b : List Byte) : (s.answer k t r b).tmb = s.tmb := rfl
@[simp] theorem State.answer_elapsed (s : State) (k t : Nat) (r : Result) (b : List Byte) : (s.answer k t r b).elapsed = s.elapsed := rfl
@[simp] theorem State.answer_eeprom (s : State) (k t : Nat) (r : Result) (b : List Byte) : (s.answer k t r b).eeprom = s.eeprom := rfl
@[simp] theorem State.answer_ssc (s : State) (k t : Nat) (r : Result) (b : List Byte) : (s.answer k t r b).ssc = s.ssc := rfl
@[simp] theorem State.answer_freeCount (s : State) (k t : Nat) (r : Result) (b : List Byte) : (s.answer k t r b).freeCount = s.freeCount := rfl

@[simp] theorem State.kick_pending (s : State) : (s.kick).pending = s.pending := rfl
@[simp] theorem State.kick_pins (s : State) : (s.kick).pins = s.pins := rfl
@[simp] theorem State.kick_mem (s : State) : (s.kick).mem = s.mem := rfl
@[simp] theorem State.kick_pmc (s : State) : (s.kick).pmc = s.pmc := rfl
@[simp] theorem State.kick_arb (s : State) : (s.kick).arb = s.arb := rfl
@[simp] theorem State.kick_scn (s : State) : (s.kick).scn = s.scn := rfl
@[simp] theorem State.kick_prt (s : State) : (s.kick).prt = s.prt := rfl
@[simp] theorem State.kick_lines (s : State) : (s.kick).lines = s.lines := rfl
@[simp] theorem State.kick_lus (s : State) : (s.kick).lus = s.lus := rfl
@[simp] theorem State.kick_dsc (s : State) : (s.kick).dsc = s.dsc := rfl
@[simp] theorem State.kick_rrt (s : State) : (s.kick).rrt = s.rrt := rfl
@[simp] theorem State.kick_chg (s : State) : (s.kick).chg = s.chg := rfl
@[simp] theorem State.kick_tmb (s : State) : (s.kick).tmb = s.tmb := rfl
@[simp] theorem State.kick_elapsed (s : State) : (s.kick).elapsed = s.elapsed := rfl
@[simp] theorem State.kick_eeprom (s : State) : (s.kick).eeprom = s.eeprom := rfl
@[simp] theorem State.kick_ssc (s : State) : (s.kick).ssc = s.ssc := rfl
@[simp] theorem State.kick_hlc (s : State) : (s.kick).hlc = s.hlc.kick := rfl
@[simp] theorem State.kick_freeCount (s : State) : (s.kick).freeCount = s.freeCount := rfl

@[simp] theorem State.dirty_pending (s : State) (row : Nat) : (s.dirty row).pending = s.pending := rfl
@[simp] theorem State.dirty_pins (s : State) (row : Nat) : (s.dirty row).pins = s.pins := rfl
@[simp] theorem State.dirty_mem (s : State) (row : Nat) : (s.dirty row).mem = s.mem := rfl
@[simp] theorem State.dirty_pmc (s : State) (row : Nat) : (s.dirty row).pmc = s.pmc := rfl
@[simp] theorem State.dirty_arb (s : State) (row : Nat) : (s.dirty row).arb = s.arb := rfl
@[simp] theorem State.dirty_scn (s : State) (row : Nat) : (s.dirty row).scn = s.scn := rfl
@[simp] theorem State.dirty_prt (s : State) (row : Nat) : (s.dirty row).prt = s.prt := rfl
@[simp] theorem State.dirty_lines (s : State) (row : Nat) : (s.dirty row).lines = s.lines := rfl
@[simp] theorem State.dirty_lus (s : State) (row : Nat) : (s.dirty row).lus = s.lus := rfl
@[simp] theorem State.dirty_dsc (s : State) (row : Nat) : (s.dirty row).dsc = s.dsc := rfl
@[simp] theorem State.dirty_rrt (s : State) (row : Nat) : (s.dirty row).rrt = s.rrt := rfl
@[simp] theorem State.dirty_chg (s : State) (row : Nat) : (s.dirty row).chg = s.chg := rfl
@[simp] theorem State.dirty_tmb (s : State) (row : Nat) : (s.dirty row).tmb = s.tmb := rfl
@[simp] theorem State.dirty_elapsed (s : State) (row : Nat) : (s.dirty row).elapsed = s.elapsed := rfl
@[simp] theorem State.dirty_eeprom (s : State) (row : Nat) : (s.dirty row).eeprom = s.eeprom := rfl
@[simp] theorem State.dirty_ssc (s : State) (row : Nat) : (s.dirty row).ssc = s.ssc.markDirty row := rfl
@[simp] theorem State.dirty_hlc (s : State) (row : Nat) : (s.dirty row).hlc = s.hlc := rfl
@[simp] theorem State.dirty_freeCount (s : State) (row : Nat) : (s.dirty row).freeCount = s.freeCount := rfl

@[simp] theorem State.flag_pending (s : State) (f : LinkFlags → LinkFlags) : (s.flag f).pending = s.pending := rfl
@[simp] theorem State.flag_pins (s : State) (f : LinkFlags → LinkFlags) : (s.flag f).pins = s.pins := rfl
@[simp] theorem State.flag_mem (s : State) (f : LinkFlags → LinkFlags) : (s.flag f).mem = s.mem := rfl
@[simp] theorem State.flag_pmc (s : State) (f : LinkFlags → LinkFlags) : (s.flag f).pmc = s.pmc := rfl
@[simp] theorem State.flag_arb (s : State) (f : LinkFlags → LinkFlags) : (s.flag f).arb = s.arb := rfl
@[simp] theorem State.flag_scn (s : State) (f : LinkFlags → LinkFlags) : (s.flag f).scn = s.scn := rfl
@[simp] theorem State.flag_prt (s : State) (f : LinkFlags → LinkFlags) : (s.flag f).prt = s.prt := rfl
@[simp] theorem State.flag_lines (s : State) (f : LinkFlags → LinkFlags) : (s.flag f).lines = s.lines := rfl
@[simp] theorem State.flag_lus (s : State) (f : LinkFlags → LinkFlags) : (s.flag f).lus = s.lus := rfl
@[simp] theorem State.flag_dsc (s : State) (f : LinkFlags → LinkFlags) : (s.flag f).dsc = s.dsc := rfl
@[simp] theorem State.flag_rrt (s : State) (f : LinkFlags → LinkFlags) : (s.flag f).rrt = s.rrt := rfl
@[simp] theorem State.flag_chg (s : State) (f : LinkFlags → LinkFlags) : (s.flag f).chg = s.chg := rfl
@[simp] theorem State.flag_tmb (s : State) (f : LinkFlags → LinkFlags) : (s.flag f).tmb = s.tmb := rfl
@[simp] theorem State.flag_elapsed (s : State) (f : LinkFlags → LinkFlags) : (s.flag f).elapsed = s.elapsed := rfl
@[simp] theorem State.flag_eeprom (s : State) (f : LinkFlags → LinkFlags) : (s.flag f).eeprom = s.eeprom := rfl
@[simp] theorem State.flag_ssc (s : State) (f : LinkFlags → LinkFlags) : (s.flag f).ssc = s.ssc := rfl
@[simp] theorem State.flag_freeCount (s : State) (f : LinkFlags → LinkFlags) : (s.flag f).freeCount = s.freeCount := rfl

@[simp] theorem State.setClock_pending (s : State) (t : CalTime) (v : Bool) : (s.setClock t v).pending = s.pending := rfl
@[simp] theorem State.setClock_pins (s : State) (t : CalTime) (v : Bool) : (s.setClock t v).pins = s.pins := rfl
@[simp] theorem State.setClock_mem (s : State) (t : CalTime) (v : Bool) : (s.setClock t v).mem = s.mem := rfl
@[simp] theorem State.setClock_pmc (s : State) (t : CalTime) (v : Bool) : (s.setClock t v).pmc = s.pmc := rfl
@[simp] theorem State.setClock_arb (s : State) (t : CalTime) (v : Bool) : (s.setClock t v).arb = s.arb := rfl
@[simp] theorem State.setClock_scn (s : State) (t : CalTime) (v : Bool) : (s.setClock t v).scn = s.scn := rfl
@[simp] theorem State.setClock_prt (s : State) (t : CalTime) (v : Bool) : (s.setClock t v).prt = s.prt := rfl
@[simp] theorem State.setClock_lines (s : State) (t : CalTime) (v : Bool) : (s.setClock t v).lines = s.lines := rfl
@[simp] theorem State.setClock_lus (s : State) (t : CalTime) (v : Bool) : (s.setClock t v).lus = s.lus := rfl
@[simp] theorem State.setClock_dsc (s : State) (t : CalTime) (v : Bool) : (s.setClock t v).dsc = s.dsc := rfl
@[simp] theorem State.setClock_rrt (s : State) (t : CalTime) (v : Bool) : (s.setClock t v).rrt = s.rrt := rfl
@[simp] theorem State.setClock_chg (s : State) (t : CalTime) (v : Bool) : (s.setClock t v).chg = s.chg := rfl
@[simp] theorem State.setClock_tmb (s : State) (t : CalTime) (v : Bool) : (s.setClock t v).tmb = ⟨t, v⟩ := rfl
@[simp] theorem State.setClock_elapsed (s : State) (t : CalTime) (v : Bool) : (s.setClock t v).elapsed = s.elapsed := rfl
@[simp] theorem State.setClock_eeprom (s : State) (t : CalTime) (v : Bool) : (s.setClock t v).eeprom = s.eeprom := rfl
@[simp] theorem State.setClock_ssc (s : State) (t : CalTime) (v : Bool) : (s.setClock t v).ssc = s.ssc := rfl
@[simp] theorem State.setClock_hlc (s : State) (t : CalTime) (v : Bool) : (s.setClock t v).hlc = s.hlc := rfl
@[simp] theorem State.setClock_freeCount (s : State) (t : CalTime) (v : Bool) : (s.setClock t v).freeCount = s.freeCount := rfl

/-- A line unit just replaced. -/
@[simp] theorem at4_set4_self {α : Type} (v : Vector α 4) (l : Fin 4) (x : α) : at4 (set4 v l x) l = x := by
  simp [at4, set4]

/-- The other three are as they were. -/
theorem at4_set4_ne {α : Type} (v : Vector α 4) (l k : Fin 4) (x : α) (h : k ≠ l) : at4 (set4 v l x) k = at4 v k := by
  have : l.val ≠ k.val := fun e => h (Fin.ext e.symm)
  simp [at4, set4, this]

@[simp] theorem State.setLu_lu (s : State) (l : Line) (u : Lu) : (s.setLu l u).lu l = u := at4_set4_self _ _ _

theorem State.setLu_lu_ne (s : State) (l k : Line) (u : Lu) (h : k ≠ l) : (s.setLu l u).lu k = s.lu k := at4_set4_ne _ _ _ _ h

@[simp] theorem State.onLu_lu (s : State) (l : Line) (f : Lu → Lu) : (s.onLu l f).lu l = f (s.lu l) := at4_set4_self _ _ _

@[simp] theorem State.onCall_call (s : State) (l : Line) (f : Call → Call) : (s.onCall l f).call l = (s.call l).map f := by
  simp [State.onCall, State.call]

@[simp] theorem State.onCall_state (s : State) (l : Line) (f : Call → Call) : ((s.onCall l f).lu l).state = (s.lu l).state := by
  simp [State.onCall]

end Sys2Proof.Machine
end

