-- ==== Sys2Proof/Laws/Does.lean ====
section
/-! SUPPORT. What an operation may do: the parts it changes and the laws it keeps, said once per operation and composed. -/

namespace Sys2Proof.Machine

set_option Elab.async false

/-- From `s` to `t` at most the parts `ps` change, and every law but the pool's that held still holds. -/
structure Acts (ps : List Part) (s t : State) : Prop where
  only : OnlyChanges ps s t
  mem : MemoryLaw s → MemoryLaw t
  log : LogLaw s → LogLaw t
  queue : QueueLaw s → QueueLaw t
  offer : OfferLaw s → OfferLaw t
  range : RangeLaw s → RangeLaw t

/-- The same, and the pool's law too: what a hold, or the end of a holder, does before the other follows. -/
structure Moves (ps : List Part) (s t : State) : Prop extends Acts ps s t where
  pool : PoolLaw s → PoolLaw t

/-- The same, and the holders' law too. -/
structure Does (ps : List Part) (s t : State) : Prop extends Moves ps s t where
  hold : HolderLaw s → HolderLaw t

theorem Part.same_refl (s : State) (p : Part) : p.same s s := by
  cases p <;> simp [Part.same]

theorem Part.same_trans {s t u : State} (p : Part) (h : p.same s t) (k : p.same t u) : p.same s u := by
  cases p <;> simp only [Part.same] at * <;> first | (rw [k, h]) | (simp only [k, h, and_self])

theorem OnlyChanges.refl (ps : List Part) (s : State) : OnlyChanges ps s s := fun p _ => p.same_refl s

theorem OnlyChanges.mono {ps qs : List Part} {s t : State} (h : OnlyChanges ps s t) (hs : ps ⊆ qs) : OnlyChanges qs s t :=
  fun p hp => h p fun hq => hp (hs hq)

theorem OnlyChanges.trans {ps : List Part} {s t u : State} (h : OnlyChanges ps s t) (k : OnlyChanges ps t u) : OnlyChanges ps s u :=
  fun p hp => p.same_trans (h p hp) (k p hp)

theorem Acts.refl {ps : List Part} (s : State) : Acts ps s s := ⟨.refl ps s, id, id, id, id, id⟩

theorem Acts.mono {ps qs : List Part} {s t : State} (h : Acts ps s t) (hs : ps ⊆ qs := by decide) : Acts qs s t := { h with only := h.only.mono hs }

theorem Acts.trans {ps : List Part} {s t u : State} (h : Acts ps s t) (k : Acts ps t u) : Acts ps s u :=
  ⟨h.only.trans k.only, k.mem ∘ h.mem, k.log ∘ h.log, k.queue ∘ h.queue, k.offer ∘ h.offer, k.range ∘ h.range⟩

theorem Moves.refl {ps : List Part} (s : State) : Moves ps s s := ⟨.refl s, id⟩

theorem Moves.mono {ps qs : List Part} {s t : State} (h : Moves ps s t) (hs : ps ⊆ qs := by decide) : Moves qs s t := ⟨h.toActs.mono hs, h.pool⟩

theorem Moves.trans {ps : List Part} {s t u : State} (h : Moves ps s t) (k : Moves ps t u) : Moves ps s u :=
  ⟨h.toActs.trans k.toActs, k.pool ∘ h.pool⟩

theorem Moves.chain {ps qs rs : List Part} {s t u : State} (h : Moves ps s t) (k : Moves qs t u) (hp : ps ⊆ rs := by decide)
    (hq : qs ⊆ rs := by decide) : Moves rs s u := (h.mono hp).trans (k.mono hq)

theorem Does.refl {ps : List Part} (s : State) : Does ps s s := ⟨.refl s, id⟩

theorem Does.mono {ps qs : List Part} {s t : State} (h : Does ps s t) (hs : ps ⊆ qs := by decide) : Does qs s t := ⟨h.toMoves.mono hs, h.hold⟩

theorem Does.trans {ps : List Part} {s t u : State} (h : Does ps s t) (k : Does ps t u) : Does ps s u :=
  ⟨h.toMoves.trans k.toMoves, k.hold ∘ h.hold⟩

/-- One operation after another. -/
theorem Does.chain {ps qs rs : List Part} {s t u : State} (h : Does ps s t) (k : Does qs t u) (hp : ps ⊆ rs := by decide)
    (hq : qs ⊆ rs := by decide) : Does rs s u := (h.mono hp).trans (k.mono hq)

theorem Acts.chain {ps qs rs : List Part} {s t u : State} (h : Acts ps s t) (k : Acts qs t u) (hp : ps ⊆ rs := by decide)
    (hq : qs ⊆ rs := by decide) : Acts rs s u := (h.mono hp).trans (k.mono hq)

/-- The line units are the same when their configurations and the rest of them are. -/
theorem lines_same {s t : State} (h : Part.lines.same s t) (k : Part.lineConfig.same s t) : t.lines = s.lines := by
  simp only [Part.same] at h k
  ext1 i hi
  have h1 := congrArg (·[i]) h
  have h2 := congrArg (·[i]) k
  simp only [Vector.getElem_map, Lu.running, Lu.mk.injEq] at h1 h2
  rw [Lu.mk.injEq]
  exact ⟨by simp_all, by simp_all⟩

/-- The parts that a law other than the pool's speaks of. -/
def Part.lawful : Part → Bool
  | .mem | .eeprom | .logResvs | .log | .accounts | .heat | .requests | .notices | .lines | .lineConfig | .lineSets => true
  | _ => false

/-- The parts that the pool's law speaks of. -/
def Part.pooled : Part → Bool
  | .freePool | .reservations | .docs => true
  | _ => false

/-- A change of parts that no law but the pool's speaks of. -/
theorem Acts.plain {ps : List Part} {s t : State} (h : OnlyChanges ps s t) (hp : ∀ p ∈ ps, p.lawful = false := by decide) : Acts ps s t := by
  have k : ∀ p : Part, p.lawful = true → p.same s t := fun p hl => h p fun hm => by simp [hp p hm] at hl
  have hm := k .mem rfl; have he := k .eeprom rfl
  have hv := k .logResvs rfl; have hl := k .log rfl; have ha := k .accounts rfl
  have hh := k .heat rfl; have hq := k .requests rfl; have hn := k .notices rfl; have hi := lines_same (k .lines rfl) (k .lineConfig rfl); have hs := k .lineSets rfl
  simp only [Part.same] at *
  refine ⟨h, ?_, ?_, ?_, ?_, ?_⟩
  · simp only [MemoryLaw, hm, he]; exact id
  · simp only [LogLaw, hv, hl.1]; exact id
  · simp only [QueueLaw, hq, hn.1]; exact id
  · simp only [OfferLaw, State.lu, hi, hs.1, hs.2]; exact id
  · simp only [RangeLaw, hh, hl.1, hl.2, ha, hv]; exact id

/-- The parts that the holders' law speaks of. -/
def Part.holding : Part → Bool
  | .docs | .jobs | .entries | .cursors => true
  | _ => false

/-- What changes no pool, reservation or document keeps the pool's law. -/
theorem Acts.moves {ps : List Part} {s t : State} (h : Acts ps s t) (hp : ∀ p ∈ ps, p.pooled = false := by decide) : Moves ps s t := by
  have k : ∀ p : Part, p.pooled = true → p.same s t := fun p hl => h.only p fun hm => by simp [hp p hm] at hl
  have hf := k .freePool rfl; have hr := k .reservations rfl; have hd := k .docs rfl
  simp only [Part.same] at *
  refine ⟨h, ?_⟩
  simp only [PoolLaw, hf, hr, hd]; exact id

/-- What changes no document, job, entry or cursor keeps the holders' law. -/
theorem OnlyChanges.hold {ps : List Part} {s t : State} (h : OnlyChanges ps s t) (hp : ∀ p ∈ ps, p.holding = false := by decide) :
    HolderLaw s → HolderLaw t := by
  have k : ∀ p : Part, p.holding = true → p.same s t := fun p hl => h p fun hm => by simp [hp p hm] at hl
  have hd := k .docs rfl; have hj := k .jobs rfl; have he := k .entries rfl; have hc := k .cursors rfl
  simp only [Part.same] at *
  simp only [HolderLaw, State.holderCount, State.holdersOf, State.doc, hd, hj.1, he.1, hc]
  exact id

/-- What changes no pool, reservation, document, job, entry or cursor keeps the pool's law and the holders'. -/
theorem Acts.does {ps : List Part} {s t : State} (h : Acts ps s t) (hp : ∀ p ∈ ps, p.pooled = false := by decide)
    (hq : ∀ p ∈ ps, p.holding = false := by decide) : Does ps s t := ⟨h.moves hp, h.only.hold hq⟩

/-- A change of parts that no law speaks of keeps every law. -/
theorem Does.plain {ps : List Part} {s t : State} (h : OnlyChanges ps s t) (hp : ∀ p ∈ ps, p.lawful = false := by decide)
    (hq : ∀ p ∈ ps, p.pooled = false := by decide) (hh : ∀ p ∈ ps, p.holding = false := by decide) : Does ps s t := (Acts.plain h hp).does hq hh

/-- The same of jobs, entries and cursors, before the holders' law is looked at. -/
theorem Moves.plain {ps : List Part} {s t : State} (h : OnlyChanges ps s t) (hp : ∀ p ∈ ps, p.lawful = false := by decide)
    (hq : ∀ p ∈ ps, p.pooled = false := by decide) : Moves ps s t := (Acts.plain h hp).moves hq

/-- One operation or another. -/
theorem Does.cond {ps : List Part} {s t u : State} {c : Prop} [Decidable c] (h : Does ps s t) (k : Does ps s u) : Does ps s (if c then t else u) := by
  split
  · exact h
  · exact k

/-- The same, where each knows which it is. -/
theorem Does.ite {ps : List Part} {s t u : State} {c : Prop} [Decidable c] (h : c → Does ps s t) (k : ¬c → Does ps s u) : Does ps s (if c then t else u) := by
  split
  · exact h ‹_›
  · exact k ‹_›

/-- The parts that the settings' law speaks of. -/
def Part.setting : Part → Bool
  | .lineConfig | .lineSettings | .dialSettings | .routes | .tariffs | .bands | .calendar | .scanSettings | .preset | .thermal | .floors | .period | .mask => true
  | _ => false

/-- What changes no setting keeps every setting in its range. -/
theorem OnlyChanges.settings {ps : List Part} {s t : State} (h : OnlyChanges ps s t) (hp : ∀ p ∈ ps, p.setting = false := by decide) :
    SettingsLaw s → SettingsLaw t := by
  have k : ∀ p : Part, p.setting = true → p.same s t := fun p hl => h p fun hm => by simp [hp p hm] at hl
  have h1 := k .lineConfig rfl; have h2 := k .lineSettings rfl; have h3 := k .dialSettings rfl; have h4 := k .routes rfl; have h5 := k .tariffs rfl
  have h6 := k .bands rfl; have h7 := k .calendar rfl; have h8 := k .scanSettings rfl; have h9 := k .preset rfl; have h10 := k .thermal rfl
  have h11 := k .floors rfl; have h12 := k .period rfl; have h13 := k .mask rfl
  have h14 : ∀ l, (t.lu l).config = (s.lu l).config := fun l => by
    have := congrArg (fun v : Vector LineConfig 4 => at4 v l) h1
    simpa [at4, State.lu] using this
  simp only [Part.same] at *
  rw [SettingsLaw, SettingsLaw, h2, h3.1, h3.2.1, h3.2.2, h5, h6, h7, h8, h9, h10, h11.1, h11.2, h12, h13, h4]
  simp only [h14]
  exact id

/-- Items done in turn. -/
theorem Does.each {α : Type} {ps : List Part} {f : α → State → State} (h : ∀ x s, Does ps s (f x s)) (xs : List α) (s : State) :
    Does ps s (eachDo f xs s) := by
  induction xs generalizing s with
  | nil => exact .refl s
  | cons x xs ih => exact (h x s).trans (ih _)

end Sys2Proof.Machine
end

