-- ==== Sys2Proof/Laws/Tables.lean ====
section
/-! SUPPORT. Tables, byte memories and strip lists: what a lookup finds and where a change stands. -/

namespace Sys2Proof.Machine

set_option Elab.async false

/-! ## Tables -/

/-- A slot that holds a record: the table around it, changed and emptied. -/
theorem Tbl.get_split {α : Type} {t : Tbl α} {k : Nat} {x : α} (h : t.get k = some x) :
    ∃ a b, t = a ++ (k, x) :: b ∧ (∀ f, t.mod k f = a ++ (k, f x) :: b) ∧ t.del k = a ++ b := by
  induction t with
  | nil => simp [Tbl.get] at h
  | cons y t ih =>
    obtain ⟨k', y⟩ := y
    by_cases e : k' = k
    · subst e
      simp [Tbl.get] at h; subst h
      exact ⟨[], t, by simp [Tbl.mod, Tbl.del]⟩
    · simp [Tbl.get, e] at h
      obtain ⟨a, b, h1, h2, h3⟩ := ih h
      refine ⟨(k', y) :: a, b, by simp [h1], fun f => by simp [Tbl.mod, e, h2], by simp [Tbl.del, e, h3]⟩

/-- An empty slot: nothing to change. -/
theorem Tbl.mod_none {α : Type} {t : Tbl α} {k : Nat} (h : t.get k = none) (f : α → α) : t.mod k f = t := by
  induction t with
  | nil => rfl
  | cons y t ih =>
    obtain ⟨k', y⟩ := y
    by_cases e : k' = k
    · simp [Tbl.get, e] at h
    · simp [Tbl.get, e] at h
      simp [Tbl.mod, e, ih h]

theorem Tbl.get_none_keys {α : Type} {t : Tbl α} {k : Nat} (h : t.get k = none) : k ∉ t.keys := by
  induction t with
  | nil => simp [Tbl.keys]
  | cons y t ih =>
    obtain ⟨k', y⟩ := y
    by_cases e : k' = k
    · simp [Tbl.get, e] at h
    · simp [Tbl.get, e] at h
      simpa [Tbl.keys, Ne.symm e] using ih h

/-- A record put in an empty slot stands among the others in order. -/
theorem Tbl.put_split {α : Type} {t : Tbl α} {k : Nat} (x : α) (hw : t.wf) (h : t.get k = none) :
    ∃ a b, t = a ++ b ∧ t.put k x = a ++ (k, x) :: b ∧ (t.put k x).wf := by
  induction t with
  | nil => exact ⟨[], [], rfl, rfl, by simp [Tbl.wf, Tbl.put, Tbl.keys]⟩
  | cons y t ih =>
    obtain ⟨k', y⟩ := y
    have e : k ≠ k' := fun e => by simp [Tbl.get, e] at h
    simp [Tbl.get, Ne.symm e] at h
    simp only [Tbl.wf, Tbl.keys, List.map_cons, List.pairwise_cons] at hw
    by_cases l : k < k'
    · refine ⟨[], (k', y) :: t, rfl, by simp [Tbl.put, l], ?_⟩
      simp only [Tbl.put, l, if_true, Tbl.wf, Tbl.keys, List.map_cons, List.pairwise_cons]
      refine ⟨?_, hw.1, hw.2⟩
      intro z hz
      rcases List.mem_cons.1 hz with rfl | hz
      · exact l
      · exact Nat.lt_trans l (hw.1 z hz)
    · obtain ⟨a, b, h1, h2, h3⟩ := ih hw.2 h
      refine ⟨(k', y) :: a, b, by simp [h1], by simp [Tbl.put, l, e, h2], ?_⟩
      simp only [Tbl.put, l, e, if_false, Tbl.wf, Tbl.keys, List.map_cons, List.pairwise_cons]
      refine ⟨?_, h3⟩
      intro z hz
      rw [h2] at hz
      simp only [List.map_append, List.map_cons, List.mem_append, List.mem_cons] at hz
      have : z = k ∨ z ∈ t.map (·.1) := by
        rw [h1, List.map_append, List.mem_append]; tauto
      rcases this with rfl | hz
      · omega
      · exact hw.1 z hz

theorem Tbl.lowestFree_none {α : Type} {t : Tbl α} {n k : Nat} (h : t.lowestFree n = some k) : t.get k = none := by
  have := List.find?_some h
  simpa [Option.isNone_iff_eq_none] using this

theorem Tbl.mod_keys {α : Type} (t : Tbl α) (k : Nat) (f : α → α) : (t.mod k f).keys = t.keys := by
  induction t with
  | nil => rfl
  | cons y t ih =>
    obtain ⟨k', y⟩ := y
    by_cases e : k' = k
    · simp [Tbl.mod, Tbl.keys, e]
    · simpa [Tbl.mod, Tbl.keys, e] using ih

/-- A changed slot reads as its record changed; another slot reads as before. -/
theorem Tbl.get_mod {α : Type} (t : Tbl α) (k j : Nat) (f : α → α) : (t.mod k f).get j = if j = k then (t.get j).map f else t.get j := by
  induction t with
  | nil => simp [Tbl.mod, Tbl.get]
  | cons y t ih =>
    obtain ⟨k', y⟩ := y
    by_cases e : k' = k
    · subst e
      by_cases h : k' = j
      · subst h; simp [Tbl.mod, Tbl.get]
      · simp [Tbl.mod, Tbl.get, h, Ne.symm h]
    · by_cases h : k' = j
      · subst h; simp [Tbl.mod, Tbl.get, e]
      · simp [Tbl.mod, Tbl.get, e, h, ih]

/-- A slot put into reads as the record put; another slot reads as before. -/
theorem Tbl.get_put {α : Type} (t : Tbl α) (k j : Nat) (x : α) : (t.put k x).get j = if j = k then some x else t.get j := by
  induction t with
  | nil => simp [Tbl.put, Tbl.get, eq_comm]
  | cons y t ih =>
    obtain ⟨k', y⟩ := y
    unfold Tbl.put
    split
    · rename_i l
      by_cases h : j = k
      · subst h; simp [Tbl.get]
      · simp [Tbl.get, h, Ne.symm h]
    · split
      · rename_i e; subst e
        by_cases h : j = k
        · subst h; simp [Tbl.get]
        · simp [Tbl.get, h, Ne.symm h]
      · rename_i l e
        by_cases h : j = k
        · subst h; simp [Tbl.get, ih, Ne.symm e]
        · simp [Tbl.get, ih, h]

/-- In a table in order a slot is emptied and the others read as before. -/
theorem Tbl.get_del {α : Type} (t : Tbl α) (hw : t.wf) (k j : Nat) : (t.del k).get j = if j = k then none else t.get j := by
  induction t with
  | nil => simp [Tbl.del, Tbl.get]
  | cons y t ih =>
    obtain ⟨k', y⟩ := y
    simp only [Tbl.wf, Tbl.keys, List.map_cons, List.pairwise_cons] at hw
    by_cases e : k' = k
    · subst e
      by_cases h : j = k'
      · subst h
        have : Tbl.get t j = none := by
          by_contra hc
          obtain ⟨x, hx⟩ := Option.ne_none_iff_exists'.1 hc
          obtain ⟨a, b, h1, -, -⟩ := Tbl.get_split hx
          have : j ∈ t.map (·.1) := by simp [h1]
          exact absurd (hw.1 j this) (lt_irrefl _)
        simp [Tbl.del, this]
      · simp [Tbl.del, Tbl.get, h, Ne.symm h]
    · by_cases h : k' = j
      · subst h; simp [Tbl.del, Tbl.get, e]
      · simp [Tbl.del, Tbl.get, e, h, ih hw.2]

/-! ## The records of a kind in a table -/

theorem Tbl.wf_mod {α : Type} {t : Tbl α} (hw : t.wf) (k : Nat) (f : α → α) : (t.mod k f).wf := by
  unfold Tbl.wf; rw [Tbl.mod_keys]; exact hw

theorem Tbl.wf_del {α : Type} {t : Tbl α} (hw : t.wf) (k : Nat) : (t.del k).wf := by
  cases h : t.get k with
  | none =>
    have : t.del k = t := by
      clear hw
      induction t with
      | nil => rfl
      | cons y t ih =>
        obtain ⟨k', y⟩ := y
        by_cases e : k' = k
        · simp [Tbl.get, e] at h
        · simp [Tbl.get, e] at h
          simp [Tbl.del, e, ih h]
    rwa [this]
  | some x =>
    obtain ⟨a, b, h1, -, h3⟩ := Tbl.get_split h
    rw [h3]
    rw [h1] at hw
    simp only [Tbl.wf, Tbl.keys, List.map_append, List.map_cons] at *
    exact hw.sublist (by simp)

/-- A record put over another is that record changed. -/
theorem Tbl.put_over {α : Type} {t : Tbl α} {k : Nat} {y : α} (x : α) (hw : t.wf) (h : t.get k = some y) : t.put k x = t.mod k fun _ => x := by
  induction t with
  | nil => simp [Tbl.get] at h
  | cons z t ih =>
    obtain ⟨k', z⟩ := z
    simp only [Tbl.wf, Tbl.keys, List.map_cons, List.pairwise_cons] at hw
    by_cases e : k' = k
    · subst e; simp [Tbl.put, Tbl.mod]
    · simp [Tbl.get, e] at h
      have hk : ¬ k < k' := by
        obtain ⟨a, b, h1, -, -⟩ := Tbl.get_split h
        have := hw.1 k (by simp [h1])
        omega
      simp [Tbl.put, Tbl.mod, e, hk, Ne.symm e, ih hw.2 h]

theorem Tbl.wf_put {α : Type} {t : Tbl α} (hw : t.wf) (k : Nat) (x : α) : (t.put k x).wf := by
  cases h : t.get k with
  | none => obtain ⟨a, b, -, -, h3⟩ := Tbl.put_split x hw h; exact h3
  | some y => rw [Tbl.put_over x hw h]; exact Tbl.wf_mod hw k _

/-- A record changed. -/
theorem Tbl.number_mod {α : Type} {t : Tbl α} {k : Nat} {x : α} (h : t.get k = some x) (f : α → α) (p : α → Bool) :
    (t.mod k f).number p + (if p x then 1 else 0) = t.number p + if p (f x) then 1 else 0 := by
  obtain ⟨a, b, h1, h2, -⟩ := Tbl.get_split h
  rw [h2, h1]; simp only [Tbl.number, List.countP_append, List.countP_cons]; omega

/-- Records changed within their kinds. -/
theorem Tbl.number_mod_same {α : Type} (t : Tbl α) (k : Nat) (f : α → α) (p : α → Bool) (h : ∀ x, t.get k = some x → p (f x) = p x) :
    (t.mod k f).number p = t.number p := by
  cases e : t.get k with
  | none => rw [Tbl.mod_none e]
  | some x => have := Tbl.number_mod e f p; rw [h x e] at this; omega

/-- A record put in an empty slot. -/
theorem Tbl.number_put {α : Type} {t : Tbl α} {k : Nat} (hw : t.wf) (h : t.get k = none) (x : α) (p : α → Bool) :
    (t.put k x).number p = t.number p + if p x then 1 else 0 := by
  obtain ⟨a, b, h1, h2, -⟩ := Tbl.put_split x hw h
  rw [h2, h1]; simp only [Tbl.number, List.countP_append, List.countP_cons]; omega

/-- A record removed. -/
theorem Tbl.number_del {α : Type} {t : Tbl α} {k : Nat} {x : α} (h : t.get k = some x) (p : α → Bool) :
    (t.del k).number p + (if p x then 1 else 0) = t.number p := by
  obtain ⟨a, b, h1, -, h3⟩ := Tbl.get_split h
  rw [h3, h1]; simp only [Tbl.number, List.countP_append, List.countP_cons]; omega

/-! ## Byte memories -/

/-- Reading after a write. -/
theorem cellRead_write (d : Byte) (m : List Host.Cell) (a x : Nat) (b : Byte) (hw : cellsWf d m) :
    cellRead d (cellWrite d m a b) x = if x = a then b else cellRead d m x := by
  induction m with
  | nil =>
    by_cases h : b = d
    · simp [cellWrite, cellRead, h]
    · by_cases e : x = a
      · simp [cellWrite, cellRead, h, e]
      · simp [cellWrite, cellRead, h, e, Ne.symm e]
  | cons c m ih =>
    obtain ⟨k, v⟩ := c
    have hw' : cellsWf d m := ⟨(List.pairwise_cons.1 hw.1).2, fun c hc => hw.2 c (List.mem_cons_of_mem _ hc)⟩
    have hk : ∀ z, cellRead d m z ≠ d → k < z := by
      intro z hz
      have : z ∈ m.map (·.1) := by
        clear ih hw hw'
        induction m with
        | nil => simp [cellRead] at hz
        | cons y m ih =>
          obtain ⟨j, w⟩ := y
          by_cases e : j = z
          · simp [e]
          · simp [cellRead, e] at hz
            simpa [Ne.symm e] using ih hz
      exact (List.pairwise_cons.1 hw.1).1 z this
    unfold cellWrite
    split
    · rename_i l
      by_cases h : b = d
      · by_cases e : x = a
        · subst e
          have : cellRead d m x = d := by
            by_contra hc
            exact absurd (hk x hc) (by omega)
          simp [h, cellRead, this]; omega
        · simp [h, e]
      · by_cases e : x = a
        · subst e; simp [h, cellRead]
        · simp [h, cellRead, e, Ne.symm e]
    · split
      · rename_i e; subst e
        by_cases h : b = d
        · by_cases e : x = a
          · subst e
            have : cellRead d m x = d := by
              by_contra hc
              exact absurd (hk x hc) (lt_irrefl _)
            simp [h, this]
          · simp [h, cellRead, e, Ne.symm e]
        · by_cases e : x = a
          · subst e; simp [h, cellRead]
          · simp [h, cellRead, e, Ne.symm e]
      · rename_i l e
        by_cases h : k = x
        · subst h; simp [cellRead, Ne.symm e]
        · simp [cellRead, h, ih hw']

theorem cellWrite_keys (d : Byte) (m : List Host.Cell) (a : Nat) (b : Byte) :
    ∀ z ∈ (cellWrite d m a b).map (·.1), z = a ∨ z ∈ m.map (·.1) := by
  induction m with
  | nil => intro z; by_cases h : b = d <;> simp [cellWrite, h]
  | cons c m ih =>
    obtain ⟨k, v⟩ := c
    intro z
    unfold cellWrite
    split
    · split
      · simp; tauto
      · simp
    · split
      · split <;> simp <;> tauto
      · simp only [List.map_cons, List.mem_cons]
        rintro (rfl | hz)
        · simp
        · have := ih z hz; tauto

/-- A write keeps the canonical form. -/
theorem cellWrite_wf (d : Byte) (m : List Host.Cell) (a : Nat) (b : Byte) (hw : cellsWf d m) : cellsWf d (cellWrite d m a b) := by
  induction m with
  | nil =>
    by_cases h : b = d <;> simp [cellWrite, cellsWf, h]
  | cons c m ih =>
    obtain ⟨k, v⟩ := c
    obtain ⟨h1, h2⟩ := hw
    simp only [List.map_cons, List.pairwise_cons] at h1
    have hw' : cellsWf d m := ⟨h1.2, fun c hc => h2 c (List.mem_cons_of_mem _ hc)⟩
    have hv : v ≠ d := h2 (k, v) (by simp)
    unfold cellWrite
    split
    · rename_i l
      split
      · exact ⟨by simpa using h1, h2⟩
      · rename_i hb
        refine ⟨?_, ?_⟩
        · simp only [List.map_cons, List.pairwise_cons]
          refine ⟨?_, h1⟩
          intro z hz
          rcases List.mem_cons.1 hz with rfl | hz
          · exact l
          · exact Nat.lt_trans l (h1.1 z hz)
        · intro c hc
          rcases List.mem_cons.1 hc with rfl | hc
          · exact hb
          · exact h2 c hc
    · split
      · rename_i e; subst e
        split
        · exact hw'
        · rename_i hb
          refine ⟨by simpa using h1, ?_⟩
          intro c hc
          rcases List.mem_cons.1 hc with rfl | hc
          · exact hb
          · exact hw'.2 c hc
      · rename_i l e
        refine ⟨?_, ?_⟩
        · simp only [List.map_cons, List.pairwise_cons]
          refine ⟨?_, (ih hw').1⟩
          intro z hz
          rcases cellWrite_keys d m a b z hz with rfl | hz
          · omega
          · exact h1.1 z hz
        · intro c hc
          rcases List.mem_cons.1 hc with rfl | hc
          · exact hv
          · exact (ih hw').2 c hc

theorem stripWrite_wf (m : List Host.Cell) (blocks : List Nat) (i : Nat) (bs : List Byte) (hw : Memory.wf m) :
    Memory.wf (stripWrite m blocks i bs) := by
  induction bs generalizing m i with
  | nil => exact hw
  | cons b bs ih => exact ih _ _ (cellWrite_wf _ _ _ _ hw)

theorem bytesWrite_wf (m : List Host.Cell) (a : Nat) (bs : List Byte) (hw : Eeprom.wf m) : Eeprom.wf (bytesWrite m a bs) := by
  induction bs generalizing m a with
  | nil => exact hw
  | cons b bs ih => exact ih _ _ (cellWrite_wf _ _ _ _ hw)

/-- A byte outside the places written reads as before. -/
theorem stripWrite_read_other (m : List Host.Cell) (blocks : List Nat) (i x : Nat) (bs : List Byte) (hw : Memory.wf m)
    (h : ∀ j < bs.length, x ≠ stripAddr blocks (i + j)) : cellRead memDefault (stripWrite m blocks i bs) x = cellRead memDefault m x := by
  induction bs generalizing m i with
  | nil => rfl
  | cons b bs ih =>
    rw [stripWrite, ih _ _ (cellWrite_wf _ _ _ _ hw), cellRead_write _ _ _ _ _ hw, if_neg]
    · exact h 0 (by simp)
    · intro j hj; have := h (j + 1) (by simpa using hj); rwa [show i + (j + 1) = i + 1 + j by omega] at this

theorem bytesWrite_read_other (m : List Host.Cell) (a x : Nat) (bs : List Byte) (hw : Eeprom.wf m) (h : x < a ∨ a + bs.length ≤ x) :
    cellRead eepromDefault (bytesWrite m a bs) x = cellRead eepromDefault m x := by
  induction bs generalizing m a with
  | nil => rfl
  | cons b bs ih =>
    simp only [List.length_cons] at h
    rw [bytesWrite, ih _ _ (cellWrite_wf _ _ _ _ hw) (by omega), cellRead_write _ _ _ _ _ hw, if_neg (by omega)]

/-- A byte written reads as the byte written. -/
theorem bytesWrite_read (m : List Host.Cell) (a i : Nat) (bs : List Byte) (hw : Eeprom.wf m) (hi : i < bs.length) :
    cellRead eepromDefault (bytesWrite m a bs) (a + i) = bs[i] := by
  induction bs generalizing m a i with
  | nil => simp at hi
  | cons b bs ih =>
    cases i with
    | zero =>
      rw [bytesWrite, bytesWrite_read_other _ _ _ _ (cellWrite_wf _ _ _ _ hw) (by omega), cellRead_write _ _ _ _ _ hw]
      simp
    | succ i =>
      rw [bytesWrite, show a + (i + 1) = a + 1 + i by omega, ih _ _ _ (cellWrite_wf _ _ _ _ hw) (by simpa using hi)]
      rfl

/-! ## Strips of a page -/

/-- Strips in rising order of strip number. -/
def risingStrips (xs : List Strip) : Prop := (xs.map (·.no)).Pairwise (· < ·)

theorem stripInsert_mem {x z : Strip} {ys : List Strip} (h : z ∈ stripInsert x ys) : z = x ∨ z ∈ ys := by
  induction ys with
  | nil => simpa [stripInsert] using h
  | cons y ys ih =>
    unfold stripInsert at h
    split at h
    · simpa using h
    · split at h
      · simp at h ⊢; tauto
      · simp at h ⊢
        rcases h with h | h
        · tauto
        · have := ih h; tauto

theorem stripInsert_rising {x : Strip} {ys : List Strip} (h : risingStrips ys) : risingStrips (stripInsert x ys) := by
  unfold risingStrips at *
  induction ys with
  | nil => simp [stripInsert]
  | cons y ys ih =>
    simp only [List.map_cons, List.pairwise_cons] at h
    unfold stripInsert
    split
    · rename_i l
      simp only [List.map_cons, List.pairwise_cons]
      refine ⟨?_, h⟩
      intro z hz
      rcases List.mem_cons.1 hz with rfl | hz
      · exact l
      · exact Nat.lt_trans l (h.1 z hz)
    · split
      · rename_i e
        simp only [List.map_cons, List.pairwise_cons]
        exact ⟨by simpa [e] using h.1, h.2⟩
      · rename_i l e
        simp only [List.map_cons, List.pairwise_cons]
        refine ⟨?_, ih h.2⟩
        intro z hz
        obtain ⟨w, hw, rfl⟩ := List.mem_map.1 hz
        rcases stripInsert_mem hw with rfl | hw
        · omega
        · exact h.1 _ (List.mem_map_of_mem hw)

/-- Where a strip of the number stands it is replaced; else the new one is added. -/
theorem stripInsert_blocks {x : Strip} {ys : List Strip} (h : risingStrips ys) (b : Nat) :
    ((stripInsert x ys).flatMap (·.blocks)).count b + ((((ys.find? (·.no == x.no)).map (·.blocks)).getD []).count b)
      = (ys.flatMap (·.blocks)).count b + x.blocks.count b := by
  unfold risingStrips at h
  induction ys with
  | nil => simp [stripInsert]
  | cons y ys ih =>
    simp only [List.map_cons, List.pairwise_cons] at h
    unfold stripInsert
    split
    · rename_i l
      have hn : ∀ z ∈ ys, z.no ≠ x.no := fun z hz => by
        have := h.1 z.no (List.mem_map_of_mem hz); omega
      have h1 : (y.no == x.no) = false := by simp; omega
      have h2 : ys.find? (·.no == x.no) = none := by simpa using hn
      simp [h1, h2]; omega
    · split
      · rename_i e
        have : (y.no == x.no) = true := by simp [e]
        simp [this]; omega
      · rename_i l e
        have : (y.no == x.no) = false := by simp; omega
        simp only [List.find?_cons, this, List.flatMap_cons, List.count_append]
        have := ih h.2
        omega

end Sys2Proof.Machine
end

