-- ==== Sys2Proof/Laws/Pool.lean ====
section
/-! SUPPORT. The page-memory operations of Machine/Pmc.lean and Machine/Arbiter.lean: what each may do, and that each block stays in one place (R1). -/

namespace Sys2Proof.Machine

set_option Elab.async false

/-! ## Counting a block's places -/

/-- The shapes of R1's records. -/
def Pmc.Ok (p : Pmc) : Prop := (p.resv.map (·.client)).Nodup ∧ Tbl.wf p.docs ∧ ∀ x ∈ p.docs, x.2.shaped

/-- How often a block stands in the pool, the reservations and the block lists. -/
def Pmc.tally (p : Pmc) (b : Nat) : Nat := p.free.count b + (p.resv.flatMap (·.blocks)).count b + (docsBlocks p.docs).count b

/-- A change that leaves every block in as many places. -/
def Pmc.Fair (p q : Pmc) : Prop := p.Ok → q.Ok ∧ ∀ b, q.tally b = p.tally b

theorem Pmc.Fair.trans {p q r : Pmc} (h : p.Fair q) (k : q.Fair r) : p.Fair r := fun o =>
  ⟨(k (h o).1).1, fun b => ((k (h o).1).2 b).trans ((h o).2 b)⟩

theorem Pmc.Fair.refl (p : Pmc) : p.Fair p := fun o => ⟨o, fun _ => rfl⟩

theorem PoolLaw.fair {s t : State} (h : s.pmc.Fair t.pmc) (k : PoolLaw s) : PoolLaw t := by
  obtain ⟨k1, k2⟩ := k
  obtain ⟨o, e⟩ := h k2
  refine ⟨?_, o⟩
  rw [List.perm_iff_count] at k1 ⊢
  intro b
  have h1 := k1 b
  have h2 := e b
  simp only [Pmc.tally, List.count_append] at *
  omega

theorem docsBlocks_mod {t : Tbl Doc} {d : Nat} {r : Doc} (h : t.get d = some r) (g : Doc → Doc) (b : Nat) :
    (docsBlocks (t.mod d g)).count b + r.blocks.count b = (docsBlocks t).count b + (g r).blocks.count b := by
  obtain ⟨x, y, h1, h2, -⟩ := Tbl.get_split h
  rw [h2 g, h1]; simp [docsBlocks]; omega

theorem docsBlocks_del {t : Tbl Doc} {d : Nat} {r : Doc} (h : t.get d = some r) (b : Nat) :
    (docsBlocks (t.del d)).count b + r.blocks.count b = (docsBlocks t).count b := by
  obtain ⟨x, y, h1, -, h3⟩ := Tbl.get_split h
  rw [h3, h1]; simp [docsBlocks]; omega

theorem Tbl.del_sub {α : Type} (t : Tbl α) (k : Nat) : (t.del k).Sublist t := by
  induction t with
  | nil => exact .slnil
  | cons y t ih =>
    obtain ⟨k', y⟩ := y
    by_cases e : k' = k
    · simp [Tbl.del, e]
    · simpa [Tbl.del, e] using ih

theorem Tbl.mod_mem {α : Type} {t : Tbl α} {k : Nat} {f : α → α} {x : Nat × α} (h : x ∈ t.mod k f) :
    x ∈ t ∨ ∃ y, (k, y) ∈ t ∧ t.get k = some y ∧ x = (k, f y) := by
  cases e : t.get k with
  | none => rw [Tbl.mod_none e] at h; exact .inl h
  | some y =>
    obtain ⟨a, b, h1, h2, -⟩ := Tbl.get_split e
    rw [h2] at h; rw [h1]
    simp only [List.mem_append, List.mem_cons] at h ⊢
    rcases h with h | h | h
    · tauto
    · exact .inr ⟨y, by simp, by simp, h⟩
    · tauto

/-- A change of a document's record. -/
theorem Pmc.mod_ok {p : Pmc} {d : Nat} {g : Doc → Doc} (o : p.Ok) (hs : ∀ r, p.docs.get d = some r → r.shaped → (g r).shaped) :
    Pmc.Ok { p with docs := p.docs.mod d g } := by
  refine ⟨o.1, ?_, ?_⟩
  · have := o.2.1
    unfold Tbl.wf at *
    rwa [Tbl.mod_keys]
  · intro x hx
    rcases Tbl.mod_mem hx with h | ⟨y, h1, h2, rfl⟩
    · exact o.2.2 x h
    · exact hs y h2 (o.2.2 _ h1)

/-- A change of a document's record that moves no block. -/
theorem Pmc.mod_fair {p : Pmc} {d : Nat} {g : Doc → Doc}
    (h : ∀ r, p.docs.get d = some r → r.shaped → (g r).shaped ∧ ∀ b, (g r).blocks.count b = r.blocks.count b) :
    p.Fair { p with docs := p.docs.mod d g } := by
  intro o
  refine ⟨Pmc.mod_ok o fun r hr hs => (h r hr hs).1, fun b => ?_⟩
  cases e : p.docs.get d with
  | none => simp only [Pmc.tally, Tbl.mod_none e]
  | some r =>
    have hs : r.shaped := by
      obtain ⟨x, y, h1, -, -⟩ := Tbl.get_split e
      exact o.2.2 (d, r) (by rw [h1]; simp)
    have h1 := docsBlocks_mod e g b
    have h2 := (h r e hs).2 b
    simp only [Pmc.tally]; omega

theorem Tbl.get_mem {α : Type} {t : Tbl α} {k : Nat} {x : α} (h : t.get k = some x) : (k, x) ∈ t := by
  obtain ⟨a, b, h1, -, -⟩ := Tbl.get_split h
  rw [h1]; simp

/-- The FILLING page stands last. -/
theorem Doc.filling_split {r : Doc} {p : Page} (hs : r.shaped) (h : r.filling = some p) :
    ∃ ps, r.pages = ps ++ [p] ∧ (∀ q ∈ ps, q.complete = true) ∧ p.complete = false := by
  have hp : p.complete = false := by simpa using List.find?_some h
  have hm : p ∈ r.pages := List.mem_of_find?_eq_some h
  have hne : r.pages ≠ [] := List.ne_nil_of_mem hm
  obtain ⟨l, hl⟩ : ∃ l, r.pages = r.pages.dropLast ++ [l] := ⟨_, (List.dropLast_append_getLast hne).symm⟩
  refine ⟨r.pages.dropLast, ?_, hs.2, hp⟩
  rw [hl, List.mem_append] at hm
  rcases hm with hm | hm
  · simp [hs.2 p hm] at hp
  · rw [List.mem_singleton.1 hm]; exact hl

theorem Doc.filling_none {r : Doc} (h : r.filling = none) : ∀ q ∈ r.pages, q.complete = true := by
  simpa [Doc.filling] using h

theorem onFilling_pages {ps : List Page} {p : Page} (f : Page → Page) (h : ∀ q ∈ ps, q.complete = true) (hp : p.complete = false) :
    (ps ++ [p]).map (fun p => if p.complete then p else f p) = ps ++ [f p] := by
  have : ps.map (fun p => if p.complete then p else f p) = ps := by
    conv_rhs => rw [← List.map_id ps]
    exact List.map_congr_left fun q hq => by simp [h q hq]
  simp [this, hp]

/-- A change of the FILLING page. -/
theorem Doc.onFilling_shaped {r : Doc} (f : Page → Page) (hs : r.shaped) (hf : ∀ p, r.filling = some p → risingStrips p.strips → risingStrips (f p).strips) :
    (r.onFilling f).shaped := by
  cases e : r.filling with
  | none =>
    have h := Doc.filling_none e
    have : (r.onFilling f) = r := by
      have : r.pages.map (fun p => if p.complete then p else f p) = r.pages := by
        conv_rhs => rw [← List.map_id r.pages]
        exact List.map_congr_left fun q hq => by simp [h q hq]
      simp [Doc.onFilling, this]
    rwa [this]
  | some p =>
    obtain ⟨ps, h1, h2, h3⟩ := Doc.filling_split hs e
    have h4 : (r.onFilling f).pages = ps ++ [f p] := by
      show r.pages.map _ = _
      rw [h1]; exact onFilling_pages f h2 h3
    refine ⟨?_, ?_⟩
    · rw [h4]
      intro q hq
      rcases List.mem_append.1 hq with hq | hq
      · exact hs.1 q (by rw [h1]; simp [hq])
      · rw [List.mem_singleton.1 hq]
        exact hf p e (hs.1 p (by rw [h1]; simp))
    · rw [h4]; simpa using h2

theorem Doc.onFilling_blocks {r : Doc} {p : Page} (f : Page → Page) (hs : r.shaped) (h : r.filling = some p) (b : Nat) :
    (r.onFilling f).blocks.count b + p.blocks.count b = r.blocks.count b + (f p).blocks.count b := by
  obtain ⟨ps, h1, h2, h3⟩ := Doc.filling_split hs h
  have h4 : (r.onFilling f).pages = ps ++ [f p] := by
    show r.pages.map _ = _
    rw [h1]; exact onFilling_pages f h2 h3
  simp only [Doc.blocks, h4, h1, List.flatMap_append, List.count_append, List.flatMap_cons, List.flatMap_nil, List.append_nil]
  omega

theorem resv_split {rs : List Resv} {c : Client} {r : Resv} (hn : (rs.map (·.client)).Nodup) (h : rs.find? (·.client == c) = some r) :
    ∃ x y, rs = x ++ r :: y ∧ rs.filter (·.client != c) = x ++ y ∧ r.client = c := by
  induction rs with
  | nil => simp at h
  | cons v rs ih =>
    simp only [List.map_cons, List.nodup_cons] at hn
    by_cases e : v.client = c
    · simp [e] at h; subst h
      refine ⟨[], rs, rfl, ?_, e⟩
      have : rs.filter (·.client != c) = rs := by
        apply List.filter_eq_self.2
        intro q hq
        simp only [bne_iff_ne, ne_eq]
        intro hc
        exact hn.1 (by rw [e, ← hc]; exact List.mem_map_of_mem hq)
      simp [e, this]
    · simp [e] at h
      obtain ⟨x, y, h1, h2, h3⟩ := ih hn.2 h
      exact ⟨v :: x, y, by simp [h1], by simp [e, h2], h3⟩

/-! ## The arbiter -/

theorem arbGrant_does (s : State) : Does [.arbiter] s (arbGrant s) := by
  unfold arbGrant
  split
  · exact .plain (by intro p hp; cases p <;> first | exact absurd (by decide) hp | (and_intros <;> rfl))
  · exact .refl s

theorem arbAsk_does (c : Client) (n : Nat) (s : State) : Does [.arbiter] s (arbAsk c n s) :=
  .trans (.plain (by intro p hp; cases p <;> first | exact absurd (by decide) hp | (and_intros <;> rfl))) (arbGrant_does _)

theorem arbWithdraw_does (c : Client) (s : State) : Does [.arbiter] s (arbWithdraw c s) :=
  .plain (by intro p hp; cases p <;> first | exact absurd (by decide) hp | (and_intros <;> rfl))

/-! ## Notices -/

theorem queueNotice_length (h : Hlc) (n : Notice) (k : h.notices.length ≤ Config.noticePlaces) :
    (h.queueNotice n).notices.length ≤ Config.noticePlaces := by
  unfold Hlc.queueNotice
  split
  · simpa using k
  · split
    · exact k
    · simp; omega

theorem raise_does (k : NoticeKind) (o f : List Byte) (s : State) : Does [.notices] s (s.raise k o f) := by
  unfold State.raise
  split
  · exact .refl s
  · have hr : (s.hlc.queueNotice ⟨k, o, f⟩) = { s.hlc with notices := (s.hlc.queueNotice ⟨k, o, f⟩).notices, lost := (s.hlc.queueNotice ⟨k, o, f⟩).lost } := by
      unfold Hlc.queueNotice; split
      · rfl
      · split <;> rfl
    refine Acts.does ⟨?_, id, id, fun q => ⟨?_, queueNotice_length _ _ q.2⟩, id, id⟩
    · intro p hp; cases p <;> first | exact absurd (by decide) hp | (simp only [Part.same, State.onHlc_hlc]; rw [hr]; try (and_intros <;> rfl)) | (and_intros <;> rfl)
    · have := q.1
      simp only [State.onHlc_hlc]; rw [hr]; exact this

/-! ## SCN's retest and the return of blocks -/

theorem scnAcquire_does (s : State) : Does [.scanRun] s (scnAcquire s) :=
  .plain (by intro p hp; cases p <;> first | exact absurd (by decide) hp | (and_intros <;> rfl))

theorem scnMemoryWait_does (s : State) : Does [.scanRun, .notices] s (scnMemoryWait s) :=
  .trans (.mono (ps := [.scanRun]) (.plain (by intro p hp; cases p <;> first | exact absurd (by decide) hp | (and_intros <;> rfl))) )
    ((raise_does ..).mono)

theorem scnRetest_does (s : State) : Does [.scanRun, .notices] s (scnRetest s) := by
  unfold scnRetest
  split
  · split
    · exact (scnAcquire_does s).mono
    · exact scnMemoryWait_does s
  · exact .refl s

theorem raise_pmc (k : NoticeKind) (o f : List Byte) (s : State) : (s.raise k o f).pmc = s.pmc := by
  unfold State.raise; split <;> rfl

theorem scnRetest_pmc (s : State) : (scnRetest s).pmc = s.pmc := by
  unfold scnRetest
  split
  · split
    · rfl
    · simp [scnMemoryWait, raise_pmc]
  · rfl

theorem poolReturn_pmc (bs : List Nat) (s : State) : (poolReturn bs s).pmc = { s.pmc with free := bs ++ s.pmc.free } := by
  unfold poolReturn
  split
  · rename_i h; simp [List.isEmpty_iff.1 h]
  · rw [scnRetest_pmc]; rfl

theorem poolReturn_acts (bs : List Nat) (s : State) : Acts Part.returning s (poolReturn bs s) := by
  unfold poolReturn
  split
  · exact .refl s
  · exact .chain (ps := [.freePool]) (.plain (by intro p hp; cases p <;> first | exact absurd (by decide) hp | (and_intros <;> rfl)))
      (scnRetest_does _).toActs

/-! ## Documents -/

/-! ### The holders' law, and the law while a hold has no holder yet or no longer -/

/-- One more hold on document `d` than it has holders. -/
def HeldBy (d : Nat) (s : State) : Prop :=
  Tbl.wf s.pmc.docs ∧ Tbl.wf s.dsc.jobs ∧ Tbl.wf s.prt.entries ∧ Tbl.wf s.pmc.cursors ∧ ∀ e, s.holderCount e = s.holdersOf e + if e = d then 1 else 0

theorem holderCount_onDoc (d e : Nat) (f : Doc → Doc) (s : State) :
    (s.onDoc d f).holderCount e = if e = d then ((s.doc d).map fun r => (f r).holders).getD 0 else s.holderCount e := by
  simp only [State.holderCount, State.doc, State.onDoc, State.onPmc_pmc, Tbl.get_mod]
  split
  · rename_i h; subst h; rw [Option.map_map]; rfl
  · rfl

/-- A change of documents that leaves each one's holder count. -/
theorem OnlyChanges.hold_docs {ps : List Part} {s t : State} (h : OnlyChanges ps s t) (k : HolderLaw s) (hw : Tbl.wf t.pmc.docs)
    (hc : ∀ e, t.holderCount e = s.holderCount e) (hj : Part.jobs ∉ ps := by decide) (he : Part.entries ∉ ps := by decide)
    (hu : Part.cursors ∉ ps := by decide) : HolderLaw t := by
  have h1 := h _ hj; have h2 := h _ he; have h3 := h _ hu
  simp only [Part.same] at h1 h2 h3
  refine ⟨hw, ?_, ?_, ?_, fun e => ?_⟩
  · rw [h1.1]; exact k.2.1
  · rw [h2.1]; exact k.2.2.1
  · rw [h3]; exact k.2.2.2.1
  · rw [hc, k.2.2.2.2 e]; simp only [State.holdersOf, h1.1, h2.1, h3]

/-- A change of one document's record that leaves its holder count. -/
theorem OnlyChanges.hold_mod {ps : List Part} {s t : State} (h : OnlyChanges ps s t) {d : Nat} {f : Doc → Doc} (hd : t.pmc.docs = s.pmc.docs.mod d f)
    (hf : ∀ r, (f r).holders = r.holders) (hj : Part.jobs ∉ ps := by decide) (he : Part.entries ∉ ps := by decide)
    (hu : Part.cursors ∉ ps := by decide) (k : HolderLaw s) : HolderLaw t := by
  refine h.hold_docs k (hd ▸ Tbl.wf_mod k.1 d f) (fun e => ?_) hj he hu
  have : t.holderCount e = (s.onDoc d f).holderCount e := by simp only [State.holderCount, State.doc, hd]; rfl
  rw [this, holderCount_onDoc]
  split
  · rename_i he; subst he; simp only [hf, State.holderCount]
  · rfl

/-- A change of the pool or of reservations. -/
theorem Acts.pooling {ps : List Part} {s t : State} (h : Acts ps s t) (hp : PoolLaw s → PoolLaw t) (hq : ∀ p ∈ ps, p.holding = false := by decide) :
    Does ps s t := ⟨⟨h, hp⟩, h.only.hold hq⟩

/-- A change of the pool, of reservations and of one document's record that leaves its holder count. -/
theorem Acts.docking {ps : List Part} {s t : State} (h : Acts ps s t) {d : Nat} {f : Doc → Doc} (hd : t.pmc.docs = s.pmc.docs.mod d f)
    (hf : ∀ r, (f r).holders = r.holders) (hp : PoolLaw s → PoolLaw t) (hj : Part.jobs ∉ ps := by decide) (he : Part.entries ∉ ps := by decide)
    (hu : Part.cursors ∉ ps := by decide) : Does ps s t := ⟨⟨h, hp⟩, h.only.hold_mod hd hf hj he hu⟩

/-- A change of a document's record that leaves its holder count. -/
theorem onDoc_hold (d : Nat) (f : Doc → Doc) (s : State) (h : ∀ r, (f r).holders = r.holders) : HolderLaw s → HolderLaw (s.onDoc d f) := by
  refine fun k => ⟨Tbl.wf_mod k.1 d f, k.2.1, k.2.2.1, k.2.2.2.1, fun e => ?_⟩
  rw [holderCount_onDoc]
  have h1 : (s.onDoc d f).holdersOf e = s.holdersOf e := rfl
  rw [h1, ← k.2.2.2.2 e]
  split
  · rename_i he; subst he; simp only [h, State.holderCount]
  · rfl

theorem onDoc_acts (d : Nat) (f : Doc → Doc) (s : State) : Acts [.docs] s (s.onDoc d f) :=
  .plain (by intro p hp; cases p <;> first | exact absurd (by decide) hp | (and_intros <;> rfl))

/-- A change of a document's record that moves no block. -/
theorem onDoc_moves (d : Nat) (f : Doc → Doc) (s : State)
    (h : ∀ r, r.shaped → (f r).shaped ∧ ∀ b, (f r).blocks.count b = r.blocks.count b) : Moves [.docs] s (s.onDoc d f) :=
  ⟨onDoc_acts d f s, PoolLaw.fair (Pmc.mod_fair fun r _ hs => h r hs)⟩

/-- A change of a document's record that moves no block and leaves its holder count. -/
theorem onDoc_does (d : Nat) (f : Doc → Doc) (s : State)
    (h : ∀ r, r.shaped → (f r).shaped ∧ ∀ b, (f r).blocks.count b = r.blocks.count b) (hh : ∀ r, (f r).holders = r.holders) :
    Does [.docs] s (s.onDoc d f) :=
  ⟨onDoc_moves d f s h, onDoc_hold d f s hh⟩

/-- A change of a document's record that leaves its pages. -/
theorem onDoc_moves_pages (d : Nat) (f : Doc → Doc) (s : State) (h : ∀ r, (f r).pages = r.pages) : Moves [.docs] s (s.onDoc d f) :=
  onDoc_moves d f s fun r hs => by simpa [Doc.shaped, Doc.blocks, h r] using hs

/-- A change of a document's record that leaves its pages and its holder count. -/
theorem onDoc_does_pages (d : Nat) (f : Doc → Doc) (s : State) (h : ∀ r, (f r).pages = r.pages ∧ (f r).holders = r.holders) :
    Does [.docs] s (s.onDoc d f) :=
  ⟨onDoc_moves_pages d f s fun r => (h r).1, onDoc_hold d f s fun r => (h r).2⟩

theorem docMake_does {o : Origin} {b : Bool} {r : Option Nat} {g : Option Str} {l : Option Line} {a : Option CalTime} {s t : State} {d : Nat}
    (h : docMake o b r g l a s = some (d, t)) : Does [.docs] s t := by
  simp only [docMake, Option.map_eq_some_iff, Prod.mk.injEq] at h
  obtain ⟨d', h1, rfl, rfl⟩ := h
  refine ⟨⟨.plain (by intro p hp; cases p <;> first | exact absurd (by decide) hp | (and_intros <;> rfl)), PoolLaw.fair fun ok => ?_⟩, fun k =>
    ⟨Tbl.wf_put k.1 _ _, k.2.1, k.2.2.1, k.2.2.2.1, fun e => Eq.trans ?_ (k.2.2.2.2 e)⟩⟩
  rotate_left 1
  · simp only [State.holderCount, State.doc, State.onPmc_pmc, Tbl.get_put]
    split
    · rename_i he; subst he; rw [Tbl.lowestFree_none h1]; rfl
    · rfl
  obtain ⟨x, y, e1, e2, e3⟩ := Tbl.put_split ⟨o, .opened, [], 0, b, false, r, g, l, a⟩ ok.2.1 (Tbl.lowestFree_none h1)
  refine ⟨⟨ok.1, e3, ?_⟩, fun n => ?_⟩
  · intro z hz
    simp only [State.onPmc_pmc, e2, List.mem_append, List.mem_cons] at hz
    have hk := ok.2.2 z
    rw [e1, List.mem_append] at hk
    rcases hz with hz | rfl | hz
    · exact hk (.inl hz)
    · simp [Doc.shaped]
    · exact hk (.inr hz)
  · simp only [State.onPmc_pmc, Pmc.tally, docsBlocks, e2]
    rw [e1]; simp [Doc.blocks]

theorem docChanged_does (d c : Nat) (s : State) : Does [.notices] s (docChanged d c s) := raise_does ..

theorem docFree_does (d : Nat) (s : State) : Does Part.freeing s (docFree d s) := by
  unfold docFree
  split
  · exact .refl s
  · rename_i r hr
    split
    · rename_i hz
      have ha : Acts Part.freeing s (docChanged d freedCode (poolReturn r.blocks (s.onPmc fun p => { p with docs := p.docs.del d }))) := by
        refine .chain (ps := Part.freeing) (qs := [.notices]) (.chain (ps := [.docs]) (.plain ?_) (poolReturn_acts _ _)) (raise_does ..).toActs
        intro p hp; cases p <;> first | exact absurd (by decide) hp | (and_intros <;> rfl)
      refine ⟨⟨ha, PoolLaw.fair ?_⟩, fun k => ha.only.hold_docs k ?_ fun e => ?_⟩
      · rw [docChanged, raise_pmc, poolReturn_pmc]
        intro ok
        refine ⟨⟨ok.1, ?_, ?_⟩, fun b => ?_⟩
        · exact List.Pairwise.sublist ((Tbl.del_sub _ _).map _) ok.2.1
        · exact fun x hx => ok.2.2 x ((Tbl.del_sub _ _).subset hx)
        · have := docsBlocks_del hr b
          simp only [Pmc.tally, State.onPmc_pmc, List.count_append] at *
          omega
      · rw [docChanged, raise_pmc, poolReturn_pmc]; exact Tbl.wf_del k.1 d
      · simp only [State.holderCount, State.doc, docChanged, raise_pmc, poolReturn_pmc, State.onPmc_pmc, Tbl.get_del _ k.1]
        split
        · rename_i he; subst he
          have : s.pmc.docs.get e = some r := hr
          rw [this]; exact hz.1.symm
        · rfl
    · exact .refl s

/-- A hold is granted: its holder is still to come. -/
theorem docHold_moves {d : Nat} {s t : State} (h : docHold d s = some t) : Moves [.docs] s t ∧ (HolderLaw s → HeldBy d t) := by
  unfold docHold at h
  split at h
  · simp at h
  · split at h
    · simp at h
    · simp only [Option.some.injEq] at h; subst h
      rename_i r hr _
      refine ⟨onDoc_moves_pages _ _ _ fun _ => rfl, fun k => ⟨Tbl.wf_mod k.1 _ _, k.2.1, k.2.2.1, k.2.2.2.1, fun e => ?_⟩⟩
      rw [holderCount_onDoc]
      have h1 := k.2.2.2.2 e
      have h2 : (s.onDoc d fun r => { r with holders := r.holders + 1 }).holdersOf e = s.holdersOf e := rfl
      rw [h2, ← h1]
      split
      · rename_i he; subst he; simp [State.holderCount, hr]
      · rfl

/-- A hold whose holder has ended is released. -/
theorem docRelease_moves (d : Nat) (s : State) : Moves Part.freeing s (docRelease d s) ∧ (HeldBy d s → HolderLaw (docRelease d s)) := by
  refine ⟨.chain (ps := [.docs]) (onDoc_moves_pages d (fun r => { r with holders := r.holders - 1 }) s fun _ => rfl) (docFree_does d _).toMoves, fun k => ?_⟩
  refine (docFree_does d _).hold ⟨Tbl.wf_mod k.1 _ _, k.2.1, k.2.2.1, k.2.2.2.1, fun e => ?_⟩
  rw [holderCount_onDoc]
  have h1 := k.2.2.2.2 e
  have h2 : (s.onDoc d fun r => { r with holders := r.holders - 1 }).holdersOf e = s.holdersOf e := rfl
  rw [h2]
  split
  · rename_i he; subst he
    simp only [State.holderCount, if_true] at h1
    cases hr : s.doc e with
    | none => simp [hr] at h1
    | some r => simp [hr] at h1 ⊢; omega
  · rename_i he; simpa [he] using h1

theorem docRetainSet_does (d : Nat) (s : State) : Does [.docs] s (docRetainSet d s) :=
  onDoc_does_pages _ _ _ fun r => by split <;> exact ⟨rfl, rfl⟩

/-! ## Strips -/

theorem setMem_does (m : List Host.Cell) (s : State) (h : Memory.wf s.mem → Memory.wf m) : Does [.mem] s (s.setMem m) := by
  refine Acts.does ⟨?_, fun k => ⟨h k.1, k.2⟩, id, id, id, id⟩
  intro p hp; cases p <;> first | exact absurd (by decide) hp | (and_intros <;> rfl)

/-- Blocks of the pool are reserved for a client that holds none. -/
theorem reserve_does {c : Client} {s : State} (hn : ¬(s.resvOf c).isSome = true) (n d : Nat) (x : Strip) :
    Does [.freePool, .reservations] s (s.onPmc fun p => { p with free := p.free.drop n, resv := p.resv ++ [⟨c, s.pmc.free.take n, d, x⟩] }) := by
  refine Acts.pooling (.plain (by intro p hp; cases p <;> first | exact absurd (by decide) hp | (and_intros <;> rfl))) (PoolLaw.fair fun ok => ?_)
  refine ⟨⟨?_, ok.2⟩, fun b => ?_⟩
  · simp only [State.onPmc_pmc, List.map_append, List.map_cons, List.map_nil]
    refine List.nodup_append.2 ⟨ok.1, by simp, ?_⟩
    intro a ha e he
    simp only [State.resvOf, Option.isSome_iff_ne_none, ne_eq, not_not, List.find?_eq_none, beq_iff_eq] at hn
    obtain ⟨v, hv, rfl⟩ := List.mem_map.1 ha
    rw [List.mem_singleton.1 he]
    exact hn v hv
  · have h1 := congrArg (List.count b) (List.take_append_drop n s.pmc.free)
    simp only [List.count_append] at h1
    simp only [Pmc.tally, State.onPmc_pmc, List.flatMap_append, List.flatMap_cons, List.flatMap_nil, List.append_nil, List.count_append]
    omega

theorem headerOpened_wf (bs : List Nat) (d n l : Nat) (s : State) (h : Memory.wf s.mem) : Memory.wf (headerOpened bs d n l s) := by
  unfold headerOpened
  split
  · exact h
  · exact stripWrite_wf _ _ _ _ h

theorem stripOpen_does {c : Client} {d n l : Nat} {s t : State} (h : stripOpen c d n l s = some t) : Does [.mem, .freePool, .reservations] s t := by
  unfold stripOpen at h
  split at h
  · simp at h
  · rename_i hn
    split at h
    · simp only [Option.some.injEq] at h; subst h
      have h1 := headerOpened_wf (s.pmc.free.take Config.stripBlocks) d n l s
      exact (setMem_does _ s h1).chain (qs := [.freePool, .reservations]) (reserve_does (s := s.setMem (headerOpened _ d n l s)) hn _ d ⟨n, l, 0, [], .filling⟩)
    · simp at h

/-- A change of a reservation that leaves its client and blocks. -/
theorem onResv_does (c : Client) (f : Resv → Resv) (s : State) (h : ∀ r, (f r).client = r.client ∧ (f r).blocks = r.blocks) :
    Does [.reservations] s (s.onResv c f) := by
  refine Acts.pooling (.plain (by intro p hp; cases p <;> first | exact absurd (by decide) hp | (and_intros <;> rfl))) (PoolLaw.fair fun ok => ?_)
  have h1 : (s.pmc.resv.map fun r => if r.client == c then f r else r).map (·.client) = s.pmc.resv.map (·.client) := by
    rw [List.map_map]; exact List.map_congr_left fun r _ => by simp only [Function.comp]; split <;> simp [h]
  have h2 : (s.pmc.resv.map fun r => if r.client == c then f r else r).flatMap (·.blocks) = s.pmc.resv.flatMap (·.blocks) := by
    rw [List.flatMap_map]; congr 1; funext r; split <;> simp [h]
  exact ⟨⟨by simpa only [State.onResv, State.onPmc_pmc, h1] using ok.1, ok.2⟩, fun b => by simp only [Pmc.tally, State.onResv, State.onPmc_pmc, h2]⟩

theorem stripAppend_does (c : Client) (bs : List Byte) (s : State) : Does [.mem, .reservations, .arbiter] s (stripAppend c bs s) := by
  unfold stripAppend
  split
  · exact .refl s
  · refine .chain (ps := [.mem, .reservations]) (.chain (setMem_does _ _ (stripWrite_wf _ _ _ _)) (onResv_does c _ _ ?_)) (arbAsk_does ..)
    exact fun _ => ⟨rfl, rfl⟩

theorem arbAsk_pmc (c : Client) (n : Nat) (s : State) : (arbAsk c n s).pmc = s.pmc := by
  unfold arbAsk arbGrant; split <;> rfl

theorem dropResv_acts (c : Client) (s : State) : Acts [.reservations] s (s.dropResv c) :=
  .plain (by intro p hp; cases p <;> first | exact absurd (by decide) hp | (and_intros <;> rfl))

/-- A reservation given up. -/
theorem dropResv_ok {p : Pmc} {c : Client} {r : Resv} (ok : p.Ok) (h : p.resv.find? (·.client == c) = some r) :
    ((p.resv.filter (·.client != c)).map (·.client)).Nodup
      ∧ ∀ b, ((p.resv.filter (·.client != c)).flatMap (·.blocks)).count b + r.blocks.count b = (p.resv.flatMap (·.blocks)).count b := by
  refine ⟨ok.1.sublist (List.filter_sublist.map _), fun b => ?_⟩
  obtain ⟨x, y, h1, h2, -⟩ := resv_split ok.1 h
  rw [h2, h1]; simp; omega

theorem stripClose_does (c : Client) (st : StripState) (s : State) : Does Part.stripEnd s (stripClose c st s) := by
  unfold stripClose
  split
  · exact .refl s
  · rename_i r hr
    split
    · exact .refl s
    · rename_i p hp
      refine Acts.docking ?_ (by rw [poolReturn_pmc, arbAsk_pmc]; rfl) (by intro _; rfl) (PoolLaw.fair ?_)
      · refine .chain (ps := [.mem, .reservations, .arbiter, .docs]) ?_ (poolReturn_acts _ _)
        refine .chain (ps := [.mem, .reservations, .docs]) ?_ (arbAsk_does ..).toActs
        refine .chain (ps := [.mem, .reservations]) ?_ (onDoc_acts ..)
        exact .chain (setMem_does _ _ (stripWrite_wf _ _ _ _)).toActs (dropResv_acts ..)
      · rw [poolReturn_pmc, arbAsk_pmc]
        intro ok
        obtain ⟨g, hg, hf⟩ := Option.bind_eq_some_iff.1 hp
        have hs : g.shaped := ok.2.2 _ (Tbl.get_mem hg)
        obtain ⟨h1, h2⟩ := dropResv_ok ok hr
        have hx : p ∈ g.pages := List.mem_of_find?_eq_some hf
        have hris : risingStrips p.strips := hs.1 p hx
        let q : Pmc := { s.pmc with resv := s.pmc.resv.filter (·.client != c) }
        have okq : q.Ok := ⟨h1, ok.2⟩
        have okm := Pmc.mod_ok (p := q) (d := r.doc)
          (g := fun d => d.onFilling fun p => { p with strips := stripInsert { r.strip with blocks := r.blocks.take (blocksFor r.strip.coded), state := st } p.strips })
          okq fun d _ hd => Doc.onFilling_shaped _ hd fun p _ hp => stripInsert_rising hp
        refine ⟨okm, fun b => ?_⟩
        have e1 := docsBlocks_mod hg
          (fun d => d.onFilling fun p => { p with strips := stripInsert { r.strip with blocks := r.blocks.take (blocksFor r.strip.coded), state := st } p.strips }) b
        have e2 := Doc.onFilling_blocks
          (fun p => { p with strips := stripInsert { r.strip with blocks := r.blocks.take (blocksFor r.strip.coded), state := st } p.strips }) hs hf b
        have e3 := stripInsert_blocks (x := { r.strip with blocks := r.blocks.take (blocksFor r.strip.coded), state := st }) hris b
        have e4 := h2 b
        have e5 := congrArg (List.count b) (List.take_append_drop (blocksFor r.strip.coded) r.blocks)
        simp only [List.count_append] at e5
        simp only [Page.blocks, Pmc.tally, State.onDoc, State.onPmc_pmc, State.dropResv, State.setMem_pmc, List.count_append, Page.strip] at *
        omega

theorem stripDiscard_does (c : Client) (s : State) : Does ([.reservations, .arbiter] ++ Part.returning) s (stripDiscard c s) := by
  unfold stripDiscard
  split
  · exact .refl s
  · rename_i r hr
    refine Acts.pooling ?_ (PoolLaw.fair ?_)
    · exact .chain (.chain (rs := [.reservations, .arbiter]) (dropResv_acts ..) (arbWithdraw_does ..).toActs) (poolReturn_acts _ _)
    · rw [poolReturn_pmc]
      intro ok
      obtain ⟨h1, h2⟩ := dropResv_ok ok hr
      refine ⟨⟨h1, ok.2⟩, fun b => ?_⟩
      have := h2 b
      simp only [Pmc.tally, arbWithdraw, State.onArb_pmc, State.dropResv, State.onPmc_pmc, List.count_append] at *
      omega

/-- A change of the FILLING page that moves no block. -/
theorem onFilling_does (d : Nat) (f : Page → Page) (s : State)
    (h : ∀ p, risingStrips p.strips → risingStrips (f p).strips ∧ ∀ b, (f p).blocks.count b = p.blocks.count b) :
    Does [.docs] s (s.onDoc d (·.onFilling f)) := by
  refine onDoc_does _ _ _ (fun r hs => ⟨Doc.onFilling_shaped _ hs fun p _ hp => (h p hp).1, fun b => ?_⟩) fun _ => rfl
  cases hf : r.filling with
  | none =>
    have h := Doc.filling_none hf
    have : r.pages.map (fun p => if p.complete then p else f p) = r.pages := by
      conv_rhs => rw [← List.map_id r.pages]
      exact List.map_congr_left fun q hq => by simp [h q hq]
    simp [Doc.onFilling, Doc.blocks, this]
  | some p =>
    have h1 := Doc.onFilling_blocks f hs hf b
    have h2 := (h p (hs.1 p (List.mem_of_find?_eq_some hf))).2 b
    omega

theorem stripMissed_does (d n l : Nat) (s : State) : Does [.docs] s (stripMissed d n l s) := by
  refine onFilling_does d _ s fun p hp => ?_
  split
  · rename_i x hx
    refine ⟨stripInsert_rising hp, fun b => ?_⟩
    have e3 := stripInsert_blocks (x := { x with lines := l }) hp b
    have hx' : p.strips.find? (·.no == n) = some x := hx
    have hn : x.no = n := by simpa using List.find?_some hx'
    simp only [hn, hx', Option.map_some, Option.getD_some] at e3
    simp only [Page.blocks, hn]; omega
  · rename_i hx
    refine ⟨stripInsert_rising hp, fun b => ?_⟩
    have e3 := stripInsert_blocks (x := ⟨n, l, 0, [], .damaged⟩) hp b
    have hx' : p.strips.find? (·.no == n) = none := hx
    simp only [hx', Option.map_none, Option.getD_none, List.count_nil] at e3
    simp only [Page.blocks]; omega

theorem stripRecount_does (d n l : Nat) (s : State) : Does [.docs] s (stripRecount d n l s) := by
  refine onFilling_does d _ s fun p hp => ⟨?_, fun b => ?_⟩
  · have h : (p.strips.map fun x => if x.no == n && x.state == .damaged then { x with lines := l } else x).map (·.no) = p.strips.map (·.no) := by
      rw [List.map_map]; exact List.map_congr_left fun x _ => by simp only [Function.comp]; split <;> rfl
    unfold risingStrips at *
    rwa [h]
  · simp only [Page.blocks, List.flatMap_map]
    congr 2; funext x; split <;> rfl

/-! ## Pages -/

theorem pageBegin_does {d : Nat} {r : Resolution} {w : Width} {s t : State} {n : Nat} (h : pageBegin d r w s = .ok (n, t)) : Does [.docs] s t := by
  unfold pageBegin at h
  split at h
  · simp at h
  · rename_i g hg
    split at h
    · simp at h
    · split at h
      · simp at h
      · rename_i hn
        simp only [Except.ok.injEq, Prod.mk.injEq] at h
        obtain ⟨rfl, rfl⟩ := h
        refine ⟨⟨onDoc_acts _ _ _, PoolLaw.fair (Pmc.mod_fair fun x hx hs => ?_)⟩, onDoc_hold _ _ _ fun _ => rfl⟩
        have : x = g := by
          have : s.doc d = some x := hx
          rw [hg] at this; exact (Option.some.inj this).symm
        subst this
        have hf : x.filling = none := by
          simpa [Option.isNone_iff_eq_none, Option.isSome_iff_ne_none] using (not_or.1 hn).2
        refine ⟨⟨?_, ?_⟩, fun b => by simp [Doc.blocks, Page.blocks]⟩
        · intro q hq
          rcases List.mem_append.1 hq with hq | hq
          · exact hs.1 q hq
          · rw [List.mem_singleton.1 hq]; simp
        · simpa using Doc.filling_none hf

theorem pageComplete_does (d : Nat) (s : State) : Does [.docs] s (pageComplete d s) :=
  onFilling_does d _ s fun _ hp => ⟨hp, fun _ => rfl⟩

theorem pageDiscard_does (c : Client) (d : Nat) (s : State) : Does ([.reservations, .arbiter] ++ Part.freeing) s (pageDiscard c d s) := by
  unfold pageDiscard
  refine .trans ((stripDiscard_does c s).mono) ?_
  generalize stripDiscard c s = s
  dsimp only
  split
  · exact .refl s
  · rename_i p hp
    refine Acts.docking ?_ (by rw [poolReturn_pmc]; rfl) (by intro _; rfl) (PoolLaw.fair ?_)
    · exact .chain (.chain (rs := [.docs, .arbiter]) (onDoc_acts _ _ _) (arbWithdraw_does ..).toActs) (poolReturn_acts _ _)
    · rw [poolReturn_pmc]
      intro ok
      obtain ⟨g, hg, hf⟩ := Option.bind_eq_some_iff.1 hp
      have hs : g.shaped := ok.2.2 _ (Tbl.get_mem hg)
      refine ⟨Pmc.mod_ok ok fun r _ hr => ?_, fun b => ?_⟩
      · refine ⟨fun q hq => hr.1 q (List.mem_filter.1 hq).1, fun q hq => ?_⟩
        simpa using (List.mem_filter.1 (List.mem_of_mem_dropLast hq)).2
      · have e1 := docsBlocks_mod hg (fun r => { r with pages := r.pages.filter (·.complete) }) b
        obtain ⟨ps, h1, h2, h3⟩ := Doc.filling_split hs hf
        have h4 : g.pages.filter (·.complete) = ps := by
          rw [h1, List.filter_append, List.filter_eq_self.2 h2]; simp [h3]
        have h5 : (({ g with pages := g.pages.filter (·.complete) } : Doc).blocks).count b + p.blocks.count b = g.blocks.count b := by
          simp only [Doc.blocks, h4]; rw [h1]; simp
        simp only [Pmc.tally, arbWithdraw, State.onArb_pmc, State.onDoc, State.onPmc_pmc, List.count_append] at *
        omega

/-- Strips added under numbers that have none. -/
theorem missing_blocks (cs : Tbl Nat) (ns : List Nat) (xs : List Strip) (h : risingStrips xs) (hn : ns.Nodup) (hx : ∀ n ∈ ns, xs.find? (·.no == n) = none) :
    risingStrips (ns.foldl (fun xs n => stripInsert (missingStrip cs n) xs) xs)
      ∧ ∀ b, ((ns.foldl (fun xs n => stripInsert (missingStrip cs n) xs) xs).flatMap (·.blocks)).count b = (xs.flatMap (·.blocks)).count b := by
  induction ns generalizing xs with
  | nil => exact ⟨h, fun _ => rfl⟩
  | cons n ns ih =>
    simp only [List.nodup_cons] at hn
    have hr := stripInsert_rising (x := missingStrip cs n) h
    obtain ⟨i1, i2⟩ := ih (stripInsert (missingStrip cs n) xs) hr hn.2 (by
      intro m hm
      rw [List.find?_eq_none]
      intro z hz
      rcases stripInsert_mem hz with rfl | hz
      · simp only [beq_iff_eq]; intro e; subst e; exact hn.1 hm
      · exact List.find?_eq_none.1 (hx m (List.mem_cons_of_mem _ hm)) z hz)
    refine ⟨i1, fun b => (i2 b).trans ?_⟩
    have e3 := stripInsert_blocks (x := missingStrip cs n) h b
    simp [missingStrip, hx n (List.mem_cons_self ..)] at e3
    exact e3

theorem damageDecision_does (d count : Nat) (cs : Tbl Nat) (s : State) : Does Part.freeing s (damageDecision d count cs s) := by
  unfold damageDecision
  split
  · exact .refl s
  · rename_i p hp
    refine Acts.docking (.chain (onDoc_acts _ _ _) (poolReturn_acts _ _)) (by rw [poolReturn_pmc]; rfl) (by intro _; rfl) (PoolLaw.fair ?_)
    rw [poolReturn_pmc]
    intro ok
    obtain ⟨g, hg, hf⟩ := Option.bind_eq_some_iff.1 hp
    have hs : g.shaped := ok.2.2 _ (Tbl.get_mem hg)
    have hris : risingStrips p.strips := hs.1 p (List.mem_of_find?_eq_some hf)
    have hk : risingStrips (p.strips.map fun x => if x.state == .damaged then { x with blocks := [], coded := 0 } else x) := by
      unfold risingStrips at *
      have : (p.strips.map fun x => if x.state == .damaged then { x with blocks := [], coded := 0 } else x).map (·.no) = p.strips.map (·.no) := by
        rw [List.map_map]; exact List.map_congr_left fun x _ => by simp only [Function.comp]; split <;> rfl
      rwa [this]
    obtain ⟨m1, m2⟩ := missing_blocks cs ((List.range count).filter fun n => (p.strip n).isNone) _ hk (List.nodup_range.sublist List.filter_sublist) (by
      intro n hn
      have : (p.strip n).isNone := by simpa using (List.mem_filter.1 hn).2
      have : p.strips.find? (·.no == n) = none := Option.isNone_iff_eq_none.1 this
      rw [List.find?_eq_none] at this ⊢
      intro z hz
      obtain ⟨w, hw, rfl⟩ := List.mem_map.1 hz
      have := this w hw
      split <;> exact this)
    refine ⟨Pmc.mod_ok ok fun r _ hr => Doc.onFilling_shaped _ hr fun q _ _ => m1, fun b => ?_⟩
    have e1 := docsBlocks_mod hg (fun r => r.onFilling fun p' => { p' with strips := ((List.range count).filter fun n => (p.strip n).isNone).foldl (fun xs n => stripInsert (missingStrip cs n) xs) (p.strips.map fun x => if x.state == .damaged then { x with blocks := [], coded := 0 } else x) }) b
    have e2 := Doc.onFilling_blocks (fun p' => { p' with strips := ((List.range count).filter fun n => (p.strip n).isNone).foldl (fun xs n => stripInsert (missingStrip cs n) xs) (p.strips.map fun x => if x.state == .damaged then { x with blocks := [], coded := 0 } else x) }) hs hf b
    have e3 := m2 b
    have e4 : ((p.strips.map fun x => if x.state == .damaged then { x with blocks := [], coded := 0 } else x).flatMap (·.blocks)).count b
        + ((p.strips.filter (·.state == .damaged)).flatMap (·.blocks)).count b = (p.strips.flatMap (·.blocks)).count b := by
      generalize p.strips = xs
      induction xs with
      | nil => rfl
      | cons x xs ih =>
        by_cases h : x.state = .damaged <;> simp [h] at ih ⊢ <;> omega
    simp only [Page.blocks, Pmc.tally, State.onDoc, State.onPmc_pmc, List.count_append] at *
    omega

end Sys2Proof.Machine
end

