-- ==== Sys2Proof/Laws/Holders.lean ====
section
/-! SUPPORT. The holders' law (R12) where a holder begins, ends or changes: jobs, print entries and read cursors. -/

namespace Sys2Proof.Machine

set_option Elab.async false

theorem Tbl.get_of_mem {α : Type} {t : Tbl α} (hw : t.wf) {k : Nat} {x : α} (h : (k, x) ∈ t) : t.get k = some x := by
  induction t with
  | nil => simp at h
  | cons y t ih =>
    obtain ⟨k', y⟩ := y
    simp only [Tbl.wf, Tbl.keys, List.map_cons, List.pairwise_cons] at hw
    rcases List.mem_cons.1 h with h | h
    · cases h; simp [Tbl.get]
    · have : k' ≠ k := fun e => by
        have := hw.1 k (List.mem_map.2 ⟨(k, x), h, rfl⟩); omega
      simp [Tbl.get, this, ih hw.2 h]

/-- The tables that the law speaks of are in order. -/
def TablesOk (s : State) : Prop := Tbl.wf s.pmc.docs ∧ Tbl.wf s.dsc.jobs ∧ Tbl.wf s.prt.entries ∧ Tbl.wf s.pmc.cursors

theorem HolderLaw.tables {s : State} (k : HolderLaw s) : TablesOk s := ⟨k.1, k.2.1, k.2.2.1, k.2.2.2.1⟩
theorem HeldBy.tables {d : Nat} {s : State} (k : HeldBy d s) : TablesOk s := ⟨k.1, k.2.1, k.2.2.1, k.2.2.2.1⟩

/-- The holders and the holder counts are as before. -/
theorem HolderLaw.same {s t : State} (k : HolderLaw s) (hw : TablesOk t) (hc : t.pmc.docs = s.pmc.docs) (hn : ∀ e, t.holdersOf e = s.holdersOf e) :
    HolderLaw t :=
  ⟨hw.1, hw.2.1, hw.2.2.1, hw.2.2.2, fun e => by rw [hn, ← k.2.2.2.2 e]; simp only [State.holderCount, State.doc, hc]⟩

/-- A holder of document `d` ends. -/
theorem HolderLaw.ending {s t : State} {d : Nat} (k : HolderLaw s) (hw : TablesOk t) (hc : t.pmc.docs = s.pmc.docs)
    (hn : ∀ e, t.holdersOf e + (if e = d then 1 else 0) = s.holdersOf e) : HeldBy d t :=
  ⟨hw.1, hw.2.1, hw.2.2.1, hw.2.2.2, fun e => by rw [hn, ← k.2.2.2.2 e]; simp only [State.holderCount, State.doc, hc]⟩

/-- A holder of document `d` begins. -/
theorem HeldBy.begins {s t : State} {d : Nat} (k : HeldBy d s) (hw : TablesOk t) (hc : t.pmc.docs = s.pmc.docs)
    (hn : ∀ e, t.holdersOf e = s.holdersOf e + if e = d then 1 else 0) : HolderLaw t :=
  ⟨hw.1, hw.2.1, hw.2.2.1, hw.2.2.2, fun e => by rw [hn, ← k.2.2.2.2 e]; simp only [State.holderCount, State.doc, hc]⟩

/-! ## Jobs -/

/-- A change of a job that leaves its document and whether it is finished. -/
theorem onJob_hold (j : Nat) (f : Job → Job) (s : State) (h : ∀ x, (f x).doc = x.doc ∧ (f x).finished = x.finished) (k : HolderLaw s) :
    HolderLaw (s.onJob j f) := by
  refine k.same ⟨k.1, Tbl.wf_mod k.2.1 j f, k.2.2.1, k.2.2.2.1⟩ rfl fun e => ?_
  have := Tbl.number_mod_same s.dsc.jobs j f (Job.on e) fun x _ => by simp only [Job.on, h]
  simp only [State.holdersOf, State.onJob, State.onDsc_dsc, State.onDsc_prt, State.onDsc_pmc, this]

/-- A job finishes. -/
theorem jobEnd_hold {j n : Nat} {x : Job} {s : State} {f : Job → Job} (hx : s.job j = some x) (hu : x.finished = false) (hf : (f x).finished = true)
    (k : HolderLaw s) : HeldBy x.doc (s.onDsc fun d => { d with finishNo := n, jobs := d.jobs.mod j f }) := by
  refine k.ending ⟨k.1, Tbl.wf_mod k.2.1 j f, k.2.2.1, k.2.2.2.1⟩ rfl fun e => ?_
  have h1 := Tbl.number_mod hx f (Job.on e)
  have h2 : Job.on e x = (x.doc == e) := by simp [Job.on, hu]
  have h3 : Job.on e (f x) = false := by simp [Job.on, hf]
  simp only [State.holdersOf, State.onDsc_dsc, State.onDsc_prt, State.onDsc_pmc]
  simp only [h2, h3, beq_iff_eq, eq_comm (a := x.doc)] at h1
  simp at h1
  omega

theorem reclaim_wf (n k : Nat) (d : Dsc) (h : d.jobs.wf) : (Dsc.reclaim n k d).jobs.wf := by
  induction k generalizing d with
  | zero => exact h
  | succ k ih =>
    unfold Dsc.reclaim
    split
    · exact h
    · split
      · exact h
      · exact ih _ (Tbl.wf_del h _)

/-- What a choice between items gives is one of them. -/
theorem foldl_mem {α : Type} (f : α → α → α) (h : ∀ a b, f a b = a ∨ f a b = b) (x : α) (xs : List α) : xs.foldl f x ∈ x :: xs := by
  induction xs generalizing x with
  | nil => simp
  | cons y ys ih =>
    have := ih (f x y)
    simp only [List.foldl_cons, List.mem_cons] at this ⊢
    rcases this with e | e
    · rw [e]; rcases h x y with e | e <;> simp [e]
    · simp [e]

/-- Finished jobs removed are no holders. -/
theorem reclaim_number (n k e : Nat) (d : Dsc) (h : d.jobs.wf) : (Dsc.reclaim n k d).jobs.number (Job.on e) = d.jobs.number (Job.on e) := by
  induction k generalizing d with
  | zero => rfl
  | succ k ih =>
    unfold Dsc.reclaim
    split
    · rfl
    · split
      · rfl
      · rename_i x xs hx
        refine (ih _ (Tbl.wf_del h _)).trans ?_
        have hm := foldl_mem (fun a b : Nat × Job => if b.2.finish.getD 0 < a.2.finish.getD 0 then b else a) (fun a b => by split <;> simp) x xs
        rw [← hx] at hm
        obtain ⟨h1, h2⟩ := List.mem_filter.1 hm
        have h3 := Tbl.number_del (Tbl.get_of_mem h h1) (Job.on e)
        have h2' := of_decide_eq_true (p := (xs.foldl (fun a b : Nat × Job => if b.2.finish.getD 0 < a.2.finish.getD 0 then b else a) x).2.finished = true) (by simpa using h2)
        have h4 : Job.on e (xs.foldl (fun a b : Nat × Job => if b.2.finish.getD 0 < a.2.finish.getD 0 then b else a) x).2 = false := by
          simp [Job.on, h2']
        simp only [h4] at h3
        simpa using h3

/-! ## Print entries -/

/-- A change of an entry that leaves its document and whether it is finished. -/
theorem onEntry_hold (i : Nat) (f : Entry → Entry) (s : State) (h : ∀ x, s.entry i = some x → (f x).doc = x.doc ∧ (f x).unfinished = x.unfinished)
    (k : HolderLaw s) : HolderLaw (s.onEntry i f) := by
  refine k.same ⟨k.1, k.2.1, Tbl.wf_mod k.2.2.1 i f, k.2.2.2.1⟩ rfl fun e => ?_
  have := Tbl.number_mod_same s.prt.entries i f (Entry.on e) fun x hx => by simp only [Entry.on, h x hx]
  simp only [State.holdersOf, State.onEntry, State.onPrt_dsc, State.onPrt_prt, State.onPrt_pmc, this]

/-- An entry finishes. -/
theorem entryEnd_hold {i : Nat} {x : Entry} {s t : State} {f : Entry → Entry} (hx : s.entry i = some x) (hu : x.unfinished = true)
    (hf : (f x).unfinished = false) (ht : t.prt.entries = s.prt.entries.mod i f) (hp : t.pmc = s.pmc) (hd : t.dsc = s.dsc) (k : HolderLaw s) :
    HeldBy x.doc t := by
  refine k.ending ?_ (by rw [hp]) fun e => ?_
  · simp only [TablesOk, hp, hd, ht]; exact ⟨k.1, k.2.1, Tbl.wf_mod k.2.2.1 i f, k.2.2.2.1⟩
  have h1 := Tbl.number_mod hx f (Entry.on e)
  have h2 : Entry.on e x = (x.doc == e) := by simp [Entry.on, hu]
  have h3 : Entry.on e (f x) = false := by simp [Entry.on, hf]
  simp only [State.holdersOf, hp, hd, ht]
  simp only [h2, h3, beq_iff_eq, eq_comm (a := x.doc)] at h1
  simp at h1
  omega

/-- The slot for a new entry holds no unfinished entry. -/
theorem entrySlot_free {s : State} {i : Nat} (hw : s.prt.entries.wf) (h : s.entrySlot = some i) : ∀ x, s.entry i = some x → x.unfinished = false := by
  intro x hx
  unfold State.entrySlot at h
  split at h
  · rename_i k hk
    cases h
    have := Tbl.lowestFree_none hk
    simp [State.entry, this] at hx
  · split at h
    · simp at h
    · rename_i y ys hy
      have hm := foldl_mem (fun a b : Nat × Entry => if b.2.finish.getD 0 < a.2.finish.getD 0 then b else a) (fun a b => by split <;> simp) y ys
      rw [← hy] at hm
      obtain ⟨h1, h2⟩ := List.mem_filter.1 hm
      have h3 := Tbl.get_of_mem hw h1
      simp only [Option.some.injEq] at h
      rw [h] at h3
      have : some x = some _ := hx.symm.trans h3
      rw [Option.some.inj this]
      simpa using h2

/-- A new entry in its slot. -/
theorem entryNew_hold {i : Nat} {r : Entry} {s t : State} (hi : ∀ x, s.entry i = some x → x.unfinished = false) (hu : r.unfinished = true)
    (ht : t.prt.entries = s.prt.entries.put i r) (hp : t.pmc = s.pmc) (hd : t.dsc = s.dsc) (k : HeldBy r.doc s) : HolderLaw t := by
  refine k.begins ?_ (by rw [hp]) fun e => ?_
  · simp only [TablesOk, hp, hd, ht]; exact ⟨k.1, k.2.1, Tbl.wf_put k.2.2.1 i r, k.2.2.2.1⟩
  have h2 : Entry.on e r = (r.doc == e) := by simp [Entry.on, hu]
  simp only [State.holdersOf, hp, hd, ht]
  cases hx : s.entry i with
  | none =>
    have h1 := Tbl.number_put k.2.2.1 hx r (Entry.on e)
    simp only [h2, beq_iff_eq, eq_comm (a := r.doc)] at h1
    omega
  | some x =>
    have h1 := Tbl.number_mod hx (fun _ => r) (Entry.on e)
    have h3 : Entry.on e x = false := by simp [Entry.on, hi x hx]
    rw [Tbl.put_over r k.2.2.1 hx]
    simp only [h2, h3, beq_iff_eq, eq_comm (a := r.doc)] at h1
    simp at h1
    omega

theorem better_or (c : Option Nat) (a b : Nat × Entry) : better c a b = a ∨ better c a b = b := by
  unfold better; repeat' split
  all_goals simp

/-- The choice of selection is an unfinished entry. -/
theorem choice_unfinished {s : State} {i : Nat} (hw : s.prt.entries.wf) (h : s.choice = some i) : ∃ x, s.entry i = some x ∧ x.unfinished = true := by
  unfold State.choice at h
  split at h
  · simp at h
  · rename_i y ys hy
    have hm := foldl_mem (better s.prt.current) (better_or _) y ys
    rw [← hy] at hm
    obtain ⟨h1, h2⟩ := List.mem_filter.1 hm
    have h3 := Tbl.get_of_mem hw h1
    simp only [Option.some.injEq] at h
    rw [h] at h3
    refine ⟨_, h3, ?_⟩
    simp only [State.selectable, Bool.and_eq_true] at h2
    exact h2.2

/-! ## Read cursors -/

/-- Changed cursors that are the same holders. -/
theorem cursors_hold {s : State} {t : Tbl Cursor} (hw : s.pmc.cursors.wf → t.wf) (hn : s.pmc.cursors.wf → ∀ e, t.number (Cursor.on e) = s.pmc.cursors.number (Cursor.on e))
    (k : HolderLaw s) : HolderLaw (s.onPmc ({ · with cursors := t })) := by
  refine k.same ⟨k.1, k.2.1, k.2.2.1, hw k.2.2.2.1⟩ rfl fun e => ?_
  simp only [State.holdersOf, State.onPmc_dsc, State.onPmc_prt, State.onPmc_pmc, hn k.2.2.2.1 e]

/-- A cursor closed or revoked. -/
theorem cursorEnd_hold {s : State} {t : Tbl Cursor} {i : Nat} {x : Cursor} (hx : s.pmc.cursors.get i = some x) (hu : x.state ≠ .revoked)
    (ht : t = s.pmc.cursors.del i ∨ t = s.pmc.cursors.mod i ({ · with state := .revoked })) (k : HolderLaw s) :
    HeldBy x.doc (s.onPmc ({ · with cursors := t })) := by
  have h2 : ∀ e, Cursor.on e x = (x.doc == e) := fun e => by simp [Cursor.on, hu]
  rcases ht with rfl | rfl
  · refine k.ending ⟨k.1, k.2.1, k.2.2.1, Tbl.wf_del k.2.2.2.1 i⟩ rfl fun e => ?_
    have h1 := Tbl.number_del hx (Cursor.on e)
    simp only [h2, beq_iff_eq, eq_comm (a := x.doc)] at h1
    simp only [State.holdersOf, State.onPmc_dsc, State.onPmc_prt, State.onPmc_pmc]
    omega
  · refine k.ending ⟨k.1, k.2.1, k.2.2.1, Tbl.wf_mod k.2.2.2.1 i _⟩ rfl fun e => ?_
    have h1 := Tbl.number_mod hx ({ · with state := .revoked }) (Cursor.on e)
    have h3 : Cursor.on e { x with state := .revoked } = false := by simp [Cursor.on]
    simp only [h2, h3, beq_iff_eq, eq_comm (a := x.doc)] at h1
    simp only [State.holdersOf, State.onPmc_dsc, State.onPmc_prt, State.onPmc_pmc]
    simp at h1
    omega

/-- A cursor opened. -/
theorem cursorNew_hold {s : State} {i : Nat} {x : Cursor} (hx : s.pmc.cursors.get i = none) (hu : x.state ≠ .revoked) (k : HeldBy x.doc s) :
    HolderLaw (s.onPmc fun p => { p with cursors := p.cursors.put i x }) := by
  refine k.begins ⟨k.1, k.2.1, k.2.2.1, Tbl.wf_put k.2.2.2.1 i x⟩ rfl fun e => ?_
  have h1 := Tbl.number_put k.2.2.2.1 hx x (Cursor.on e)
  have h2 : Cursor.on e x = (x.doc == e) := by simp [Cursor.on, hu]
  simp only [h2, beq_iff_eq, eq_comm (a := x.doc)] at h1
  simp only [State.holdersOf, State.onPmc_dsc, State.onPmc_prt, State.onPmc_pmc]
  omega

end Sys2Proof.Machine
end

