-- ==== Sys2Proof/Laws/Blocks.lean ====
section
/-! SUPPORT. What the operations of the Settings Store, the Print Engine, the Charging Unit and the Dial Scheduler may do. -/

namespace Sys2Proof.Machine

set_option Elab.async false

/-! ## Line units -/

theorem setLu_offer (l : Line) (u : Lu) (s : State) (h : OfferLaw s) : OfferLaw (s.setLu l u) := fun k => by
  by_cases e : k = l
  · subst e; simp [State.lu]
  · have := h k
    simp only [State.lu, State.setLu_lines, State.setLu_dsc, at4_set4_ne _ _ _ _ e] at *
    exact this

/-- Any change of a line unit. -/
theorem setLu_does (l : Line) (u : Lu) (s : State) : Does [.lines, .lineConfig, .lineSets] s (s.setLu l u) := by
  exact Acts.does ⟨(by intro p hp; cases p <;> first | exact absurd (by decide) hp | (and_intros <;> rfl)), id, id, id, setLu_offer l u s, id⟩

theorem map_set4 {α β : Type} (v : Vector α 4) (l : Fin 4) (x : α) (f : α → β) (h : f x = f (at4 v l)) : (set4 v l x).map f = v.map f := by
  ext1 i hi
  simp only [set4, Vector.getElem_map, Vector.getElem_set]
  split
  · rename_i e; subst e; exact h
  · rfl

theorem setLu_config (l : Line) (u : Lu) (s : State) (h : u.config = (s.lu l).config) : Part.lineConfig.same s (s.setLu l u) :=
  map_set4 s.lines l u (·.config) h

/-- A change of a line unit that leaves its configuration. -/
theorem onLu_does (l : Line) (f : Lu → Lu) (s : State) (h : ∀ u, (f u).config = u.config := by intro u; first | rfl | (split <;> rfl)) : Does [.lines, .lineSets] s (s.onLu l f) := by
  refine Acts.does ⟨?_, id, id, id, setLu_offer l _ s, id⟩
  intro p hp
  cases p <;> first | exact absurd (by decide) hp | exact setLu_config l _ s (h _) | (and_intros <;> rfl)

theorem onCall_does (l : Line) (f : Call → Call) (s : State) : Does [.lines, .lineSets] s (s.onCall l f) := onLu_does ..

theorem lineMove_does (l : Line) (st : LineState) (o : Option CallOutcome) (s : State) : Does [.lines, .lineSets, .notices] s (lineMove l st o s) :=
  .chain (onLu_does ..) (raise_does ..)

/-! ## The settings store -/

theorem onSsc_does (f : Ssc → Ssc) (s : State) (h : (f s.ssc).loading = s.ssc.loading) : Does [.dirty, .failed, .store] s (s.onSsc f) :=
  .plain (by intro p hp; cases p <;> first | exact absurd (by decide) hp | exact h | (and_intros <;> rfl))

theorem dirty_does (r : Nat) (s : State) : Does [.dirty] s (s.dirty r) :=
  .plain (by intro p hp; cases p <;> first | exact absurd (by decide) hp | (and_intros <;> rfl))

theorem accountRow_does (a : Nat) (s : State) : Does [.store, .dirty] s (accountRow a s) := by
  unfold accountRow
  split
  · exact .refl s
  · split
    · exact (dirty_does ..).mono
    · exact .mono (ps := [.store]) (.plain (by intro p hp; cases p <;> first | exact absurd (by decide) hp | (and_intros <;> rfl)))

theorem writeStart_does (r : Nat) (s : State) : Does [.dirty] s (writeStart r s) := .plain (by intro p hp; cases p <;> first | exact absurd (by decide) hp | (and_intros <;> rfl))

theorem saveEnd_does (st : StoreStatus) (s : State) : Does [.store, .notices] s (saveEnd st s) :=
  .chain (ps := [.store]) (.plain (by intro p hp; cases p <;> first | exact absurd (by decide) hp | (and_intros <;> rfl))) (raise_does ..)

theorem saveAdvance_does (s : State) : Does [.dirty, .store, .notices] s (saveAdvance s) := by
  unfold saveAdvance
  split
  · exact .chain (ps := [.store]) (.plain (by intro p hp; cases p <;> first | exact absurd (by decide) hp | (and_intros <;> rfl))) (writeStart_does ..)
  · exact (saveEnd_does ..).mono

theorem savePos_does (n k : Nat) (s : State) : Does [.store] s (s.onSsc ({ · with savePos := n, rowsWritten := k })) :=
  .plain (by intro p hp; cases p <;> first | exact absurd (by decide) hp | (and_intros <;> rfl))

theorem queueStart_does (s : State) : Does [.dirty, .store, .notices] s (queueStart s) := by
  unfold queueStart
  split
  · exact (writeStart_does ..).mono
  · exact (savePos_does 0 0 s).chain (saveAdvance_does _)
  · exact .refl s

theorem storeRow_does (r n : Nat) (bs : List Byte) (s : State) : Does [.eeprom, .freeValues] s (s.storeRow r bs n) := by
  refine Acts.does ⟨(by intro p hp; cases p <;> first | exact absurd (by decide) hp | (and_intros <;> rfl)), fun k => ⟨k.1, bytesWrite_wf _ _ _ k.2⟩, id, id, id, id⟩

theorem sscGood_does (w : RowWrite) (s : State) : Does [.dirty, .failed] s (s.onSsc (·.good w)) := .plain (by intro p hp; cases p <;> first | exact absurd (by decide) hp | (and_intros <;> rfl))
theorem sscBad_does (w : RowWrite) (c : WriteCause) (s : State) : Does [.dirty, .store] s (s.onSsc (·.bad w c)) := .plain (by intro p hp; cases p <;> first | exact absurd (by decide) hp | (and_intros <;> rfl))

theorem writeGood_does (w : RowWrite) (s : State) : Does [.eeprom, .freeValues, .dirty, .failed] s (writeGood w s) :=
  (storeRow_does w.row 0 w.bytes s).chain (sscGood_does w _)

theorem writeBad_does (w : RowWrite) (c : WriteCause) (s : State) : Does [.eeprom, .freeValues, .dirty, .store, .notices] s (writeBad w c s) :=
  ((storeRow_does w.row 1 (failedBytes s.freeCount) s).chain (rs := [.eeprom, .freeValues, .dirty, .store]) (sscBad_does w c _)).chain (raise_does ..)

theorem rowEnd_does (w : RowWrite) (r : Option WriteCause) (s : State) : Does Part.writing s (rowEnd w s r) := by
  cases r
  · exact (writeGood_does ..).mono
  · exact (writeBad_does ..).mono

theorem saveRow_does (g : Bool) (s : State) : Does [.dirty, .store, .notices] s (saveRow g s) := by
  unfold saveRow
  split
  · exact (saveEnd_does ..).mono
  · exact saveAdvance_does s

theorem saveCount_does (g : Bool) (s : State) : Does [.store] s (saveCount g s) := by
  unfold saveCount
  split
  · exact .plain (by intro p hp; cases p <;> first | exact absurd (by decide) hp | (and_intros <;> rfl))
  · exact .refl s

theorem itemEnd_does (g : Bool) (s : State) : Does [.dirty, .store, .notices] s (itemEnd g s) := by
  unfold itemEnd
  split
  · exact (saveCount_does g s).chain (saveRow_does ..)
  · exact .mono (ps := [.store]) (.plain (by intro p hp; cases p <;> first | exact absurd (by decide) hp | (and_intros <;> rfl)))

theorem writeEnd_does (r : Option WriteCause) (s : State) : Does Part.writing s (writeEnd r s) := by
  unfold writeEnd
  split
  · exact .refl s
  · exact (rowEnd_does ..).chain (itemEnd_does ..)

theorem setWriting_does (w : Option RowWrite) (s : State) : Does [.dirty] s (s.onSsc ({ · with writing := w })) := .plain (by intro p hp; cases p <;> first | exact absurd (by decide) hp | (and_intros <;> rfl))

theorem rowAnswered_does (xs : List Bool) (s : State) : Does Part.writing s (rowAnswered xs s) := by
  unfold rowAnswered
  split
  · exact .refl s
  · split
    · exact (setWriting_does ..).mono
    · exact writeEnd_does ..

/-! ## The print engine -/

theorem onEntry_moves (e : Nat) (f : Entry → Entry) (s : State) : Moves [.entries] s (s.onEntry e f) := .plain (by intro p hp; cases p <;> first | exact absurd (by decide) hp | (and_intros <;> rfl))

/-- A change of an entry that leaves its document and whether it is finished. -/
theorem onEntry_does (e : Nat) (f : Entry → Entry) (s : State) (h : ∀ x, s.entry e = some x → (f x).doc = x.doc ∧ (f x).unfinished = x.unfinished) :
    Does [.entries] s (s.onEntry e f) := ⟨onEntry_moves e f s, onEntry_hold e f s h⟩

theorem engineNotice_does (s : State) : Does [.notices] s (engineNotice s) := raise_does ..

theorem setPage_does (g : Option PrintPage) (s : State) : Does [.engine] s (s.onPrt ({ · with page := g })) := .plain (by intro p hp; cases p <;> first | exact absurd (by decide) hp | (and_intros <;> rfl))

theorem prtRead_does (p : Page) (n : Nat) (s : State) : Does [.engine, .arbiter] s (prtRead p n s) := by
  induction n generalizing s with
  | zero => exact .refl s
  | succ n ih =>
    unfold prtRead
    split
    · exact .refl s
    · split
      · exact .refl s
      · split
        · exact .refl s
        · split
          · exact .chain (setPage_does ..) (ih _)
          · split
            · exact .chain (setPage_does ..) (arbAsk_does ..)
            · exact .chain (setPage_does ..) (ih _)

theorem prtReadOn_does (s : State) : Does [.engine, .arbiter] s (prtReadOn s) := by
  unfold prtReadOn
  split
  · exact .refl s
  · exact prtRead_does ..

theorem prtStripRead_does (s : State) : Does [.engine, .arbiter] s (prtStripRead s) := by
  unfold prtStripRead
  split
  · split
    · split
      · exact .chain (setPage_does ..) (prtReadOn_does _)
      · exact .refl s
    · exact .refl s
  · exact .refl s

theorem entryFinish_does (e : Nat) (st : EntryState) (s : State)
    (hst : st = .done ∨ st = .cancelled := by simp) : Does (.entries :: Part.freeing) s (entryFinish e st s) := by
  unfold entryFinish
  split
  · exact .refl s
  · rename_i r hr
    obtain ⟨hr, hu⟩ := Option.filter_eq_some_iff.1 hr
    refine .chain (ps := .entries :: Part.freeing) (rs := .entries :: Part.freeing) ⟨.chain (ps := [.entries]) (.plain (by intro p hp; cases p <;> first | exact absurd (by decide) hp | (and_intros <;> rfl))) (docRelease_moves ..).1, fun k => ?_⟩ (raise_does ..)
    exact (docRelease_moves ..).2 (entryEnd_hold hr hu (by rcases hst with rfl | rfl <;> rfl) rfl rfl rfl k)

theorem selectDemote_does (c : Option Nat) (s : State) : Does [.entries] s (selectDemote c s) := by
  unfold selectDemote
  split
  · split
    · exact .refl s
    · refine onEntry_does _ _ s fun x _ => ?_
      split
      · rename_i h; exact ⟨rfl, h.symm⟩
      · exact ⟨rfl, rfl⟩
  · exact .refl s

/-- The record of the entry chosen stands as it did. -/
theorem selectDemote_entry (c : Nat) (s : State) : (selectDemote (some c) s).entry c = s.entry c := by
  unfold selectDemote
  split
  · rename_i e _
    split
    · rfl
    · rename_i h
      have : ¬ c = e := fun he => h (by rw [he])
      simp only [State.entry, State.onEntry, State.onPrt_prt, Tbl.get_mod, this, if_false]
  · rfl

theorem selectPromote_moves (c : Option Nat) (s : State) : Moves [.entries, .engine] s (selectPromote c s) := by
  unfold selectPromote
  split
  · exact .plain (by intro p hp; cases p <;> first | exact absurd (by decide) hp | (and_intros <;> rfl))
  · exact .plain (by intro p hp; cases p <;> first | exact absurd (by decide) hp | (and_intros <;> rfl))

/-- The chosen entry is unfinished. -/
theorem selectPromote_does (c : Option Nat) (s : State) (h : HolderLaw s → ∀ e x, c = some e → s.entry e = some x → x.unfinished = true) :
    Does [.entries, .engine] s (selectPromote c s) := by
  unfold selectPromote
  split
  · rename_i e
    exact ⟨selectPromote_moves (some e) s, fun k => onEntry_hold e _ s (fun x hx => ⟨rfl, (h k e x rfl hx).symm⟩) k⟩
  · exact ⟨selectPromote_moves none s, id⟩

theorem selectPick_does (s : State) : Does [.entries, .engine] s (selectPick s) := by
  refine ⟨(selectDemote_does s.choice s).toMoves.mono.trans (selectPromote_moves ..), fun k => ?_⟩
  · refine (selectPromote_does _ _ fun _ e x he hx => ?_).hold ((selectDemote_does ..).hold k)
    obtain ⟨y, hy, hu⟩ := choice_unfinished k.2.2.1 he
    rw [he, selectDemote_entry, hy] at hx
    rwa [← Option.some.inj hx]

theorem prtHalt_does (r : HaltReason) (s : State) : Does [.engine, .notices] s (prtHalt r s) :=
  .chain (ps := [.engine]) (.plain (by intro p hp; cases p <;> first | exact absurd (by decide) hp | (and_intros <;> rfl))) (engineNotice_does _)

theorem pageStart_does (s : State) : Does [.engine, .arbiter, .notices] s (pageStart s) := by
  unfold pageStart
  split
  · exact (prtHalt_does ..).mono
  · split
    · exact .refl s
    · exact .chain (ps := [.engine]) (.plain (by intro p hp; cases p <;> first | exact absurd (by decide) hp | (and_intros <;> rfl))) (prtReadOn_does _)

theorem selectStart_does (s : State) : Does [.entries, .engine, .arbiter, .notices] s (selectStart s) := by
  unfold selectStart
  refine .trans (selectPick_does s).mono ?_
  dsimp only
  split
  · exact (pageStart_does _).mono
  · exact .refl _

theorem warming_does (s : State) : Does [.engine] s (s.onPrt ({ · with engine := .warmup, heater := true })) := .plain (by intro p hp; cases p <;> first | exact absurd (by decide) hp | (and_intros <;> rfl))

theorem warmupBegin_does (s : State) : Does [.entries, .engine, .arbiter, .notices] s (warmupBegin s) := by
  unfold warmupBegin
  split
  · exact (prtHalt_does ..).mono
  · exact (warming_does s).mono.trans (.cond (selectStart_does _) (.refl _))

theorem selectWarm_does (s : State) : Does [.entries, .engine, .arbiter, .notices] s (selectWarm s) := by
  unfold selectWarm
  refine .trans (selectPick_does s).mono ?_
  dsimp only
  split
  · exact warmupBegin_does _
  · exact .refl _

theorem selectIfIdle_does (s : State) : Does [.entries, .engine, .arbiter, .notices] s (selectIfIdle s) := by
  unfold selectIfIdle
  split
  · exact selectWarm_does s
  · exact .refl s

theorem engineLeave_does (s : State) : Does [.entries, .engine, .arbiter, .notices] s (engineLeave s) :=
  .chain (selectWarm_does s) (engineNotice_does _)

theorem pageSpoil_does (s : State) : Does Part.printing s (pageSpoil s) := by
  unfold pageSpoil
  split
  · exact .refl s
  · refine .trans (t := arbWithdraw .prt (s.onPrt fun p => { p with page := none, spoiled := p.spoiled + 1 })) ?_ ?_
    · exact .chain (ps := [.engine]) (.plain (by intro p hp; cases p <;> first | exact absurd (by decide) hp | (and_intros <;> rfl))) (arbWithdraw_does ..)
    · dsimp only
      split
      · split
        · exact (entryFinish_does ..).mono
        · exact .refl _
      · exact .refl _

theorem nextCopy_same {r r' : Entry} (h : r.nextCopy = some r') : r'.doc = r.doc ∧ r'.unfinished = r.unfinished := by
  unfold Entry.nextCopy at h
  split at h
  · cases h; exact ⟨rfl, rfl⟩
  · simp at h

theorem resumeNext_does (e : Nat) (r : Entry) (s : State) (h : ∀ x, s.entry e = some x → r.doc = x.doc ∧ r.unfinished = x.unfinished) :
    Does (.entries :: Part.freeing) s (resumeNext e r s) := by
  unfold resumeNext
  split
  · split
    · rename_i hr
      refine (onEntry_does e _ s fun x hx => ?_).mono (ps := [.entries]) (qs := .entries :: Part.freeing)
      obtain ⟨h1, h2⟩ := nextCopy_same hr
      exact ⟨h1.trans (h x hx).1, h2.trans (h x hx).2⟩
    · exact (onEntry_does e _ s (by exact h)).chain (entryFinish_does e .done _)
  · exact (onEntry_does e _ s (by exact h)).mono

theorem cancelAtEnd_does (e : Nat) (s : State) : Does (.entries :: Part.freeing) s (cancelAtEnd e s) := by
  unfold cancelAtEnd
  split
  · exact entryFinish_does ..
  · exact .refl s

theorem pagePrinted_does (s : State) : Does Part.printing s (pagePrinted s) := by
  unfold pagePrinted
  split
  · exact .refl s
  · split
    · exact .refl s
    · rename_i hr
      refine ((setPage_does none s).chain (rs := Part.printing) (resumeNext_does _ _ _ fun x hx => ?_)).chain
        ((cancelAtEnd_does ..).chain (rs := Part.printing) (selectStart_does _))
      have : some x = some _ := hx.symm.trans hr
      rw [Option.some.inj this]
      exact ⟨rfl, rfl⟩

theorem heatUp_does (n : Nat) (s : State) : Does [.heat] s (s.onPrt fun p => { p with heat := min 65535 (p.heat + n) }) := by
  refine Acts.does ⟨(by intro p hp; cases p <;> first | exact absurd (by decide) hp | (and_intros <;> rfl)), id, id, id, id, fun k => ⟨?_, k.2⟩⟩
  simp only [State.onPrt_prt]; omega

theorem headCool_does (s : State) : Does [.heat] s (headCool s) := by
  refine Acts.does ⟨(by intro p hp; cases p <;> first | exact absurd (by decide) hp | (and_intros <;> rfl)), id, id, id, id, fun k => ⟨?_, k.2⟩⟩
  have := k.1
  simp only [headCool, State.onPrt_prt]; omega

theorem fireLine_does (g : PrintPage) (x : Pixels) (xs : List Pixels) (s : State) : Does (.heat :: Part.printing) s (fireLine g x xs s) := by
  unfold fireLine
  refine .trans (heatUp_does (blackCount x) s).mono ?_
  dsimp only
  split
  · split
    · exact .chain (setPage_does ..) (prtReadOn_does _)
    · split
      · exact (pagePrinted_does _).mono
      · exact (setPage_does ..).mono
  · exact (setPage_does ..).mono

theorem headLine_does (s : State) : Does (.heat :: Part.printing) s (headLine s) := by
  unfold headLine
  split
  · split
    · exact .refl s
    · split
      · exact .mono (ps := [.engine]) (.plain (by intro p hp; cases p <;> first | exact absurd (by decide) hp | (and_intros <;> rfl)))
      · exact fireLine_does ..
  · exact .refl s

theorem pauseTest_does (s : State) : Does [.engine] s (pauseTest s) := by
  unfold pauseTest
  split
  · exact .plain (by intro p hp; cases p <;> first | exact absurd (by decide) hp | (and_intros <;> rfl))
  · exact .refl s

theorem warmTest_does (s : State) : Does [.entries, .engine, .arbiter, .notices] s (warmTest s) := by
  unfold warmTest
  split
  · exact selectStart_does s
  · exact .refl s

theorem faultTest_does (s : State) : Does Part.printing s (faultTest s) := by
  unfold faultTest
  split
  · exact .refl s
  · split
    · exact .refl s
    · exact .chain (ps := Part.printing) (.chain (qs := [.engine]) (pageSpoil_does s) (.plain (by intro p hp; cases p <;> first | exact absurd (by decide) hp | (and_intros <;> rfl)))) (engineNotice_does _)

theorem docHold_prt {d : Nat} {s t : State} (h : docHold d s = some t) : t.prt = s.prt := by
  unfold docHold at h
  split at h
  · simp at h
  · split at h
    · simp at h
    · cases h; rfl

theorem entryCreate_does {d : Nat} {a z : Option Nat} {c b k : Nat} {s t : State} {e : Nat} (h : entryCreate d a z c b k s = .ok (e, t)) :
    Does [.docs, .entries, .engine, .arbiter, .notices] s t := by
  unfold entryCreate at h
  dsimp only at h
  split at h
  · split at h
    · simp at h
    · split at h
      · simp at h
      · rename_i hk
        split at h
        · rename_i s' _ hh
          split at h
          · simp at h
          · split at h
            · simp at h
            · simp only [Except.ok.injEq, Prod.mk.injEq] at h
              obtain ⟨-, rfl⟩ := h
              refine .chain (ps := [.docs, .entries]) ⟨.chain (qs := [.entries]) (docHold_moves hh).1 (.plain (by intro p hp; cases p <;> first | exact absurd (by decide) hp | (and_intros <;> rfl))), fun k => ?_⟩ (selectIfIdle_does _)
              refine entryNew_hold (i := _) ?_ rfl rfl rfl rfl ((docHold_moves hh).2 k)
              intro x hx
              refine entrySlot_free k.2.2.1 hk x ?_
              rw [← hx]; simp only [State.entry, docHold_prt hh]
        · simp at h
  · simp at h

theorem rangeFix_does (d n e : Nat) (s : State) : Does (.entries :: Part.freeing) s (rangeFix d n e s) := by
  unfold rangeFix
  split
  · exact .refl s
  · rename_i r hr
    have h : ∀ x, s.entry e = some x → r.doc = x.doc ∧ r.unfinished = x.unfinished := fun x hx => by
      rw [Option.some.inj (hr.symm.trans hx)]; exact ⟨rfl, rfl⟩
    split
    · dsimp only
      split
      · exact .chain (onEntry_does e _ s (by exact h)) (entryFinish_does e .done _)
      · split
        · split
          · rename_i hn
            obtain ⟨h1, h2⟩ := nextCopy_same hn
            exact (onEntry_does e _ s (by exact fun x hx => ⟨h1.trans (h x hx).1, h2.trans (h x hx).2⟩)).mono (ps := [.entries]) (qs := .entries :: Part.freeing)
          · exact .chain (onEntry_does e _ s (by exact h)) (entryFinish_does e .done _)
        · exact (onEntry_does e _ s (by exact h)).mono
    · exact .refl s

theorem prtDocClosed_does (d n : Nat) (s : State) : Does Part.printing s (prtDocClosed d n s) :=
  .chain (.each (rangeFix_does d n) _ s) (selectIfIdle_does _)

theorem entryCancel_does (e : Nat) (s : State) : Does Part.printing s (entryCancel e s) := by
  unfold entryCancel
  split
  · exact .refl s
  · split
    · exact .chain (entryFinish_does ..) (selectIfIdle_does _)
    · split
      · exact (onEntry_does e _ s (by intro _ _; exact ⟨rfl, rfl⟩)).mono (qs := Part.printing)
      · refine .trans (entryFinish_does e .cancelled s).mono ?_
        dsimp only
        split
        · exact (selectPick_does _).mono
        · exact .refl _
    · exact .refl s

theorem entriesCancel_does (d : Nat) (s : State) : Does Part.printing s (entriesCancel d s) :=
  .each (fun e s => .cond (entryCancel_does e s) (.refl s)) _ s

/-! ## Charging -/

theorem changeFirst_length {α : Type} (p : α → Bool) (f : α → α) (xs : List α) : (changeFirst p f xs).length = xs.length := by
  induction xs with
  | nil => rfl
  | cons x xs ih => unfold changeFirst; split <;> simp [ih]

/-- What stands in a list whose first passing item was changed. -/
theorem changeFirst_mem {α : Type} {p : α → Bool} {f : α → α} {xs : List α} {y : α} (h : y ∈ changeFirst p f xs) :
    y ∈ xs ∨ ∃ x ∈ xs, xs.find? p = some x ∧ y = f x := by
  induction xs with
  | nil => simp [changeFirst] at h
  | cons x xs ih =>
    unfold changeFirst at h
    split at h
    · rename_i hp
      rcases List.mem_cons.1 h with rfl | h
      · exact .inr ⟨x, by simp, by simp [hp], rfl⟩
      · exact .inl (List.mem_cons_of_mem _ h)
    · rename_i hp
      rcases List.mem_cons.1 h with rfl | h
      · exact .inl (by simp)
      · rcases ih h with h | ⟨z, h1, h2, h3⟩
        · exact .inl (List.mem_cons_of_mem _ h)
        · exact .inr ⟨z, List.mem_cons_of_mem _ h1, by simp [hp, h2], h3⟩

/-- A change of every reservation that adds to no charge. -/
theorem onResvs_does (f : LogResv → LogResv) (s : State) (h : ∀ r, (f r).charge = r.charge) :
    Does [.logResvs] s (s.onChg fun g => { g with resvs := g.resvs.map f }) := by
  refine Acts.does ⟨(by intro p hp; cases p <;> first | exact absurd (by decide) hp | (and_intros <;> rfl)), id, fun k => ?_, id, id, fun k => ⟨k.1, k.2.1, k.2.2.1, ?_, k.2.2.2.2⟩⟩
  · simpa [LogLaw] using k
  · intro r hr
    obtain ⟨v, hv, rfl⟩ := List.mem_map.1 hr
    rw [h]; exact k.2.2.2.1 v hv

/-- A change of one reservation that adds to no charge. -/
theorem onResv1_does (p : LogResv → Bool) (f : LogResv → LogResv) (s : State) (h : ∀ r, (f r).charge = r.charge) :
    Does [.logResvs] s (s.onChg fun g => { g with resvs := changeFirst p f g.resvs }) := by
  refine Acts.does ⟨(by intro p hp; cases p <;> first | exact absurd (by decide) hp | (and_intros <;> rfl)), id, fun k => ?_, id, id, fun k => ⟨k.1, k.2.1, k.2.2.1, ?_, k.2.2.2.2⟩⟩
  · simpa [LogLaw, changeFirst_length] using k
  · intro r hr
    rcases changeFirst_mem hr with hr | ⟨v, hv, -, rfl⟩
    · exact k.2.2.2.1 r hr
    · rw [h]; exact k.2.2.2.1 v hv

theorem onCarried_does (l : Line) (f : LogResv → LogResv) (s : State) (h : ∀ r, (f r).charge = r.charge) : Does [.logResvs] s (s.onCarried l f) :=
  onResv1_does _ _ s h

theorem onGranted_does (l : Line) (f : LogResv → LogResv) (s : State) (h : ∀ r, (f r).charge = r.charge) : Does [.logResvs] s (s.onGranted l f) :=
  onResv1_does _ _ s h

/-- Reservations returned. -/
theorem fewerResvs_does (f : List LogResv → List LogResv) (s : State) (h : (f s.chg.resvs).Sublist s.chg.resvs) :
    Does [.logResvs] s (s.onChg fun g => { g with resvs := f g.resvs }) := by
  refine Acts.does ⟨(by intro p hp; cases p <;> first | exact absurd (by decide) hp | (and_intros <;> rfl)), id, fun k => ?_, id, id, fun k => ⟨k.1, k.2.1, k.2.2.1, ?_, k.2.2.2.2⟩⟩
  · have := h.length_le
    simp only [LogLaw, State.onChg_chg] at *; omega
  · exact fun r hr => k.2.2.2.1 r (h.subset hr)

theorem dropCarried_does (l : Line) (s : State) : Does [.logResvs] s (s.dropCarried l) := fewerResvs_does _ s List.eraseP_sublist
theorem dropGranted_does (l : Line) (s : State) : Does [.logResvs] s (s.dropGranted l) := fewerResvs_does _ s List.eraseP_sublist

/-- A reservation granted in a free slot. -/
theorem addResv_does (r : LogResv) (s : State) (hf : 1 ≤ s.logFree) (hc : r.charge = 0) :
    Does [.logResvs] s (s.onChg fun g => { g with resvs := g.resvs ++ [r] }) := by
  refine Acts.does ⟨(by intro p hp; cases p <;> first | exact absurd (by decide) hp | (and_intros <;> rfl)), id, fun k => ?_, id, id, fun k => ⟨k.1, k.2.1, k.2.2.1, ?_, k.2.2.2.2⟩⟩
  · simp only [State.logFree] at hf
    simp only [LogLaw, State.onChg_chg, List.length_append, List.length_singleton] at *; omega
  · intro v hv
    rcases List.mem_append.1 hv with hv | hv
    · exact k.2.2.2.1 v hv
    · rw [List.mem_singleton.1 hv, hc]; exact Nat.zero_le _

theorem logFullNotice_does (l : Option Line) (s : State) : Does [.notices] s (logFullNotice l s) := by
  unfold logFullNotice; split <;> exact raise_does ..

/-- The three answers to a request for an OUT reservation. -/
theorem outReserve_cases (l : Line) (a : Nat) (jp : Nat × Nat) (k : Cls) (d : Str) (s : State) :
    (∃ t, outReserve l a jp k d s = .granted t ∧ Does [.logResvs] s t) ∨ (∃ r, outReserve l a jp k d s = .preCheck r)
      ∨ ∃ t, outReserve l a jp k d s = .log t ∧ Does [.notices] s t := by
  unfold outReserve
  split
  · split
    · exact .inr (.inr ⟨_, rfl, logFullNotice_does ..⟩)
    · rename_i h
      exact .inl ⟨_, rfl, addResv_does _ _ (by simp only [Config.logReserve] at h; omega) rfl⟩
  · exact .inr (.inl ⟨_, rfl⟩)

theorem inReserve_does {l : Line} {s t : State} (h : inReserve l s = some t) : Does [.logResvs] s t := by
  unfold inReserve at h
  split at h
  · rename_i hf
    simp only [Option.some.injEq] at h; subst h
    exact addResv_does _ _ hf rfl
  · simp at h

theorem account_inRange {s : State} (k : RangeLaw s) (a : Nat) : (s.account a).inRange := by
  unfold State.account
  by_cases ha : a < s.chg.accounts.length
  · simp only [List.getD_eq_getElem?_getD, List.getElem?_eq_getElem ha, Option.getD_some]
    exact k.2.2.1.2 _ (List.getElem_mem ha)
  · simp [List.getD_eq_getElem?_getD, List.getElem?_eq_none (not_lt.1 ha), Account.default, Account.inRange]

/-- The accounts after a change of one of them. -/
theorem accounts_set {s : State} {i : Nat} {x : Account} (k : s.chg.accounts.length = 32 ∧ ∀ a ∈ s.chg.accounts, a.inRange) (h : x.inRange) :
    (s.chg.accounts.set i x).length = 32 ∧ ∀ a ∈ s.chg.accounts.set i x, a.inRange := by
  refine ⟨by rw [List.length_set, k.1], fun a ha => ?_⟩
  rcases List.mem_or_eq_of_mem_set ha with ha | rfl
  · exact k.2 a ha
  · exact h

theorem onAccount_does (a : Nat) (f : Account → Account) (s : State) (h : ∀ x : Account, x.inRange → (f x).inRange) : Does [.accounts] s (s.onAccount a f) := by
  refine Acts.does ⟨(by intro p hp; cases p <;> first | exact absurd (by decide) hp | (and_intros <;> rfl)), id, id, id, id, fun k => ⟨k.1, k.2.1, ?_, k.2.2.2⟩⟩
  exact accounts_set k.2.2.1 (h _ (account_inRange k a))

/-- The record of a line's call takes the place of its reservation. -/
theorem recordPut_does (l : Line) (r : LogResv) (e : EndReport) (s : State) (h : s.carried l = some r) :
    Does [.logResvs, .log] s (recordPut l (recordOf s r e) s) := by
  have hm : r ∈ s.chg.resvs := List.mem_of_find?_eq_some h
  have hp : r.carriedOn l = true := List.find?_some h
  refine Acts.does ⟨(by intro p hp; cases p <;> first | exact absurd (by decide) hp | (and_intros <;> rfl)), id, fun k => ?_, id, id, fun k => ⟨k.1, ?_, k.2.2.1, ?_, ?_⟩⟩
  · have h1 : (s.chg.resvs.eraseP (·.carriedOn l)).length = s.chg.resvs.length - 1 := List.length_eraseP_of_mem hm hp
    have := List.length_pos_of_mem hm
    simp only [LogLaw, recordPut, State.onChg_chg, State.dropCarried, List.length_append, List.length_singleton] at *; omega
  · exact Nat.mod_lt _ (by decide)
  · exact fun v hv => k.2.2.2.1 v (List.mem_of_mem_eraseP hv)
  · intro v hv
    rcases List.mem_append.1 hv with hv | hv
    · exact k.2.2.2.2 v hv
    · rw [List.mem_singleton.1 hv]; exact k.2.2.2.1 r hm

theorem countCall_does (a n : Nat) (s : State) :
    Does [.accounts] s (s.onAccount a fun a => { a with calls := min 65535 (a.calls + 1), pages := min 65535 (a.pages + n) }) :=
  onAccount_does _ _ _ fun _ k => ⟨k.1, k.2.1, Nat.min_le_left .., Nat.min_le_left ..⟩

theorem accountCall_does (r : LogResv) (n : Nat) (s : State) : Does [.accounts, .store, .dirty] s (accountCall r n s) := by
  unfold accountCall
  split
  · exact .refl s
  · exact (countCall_does ..).mono.trans (.cond (.refl _) (accountRow_does ..).mono)

theorem commit_does (l : Line) (e : EndReport) (q : Bool) (s : State) : Does Part.committing s (commit l e q s) := by
  unfold commit
  split
  · exact .refl s
  · rename_i r hr
    refine .trans ((recordPut_does l r e s hr).chain (accountCall_does r e.pagesDone _)) ?_
    dsimp only
    split
    · exact .refl _
    · exact (raise_does ..).mono

theorem chgSeizure_does (l : Line) (s : State) : Does [.logResvs] s (chgSeizure l s) := onGranted_does _ _ _ fun _ => rfl
theorem chgTag_does (l : Line) (x : Str) (s : State) : Does [.logResvs] s (chgTag l x s) := onCarried_does _ _ _ fun _ => rfl
theorem chgUnattended_does (s : State) : Does [.logResvs] s (chgUnattended s) := onResvs_does _ _ fun _ => rfl
theorem chgAnswerIn_does (l : Line) (a : CalTime) (s : State) : Does [.logResvs] s (chgAnswerIn l a s) := onCarried_does _ _ _ fun _ => rfl

theorem chgAnswerOut_does (l : Line) (m : Bool) (s : State) : Does [.logResvs] s (chgAnswerOut l m s) :=
  onCarried_does _ _ _ fun r => by dsimp only; split <;> rfl

theorem accrue_does (l : Line) (n : Nat) (s : State) : Does [.accounts, .logResvs] s (accrue l n s) := by
  unfold accrue
  split
  · exact .refl s
  · rename_i r hr
    split
    · exact .refl s
    · rename_i o ho
      have hm : r ∈ s.chg.resvs := List.mem_of_find?_eq_some hr
      dsimp only
      refine Acts.does ⟨(by intro p hp; cases p <;> first | exact absurd (by decide) hp | (and_intros <;> rfl)), id, fun k => ?_, id, id, fun k => ⟨k.1, k.2.1, ?_, ?_, k.2.2.2.2⟩⟩
      · simpa [LogLaw, State.onCarried, State.onAccount, changeFirst_length] using k
      · have hs := account_inRange k o.account
        refine accounts_set k.2.2.1 ⟨?_, hs.2⟩
        show (s.account o.account).spent + accrualOf n r.charge (s.account o.account).spent ≤ maxAmount
        have := hs.1
        unfold accrualOf; omega
      · intro v hv
        rcases changeFirst_mem hv with hv | ⟨w, hw, hf, rfl⟩
        · exact k.2.2.2.1 v hv
        · have : w = r := by
            have : s.carried l = some w := hf
            rw [hr] at this; exact (Option.some.inj this).symm
          subst this
          have := k.2.2.2.1 w hw
          show w.charge + accrualOf n w.charge (s.account o.account).spent ≤ maxAmount
          unfold accrualOf; omega

end Sys2Proof.Machine
end

