-- ==== Sys2Proof/Laws/Bus.lean ====
section
/-! SUPPORT. The bus to the settings memory: what a read gives, what a whole transfer puts on the wires, how answers run through the phases of a write. -/

namespace Sys2Proof.Machine

set_option Elab.async false

theorem busTake_receive (m : List Host.Cell) (n : Nat) (steps : List BusStep) (b : Bool) (a : Nat) :
    busTake m (List.replicate n (.receive b) ++ steps) a = (List.range n).map (fun j => cellRead eepromDefault m (a + j)) ++ busTake m steps (a + n) := by
  induction n generalizing a with
  | zero => rfl
  | succ n ih =>
    rw [List.replicate_succ, List.cons_append, busTake, ih, List.range_succ_eq_map]
    simp only [List.map_cons, List.map_map, List.cons_append, Nat.add_zero]
    congr 2
    · refine List.map_congr_left fun j _ => ?_
      simp only [Function.comp]; congr 1; omega
    · congr 1; omega

/-- A bus read of an assigned row gives the row's 32 bytes (R175). -/
theorem busTake_readSteps (m : List Host.Cell) (row : Nat) (h : row < 2048) : busTake m (readSteps row) 0 = rowRead m row := by
  have ha : 256 * (row * 32 / 256 % 256) + row * 32 % 256 = row * 32 := by omega
  simp only [readSteps, rowAddress, List.map_cons, List.map_nil, List.cons_append, List.nil_append, busTake, Nat.mul_zero, Nat.zero_add, BitVec.toNat_ofNat]
  have e : (2 : Nat) ^ 8 = 256 := rfl
  rw [e, ha, busTake_receive]
  simp only [rowRead, busTake]
  rfl

/-- The row that a bus read gives, its ACKs complete and its check passed (R174, R175). -/
theorem busRead_eq (s : State) (noAck : List Nat) (row : Nat) (h : row < 2048) :
    busRead s noAck row = if noAck.contains row || !rowPasses (rowRead s.eeprom row) then none else some (rowRead s.eeprom row) := by
  simp only [busRead, busTake_readSteps _ _ h]

/-- ACKs of the transfer that do not complete it. -/
theorem BusPhase.run_acks (k n : Nat) (xs : List Bool) (h : k + n < transferAnswers) :
    (BusPhase.transfer k).run (List.replicate n true ++ xs) = (BusPhase.transfer (k + n)).run xs := by
  induction n generalizing k with
  | zero => rfl
  | succ n ih =>
    have : k + 1 < transferAnswers := by omega
    rw [List.replicate_succ, List.cons_append, BusPhase.run]
    simp only [BusPhase.answered, this, if_true]
    rw [ih (k + 1) (by omega)]
    congr 2; omega

/-- A whole transfer answered with ACK brings the poll (R178). -/
theorem BusPhase.run_transfer (xs : List Bool) : (BusPhase.transfer 0).run (List.replicate transferAnswers true ++ xs) = BusPhase.poll.run xs := by
  have : List.replicate transferAnswers true = List.replicate (transferAnswers - 1) true ++ [true] := by decide
  rw [this, List.append_assoc, BusPhase.run_acks 0 _ _ (by decide)]
  rfl

/-- A NACK in the transfer ends the write with cause NACK (R178). -/
theorem BusPhase.run_nack (n : Nat) (xs : List Bool) (h : n < transferAnswers) :
    (BusPhase.transfer 0).run (List.replicate n true ++ false :: xs) = .ends (some .nack) := by
  rw [BusPhase.run_acks 0 n _ (by omega)]; rfl

/-- Polls answered with NACK go on; the first ACK ends the write well (R178). -/
theorem BusPhase.run_poll (n : Nat) (xs : List Bool) : BusPhase.poll.run (List.replicate n false ++ true :: xs) = .ends none := by
  induction n with
  | zero => rfl
  | succ n ih => rw [List.replicate_succ, List.cons_append, BusPhase.run]; exact ih

end Sys2Proof.Machine
end

