-- ==== Sys2Proof/Laws/Calls.lean ====
section
/-! SUPPORT. What the operations of the Dial Scheduler, the line units, the strip exchange, the Reception Router and the Scan Controller may do. -/

namespace Sys2Proof.Machine

set_option Elab.async false

/-! ## The dial scheduler -/

/-- A change of a job that leaves its document and whether it is finished. -/
theorem onJob_does (j : Nat) (f : Job → Job) (s : State) (h : ∀ x, (f x).doc = x.doc ∧ (f x).finished = x.finished) : Does [.jobs] s (s.onJob j f) :=
  ⟨.plain (by intro p hp; cases p <;> first | exact absurd (by decide) hp | (and_intros <;> rfl)), onJob_hold j f s h⟩

theorem recipNotice_does (j p : Nat) (r : Recip) (s : State) : Does [.notices] s (recipNotice j p r s) := raise_does ..

theorem recipSet_does (j p : Nat) (f : Recip → Recip) (s : State) : Does [.jobs, .notices] s (recipSet j p f s) := by
  unfold recipSet
  split
  · exact .refl s
  · exact (onJob_does j _ s (by intro _; exact ⟨rfl, rfl⟩)).mono.trans (.cond (recipNotice_does ..).mono (.refl _))

theorem jobSettle_does (j : Nat) (s : State) : Does Part.settling s (jobSettle j s) := by
  unfold jobSettle
  split
  · exact .refl s
  · rename_i x hx
    split
    · exact .refl s
    · rename_i hu
      refine .chain (ps := Part.settling) (rs := Part.settling) ⟨.chain (ps := [.jobs]) (.plain (by intro p hp; cases p <;> first | exact absurd (by decide) hp | (and_intros <;> rfl))) (docRelease_moves ..).1, fun k => ?_⟩ (raise_does ..)
      refine (docRelease_moves ..).2 (jobEnd_hold hx (by simp at hu; exact hu.1) ?_ k)
      by_cases hc : x.cancelRequested <;> simp [Job.finished, hc]

theorem barredTest_does (j p : Nat) (s : State) : Does Part.settling s (barredTest j p s) := by
  unfold barredTest
  split
  · exact .cond ((recipSet_does ..).chain (jobSettle_does ..)) (.refl s)
  · exact .refl s

theorem readinessTest_does (j p : Nat) (s : State) : Does Part.settling s (readinessTest j p s) := by
  unfold readinessTest
  split
  · refine .cond ?_ (.refl s)
    split
    · exact (recipSet_does ..).mono
    · exact (recipSet_does ..).chain (jobSettle_does ..)
    · exact (recipSet_does ..).chain (jobSettle_does ..)
    · exact .cond (.refl s) ((recipSet_does ..).chain (barredTest_does ..))
  · exact .refl s

theorem readinessJob_does (j : Nat) (s : State) : Does Part.settling s (readinessJob j s) := .each (readinessTest_does j) _ s

theorem readinessDoc_does (d : Nat) (s : State) : Does Part.settling s (readinessDoc d s) :=
  .each (fun j s => .cond (readinessJob_does j s) (.refl s)) _ s

/-- The three ends of a try for one recipient. -/
theorem tryRecip_cases (l : Line) (j p : Nat) (s : State) :
    (∃ t, tryRecip l j p s = .bound t ∧ Does Part.passing s t) ∨ (∃ t, tryRecip l j p s = .skipped t ∧ Does Part.passing s t)
      ∨ ∃ t, tryRecip l j p s = .logFull t ∧ Does Part.passing s t := by
  unfold tryRecip
  split
  · rename_i x r _ _
    split
    · split
      · exact .inr (.inl ⟨_, rfl, (recipSet_does ..).chain (jobSettle_does ..)⟩)
      · exact .inr (.inl ⟨_, rfl, .refl s⟩)
      · rcases outReserve_cases l x.account (j, p) x.cls r.dial s with ⟨t, h, k⟩ | ⟨r', h⟩ | ⟨t, h, k⟩
        · rw [h]; exact .inl ⟨_, rfl, k.chain (recipSet_does ..)⟩
        · rw [h]; exact .inr (.inl ⟨_, rfl, .refl s⟩)
        · rw [h]; exact .inr (.inr ⟨_, rfl, k.mono⟩)
    · exact .inr (.inl ⟨_, rfl, .refl s⟩)
  · exact .inr (.inl ⟨_, rfl, .refl s⟩)

theorem passLine_does (l : Line) (rs : List (Nat × Nat)) (s : State) : Does Part.passing s (passLine l rs s).2 := by
  induction rs generalizing s with
  | nil => exact .refl s
  | cons x rs ih =>
    unfold passLine
    rcases tryRecip_cases l x.1 x.2 s with ⟨t, h, k⟩ | ⟨t, h, k⟩ | ⟨t, h, k⟩
    · rw [h]; exact k
    · rw [h]; exact k.trans (ih t)
    · rw [h]; exact k

theorem passLines_does (ls : List Line) (s : State) : Does Part.passing s (passLines ls s) := by
  induction ls generalizing s with
  | nil => exact .refl s
  | cons l ls ih =>
    unfold passLines
    refine .cond ?_ (ih s)
    exact .cond ((passLine_does ..).trans (ih _)) (passLine_does ..)

/-- What an arbitration pass may change (R135 to R137). -/
theorem pass_does (s : State) : Does Part.passing s (pass s) := passLines_does _ s

theorem passIfNew_does (b s : State) : Does Part.passing s (passIfNew b s) := .cond (pass_does s) (.refl s)

theorem passIfOffered_does (l : Line) (b s : State) : Does Part.passing s (passIfOffered l b s) := .cond (pass_does s) (.refl s)

theorem dscCallEnd_does (j p : Nat) (o : CallOutcome) (t : Option Nat) (r : Nat) (s : State) : Does Part.settling s (dscCallEnd j p o t r s) := by
  unfold dscCallEnd
  split
  · exact .refl s
  · exact (recipSet_does ..).chain (jobSettle_does ..)

theorem dscGlare_does (j p : Nat) (s : State) : Does Part.settling s (dscGlare j p s) := by
  unfold dscGlare
  split
  · exact .refl s
  · exact .cond ((recipSet_does ..).chain (jobSettle_does ..)) ((recipSet_does ..).chain (barredTest_does ..))

theorem dscAnswered_does (j p : Nat) (s : State) : Does [.jobs, .notices] s (dscAnswered j p s) := recipSet_does ..

theorem scnAttach_does (d j : Nat) (s : State) : Does [.scanJob] s (scnAttach d j s) := by
  unfold scnAttach
  exact .cond (.refl s) (.plain (by intro p hp; cases p <;> first | exact absurd (by decide) hp | (and_intros <;> rfl)))

theorem reclaim_same (n k : Nat) (d : Dsc) : Dsc.reclaim n k d = { d with jobs := (Dsc.reclaim n k d).jobs } := by
  induction k generalizing d with
  | zero => rfl
  | succ k ih =>
    unfold Dsc.reclaim
    split
    · rfl
    · split
      · rfl
      · exact ih { d with jobs := _ }

theorem setJobs_moves (n : Nat) (t : Tbl Job) (s : State) : Moves [.jobs] s (s.onDsc fun d => { d with enqueueNo := n, jobs := t }) :=
  .plain (by intro p hp; cases p <;> first | exact absurd (by decide) hp | (and_intros <;> rfl))

theorem jobCreate_does {b : Bool} {d a k : Nat} {e : Option CalTime} {early un : Bool} {att int : Option Nat} {ds : List Str} {s t : State} {j : Nat}
    (h : jobCreate b d a k e early un att int ds s = .ok (j, t)) : Does (.scanJob :: Part.passing) s t := by
  unfold jobCreate at h
  dsimp only at h
  split at h
  · simp at h
  · split at h
    · simp at h
    · split at h
      · simp at h
      · split at h
        · rename_i s' _ hh
          split at h
          · simp at h
          · split at h
            · simp at h
            · rename_i j' hj
              simp only [Except.ok.injEq, Prod.mk.injEq] at h
              obtain ⟨-, rfl⟩ := h
              rw [reclaim_same]
              refine .chain (ps := .scanJob :: Part.settling) ?_ (pass_does _)
              refine .chain (ps := [.docs, .scanJob, .jobs]) ?_ (readinessJob_does ..)
              refine .chain (ps := [.docs, .jobs]) ⟨(docHold_moves hh).1.chain (setJobs_moves _ _ s'), fun q => ?_⟩ (scnAttach_does ..)
              have q' := (docHold_moves hh).2 q
              refine q'.begins ⟨q'.1, Tbl.wf_put (reclaim_wf _ _ _ q'.2.1) _ _, q'.2.2.1, q'.2.2.2.1⟩ rfl fun e => ?_
              have h1 := fun x => Tbl.number_put (reclaim_wf ds.length 32 _ q'.2.1) (Tbl.lowestFree_none hj) x (Job.on e)
              simp only [State.holdersOf, State.onDsc_dsc, State.onDsc_prt, State.onDsc_pmc, h1, reclaim_number _ _ _ _ q'.2.1]
              simp only [Job.on, Job.finished, beq_iff_eq, Bool.and_eq_true, Bool.not_eq_true', eq_comm (a := d)]
              simp
              omega
        · simp at h

/-! ## The strip exchange's sending side -/

theorem sendFrame_does (l : Line) (f : CtlFrame) (s : State) : Does [.lines, .lineSets] s (sendFrame l f s) := onCall_does ..
theorem resendFrame_does (l : Line) (s : State) : Does [.lines, .lineSets] s (resendFrame l s) := onCall_does ..

theorem enterClearing_does (l : Line) (o : CallOutcome) (f : CtlFrame) (s : State) : Does Part.exchanging s (enterClearing l o f s) :=
  .chain (ps := [.lines, .lineSets, .arbiter]) ((arbWithdraw_does (.lu l) s).chain (onCall_does l _ _)) (lineMove_does l .clearing none _)

theorem clearWith_does (l : Line) (o : CallOutcome) (s : State) : Does Part.exchanging s (clearWith l o s) := enterClearing_does ..
theorem carryOut_does (l : Line) (e : EndRequest) (s : State) : Does Part.exchanging s (carryOut l e s) := clearWith_does ..

theorem sendPlan_does (l : Line) (n : Nat) (s : State) : Does [.lines, .lineSets] s (sendPlan l n s) := by
  unfold sendPlan
  refine (onCall_does l ({ · with planStep := some n }) s).trans ?_
  dsimp only
  split
  · exact sendFrame_does ..
  · exact .refl _

theorem sendPageEnd_does (l : Line) (c : Call) (p : Page) (s : State) : Does [.lines, .lineSets] s (sendPageEnd l c p s) := sendFrame_does ..

theorem nextStrip_does (l : Line) (s : State) : Does [.lines, .lineSets, .arbiter] s (nextStrip l s) := by
  unfold nextStrip
  split
  · exact .refl s
  · split
    · exact .refl s
    · split
      · exact (sendPageEnd_does ..).mono
      · split
        · exact (onCall_does ..).mono
        · exact .cond ((onCall_does ..).chain (arbAsk_does ..)) (onCall_does ..).mono

theorem stripReady_does (l : Line) (s : State) : Does [.lines, .lineSets] s (stripReady l s) := by
  unfold stripReady
  split
  · exact .refl s
  · split
    · split
      · exact onCall_does ..
      · exact .refl s
    · exact .refl s

theorem luStripRead_does (l : Line) (s : State) : Does [.lines, .lineSets] s (luStripRead l s) := .cond (stripReady_does ..) (.refl s)

theorem sendPageStart_does (l : Line) (p : Page) (f : Resolution × Width) (s : State) : Does [.lines, .lineSets, .arbiter] s (sendPageStart l p f s) :=
  (onCall_does ..).chain (nextStrip_does ..)

theorem boundary_does (l : Line) (s : State) : Does Part.exchanging s (boundary l s) := by
  unfold boundary
  split
  · exact .refl s
  · refine .trans (onCall_does l ({ · with waitInterval := false, waitOn := false, waitOver := false }) s).mono ?_
    dsimp only
    split
    · exact carryOut_does ..
    · split
      · refine .cond ?_ (sendFrame_does ..).mono
        split
        · exact (sendPageStart_does ..).mono
        · exact clearWith_does ..
      · exact .cond (sendFrame_does ..).mono (sendFrame_does ..).mono

theorem resendRound_does (l : Line) (xs : List Nat) (s : State) : Does [.lines, .lineSets, .arbiter] s (resendRound l xs s) := by
  unfold resendRound
  split
  · exact .refl s
  · split
    · exact .refl s
    · exact (onCall_does ..).chain (nextStrip_does ..)

theorem waitIntervalEnd_does (l : Line) (s : State) : Does Part.exchanging s (waitIntervalEnd l s) := by
  unfold waitIntervalEnd
  split
  · exact .refl s
  · exact .cond (boundary_does ..) (.cond (onCall_does ..).mono (.refl s))

theorem earlyBoundary_does (d : Nat) (l : Line) (s : State) : Does Part.exchanging s (earlyBoundary d l s) := by
  unfold earlyBoundary
  split
  · exact .refl s
  · exact .cond (waitIntervalEnd_does ..) (.refl s)

theorem pendEnd_does (l : Line) (e : EndRequest) (s : State) : Does Part.exchanging s (pendEnd l e s) := by
  unfold pendEnd
  split
  · exact .refl s
  · exact (onCall_does ..).mono.trans (.cond (carryOut_does ..) (.refl _))

/-! ## PMC's reports -/

theorem pageReport_does (d : Nat) (s : State) : Does Part.reporting s (pageReport d s) := by
  unfold pageReport
  have h1 := (readinessDoc_does d s).chain (rs := Part.reporting) (selectIfIdle_does _)
  have h2 := h1.chain (rs := Part.reporting) (.each (earlyBoundary_does d) allLines _)
  exact h2.chain (passIfNew_does ..)

theorem pageFinish_does (c : Client) (d : Nat) (s : State) : Does Part.reporting s (pageFinish c d s) :=
  .cond ((pageComplete_does d s).chain (pageReport_does d _)) (.refl s)

theorem docState_does (d : Nat) (st : DocState) (s : State) : Does [.docs] s (s.onDoc d ({ · with state := st })) :=
  onDoc_does_pages _ _ _ fun _ => ⟨rfl, rfl⟩

theorem docLeave_does (d : Nat) (st : DocState) (s : State) : Does Part.reporting s (docLeave d st s) := by
  unfold docLeave
  have h1 := (docState_does d st s).chain (rs := Part.reporting) (docChanged_does d st.code _)
  have h2 := h1.chain (rs := Part.reporting) (readinessDoc_does d _)
  have h3 := h2.chain (rs := Part.reporting) (prtDocClosed_does d ((docChanged d st.code (s.onDoc d ({ · with state := st }))).completeCount d) _)
  have h4 := h3.chain (rs := Part.reporting) (.each (earlyBoundary_does d) allLines _)
  have h5 := h4.chain (rs := Part.reporting) (docFree_does d _)
  exact h5.chain (passIfNew_does s _)

theorem docClose_does (d : Nat) (s : State) : Does Part.reporting s (docClose d s) := .cond (docLeave_does ..) (.refl s)

theorem docAbandon_does (c : Client) (d : Nat) (s : State) : Does (.reservations :: Part.reporting) s (docAbandon c d s) :=
  .cond ((pageDiscard_does ..).chain (docLeave_does ..)) (.refl s)

/-! ## The reception router -/

theorem routeMatch_does (x : Str) (l : Line) (s : State) : Does [.routes] s (routeMatch x l s).2 := by
  unfold routeMatch
  split
  · exact .plain (by intro p hp; cases p <;> first | exact absurd (by decide) hp | (and_intros <;> rfl))
  · exact .plain (by intro p hp; cases p <;> first | exact absurd (by decide) hp | (and_intros <;> rfl))

theorem setRecs_does (r : Vector (Option RecvRec) 4) (s : State) : Does [.receptions] s (s.onRrt fun t => { t with recs := r }) := .plain (by intro p hp; cases p <;> first | exact absurd (by decide) hp | (and_intros <;> rfl))

theorem onRec_does (l : Line) (f : RecvRec → RecvRec) (s : State) : Does [.receptions] s (s.onRec l f) := .plain (by intro p hp; cases p <;> first | exact absurd (by decide) hp | (and_intros <;> rfl))

theorem routeRecord_does (l : Line) (d : Nat) (x : Disposition) (s : State) : Does [.receptions, .notices] s (routeRecord l d x s) :=
  (setRecs_does _ s).chain (raise_does ..)

theorem routePrint_does (l : Line) (d : Nat) (x : Disposition) (s : State) : Does (.receptions :: Part.printing) s (routePrint l d x s) := by
  unfold routePrint
  split
  · split
    · rename_i h
      exact (entryCreate_does h).chain (onRec_does ..)
    · exact (docRetainSet_does ..).chain (raise_does ..)
  · exact .refl s

theorem routeForward_does (l : Line) (d : Nat) (x : Disposition) (s : State) : Does ([.receptions, .scanJob] ++ Part.passing) s (routeForward l d x s) := by
  unfold routeForward
  split
  · split
    · rename_i h
      exact (jobCreate_does h).chain (onRec_does ..)
    · exact (docRetainSet_does ..).chain (raise_does ..)
  · exact .refl s

theorem firstPageSteps_does (l : Line) (d : Nat) (x : Disposition) (s : State) : Does Part.routing s (firstPageSteps l d x s) := by
  unfold firstPageSteps
  have h1 : Does Part.routing s (if x.action.holds then docRetainSet d s else s) := .cond (docRetainSet_does ..).mono (.refl s)
  exact (h1.trans (.cond (routePrint_does ..).mono (.refl _))).trans (routeForward_does ..).mono

theorem routePageStored_does (l : Line) (d n : Nat) (s : State) : Does Part.routing s (routePageStored l d n s) := by
  unfold routePageStored
  split
  · exact .refl s
  · exact (onRec_does ..).mono.trans (.cond ((firstPageSteps_does ..).chain (onRec_does ..)) (.refl _))

theorem routeSettle_does (l : Line) (d : Nat) (s : State) : Does (.receptions :: Part.printing) s (routeSettle l d s) := by
  unfold routeSettle
  split
  · exact .refl s
  · exact .chain (ps := .receptions :: Part.printing) (.cond (routePrint_does ..) (.refl s)) (setRecs_does ..)

/-! ## Calls -/

theorem settle_does (l : Line) (c : Call) (s : State) : Does ([.reservations, .receptions] ++ Part.reporting) s (settle l c s) := by
  unfold settle
  split
  · exact .refl s
  · exact (routeSettle_does ..).mono.trans (.cond (docClose_does ..).mono (docAbandon_does ..).mono)

theorem reportDsc_does (c : Call) (o : CallOutcome) (s : State) : Does Part.settling s (reportDsc c o s) := by
  unfold reportDsc
  split
  · exact dscCallEnd_does ..
  · exact .refl s

theorem lineGuard_does (l : Line) (o : CallOutcome) (s : State) : Does [.lines, .lineSets, .notices] s (lineGuard l o s) :=
  (onLu_does ..).chain (lineMove_does ..)

/-- What the end of a call may change (R85). -/
theorem callEnd_does (l : Line) (o : CallOutcome) (s : State) : Does Part.callEnding s (callEnd l o s) := by
  unfold callEnd
  split
  · exact .refl s
  · rename_i c _
    have h1 : Does Part.callEnding s (if c.caller then s else settle l c s) := .cond (.refl s) (settle_does ..).mono
    have h2 := h1.chain (rs := Part.callEnding) (commit_does l (c.endReport o) false _)
    have h3 := h2.chain (rs := Part.callEnding) (reportDsc_does c o _)
    have h4 := h3.chain (rs := Part.callEnding) (arbWithdraw_does (.lu l) _)
    have h5 := h4.chain (rs := Part.callEnding) (lineGuard_does l o _)
    exact h5.trans (.cond (pass_does _).mono (.refl _))

theorem hangUp_does (l : Line) (s : State) : Does Part.callEnding s (hangUp l s) := by
  unfold hangUp
  split
  · exact .refl s
  · exact callEnd_does ..

theorem endRequest_does (l : Line) (e : EndRequest) (s : State) : Does Part.callEnding s (endRequest l e s) := by
  unfold endRequest
  split
  · exact .refl s
  · refine .cond (.refl s) ?_
    split <;> first | exact callEnd_does .. | exact (pendEnd_does ..).mono | exact .refl s

theorem seize_does (l : Line) (j p : Nat) (x : Job) (r : Recip) (s : State) : Does [.lines, .lineSets, .logResvs, .notices] s (seize l j p x r s) :=
  .chain (ps := [.lines, .lineSets, .logResvs]) ((onLu_does ..).chain (chgSeizure_does ..)) (lineMove_does ..)

theorem ringUnanswered_does (l : Line) (n : Nat) (s : State) : Does [.notices] s (ringUnanswered l n s) := raise_does ..

theorem answering_does (l : Line) (t : CalTime) (s : State) : Does [.lines, .lineSets, .logResvs, .notices] s (answering l t s) :=
  .chain (ps := [.lines, .lineSets, .logResvs]) ((onLu_does l _ s).chain (chgAnswerIn_does l s.now _)) (lineMove_does ..)

theorem answerDecision_does (l : Line) (s : State) : Does [.lines, .lineSets, .logResvs, .notices] s (answerDecision l s) := by
  unfold answerDecision
  refine .trans (onLu_does l ({ · with condHeld := true }) s).mono ?_
  refine .cond ?_ ?_
  · exact .cond (.refl _) ((onLu_does ..).chain (ringUnanswered_does ..))
  · dsimp only
    split
    · exact (logFullNotice_does ..).mono
    · rename_i h
      exact (inReserve_does h).chain (answering_does ..)

theorem giveUpOut_does (l : Line) (s : State) : Does Part.committing s (giveUpOut l s) := by
  unfold giveUpOut
  split
  · exact .refl s
  · exact .cond (commit_does ..) (dropCarried_does ..).mono

theorem releaseGlare_does (c : Call) (s : State) : Does Part.settling s (releaseGlare c s) := by
  unfold releaseGlare
  split
  · exact dscGlare_does ..
  · exact .refl s

theorem glareOff_does (l : Line) (o : CallOutcome) (s : State) : Does Part.exchanging s (glareOff l o s) := (arbWithdraw_does ..).chain (lineGuard_does ..)

theorem glareRelease_does (l : Line) (c : Call) (s : State) : Does Part.glaring s (releaseGlare c (giveUpOut l s)) :=
  (giveUpOut_does l s).chain (releaseGlare_does c _)

theorem glare_does (l : Line) (s : State) : Does Part.glaring s (glare l s) := by
  unfold glare
  split
  · exact .refl s
  · rename_i c _
    have h := glareRelease_does l c s
    refine .cond ?_ (.cond ?_ (.cond ?_ ?_))
    · exact ((h.chain (rs := Part.glaring) (glareOff_does l .glare _)).chain (rs := Part.glaring) (ringUnanswered_does l 0 _)).chain (pass_does _)
    · exact ((h.chain (rs := Part.glaring) (glareOff_does l .glare _)).chain (rs := Part.glaring) (ringUnanswered_does l 1 _)).chain (pass_does _)
    · have h' := (logFullNotice_does (some l) s).chain (rs := Part.glaring) (glareRelease_does l c _)
      exact (h'.chain (rs := Part.glaring) (glareOff_does l .logFull _)).chain (pass_does _)
    · dsimp only
      split
      · rename_i hr
        exact ((h.chain (rs := Part.glaring) (inReserve_does hr)).chain (rs := Part.glaring) (answering_does l s.now _)).chain (pass_does _)
      · exact (h.chain (rs := Part.glaring) (glareOff_does l .logFull _)).chain (pass_does _)

/-! ## Budget actions and cancellation -/

theorem overrunCheck_does (l : Line) (s : State) : Does Part.callEnding s (overrunCheck l s) := by
  unfold overrunCheck
  split
  · exact .refl s
  · split
    · exact .refl s
    · refine .cond ?_ (.refl s)
      split
      · exact .refl s
      · rename_i o _ _ e _
        have h1 : Does [.logResvs] s (s.onCarried l ({ · with actionTaken := true })) := onCarried_does _ _ _ fun _ => rfl
        exact (h1.chain (rs := Part.callEnding) (raise_does ..)).chain (endRequest_does l e _)

theorem accrueCheck_does (l : Line) (n : Nat) (s : State) : Does Part.callEnding s (accrueCheck l n s) := (accrue_does ..).chain (overrunCheck_does ..)

theorem lastPulse_does (l : Line) (v : Nat) (s : State) : Does [.logResvs] s (s.onCarried l ({ · with lastPulse := v, metered := true })) :=
  onCarried_does _ _ _ fun _ => rfl

theorem chgPulse_does (l : Line) (v : Nat) (s : State) : Does Part.callEnding s (chgPulse l v s) := (lastPulse_does ..).chain (accrueCheck_does ..)

theorem chgAnswered_does (l : Line) (m : Bool) (s : State) : Does Part.callEnding s (chgAnswered l m s) := by
  unfold chgAnswered
  exact (chgAnswerOut_does l m s).mono.trans (.cond (.refl _) (accrueCheck_does ..))

theorem intervalStart_does (l : Line) (n : Nat) (s : State) : Does [.logResvs] s (s.onCarried l ({ · with intervalEnd := some n })) :=
  onCarried_does _ _ _ fun _ => rfl

theorem chgInterval_does (l : Line) (s : State) : Does Part.callEnding s (chgInterval l s) := by
  unfold chgInterval
  split
  · exact .refl s
  · split
    · exact (intervalStart_does ..).chain (accrueCheck_does ..)
    · exact .refl s

theorem cancelIdle_does (j p : Nat) (s : State) : Does [.jobs, .notices] s (cancelIdle j p s) := by
  unfold cancelIdle
  split
  · exact .refl s
  · exact .cond (.refl s) (recipSet_does ..)

theorem cancelCalling_does (n : Bool) (j p : Nat) (s : State) : Does Part.callEnding s (cancelCalling n j p s) := by
  unfold cancelCalling
  split
  · exact .refl s
  · split
    · exact endRequest_does ..
    · exact .refl s

theorem jobCancel_does (j : Nat) (n : Bool) (s : State) : Does Part.callEnding s (jobCancel j n s) := by
  unfold jobCancel
  split
  · exact .refl s
  · rename_i x _
    refine .cond (.refl s) ?_
    have h1 := (onJob_does j ({ · with cancelRequested := true, cancelNow := n }) s fun _ => ⟨rfl, rfl⟩).chain (rs := Part.callEnding)
      (.each (cancelIdle_does j) (positions x.recips.length) _)
    have h2 := h1.chain (rs := Part.callEnding) (.each (cancelCalling_does n j) (positions x.recips.length) _)
    exact h2.chain (jobSettle_does j _)

theorem jobsCancel_does (d : Nat) (s : State) : Does Part.callEnding s (jobsCancel d s) :=
  .each (fun j s => .cond (jobCancel_does j true s) (.refl s)) _ s

theorem setCursors_moves (t : Tbl Cursor) (s : State) : Moves [.cursors] s (s.onPmc ({ · with cursors := t })) := by
  refine ⟨.plain (by intro p hp; cases p <;> first | exact absurd (by decide) hp | (and_intros <;> rfl)), id⟩

theorem cursorsRevoke_does (d : Nat) (s : State) : Does (.cursors :: Part.freeing) s (cursorsRevoke d s) := by
  refine .each (fun k s => ?_) _ s
  split
  · rename_i c hc
    split
    · rename_i h
      refine ⟨(setCursors_moves _ s).chain (docRelease_moves ..).1, fun q => (docRelease_moves ..).2 ?_⟩
      exact h.1 ▸ cursorEnd_hold hc h.2 (.inr rfl) q
    · exact .refl s
  · exact .refl s

/-! ## Scanning -/

theorem scnCancelEntry_does (r : ScanJob) (s : State) : Does Part.printing s (scnCancelEntry r s) := by
  unfold scnCancelEntry
  split
  · exact .cond (entryCancel_does ..) (.refl s)
  · exact .refl s

theorem scnCancelJob_does (r : ScanJob) (s : State) : Does Part.callEnding s (scnCancelJob r s) := by
  unfold scnCancelJob
  split
  · exact .cond (jobCancel_does ..) (.refl s)
  · exact .refl s

theorem scnCancelHolders_does (r : ScanJob) (s : State) : Does Part.callEnding s (scnCancelHolders r s) :=
  (scnCancelEntry_does ..).chain (scnCancelJob_does ..)

theorem scnHalt_does (s : State) : Does [.scanRun] s (scnHalt s) := .plain (by intro p hp; cases p <;> first | exact absurd (by decide) hp | (and_intros <;> rfl))

theorem jobOutcome_does (o : ScanOutcome) (s : State) : Does [.scanJob] s (s.onScn fun c => { c with job := c.job.map ({ · with outcome := some o }) }) :=
  .plain (by intro p hp; cases p <;> first | exact absurd (by decide) hp | (and_intros <;> rfl))

/-- What the end of a scan job may change (R41). -/
theorem scanEnd_does (o : ScanOutcome) (s : State) : Does Part.scanEnding s (scanEnd o s) := by
  unfold scanEnd
  split
  · exact .refl s
  · rename_i r _
    have h1 := (pageDiscard_does .scn r.doc s).chain (rs := Part.scanEnding) (scnHalt_does _)
    generalize scnHalt (pageDiscard .scn r.doc s) = t at h1
    have h2 : Does Part.scanEnding s (if t.completeCount r.doc = 0 then scnCancelHolders r t else t) := h1.trans (.cond (scnCancelHolders_does ..).mono (.refl t))
    have h3 := h2.trans (.cond (c := o = .done ∧ t.completeCount r.doc ≠ 0) (docClose_does r.doc _).mono (docAbandon_does .scn r.doc _).mono)
    exact (h3.chain (rs := Part.scanEnding) (jobOutcome_does o _)).chain (raise_does ..)

theorem scanStop_does (s : State) : Does Part.scanEnding s (scanStop s) := by
  unfold scanStop
  split
  · exact .refl s
  · exact .refl s
  · exact .mono (ps := [.scanRun]) (.plain (by intro p hp; cases p <;> first | exact absurd (by decide) hp | (and_intros <;> rfl)))
  · exact scanEnd_does ..

theorem acquirePulse_does (g : Bool) (s : State) : Does [.scanRun] s (acquirePulse g s) := by
  unfold acquirePulse
  exact .cond (.plain (by intro p hp; cases p <;> first | exact absurd (by decide) hp | (and_intros <;> rfl))) (.plain (by intro p hp; cases p <;> first | exact absurd (by decide) hp | (and_intros <;> rfl)))

theorem lockedPulse_does (g : Bool) (s : State) : Does [.scanRun] s (lockedPulse g s) := .plain (by intro p hp; cases p <;> first | exact absurd (by decide) hp | (and_intros <;> rfl))

/-- The strip that a line is coded into. -/
theorem scanStrip_does {r : ScanJob} {s t : State} (h : scanStrip r s = some t) : Does [.mem, .freePool, .reservations, .scanRun] s t := by
  unfold scanStrip at h
  split at h
  · obtain ⟨u, hu, rfl⟩ := Option.map_eq_some_iff.1 h
    exact .chain (qs := [.scanRun]) (stripOpen_does hu) (.plain (by intro p hp; cases p <;> first | exact absurd (by decide) hp | (and_intros <;> rfl)))
  · simp only [Option.some.injEq] at h; subst h; exact .refl s

theorem lineIn_does (n : Nat) (a b : Option Pixels) (s : State) : Does [.scanRun] s (s.onScn ({ · with lineNo := n, prevLine := a, prevDecoded := b })) :=
  .plain (by intro p hp; cases p <;> first | exact absurd (by decide) hp | (and_intros <;> rfl))

theorem lineCounted_does (s : State) : Does [.reservations] s (s.onResv .scn fun v => { v with strip := { v.strip with lines := v.strip.lines + 1 } }) :=
  onResv_does _ _ s fun _ => ⟨rfl, rfl⟩

theorem scanWrite_does (w : Width) (px : Pixels) (s : State) : Does Part.lining s (scanWrite w px s) := by
  unfold scanWrite
  have h1 := (stripAppend_does .scn (codeLine w s.scn.prevDecoded px).1 s).chain (rs := Part.lining) (lineCounted_does _)
  have h2 := h1.chain (rs := Part.lining) (lineIn_does (s.scn.lineNo + 1) (some px) (some (codeLine w s.scn.prevDecoded px).2) _)
  exact h2.trans (.cond (stripClose_does ..).mono (.refl _))

theorem scanCode_does (r : ScanJob) (px : Pixels) (s : State) : Does Part.scanning s (scanCode r px s) := by
  unfold scanCode
  split
  · exact (scanEnd_does ..).mono
  · rename_i h
    exact (scanStrip_does h).chain (scanWrite_does ..)

theorem scanTake_does (r : ScanJob) (px : Pixels) (s : State) : Does Part.scanning s (scanTake r px s) :=
  .cond (scanEnd_does ..).mono (scanCode_does ..)

theorem linePulse_does (dt : Nat) (px : List Byte) (s : State) : Does Part.scanning s (linePulse dt px s) := by
  unfold linePulse
  split
  · exact .refl s
  · rename_i r _
    dsimp only
    split
    · exact .cond (acquirePulse_does ..).mono (.mono (ps := [.scanRun]) (.plain (by intro p hp; cases p <;> first | exact absurd (by decide) hp | (and_intros <;> rfl))))
    all_goals first
      | exact .refl s
      | exact (lockedPulse_does _ s).mono.trans (.cond (scanEnd_does ..).mono (.cond (scanTake_does ..) (.refl _)))

theorem windowClose_does (s : State) : Does Part.scanning s (windowClose s) := by
  unfold windowClose
  split
  · exact .refl s
  · split
    · exact .cond (acquirePulse_does ..).mono (.refl s)
    all_goals first
      | exact .refl s
      | exact (lockedPulse_does _ s).mono.trans (.cond (scanEnd_does ..).mono (.cond (scanTake_does ..) (.refl _)))

theorem waitPaper_does (s : State) : Does [.scanRun, .notices] s (waitPaper s) := by
  unfold waitPaper
  exact .cond (.cond (scnAcquire_does s).mono (scnMemoryWait_does s)) (.refl s)

theorem sheetRise_does (s : State) : Does [.docs, .scanRun] s (sheetRise s) := by
  unfold sheetRise
  split
  · split
    · rename_i h
      exact .chain (qs := [.scanRun]) (pageBegin_does h) (.plain (by intro p hp; cases p <;> first | exact absurd (by decide) hp | (and_intros <;> rfl)))
    · exact .refl s
  · exact .refl s

theorem pageCounted_does (s : State) : Does [.scanJob] s (s.onScn fun c => { c with job := c.job.map fun r => { r with pagesDone := r.pagesDone + 1 } }) :=
  .plain (by intro p hp; cases p <;> first | exact absurd (by decide) hp | (and_intros <;> rfl))

theorem sheetPage_does (r : ScanJob) (s : State) : Does Part.scanning s (sheetPage r s) := by
  unfold sheetPage
  refine .trans (stripClose_does .scn .stored s).mono ?_
  dsimp only
  split
  · exact .refl _
  · exact .cond (pageDiscard_does ..).mono ((pageCounted_does _).chain (pageFinish_does ..))

theorem sheetNext_does (r : ScanJob) (b : Bool) (s : State) : Does Part.scanning s (sheetNext r b s) := by
  unfold sheetNext
  refine .cond (scanEnd_does ..).mono (.cond (scanEnd_does ..).mono (.cond (scanEnd_does ..).mono (.cond ?_ ?_)))
  · exact .mono (ps := [.scanRun]) (.plain (by intro p hp; cases p <;> first | exact absurd (by decide) hp | (and_intros <;> rfl)))
  · exact (lineIn_does 0 none none s).chain (scnMemoryWait_does _)

theorem sheetFall_does (s : State) : Does Part.scanning s (sheetFall s) := by
  unfold sheetFall
  split
  · exact .refl s
  · exact .cond ((sheetPage_does ..).trans (sheetNext_does ..)) (.refl s)

theorem jobMade_does (j : ScanJob) (s : State) : Does [.scanRun, .scanJob] s (s.onScn fun c => { c with state := .waitPaper, job := some j }) :=
  .plain (by intro p hp; cases p <;> first | exact absurd (by decide) hp | (and_intros <;> rfl))

/-- The two ends of the making of a scan job. -/
theorem scanMake_cases (k : Bool) (p : Preset) (s : State) :
    (∃ d e t, scanMake k p s = .ok (d, e, t) ∧ Does ([.scanRun, .scanJob] ++ Part.printing) s t)
      ∨ ∃ t, scanMake k p s = .error t ∧ Does (.reservations :: Part.reporting) s t := by
  unfold scanMake
  split
  · exact .inr ⟨_, rfl, .refl s⟩
  · rename_i d t h
    dsimp only
    split
    · exact .inl ⟨_, _, _, rfl, (docMake_does h).chain (jobMade_does _ t)⟩
    · split
      · rename_i h2
        exact .inl ⟨_, _, _, rfl, ((docMake_does h).chain (rs := Part.printing) (entryCreate_does h2)).chain (jobMade_does _ _)⟩
      · exact .inr ⟨_, rfl, (docMake_does h).chain (docAbandon_does ..)⟩

end Sys2Proof.Machine
end

