-- ==== Sys2Proof/Laws/Commands.lean ====
section
/-! SUPPORT. What each command may do, before the transmitter chooses. -/

namespace Sys2Proof.Machine

set_option Elab.async false

/-! ## Replies and the transmitter -/

theorem answer_does (k t : Nat) (r : Result) (b : List Byte) (s : State) : Does [.replies] s (s.answer k t r b) := .plain (by intro p hp; cases p <;> first | exact absurd (by decide) hp | (and_intros <;> rfl))
theorem ok_does (k t : Nat) (b : List Byte) (s : State) : Does [.replies] s (s.ok k t b) := answer_does ..
theorem deny_does (k t : Nat) (r : Result) (s : State) : Does [.replies] s (s.deny k t r) := answer_does ..

theorem kick_same (h : Hlc) : h.kick = { h with tx := h.kick.tx, replies := h.kick.replies, notices := h.kick.notices } := by
  unfold Hlc.kick
  split
  · rfl
  · rfl
  · split <;> rfl
  · rfl

theorem kick_notices (h : Hlc) : h.kick.notices.length ≤ h.notices.length := by
  unfold Hlc.kick
  split
  · exact le_refl _
  · exact le_refl _
  · rename_i e
    split
    · rw [e]; simp
    · exact le_refl _
  · exact le_refl _

/-- What the transmitter's choice may do (R186). -/
theorem kick_does (s : State) : Does Part.outgoing s s.kick := by
  refine Acts.does ⟨?_, id, id, fun q => ?_, id, id⟩
  · intro p hp
    cases p <;> first | exact absurd (by decide) hp | (simp only [Part.same, State.kick_hlc]; rw [kick_same]; try (and_intros <;> rfl)) | (and_intros <;> rfl)
  · have := kick_notices s.hlc
    refine ⟨?_, this.trans q.2⟩
    have h := q.1
    simp only [State.kick_hlc]; rw [kick_same]; exact h

/-- An event's outcome. -/
theorem event_next (s : State) (f : State → State) : ∃ t, event s f = .next t ∧ t = if s.running then (f s).kick else s := ⟨_, rfl, rfl⟩

/-! ## Page memory -/

theorem listQuery_does (k t : Nat) (a : Option Nat) (f : State → Except Result (List Byte)) (s : State) : Does [.replies] s (listQuery k t a f s) := by
  unfold listQuery
  refine .cond (deny_does ..) ?_
  split
  · exact ok_does ..
  · exact deny_does ..

theorem setFloors_does (a b : Nat) (s : State) : Does [.floors] s (s.onPmc fun p => { p with recvContinue := a, scanFloor := b }) := by
  exact ⟨.plain (by intro p hp; cases p <;> first | exact absurd (by decide) hp | (and_intros <;> rfl)), id⟩

theorem doMemFloorsSet_does (t a b : Nat) (s : State) : Does [.floors, .dirty, .replies] s (doMemFloorsSet t a b s) := by
  unfold doMemFloorsSet
  refine .cond ?_ (deny_does ..).mono
  exact .chain (ps := [.floors, .dirty]) (.chain (ps := [.floors, .dirty]) ((setFloors_does a b s).chain (dirty_does ..)) (dirty_does ..)) (ok_does ..)

theorem setHost_does (d : Option Nat) (s : State) : Does [.hostDoc] s (s.onHlc ({ · with hostDoc := d })) := .plain (by intro p hp; cases p <;> first | exact absurd (by decide) hp | (and_intros <;> rfl))
theorem setLost_does (f : Hlc → List Nat) (s : State) : Does [.hostDoc] s (s.onHlc fun h => { h with hostLost := f h }) := .plain (by intro p hp; cases p <;> first | exact absurd (by decide) hp | (and_intros <;> rfl))

theorem doDocCreate_does (t : Nat) (r : Bool) (s : State) : Does [.docs, .hostDoc, .replies] s (doDocCreate t r s) := by
  unfold doDocCreate
  refine .cond (deny_does ..).mono ?_
  split
  · exact (deny_does ..).mono
  · rename_i h
    exact ((docMake_does h).chain (rs := [.docs, .hostDoc]) (setHost_does _ _)).chain (ok_does ..)

theorem hostUnknown_does (k t d : Nat) (s : State) : Does [.hostDoc, .replies] s (hostUnknown k t d s) := by
  unfold hostUnknown
  exact .cond ((setLost_does _ s).chain (deny_does ..)) (deny_does ..).mono

theorem doPageBegin_does (t d r w : Nat) (s : State) : Does [.docs, .hostDoc, .replies] s (doPageBegin t d r w s) := by
  unfold doPageBegin
  refine .cond (hostUnknown_does ..).mono ?_
  split
  · refine .cond (deny_does ..).mono (.cond (deny_does ..).mono ?_)
    split
    · rename_i h
      exact (pageBegin_does h).chain (ok_does ..)
    · exact (deny_does ..).mono
  · exact (deny_does ..).mono

theorem stripChunk_does (t d : Nat) (l : Bool) (s : State) : Does Part.hostStrip s (stripChunk t d l s) := by
  unfold stripChunk
  split
  · exact .cond (ok_does ..).mono (.cond ((stripClose_does ..).chain (ok_does ..)) ((stripDiscard_does ..).chain (deny_does ..)))
  · exact (deny_does ..).mono

theorem stripFirst_does (t d n : Nat) (l : Bool) (c : List Byte) (s : State) : Does Part.hostStrip s (stripFirst t d n l c s) := by
  unfold stripFirst
  split
  · exact (deny_does ..).mono
  · refine .cond (deny_does ..).mono (.cond (deny_does ..).mono ?_)
    split
    · exact (deny_does ..).mono
    · rename_i h
      exact ((stripOpen_does h).chain (rs := Part.hostStrip) (stripAppend_does ..)).chain (stripChunk_does ..)

theorem stripMore_does (t d n : Nat) (l : Bool) (c : List Byte) (r : Resv) (s : State) : Does Part.hostStrip s (stripMore t d n l c r s) := by
  unfold stripMore
  exact .cond ((stripDiscard_does ..).chain (deny_does ..)) ((stripAppend_does ..).chain (stripChunk_does ..))

theorem doStripData_does (t d n : Nat) (l : Bool) (c : List Byte) (s : State) : Does Part.hostStrip s (doStripData t d n l c s) := by
  unfold doStripData
  refine .cond (hostUnknown_does ..).mono (.cond ((stripDiscard_does ..).chain (deny_does ..)) ?_)
  split
  · exact stripFirst_does ..
  · exact stripMore_does ..

theorem doPageClose_does (t d : Nat) (s : State) : Does ([.hostDoc, .replies] ++ Part.reporting) s (doPageClose t d s) := by
  unfold doPageClose
  refine .cond (hostUnknown_does ..).mono ?_
  split
  · exact (deny_does ..).mono
  · exact .cond (deny_does ..).mono ((pageFinish_does ..).chain (ok_does ..))

theorem doDocClose_does (t d : Nat) (s : State) : Does ([.hostDoc, .replies] ++ Part.reporting) s (doDocClose t d s) := by
  unfold doDocClose
  exact .cond (hostUnknown_does ..).mono (.cond (deny_does ..).mono (((setHost_does none s).chain (rs := .hostDoc :: Part.reporting) (docClose_does d _)).chain (ok_does ..)))

theorem docRetained_does (d : Nat) (v : Bool) (s : State) : Does [.docs] s (s.onDoc d ({ · with retained := v })) := onDoc_does_pages _ _ _ fun _ => ⟨rfl, rfl⟩

theorem doDocRetain_does (t d : Nat) (v : Bool) (s : State) : Does (.replies :: Part.freeing) s (doDocRetain t d v s) := by
  unfold doDocRetain
  split
  · exact (deny_does ..).mono
  · exact .cond (deny_does ..).mono (((docRetained_does d v s).chain (rs := Part.freeing) (docFree_does d _)).chain (ok_does ..))

theorem forceMark_does (d : Nat) (s : State) : Does [.docs] s (s.onDoc d ({ · with retained := false, deletePending := true })) :=
  onDoc_does_pages _ _ _ fun _ => ⟨rfl, rfl⟩

theorem forceDelete_does (d : Nat) (s : State) : Does Part.forcing s (forceDelete d s) := by
  unfold forceDelete
  have h1 := (forceMark_does d s).chain (rs := Part.forcing) (jobsCancel_does d _)
  have h2 := h1.chain (rs := Part.forcing) (entriesCancel_does d _)
  exact h2.chain (cursorsRevoke_does d _)

theorem doDocDelete_does (t d : Nat) (f : Bool) (s : State) : Does (.replies :: Part.forcing) s (doDocDelete t d f s) := by
  unfold doDocDelete
  split
  · exact (deny_does ..).mono
  · refine .cond (deny_does ..).mono (.cond (ok_does ..).mono (.cond ?_ (.cond (deny_does ..).mono ((forceDelete_does ..).chain (ok_does ..)))))
    exact ((docRetained_does d false s).chain (rs := Part.freeing) (docFree_does d _)).chain (ok_does ..)

theorem docHold_cursors {d : Nat} {s t : State} (h : docHold d s = some t) : t.pmc.cursors = s.pmc.cursors := by
  unfold docHold at h
  split at h
  · simp at h
  · split at h
    · simp at h
    · cases h; rfl

theorem doCursorOpen_does (t d : Nat) (p : Option Nat) (s : State) : Does [.docs, .cursors, .replies] s (doCursorOpen t d p s) := by
  unfold doCursorOpen
  refine .cond (deny_does ..).mono ?_
  split
  · exact (deny_does ..).mono
  · split
    · exact (deny_does ..).mono
    · rename_i hk _ _ h
      refine .chain (ps := [.docs, .cursors]) ⟨(docHold_moves h).1.chain (setCursors_moves _ _), fun q => ?_⟩ (ok_does ..)
      refine cursorNew_hold ?_ (by simp) ((docHold_moves h).2 q)
      rw [docHold_cursors h]; exact Tbl.lowestFree_none hk

/-- A REVOKED cursor's slot is freed. -/
theorem cursorFree_does (k : Nat) (c : Cursor) (s : State) (h : s.pmc.cursors.get k = some c) (hr : c.state = .revoked) : Does [.cursors] s (s.cursorFree k) :=
  ⟨setCursors_moves _ s, cursors_hold (fun hw => Tbl.wf_del hw k) fun _ e => by
    have := Tbl.number_del h (Cursor.on e)
    simpa [Cursor.on, hr] using this⟩

theorem doCursorClose_does (t k : Nat) (s : State) : Does ([.cursors, .replies] ++ Part.freeing) s (doCursorClose t k s) := by
  unfold doCursorClose
  split
  · exact (deny_does ..).mono
  · rename_i c hc
    split
    · rename_i hr
      exact (cursorFree_does k c s hc hr).chain (deny_does ..)
    · rename_i hr
      refine .chain (ps := .cursors :: Part.freeing) ⟨(setCursors_moves _ s).chain (docRelease_moves ..).1, fun q => (docRelease_moves ..).2 ?_⟩ (ok_does ..)
      exact cursorEnd_hold hc hr (.inl rfl) q

theorem cursorRead_does (t k n : Nat) (c : Cursor) (s : State) (h : s.pmc.cursors.get k = some c) (hr : c.state = .opened) :
    Does [.cursors, .arbiter, .replies] s (cursorRead t k n c s) := by
  unfold cursorRead
  split
  · exact (deny_does ..).mono
  · refine .cond (deny_does ..).mono ?_
    refine .chain (rs := [.cursors, .arbiter, .replies]) (.chain (ps := [.cursors]) (rs := [.cursors, .arbiter]) ⟨setCursors_moves _ s, cursors_hold (fun hw => Tbl.wf_put hw k _) fun hw e => ?_⟩ (arbAsk_does ..)) (ok_does ..)
    rw [Tbl.put_over _ hw h]
    have h1 := fun x => Tbl.number_mod h (fun _ => x) (Cursor.on e)
    refine Nat.add_right_cancel ((h1 _).trans ?_)
    congr 1
    simp only [Cursor.on, hr]
    split <;> simp_all

theorem doStripRead_does (t k n : Nat) (s : State) : Does [.cursors, .arbiter, .replies] s (doStripRead t k n s) := by
  unfold doStripRead
  refine .cond (deny_does ..).mono ?_
  split
  · exact (deny_does ..).mono
  · split
    · rename_i c hc _ hr
      exact (cursorFree_does _ c s hc hr).chain (deny_does ..)
    · exact (ok_does ..).mono
    · rename_i c hc _ hr
      exact cursorRead_does _ _ _ c s hc hr

theorem burstDone_does (c : Client) (s : State) : Does [.engine, .arbiter, .lines, .lineSets] s (burstDone c s) := by
  unfold burstDone
  split
  · exact (prtStripRead_does s).mono
  · exact (luStripRead_does ..).mono
  · exact .refl s

theorem arbIdle_does (s : State) : Does [.arbiter] s (s.onArb ({ · with busy := none })) := .plain (by intro p hp; cases p <;> first | exact absurd (by decide) hp | (and_intros <;> rfl))

theorem burstComplete_does (s : State) : Does [.engine, .arbiter, .lines, .lineSets] s (burstComplete s) := by
  unfold burstComplete
  split
  · exact .refl s
  · exact ((arbIdle_does s).chain (rs := [.engine, .arbiter, .lines, .lineSets]) (burstDone_does _ _)).chain (arbGrant_does _)

/-! ## Scanning -/

theorem doScan_does (t r w d b : Nat) (p : Option (Nat × Nat)) (s : State) :
    Does ([.reservations, .scanJob, .replies] ++ Part.reporting) s (doScan t r w d b p s) := by
  unfold doScan
  refine .cond (deny_does ..).mono ?_
  split
  · exact (deny_does ..).mono
  · rename_i p _
    refine .cond (deny_does ..).mono ?_
    rcases scanMake_cases false p s with ⟨d, e, u, h, k⟩ | ⟨u, h, k⟩
    · rw [h]; exact (k.chain (rs := [.scanRun, .scanJob, .replies] ++ Part.printing) (ok_does ..)).chain (waitPaper_does _)
    · rw [h]; exact k.chain (deny_does ..)

theorem doScanStop_does (t : Nat) (s : State) : Does (.replies :: Part.scanEnding) s (doScanStop t s) := by
  unfold doScanStop
  exact .cond (deny_does ..).mono ((scanStop_does s).chain (ok_does ..))

theorem setScan_does (v : ScanSettings) (s : State) : Does [.scanSettings] s (s.onScn ({ · with settings := v })) := .plain (by intro p hp; cases p <;> first | exact absurd (by decide) hp | (and_intros <;> rfl))
theorem setPreset_does (v : Option Preset) (s : State) : Does [.preset] s (s.onScn ({ · with preset := v })) := .plain (by intro p hp; cases p <;> first | exact absurd (by decide) hp | (and_intros <;> rfl))

theorem doScanSettingsSet_does (t : Nat) (v : ScanSettings) (s : State) : Does [.scanSettings, .dirty, .replies] s (doScanSettingsSet t v s) := by
  unfold doScanSettingsSet
  exact .cond (((setScan_does v s).chain (rs := [.scanSettings, .dirty]) (dirty_does ..)).chain (ok_does ..)) (deny_does ..).mono

theorem doScanPresetSet_does (t r w d b : Nat) (p : Option (Nat × Nat)) (s : State) : Does [.preset, .dirty, .replies] s (doScanPresetSet t r w d b p s) := by
  unfold doScanPresetSet
  split
  · exact (deny_does ..).mono
  · exact .cond (deny_does ..).mono (((setPreset_does _ s).chain (rs := [.preset, .dirty]) (dirty_does ..)).chain (ok_does ..))

theorem doScanPresetClear_does (t : Nat) (s : State) : Does [.preset, .dirty, .replies] s (doScanPresetClear t s) :=
  ((setPreset_does none s).chain (rs := [.preset, .dirty]) (dirty_does ..)).chain (ok_does ..)

theorem doScanStatus_does (t : Nat) (s : State) : Does [.replies] s (doScanStatus t s) := ok_does ..

theorem noPreset_does (n : Nat) (s : State) : Does [.notices] s (noPreset n s) := raise_does ..

theorem startKey_does (s : State) : Does ([.reservations, .scanJob] ++ Part.reporting) s (startKey s) := by
  unfold startKey
  refine .cond (noPreset_does ..).mono ?_
  split
  · exact (noPreset_does ..).mono
  · rename_i p _
    refine .cond (noPreset_does ..).mono ?_
    rcases scanMake_cases true p s with ⟨d, e, u, h, k⟩ | ⟨u, h, k⟩
    · rw [h]; exact (k.chain (rs := [.scanRun, .scanJob] ++ Part.printing) (raise_does ..)).chain (waitPaper_does _)
    · rw [h]; exact k.chain (noPreset_does ..)

theorem onPins_does (f : Pins → Pins) (s : State) : Does [.pins] s (s.onPins f) := .plain (by intro p hp; cases p <;> first | exact absurd (by decide) hp | (and_intros <;> rfl))

theorem paperSensor_does (v : Bool) (s : State) : Does (.pins :: Part.scanEnding) s (paperSensor v s) := by
  unfold paperSensor
  exact (onPins_does ({ · with feederPaper := v }) s).mono.trans (.cond (scanEnd_does ..).mono (waitPaper_does _).mono)

theorem waitPaperTimeout_does (s : State) : Does Part.scanEnding s (waitPaperTimeout s) := .cond (scanEnd_does ..) (.refl s)
theorem acquireTimeout_does (s : State) : Does Part.scanEnding s (acquireTimeout s) := .cond (scanEnd_does ..) (.refl s)
theorem pageGapTimeout_does (s : State) : Does Part.scanEnding s (pageGapTimeout s) := .cond (scanEnd_does ..) (.refl s)

/-! ## Printing -/

theorem doPrint_does (t d : Nat) (a z : Option Nat) (c b k : Nat) (s : State) :
    Does [.docs, .entries, .engine, .arbiter, .notices, .replies] s (doPrint t d a z c b k s) := by
  unfold doPrint
  split
  · rename_i h
    exact (entryCreate_does h).chain (ok_does ..)
  · exact (deny_does ..).mono

theorem doPrintCancel_does (t e : Nat) (s : State) : Does (.replies :: Part.printing) s (doPrintCancel t e s) := by
  unfold doPrintCancel
  split
  · exact (deny_does ..).mono
  · exact .cond ((entryCancel_does ..).chain (ok_does ..)) (deny_does ..).mono

theorem doPrintResume_does (t : Nat) (s : State) : Does (.replies :: Part.printing) s (doPrintResume t s) :=
  .cond ((engineLeave_does s).chain (ok_does ..)) (deny_does ..).mono

theorem doPrintRearm_does (t : Nat) (s : State) : Does (.replies :: Part.printing) s (doPrintRearm t s) :=
  .cond ((engineLeave_does s).chain (ok_does ..)) (deny_does ..).mono

theorem setThermal_does (v : Thermal) (s : State) : Does [.thermal] s (s.onPrt ({ · with thermal := v })) := .plain (by intro p hp; cases p <;> first | exact absurd (by decide) hp | (and_intros <;> rfl))

theorem doPrintThermalSet_does (t : Nat) (v : Thermal) (s : State) : Does [.thermal, .dirty, .replies] s (doPrintThermalSet t v s) :=
  .cond (((setThermal_does v s).chain (rs := [.thermal, .dirty]) (dirty_does ..)).chain (ok_does ..)) (deny_does ..).mono

theorem lineTime_does (n : Nat) (o : Bool) (s : State) : Does Part.lineTiming s (lineTime n o s) := by
  unfold lineTime
  have h1 := (headLine_does s).chain (rs := Part.lineTiming) (headCool_does _)
  have h2 := h1.chain (rs := Part.lineTiming) (onPins_does ({ · with headTemp := n, overcurrent := o }) _)
  have h3 := h2.chain (rs := Part.lineTiming) (faultTest_does _)
  have h4 := h3.chain (rs := Part.lineTiming) (pauseTest_does _)
  exact h4.chain (warmTest_does _)

theorem warmupTimeout_does (s : State) : Does [.engine, .notices] s (warmupTimeout s) := .cond (prtHalt_does ..) (.refl s)

theorem paperCover_does (s : State) : Does Part.printing s (paperCover s) := by
  unfold paperCover
  split
  · exact (pageSpoil_does s).chain (prtHalt_does ..)
  · exact (pageSpoil_does s).chain (prtHalt_does ..)
  · exact (prtHalt_does ..).mono
  · exact (engineLeave_does s).mono
  · exact (engineLeave_does s).mono
  · exact .refl s

theorem binSensor_does (b : Bin) (v : Bool) (s : State) : Does (.pins :: Part.printing) s (binSensor b v s) := by
  unfold binSensor
  refine .cond (.refl s) ?_
  exact ((onPins_does _ s).chain (rs := .pins :: Part.printing) (raise_does ..)).trans (.cond (.refl _) (selectIfIdle_does _).mono)

/-! ## Lines -/

theorem lineDisable_does (l : Line) (s : State) : Does [.lines, .lineSets, .notices] s (lineDisable l s) := (onLu_does ..).chain (lineMove_does ..)
theorem lineEnable_does (l : Line) (s : State) : Does [.lines, .lineSets, .notices] s (lineEnable l s) := (onLu_does ..).chain (lineMove_does ..)

theorem lineEnabled_does (l : Line) (s : State) : Does [.lines, .lineSets, .notices] s (lineEnabled l s) := by
  unfold lineEnabled
  split <;> first | exact lineDisable_does .. | exact lineEnable_does .. | exact .refl s

theorem doLineConfigSet_does (t l : Nat) (v : RawLineConfig) (s : State) : Does ([.lineConfig, .dirty, .replies] ++ Part.offering) s (doLineConfigSet t l v s) := by
  unfold doLineConfigSet
  split
  · rename_i l c _ _
    have h1 := (setLu_does l { s.lu l with config := c } s).chain (rs := [.lineConfig, .dirty] ++ Part.offering) (dirty_does (rowLine l) _)
    have h2 := h1.chain (rs := [.lineConfig, .dirty] ++ Part.offering) (lineEnabled_does l _)
    exact (h2.chain (rs := [.lineConfig, .dirty] ++ Part.offering) (passIfOffered_does l s _)).chain (ok_does ..)
  · exact (deny_does ..).mono

theorem onLus_does (f : Lus → Lus) (s : State) : Does [.lineSettings] s (s.onLus f) := .plain (by intro p hp; cases p <;> first | exact absurd (by decide) hp | (and_intros <;> rfl))

theorem doAnswerWaitSet_does (t n : Nat) (s : State) : Does [.lineSettings, .dirty, .replies] s (doAnswerWaitSet t n s) :=
  .cond (((onLus_does _ s).chain (rs := [.lineSettings, .dirty]) (dirty_does ..)).chain (ok_does ..)) (deny_does ..).mono

theorem doStationTagSet_does (t : Nat) (x : Str) (s : State) : Does [.lineSettings, .dirty, .replies] s (doStationTagSet t x s) :=
  .cond (((onLus_does _ s).chain (rs := [.lineSettings, .dirty]) (dirty_does ..)).chain (ok_does ..)) (deny_does ..).mono

theorem doExchangeSet_does (t m p : Nat) (s : State) : Does [.lineSettings, .dirty, .replies] s (doExchangeSet t m p s) :=
  .cond (((onLus_does _ s).chain (rs := [.lineSettings, .dirty]) (dirty_does ..)).chain (ok_does ..)) (deny_does ..).mono

theorem ringOn_does (l : Line) (s : State) : Does [.lines, .lineSets, .notices] s (ringOn l s) := by
  unfold ringOn
  split
  · exact (onLu_does ..).chain (lineMove_does ..)
  · exact (onLu_does ..).mono
  · exact .refl s

theorem ringOff_does (l : Line) (s : State) : Does [.lines, .lineSets, .logResvs, .notices] s (ringOff l s) := by
  unfold ringOff
  exact .cond ((onLu_does l ({ · with ringGap := true }) s).mono.trans (.cond (answerDecision_does ..) (.refl _))) (.refl s)

theorem episodeEnd_does (l : Line) (st : LineState) (s : State) : Does [.lines, .lineSets, .notices] s (episodeEnd l st s) :=
  (onLu_does ..).chain (lineMove_does ..)

theorem ringGapExpiry_does (l : Line) (s : State) : Does Part.offering s (ringGapExpiry l s) := by
  unfold ringGapExpiry
  refine .cond ?_ (.refl s)
  exact (Does.cond (ringUnanswered_does ..).mono (.refl s)).trans ((episodeEnd_does l .idle _).chain (passIfOffered_does ..))

theorem voltageLevel_does (l : Line) (v : Bool) (s : State) : Does [.lines, .lineSets] s (voltageLevel l v s) := onLu_does ..

theorem voltageAbsent_does (l : Line) (s : State) : Does Part.callEnding s (voltageAbsent l s) := by
  unfold voltageAbsent
  have h1 := (voltageLevel_does l false s).chain (rs := Part.callEnding)
    (onLu_does l (fun u => if u.state = .disabled then u else { u with faultTimer := true, clearingTimer := false }) _)
  exact h1.trans (.cond (episodeEnd_does ..).mono (.cond (callEnd_does ..) (.refl _)))

theorem voltagePresent_does (l : Line) (s : State) : Does Part.offering s (voltagePresent l s) := by
  unfold voltagePresent
  have h1 := (voltageLevel_does l true s).chain (rs := Part.offering)
    (onLu_does l (fun u => { u with faultTimer := false, clearingTimer := u.state == .fault }) _)
  exact h1.chain (passIfOffered_does ..)

theorem faultExpiry_does (l : Line) (s : State) : Does [.lines, .lineSets, .notices] s (faultExpiry l s) := by
  unfold faultExpiry
  refine .cond (.refl s) (.trans (onLu_does l ({ · with faultTimer := false }) s).mono ?_)
  dsimp only
  split <;> first | exact episodeEnd_does .. | exact .refl _ | exact (onLu_does ..).mono

theorem clearingExpiry_does (l : Line) (s : State) : Does Part.offering s (clearingExpiry l s) := by
  unfold clearingExpiry
  refine .cond ?_ (.refl s)
  exact ((onLu_does l ({ · with clearingTimer := false }) s).chain (rs := Part.offering) (lineMove_does l .idle none _)).chain (passIfOffered_does ..)

theorem guardExpiry_does (l : Line) (s : State) : Does Part.offering s (guardExpiry l s) := by
  unfold guardExpiry
  refine .cond (.refl s) (.cond (lineDisable_does ..).mono (.cond ((onLu_does ..).chain (lineMove_does ..)) ?_))
  exact (lineMove_does ..).chain (passIfOffered_does ..)

theorem meterPulse_does (l : Line) (s : State) : Does Part.callEnding s (meterPulse l s) := by
  unfold meterPulse
  split
  · exact .refl s
  · exact .cond ((onCall_does ..).chain (chgPulse_does ..)) (.refl s)

theorem bindingTaken_does (l : Line) (j p : Nat) (x : Job) (r : Recip) (s : State) : Does Part.callEnding s (bindingTaken l j p x r s) := by
  unfold bindingTaken
  have h1 := (seize_does l j p x r s).chain (rs := Part.callEnding) (onJob_does j (fun x => if x.state = .queued then { x with state := .active } else x) _ fun x => by
      split
      · rename_i h; exact ⟨rfl, by simp only [Job.finished, h]; decide⟩
      · exact ⟨rfl, rfl⟩)
  have h2 := h1.chain (rs := Part.callEnding) (recipSet_does j p ({ · with state := .bound, line := some l, offeredTo := none }) _)
  exact h2.trans (.cond (endRequest_does ..) (.refl _))

theorem bindingRefused_does (l : Line) (j p : Nat) (x : Job) (s : State) : Does Part.passing s (bindingRefused l j p x s) := by
  unfold bindingRefused
  refine .trans ((dropGranted_does l s).chain (recipSet_does j p ({ · with offeredTo := none }) _)) ?_
  exact .cond ((recipSet_does ..).chain (jobSettle_does ..)) (readinessTest_does ..).mono

theorem binding_does (l : Line) (s : State) : Does Part.callEnding s (binding l s) := by
  unfold binding
  split
  · exact .refl s
  · split
    · refine .trans ?_ (pass_does _).mono
      exact .cond (bindingTaken_does ..) (bindingRefused_does ..).mono
    · exact .refl s

theorem dialToneWait_does (l : Line) (s : State) : Does Part.callEnding s (dialToneWait l s) :=
  .cond (.cond (callEnd_does ..) (onCall_does ..).mono) (.refl s)

theorem retryPauseEnd_does (l : Line) (s : State) : Does [.lines, .lineSets] s (retryPauseEnd l s) := .cond (onCall_does ..) (.refl s)

theorem dialNext_does (l : Line) (s : State) : Does [.lines, .lineSets, .notices] s (dialNext l s) := by
  unfold dialNext
  exact (onCall_does l (fun c => { c with dialLeft := c.dialLeft.tail }) s).mono.trans (.cond ((onCall_does ..).chain (lineMove_does ..)) (.refl _))

theorem dialTone_does (l : Line) (s : State) : Does [.lines, .lineSets, .notices] s (dialTone l s) :=
  .cond ((onCall_does ..).chain (lineMove_does ..)) (.cond (dialNext_does ..) (.refl s))

theorem dialCharacterDone_does (l : Line) (s : State) : Does [.lines, .lineSets, .notices] s (dialCharacterDone l s) := .cond (dialNext_does ..) (.refl s)
theorem wWaitTimeout_does (l : Line) (s : State) : Does Part.callEnding s (wWaitTimeout l s) := .cond (callEnd_does ..) (.refl s)
theorem busyHeard_does (l : Line) (s : State) : Does Part.callEnding s (busyHeard l s) := .cond (callEnd_does ..) (.refl s)
theorem ringbackHeard_does (l : Line) (s : State) : Does [.lines, .lineSets] s (ringbackHeard l s) := .cond (onCall_does ..) (.refl s)
theorem silenceHeard_does (l : Line) (s : State) : Does Part.callEnding s (silenceHeard l s) := .cond (callEnd_does ..) (.refl s)
theorem answerWaitExpiry_does (l : Line) (s : State) : Does Part.callEnding s (answerWaitExpiry l s) := .cond (callEnd_does ..) (.refl s)

theorem answered_does (l : Line) (s : State) : Does Part.callEnding s (answered l s) := by
  unfold answered
  split
  · exact .refl s
  · rename_i c _
    have h1 := (onCall_does l (fun c => { c with answer := some s.now, capsWait := true }) s).chain (rs := Part.callEnding) (lineMove_does l .handshake none _)
    refine h1.trans (.trans (t := answerReport c (lineMove l .handshake none (s.onCall l fun c => { c with answer := some s.now, capsWait := true }))) ?_ (chgAnswered_does ..))
    unfold answerReport
    split
    · exact (dscAnswered_does ..).mono
    · exact .refl _

theorem answerTone_does (l : Line) (s : State) : Does Part.callEnding s (answerTone l s) := .cond (answered_does ..) (.refl s)
theorem callingTone_does (l : Line) (s : State) : Does Part.glaring s (callingTone l s) := .cond (glare_does ..) (.refl s)

/-! ## The strip exchange -/

theorem ctlEnd_does (l : Line) (k : CtlFrame → State → State) (s : State) (h : ∀ f s, Does Part.anyCall s (k f s)) : Does Part.anyCall s (s.ctlEnd l k) := by
  unfold State.ctlEnd
  split
  · exact (onCall_does l ({ · with signal := none }) s).mono.trans (h _ _)
  · exact .refl s

theorem answerToneEnd_does (l : Line) (s : State) : Does [.lines, .lineSets] s (answerToneEnd l s) := by
  unfold answerToneEnd
  split
  · exact (onCall_does ..).trans (sendFrame_does ..)
  · exact .refl s

theorem burstStart_does (l : Line) (s : State) : Does [.lines, .lineSets] s (burstStart l s) := onCall_does ..

theorem replyWaitStart_does (l : Line) (s : State) : Does [.lines, .lineSets, .notices] s (replyWaitStart l s) := by
  unfold replyWaitStart
  exact (onCall_does l ({ · with waitOn := true }) s).mono.trans (.cond (lineMove_does ..) (.refl _))

theorem frameSent_does (l : Line) (f : CtlFrame) (s : State) : Does Part.callEnding s (frameSent l f s) := by
  unfold frameSent
  refine .cond (hangUp_does ..) ?_
  split
  · exact (carryOut_does ..).mono
  · split
    · exact (burstStart_does ..).mono
    · exact (replyWaitStart_does ..).mono

theorem controlFrameSent_does (l : Line) (s : State) : Does Part.anyCall s (s.ctlEnd l (frameSent l)) :=
  ctlEnd_does l _ s fun f s => (frameSent_does l f s).mono

theorem burstSent_does (l : Line) (s : State) : Does Part.exchanging s (burstSent l s) := by
  unfold burstSent
  split
  · refine .trans (onCall_does l ({ · with signal := none }) s).mono ?_
    dsimp only
    split
    · exact carryOut_does ..
    · exact (onCall_does ..).mono
  · exact .refl s

theorem stripSent_does (l : Line) (s : State) : Does Part.exchanging s (stripSent l s) := by
  unfold stripSent
  split
  · exact .refl s
  · rename_i c _
    have h1 := (arbWithdraw_does (.lu l) s).chain (rs := Part.exchanging) (onCall_does l ({ · with signal := none, reading := none }) _)
    split
    · dsimp only
      split
      · exact h1.trans (carryOut_does ..)
      · exact h1.trans (nextStrip_does ..).mono
    · dsimp only
      split
      · exact h1.trans (carryOut_does ..)
      · exact h1.trans (nextStrip_does ..).mono
    · exact .refl s

theorem replyWait_does (l : Line) (s : State) : Does Part.exchanging s (replyWait l s) := by
  unfold replyWait
  split
  · exact .refl s
  · refine .cond (.refl s) ?_
    split
    · exact carryOut_does ..
    · exact .cond (clearWith_does ..) (resendFrame_does ..).mono

theorem capsWaitExpiry_does (l : Line) (s : State) : Does Part.exchanging s (capsWaitExpiry l s) := .cond (clearWith_does ..) (.refl s)

theorem firstCaps_does (l : Line) (x : Str) (m r w : Nat) (c : Call) (s : State) : Does (.logResvs :: Part.exchanging) s (firstCaps l x m r w c s) := by
  unfold firstCaps
  refine .trans ((onCall_does l ({ · with remoteTag := some (keptTag x), accepts := (r, w), capsWait := false }) s).chain (chgTag_does l (keptTag x) _)) ?_
  dsimp only
  split
  · exact (carryOut_does ..).mono
  · exact .cond (sendPlan_does ..).mono (clearWith_does ..).mono

theorem caps_does (l : Line) (x : Str) (m r w : Nat) (s : State) : Does (.logResvs :: Part.exchanging) s (caps l x m r w s) := by
  unfold caps
  split
  · exact .refl s
  · exact .cond (firstCaps_does ..) (.cond (resendFrame_does ..).mono (.refl s))

theorem enterTransfer_does (l : Line) (s : State) : Does [.lines, .lineSets, .notices] s (enterTransfer l s) := .cond (lineMove_does ..) (.refl s)

theorem checkOk_does (l : Line) (c : Call) (s : State) : Does Part.exchanging s (checkOk l c s) := by
  unfold checkOk
  refine .trans ((onCall_does l ({ · with agreedStep := c.planStep, waitOn := false }) s).chain (enterTransfer_does l _)) ?_
  dsimp only
  split
  · exact (resendRound_does ..).mono
  · exact boundary_does ..

theorem checkFail_does (l : Line) (c : Call) (s : State) : Does Part.exchanging s (checkFail l c s) := by
  unfold checkFail
  dsimp only
  split
  · exact carryOut_does ..
  · exact .cond (sendPlan_does ..).mono (clearWith_does ..)

theorem checkResult_does (l : Line) (b : Bool) (s : State) : Does Part.exchanging s (checkResult l b s) := by
  unfold checkResult
  split
  · exact .refl s
  · exact .cond (.cond (checkOk_does ..) (checkFail_does ..)) (.refl s)

theorem stripReported_does (l : Line) (xs : List Nat) (c : Call) (s : State) : Does Part.exchanging s (stripReported l xs c s) := by
  unfold stripReported
  exact .cond ((onCall_does ..).chain (sendPlan_does ..)) (resendRound_does ..).mono

theorem stripReport_does (l : Line) (xs : List Nat) (s : State) : Does Part.exchanging s (stripReport l xs s) := by
  unfold stripReport
  split
  · exact .refl s
  · split
    · exact .cond (stripReported_does ..) (.refl s)
    · exact .cond (stripReported_does ..) (.refl s)
    · exact .refl s

theorem afterPage_does (l : Line) (c : Call) (h : Bool) (s : State) : Does Part.exchanging s (afterPage l c h s) := by
  unfold afterPage
  split
  · exact carryOut_does ..
  · exact .cond (clearWith_does ..) ((onCall_does ..).chain (boundary_does ..))

theorem pageTaken_does (l : Line) (d : Nat) (h : Bool) (s : State) : Does Part.exchanging s (pageTaken l d h s) := by
  unfold pageTaken
  split
  · exact .refl s
  · split
    · exact (Does.cond (onCall_does ..).mono (.refl s)).trans (clearWith_does ..)
    · exact .cond ((onCall_does ..).chain (afterPage_does ..)) (.refl s)
    · exact .refl s

theorem waiting_does (l : Line) (s : State) : Does Part.exchanging s (waiting l s) := by
  unfold waiting
  split
  · exact .refl s
  · rename_i c _
    split
    · refine .trans (onCall_does l ({ · with waits := c.waits + 1, waitOn := false, waitInterval := true }) s).mono ?_
      dsimp only
      split
      · exact carryOut_does ..
      · exact .cond (boundary_does ..) (.refl _)
    · exact .refl s

theorem refused_does (l : Line) (s : State) : Does Part.callEnding s (refused l s) := by
  unfold refused
  split
  · exact .refl s
  · exact ((onCall_does ..).chain (rs := Part.callEnding) (lineMove_does ..)).trans (hangUp_does ..)

theorem cleared_does (l : Line) (s : State) : Does Part.callEnding s (cleared l s) := by
  unfold cleared
  split
  · exact .refl s
  · exact .cond (((onCall_does ..).chain (rs := Part.callEnding) (lineMove_does ..)).trans (hangUp_does ..)) (.refl s)

theorem stripCut_does (l : Line) (c : Call) (s : State) : Does ([.lines, .lineSets, .reservations, .arbiter] ++ Part.returning) s (stripCut l c s) := by
  unfold stripCut
  split
  · exact (onCall_does ..).chain (stripDiscard_does ..)
  · exact (onCall_does ..).mono

theorem createReceived_does (l : Line) (x : Str) (d : Disposition) (s : State) :
    Does [.docs, .lines, .lineSets, .receptions, .notices] s (createReceived l x d s) := by
  unfold createReceived
  split
  · exact (onCall_does ..).mono
  · rename_i h
    exact ((docMake_does h).chain (rs := [.docs, .lines, .lineSets, .receptions, .notices]) (onCall_does ..)).chain (routeRecord_does ..)

theorem firstPlan_does (l : Line) (x : Str) (st : Nat) (b : Bool) (p : Nat) (c : Call) (s : State) : Does Part.planning s (firstPlan l x st b p c s) := by
  unfold firstPlan
  refine .trans ((onCall_does l ({ · with planned := true, waitOn := false, remoteTag := some (keptTag x), planStep := some st }) s).chain (chgTag_does l (keptTag x) _)) ?_
  refine .cond (onCall_does ..).mono ?_
  refine .trans ((onCall_does l ({ · with firstPage := some p, current := some p }) _).chain (routeMatch_does (keptTag x) l _)) ?_
  exact .cond (onCall_does ..).mono (createReceived_does ..).mono

theorem laterPlan_does (l : Line) (n : Nat) (c : Call) (s : State) : Does [.lines, .lineSets] s (laterPlan l n c s) := onCall_does ..

theorem plan_does (l : Line) (x : Str) (st : Nat) (b : Bool) (p : Nat) (s : State) : Does Part.planning s (plan l x st b p s) := by
  unfold plan
  split
  · exact .refl s
  · exact .cond ((stripCut_does ..).chain (firstPlan_does ..)) (.cond ((stripCut_does ..).chain (laterPlan_does ..)) (.refl s))

theorem measured_does (l : Line) (n : Nat) (bs : List Byte) (c : Call) (s : State) : Does Part.exchanging s (measured l n bs c s) := by
  unfold measured
  refine .cond ?_ ((onCall_does ..).chain (sendFrame_does ..))
  exact ((onCall_does l ({ · with burstReply := none, agreedStep := c.planStep }) s).chain (rs := Part.exchanging) (enterTransfer_does l _)).chain (sendFrame_does ..)

theorem rateCheckBurst_does (l : Line) (bs : List Byte) (s : State) : Does Part.exchanging s (rateCheckBurst l bs s) := by
  unfold rateCheckBurst
  split
  · exact .refl s
  · refine .cond (.refl s) ?_
    split
    · exact .refl s
    · exact measured_does ..
    · exact enterClearing_does ..
    · exact clearWith_does ..

theorem receivePage_does {d : Nat} {f : Resolution × Width} {s t : State} {p : Page} (h : receivePage d f s = some (p, t)) : Does [.docs] s t := by
  unfold receivePage at h
  split at h
  · simp only [Option.some.injEq, Prod.mk.injEq] at h
    rw [← h.2]; exact .refl s
  · split at h
    · rename_i hb
      obtain ⟨q, -, hq⟩ := Option.map_eq_some_iff.1 h
      simp only [Prod.mk.injEq] at hq
      rw [← hq.2]; exact pageBegin_does hb
    · simp at h

theorem copyDropped_does (l : Line) (d n k : Nat) (s : State) : Does [.docs, .lines, .lineSets] s (copyDropped l d n k s) :=
  (stripRecount_does ..).chain (onCall_does ..)

theorem stripIn_does (l : Line) (d n k : Nat) (f : Resolution × Width) (s : State) : Does [.mem, .docs, .freePool, .reservations, .lines, .lineSets] s (stripIn l d n k f s).2 := by
  unfold stripIn
  split
  · exact (copyDropped_does ..).mono
  · rename_i h
    have h1 := (receivePage_does h).mono (qs := [.mem, .docs, .freePool, .reservations, .lines, .lineSets])
    split
    · exact h1.trans (copyDropped_does ..).mono
    · split
      · exact h1
      · split
        · rename_i h2
          exact h1.trans (stripOpen_does h2).mono
        · exact h1.trans (stripMissed_does ..).mono

theorem headerJudge_does (l : Line) (p n k f c : Nat) (r : Call) (s : State) :
    Does [.mem, .docs, .freePool, .reservations, .lines, .lineSets] s (headerJudge l p n k f c r s) := by
  unfold headerJudge
  refine .trans (onCall_does l (fun c => { c with waitOn := false, stripAfterFrame := true, stripSince := c.stripSince || p == c.expected }) s).mono ?_
  dsimp only
  split
  · refine .chain (ps := [.mem, .docs, .freePool, .reservations, .lines, .lineSets]) ?_ (onCall_does ..)
    split
    · exact stripIn_does ..
    · exact .refl _
  · refine .chain (ps := [.docs, .lines, .lineSets]) ?_ (onCall_does ..)
    split
    · exact .cond (copyDropped_does ..) (.refl _)
    · exact .refl _

theorem headerTaken_does (l : Line) (p n k f c : Nat) (s : State) :
    Does [.mem, .docs, .freePool, .reservations, .lines, .lineSets] s (headerTaken l p n k f c s) := by
  unfold headerTaken
  split
  · exact .refl s
  · exact headerJudge_does ..

/-- What a caller sends passes the answerer's check. -/
theorem stripCheck_sent (header coded : List Byte) : stripCheck header (coded ++ crcBytes (crc16 (header ++ coded))) coded.length = true := by
  simp [stripCheck, crcBytes, e16]

theorem stripStored_does (l : Line) (h : List Byte) (n : Nat) (bs : List Byte) (s : State) : Does Part.stripEnd s (stripStored l h n bs s) :=
  (stripAppend_does ..).chain (stripClose_does ..)

theorem stripTaken_does (l : Line) (r : Reception) (s : State) : Does Part.strip s (stripTaken l r s) := by
  unfold stripTaken
  split
  · exact (stripStored_does ..).mono
  · exact .refl s

theorem stripOver_does (l : Line) (r : Reception) (c : Call) (s : State) : Does Part.strip s (stripOver l r c s) :=
  .trans ((stripTaken_does l r s).chain (onCall_does l ({ · with reception := none, waits := 0, waitOn := true }) _))
    (.cond (.refl _) (clearWith_does ..).mono)

theorem stripHeaderIn_does (l : Line) (p n k f c : Nat) (s : State) : Does (.freePool :: Part.strip) s (stripHeaderIn l p n k f c s) := by
  unfold stripHeaderIn
  split
  · exact .refl s
  · split
    · exact .refl s
    · exact (stripOver_does ..).chain (headerTaken_does ..)
    · exact (headerJudge_does ..).mono

theorem dataStrip_does (l : Line) (bs : List Byte) (s : State) : Does Part.strip s (dataStrip l bs s) := by
  unfold dataStrip
  split
  · exact .refl s
  · split
    · exact .refl s
    · exact .cond (stripOver_does ..) (onCall_does ..).mono

theorem pageStore_does (l : Line) (d p n : Nat) (b x : Bool) (s : State) : Does Part.receiving s (pageStore l d p n b x s) := by
  unfold pageStore
  generalize ((s.call l).map (·.copyLines)).getD [] = cs
  have h1 : Does Part.receiving s (if x then damageDecision d n cs s else s) := .cond (damageDecision_does ..).mono (.refl s)
  generalize (if x then damageDecision d n cs s else s) = t at h1
  have h2 := h1.chain (rs := Part.receiving) (pageFinish_does (.lu l) d t)
  have h3 := h2.chain (rs := Part.receiving) (routePageStored_does l d ((pageFinish (.lu l) d t).completeCount d) _)
  exact h3.trans ((onCall_does ..).chain (sendFrame_does ..))

theorem pageJudge_does (l : Line) (d p n : Nat) (b : Bool) (c : Call) (s : State) : Does Part.receiving s (pageJudge l d p n b c s) := by
  unfold pageJudge
  refine .trans (onCall_does l ({ · with round := if c.reported then min Config.maxRounds (c.round + 1) else c.round }) s).mono ?_
  exact .cond (pageStore_does ..) (.cond (clearWith_does ..).mono ((onCall_does ..).chain (sendFrame_does ..)))

theorem pageEndExpected_does (l : Line) (p n : Nat) (b : Bool) (c : Call) (s : State) : Does Part.receiving s (pageEndExpected l p n b c s) := by
  unfold pageEndExpected
  exact .cond ((onCall_does ..).chain (sendFrame_does ..)) (.cond (clearWith_does ..).mono (.cond (enterClearing_does ..).mono (pageJudge_does ..)))

theorem pageEnd_does (l : Line) (b : Bool) (p n : Nat) (s : State) : Does Part.receiving s (pageEnd l b p n s) := by
  unfold pageEnd
  split
  · exact .refl s
  · rename_i c _
    refine .trans ((stripCut_does l c s).chain (onCall_does l ({ · with waits := 0 }) _)) ?_
    exact .cond (sendFrame_does ..).mono (.cond (pageEndExpected_does ..) (.cond (clearWith_does ..).mono (enterClearing_does ..).mono))

theorem pageEndWait_does (l : Line) (s : State) : Does Part.receiving s (pageEndWait l s) := by
  unfold pageEndWait
  split
  · exact .refl s
  · rename_i c _
    refine .trans ((stripCut_does l c s).chain (onCall_does l ({ · with waits := c.waits + 1 }) _)) ?_
    exact .cond (clearWith_does ..).mono (.cond (clearWith_does ..).mono (sendFrame_does ..).mono)

/-! ## Send jobs -/

theorem doSend_does (t d a k : Nat) (e : Option CalTime) (x y : Bool) (att int : Option Nat) (ds : List Str) (s : State) :
    Does ([.scanJob, .replies] ++ Part.passing) s (doSend t d a k e x y att int ds s) := by
  unfold doSend
  split
  · rename_i h
    exact (jobCreate_does h).chain (ok_does ..)
  · exact (deny_does ..).mono

theorem setDial_does (g a i : Nat) (s : State) : Does [.dialSettings] s (s.onDsc ({ · with guard := g, attempts := a, interval := i })) := .plain (by intro p hp; cases p <;> first | exact absurd (by decide) hp | (and_intros <;> rfl))

theorem doDialSet_does (t g a i : Nat) (s : State) : Does [.dialSettings, .dirty, .replies] s (doDialSet t g a i s) :=
  .cond (((setDial_does g a i s).chain (rs := [.dialSettings, .dirty]) (dirty_does ..)).chain (ok_does ..)) (deny_does ..).mono

theorem doJobCancel_does (t j m : Nat) (s : State) : Does (.replies :: Part.callEnding) s (doJobCancel t j m s) := by
  unfold doJobCancel
  split
  · exact (deny_does ..).mono
  · exact .cond (deny_does ..).mono (.cond (deny_does ..).mono ((jobCancel_does ..).chain (ok_does ..)))

theorem embargoExpiry_does (j : Nat) (s : State) : Does Part.passing s (embargoExpiry j s) := by
  unfold embargoExpiry
  split
  · exact .refl s
  · exact .cond (.refl s) ((readinessJob_does ..).chain (passIfNew_does ..))

theorem retryEnd_does (j p : Nat) (s : State) : Does Part.settling s (retryEnd j p s) := by
  unfold retryEnd
  split
  · exact .refl s
  · exact .cond ((recipSet_does ..).chain (readinessTest_does ..)) (.refl s)

theorem retryExpiry_does (j p : Nat) (s : State) : Does Part.passing s (passIfNew s (retryEnd j p s)) := (retryEnd_does ..).chain (passIfNew_does ..)

theorem retryAdjust_does (j p : Nat) (s : State) : Does Part.settling s (retryAdjust j p s) := by
  unfold retryAdjust
  split
  · split
    · exact .refl s
    · exact .cond (retryEnd_does ..) (recipSet_does ..).mono
  · exact .refl s

theorem clockJob_does (j : Nat) (s : State) : Does Part.settling s (clockJob j s) :=
  (Does.cond (readinessJob_does ..) (.refl s)).trans (.each (retryAdjust_does j) _ _)

theorem clockReport_does (s : State) : Does Part.passing s (clockReport s) := (Does.each clockJob_does _ s).chain (pass_does _)

/-! ## Routes, charging -/

theorem setRoutes_does (t : Tbl Route) (s : State) : Does [.routes] s (s.onRrt ({ · with routes := t })) := .plain (by intro p hp; cases p <;> first | exact absurd (by decide) hp | (and_intros <;> rfl))

theorem dirtyRoute_does (i : Nat) (s : State) : Does [.dirty] s (s.dirtyRoute i) := (dirty_does ..).trans (dirty_does ..)

theorem doRouteSet_does (t i : Nat) (v : RawRoute) (s : State) : Does [.routes, .dirty, .replies] s (doRouteSet t i v s) := by
  unfold doRouteSet
  split
  · exact .cond (((setRoutes_does _ s).chain (rs := [.routes, .dirty]) (dirtyRoute_does i _)).chain (ok_does ..)) (deny_does ..).mono
  · exact (deny_does ..).mono

theorem doRouteClear_does (t i : Nat) (s : State) : Does [.routes, .dirty, .replies] s (doRouteClear t i s) :=
  .cond (((setRoutes_does _ s).chain (rs := [.routes, .dirty]) (dirtyRoute_does i _)).chain (ok_does ..)) (deny_does ..).mono

theorem setDefault_does (a : Action) (b : Bin) (s : State) : Does [.routes] s (s.onRrt ({ · with dflt := a, dfltCount := 0, fallbackBin := b })) := .plain (by intro p hp; cases p <;> first | exact absurd (by decide) hp | (and_intros <;> rfl))

theorem doRouteDefaultSet_does (t : Nat) (a : RawAction) (b : Nat) (s : State) : Does [.routes, .dirty, .replies] s (doRouteDefaultSet t a b s) := by
  unfold doRouteDefaultSet
  split
  · exact ((setDefault_does _ _ s).chain (rs := [.routes, .dirty]) (dirty_does ..)).chain (ok_does ..)
  · exact (deny_does ..).mono

theorem setTariffs_does (t : Tbl Tariff) (s : State) : Does [.tariffs] s (s.onChg ({ · with tariffs := t })) := .plain (by intro p hp; cases p <;> first | exact absurd (by decide) hp | (and_intros <;> rfl))
theorem setBands_does (t : List Band) (s : State) : Does [.bands] s (s.onChg ({ · with bands := t })) := .plain (by intro p hp; cases p <;> first | exact absurd (by decide) hp | (and_intros <;> rfl))
theorem setCalendar_does (c : Calendar) (s : State) : Does [.calendar] s (s.onChg ({ · with calendar := c })) := .plain (by intro p hp; cases p <;> first | exact absurd (by decide) hp | (and_intros <;> rfl))

theorem doTariffSet_does (t i : Nat) (d : Str) (b : Nat) (s : State) : Does ([.tariffs, .dirty, .replies] ++ Part.passing) s (doTariffSet t i d b s) := by
  unfold doTariffSet
  split
  · exact .cond ((((setTariffs_does _ s).chain (rs := [.tariffs, .dirty]) (dirty_does ..)).chain (rs := [.tariffs, .dirty] ++ Part.passing) (pass_does _)).chain (ok_does ..)) (deny_does ..).mono
  · exact (deny_does ..).mono

theorem doTariffClear_does (t i : Nat) (s : State) : Does ([.tariffs, .dirty, .replies] ++ Part.passing) s (doTariffClear t i s) :=
  .cond ((((setTariffs_does _ s).chain (rs := [.tariffs, .dirty]) (dirty_does ..)).chain (rs := [.tariffs, .dirty] ++ Part.passing) (pass_does _)).chain (ok_does ..)) (deny_does ..).mono

theorem doBandSet_does (t b : Nat) (v : Band) (s : State) : Does ([.bands, .dirty, .replies] ++ Part.passing) s (doBandSet t b v s) :=
  .cond ((((setBands_does _ s).chain (rs := [.bands, .dirty]) (dirty_does ..)).chain (rs := [.bands, .dirty] ++ Part.passing) (pass_does _)).chain (ok_does ..)) (deny_does ..).mono

theorem doCalendarSet_does (t a b m : Nat) (s : State) : Does ([.calendar, .dirty, .replies] ++ Part.passing) s (doCalendarSet t a b m s) :=
  .cond ((((setCalendar_does _ s).chain (rs := [.calendar, .dirty]) (dirty_does ..)).chain (rs := [.calendar, .dirty] ++ Part.passing) (pass_does _)).chain (ok_does ..)) (deny_does ..).mono

theorem doRateQuery_does (t : Nat) (d : Str) (s : State) : Does [.replies] s (doRateQuery t d s) := .cond (ok_does ..) (deny_does ..)

theorem doAccountSet_does (t a l p : Nat) (f u : Bool) (s : State) : Does ([.accounts, .dirty, .replies] ++ Part.passing) s (doAccountSet t a l p f u s) := by
  unfold doAccountSet
  split
  · rename_i p _
    refine .ite (fun hl => ?_) (fun _ => (deny_does ..).mono)
    have h1 : Does [.accounts] s (s.onAccount a (·.setup l p f u)) :=
      onAccount_does _ _ _ fun _ k => ⟨k.1, hl.2, k.2.2⟩
    exact (((h1.chain (rs := [.accounts, .dirty]) (dirty_does (rowAccount a) _)).chain (rs := [.accounts, .dirty] ++ Part.passing) (pass_does _)).chain (ok_does ..))
  · exact (deny_does ..).mono

theorem periodClose_does (a : Nat) (s : State) : Does [.accounts, .store, .dirty] s (periodClose a s) :=
  (onAccount_does a ({ · with spent := 0, calls := 0, pages := 0, limitLowered := false, overrun := false }) s fun _ k =>
    ⟨Nat.zero_le _, k.2.1, Nat.zero_le _, Nat.zero_le _⟩).chain (accountRow_does ..)

theorem doAccountClosePeriod_does (t a : Nat) (f : Option Nat) (s : State) :
    Does ([.accounts, .store, .dirty, .replies] ++ Part.passing) s (doAccountClosePeriod t a f s) := by
  unfold doAccountClosePeriod
  split
  · exact (deny_does ..).mono
  · refine .cond (deny_does ..).mono ?_
    exact ((Does.each periodClose_does _ s).chain (rs := [.accounts, .store, .dirty] ++ Part.passing) (pass_does _)).chain (ok_does ..)

theorem doLogStatus_does (t l : Nat) (s : State) : Does [.replies] s (doLogStatus t l s) := by
  unfold doLogStatus
  split
  · exact deny_does ..
  · exact ok_does ..

theorem recordsDropped_does (n : Nat) (s : State) : Does [.log] s (s.onChg fun g => { g with records := g.records.drop n }) := by
  refine Acts.does ⟨(by intro p hp; cases p <;> first | exact absurd (by decide) hp | (and_intros <;> rfl)), id, fun k => ?_, id, id, fun k => ⟨k.1, k.2.1, k.2.2.1, k.2.2.2.1, ?_⟩⟩
  · simp only [LogLaw, State.onChg_chg, List.length_drop] at *; omega
  · exact fun r hr => k.2.2.2.2 r (List.mem_of_mem_drop hr)

theorem doLogDrop_does (t n : Nat) (e : Option Nat) (s : State) : Does ([.log, .replies] ++ Part.passing) s (doLogDrop t n e s) := by
  unfold doLogDrop
  refine .cond (deny_does ..).mono (.cond (deny_does ..).mono ?_)
  have h1 := recordsDropped_does (min n s.chg.records.length) s
  exact (h1.mono.trans (.cond (.refl _) (pass_does _).mono)).trans (ok_does ..).mono

/-! ## The clock and the settings store -/

theorem setClock_does (t : CalTime) (v : Bool) (s : State) : Does [.clock] s (s.setClock t v) := .plain (by intro p hp; cases p <;> first | exact absurd (by decide) hp | (and_intros <;> rfl))

theorem doClockSet_does (t : Nat) (v : Option CalTime) (s : State) : Does ([.clock, .replies] ++ Part.passing) s (doClockSet t v s) := by
  unfold doClockSet
  split
  · exact ((setClock_does ..).chain (rs := .clock :: Part.passing) (clockReport_does _)).chain (ok_does ..)
  · exact .cond (((setClock_does ..).chain (rs := .clock :: Part.passing) (clockReport_does _)).chain (ok_does ..)) (deny_does ..).mono

theorem clockTick_does (s : State) : Does [.clock, .elapsed] s (clockTick s) := .plain (by intro p hp; cases p <;> first | exact absurd (by decide) hp | (and_intros <;> rfl))

theorem secondTick_does (s : State) : Does ([.clock, .elapsed] ++ Part.passing) s (secondTick s) :=
  (clockTick_does s).mono.trans (.cond (clockReport_does _).mono (.refl _))

theorem saveQueued_does (s : State) : Does [.store] s (s.onSsc fun c => { c with queue := c.queue ++ [.save], status := .run }) := .plain (by intro p hp; cases p <;> first | exact absurd (by decide) hp | (and_intros <;> rfl))

theorem doStoreSave_does (t : Nat) (s : State) : Does [.store, .replies] s (doStoreSave t s) :=
  .cond (deny_does ..).mono (.cond (deny_does ..).mono ((saveQueued_does s).chain (ok_does ..)))

/-! ## The link -/

theorem doUnknownKind_does (t k : Nat) (s : State) : Does [.replies] s (doUnknownKind t k s) := answer_does ..

theorem readFlags_does (s : State) : Does [.flags, .notices] s (s.onHlc ({ · with flags := LinkFlags.none, lost := false })) := by
  refine Acts.does ⟨(by intro p hp; cases p <;> first | exact absurd (by decide) hp | (and_intros <;> rfl)), id, id, id, id, id⟩

theorem doStatus_does (t : Nat) (s : State) : Does [.flags, .notices, .replies] s (doStatus t s) := (readFlags_does s).chain (ok_does ..)

theorem setMask_does (m : Nat) (s : State) : Does [.mask] s (s.onHlc ({ · with mask := m })) := .plain (by intro p hp; cases p <;> first | exact absurd (by decide) hp | (and_intros <;> rfl))

theorem doNoticeMaskSet_does (t m : Nat) (s : State) : Does [.mask, .dirty, .replies] s (doNoticeMaskSet t m s) :=
  .cond (((setMask_does m s).chain (rs := [.mask, .dirty]) (dirty_does ..)).chain (ok_does ..)) (deny_does ..).mono

theorem presenceStart_does (s : State) : Does [.presence] s s.presenceStart := .plain (by intro p hp; cases p <;> first | exact absurd (by decide) hp | (and_intros <;> rfl))
theorem setPeriod_does (p : Nat) (s : State) : Does [.period] s (s.onHlc ({ · with period := p })) := .plain (by intro p hp; cases p <;> first | exact absurd (by decide) hp | (and_intros <;> rfl))

theorem doPresenceSet_does (t p : Nat) (s : State) : Does [.period, .presence, .dirty, .replies] s (doPresenceSet t p s) :=
  .cond ((((setPeriod_does p s).chain (rs := [.period, .presence]) (presenceStart_does _)).chain (rs := [.period, .presence, .dirty]) (dirty_does ..)).chain (ok_does ..)) (deny_does ..).mono

theorem setRestarting_does (s : State) : Does [.restarting] s (s.onHlc ({ · with restarting := true })) := .plain (by intro p hp; cases p <;> first | exact absurd (by decide) hp | (and_intros <;> rfl))

theorem doRestart_does (t : Nat) (s : State) : Does [.restarting, .replies] s (doRestart t s) := (ok_does ..).chain (setRestarting_does _)

theorem doDocInfo_does (t d : Nat) (f : Option Nat) (s : State) : Does [.replies] s (doDocInfo t d f s) := listQuery_does ..
theorem doDocList_does (t : Nat) (f : Option Nat) (s : State) : Does [.replies] s (doDocList t f s) := listQuery_does ..
theorem doLineStatus_does (t l : Nat) (f : Option Nat) (s : State) : Does [.replies] s (doLineStatus t l f s) := listQuery_does ..
theorem doJobStatus_does (t j : Nat) (f : Option Nat) (s : State) : Does [.replies] s (doJobStatus t j f s) := listQuery_does ..
theorem doJobList_does (t : Nat) (f : Option Nat) (s : State) : Does [.replies] s (doJobList t f s) := listQuery_does ..
theorem doTariffRead_does (t : Nat) (f : Option Nat) (s : State) : Does [.replies] s (doTariffRead t f s) := listQuery_does ..
theorem doAccountRead_does (t a : Nat) (f : Option Nat) (s : State) : Does [.replies] s (doAccountRead t a f s) := listQuery_does ..
theorem doLogRead_does (t n : Nat) (f : Option Nat) (s : State) : Does [.replies] s (doLogRead t n f s) := listQuery_does ..
theorem doStoreStatus_does (t : Nat) (f : Option Nat) (s : State) : Does [.replies] s (doStoreStatus t f s) := listQuery_does ..
theorem doPrintStatus_does (t : Nat) (e f : Option Nat) (s : State) : Does [.replies] s (doPrintStatus t e f s) := listQuery_does ..
theorem doRouteRead_does (t : Nat) (e f : Option Nat) (s : State) : Does [.replies] s (doRouteRead t e f s) := listQuery_does ..
theorem doClockRead_does (t : Nat) (s : State) : Does [.replies] s (doClockRead t s) := ok_does ..

theorem runRequest_does (i : Instr) (s : State) : Does Part.asking s (runRequest i s) := by
  cases i <;> first
    | exact .refl s
    | exact (doMemFloorsSet_does ..).mono | exact (doDocCreate_does ..).mono | exact (doPageBegin_does ..).mono | exact (doStripData_does ..).mono
    | exact (doPageClose_does ..).mono | exact (doDocClose_does ..).mono | exact (doDocRetain_does ..).mono | exact (doDocDelete_does ..).mono
    | exact (doDocInfo_does ..).mono | exact (doDocList_does ..).mono | exact (doLineStatus_does ..).mono | exact (doJobStatus_does ..).mono | exact (doJobList_does ..).mono | exact (doTariffRead_does ..).mono | exact (doAccountRead_does ..).mono | exact (doLogRead_does ..).mono | exact (doStoreStatus_does ..).mono | exact (doPrintStatus_does ..).mono | exact (doRouteRead_does ..).mono | exact (doClockRead_does ..).mono
    | exact (doCursorOpen_does ..).mono | exact (doCursorClose_does ..).mono | exact (doStripRead_does ..).mono
    | exact (doScan_does ..).mono | exact (doScanStop_does ..).mono | exact (doScanSettingsSet_does ..).mono | exact (doScanPresetSet_does ..).mono
    | exact (doScanPresetClear_does ..).mono | exact (doScanStatus_does ..).mono | exact (doPrint_does ..).mono | exact (doPrintCancel_does ..).mono
    | exact (doPrintResume_does ..).mono | exact (doPrintRearm_does ..).mono | exact (doPrintThermalSet_does ..).mono
    | exact (doLineConfigSet_does ..).mono | exact (doAnswerWaitSet_does ..).mono | exact (doStationTagSet_does ..).mono
    | exact (doExchangeSet_does ..).mono | exact (doSend_does ..).mono | exact (doDialSet_does ..).mono | exact (doJobCancel_does ..).mono
    | exact (doRouteSet_does ..).mono | exact (doRouteClear_does ..).mono | exact (doRouteDefaultSet_does ..).mono | exact (doTariffSet_does ..).mono
    | exact (doTariffClear_does ..).mono | exact (doBandSet_does ..).mono | exact (doCalendarSet_does ..).mono | exact (doRateQuery_does ..).mono
    | exact (doAccountSet_does ..).mono | exact (doAccountClosePeriod_does ..).mono | exact (doLogStatus_does ..).mono | exact (doLogDrop_does ..).mono
    | exact (doClockSet_does ..).mono | exact (doStoreSave_does ..).mono | exact (doStatus_does ..).mono
    | exact (doNoticeMaskSet_does ..).mono | exact (doPresenceSet_does ..).mono | exact (doRestart_does ..).mono

theorem dispatch_does (f : Frame) (s : State) : Does Part.asking s (dispatch f s) := by
  unfold dispatch
  split
  · exact (doUnknownKind_does ..).mono
  · exact (deny_does ..).mono
  · exact runRequest_does ..

theorem requestsTail_does (f : Frame) (r : List Frame) (s : State) (h : s.hlc.requests = f :: r) : Does [.requests] s (s.onHlc ({ · with requests := r })) := by
  refine Acts.does ⟨(by intro p hp; cases p <;> first | exact absurd (by decide) hp | (and_intros <;> rfl)), id, id, fun k => ⟨?_, k.2⟩, id, id⟩
  have := k.1
  rw [h] at this
  simp only [State.onHlc_hlc, List.length_cons] at *; omega

theorem pump_does (s : State) : Does (.requests :: Part.asking) s (pump s) := by
  unfold pump
  refine .cond (.refl s) ?_
  split
  · exact .refl s
  · rename_i h
    exact (requestsTail_does _ _ s h).chain (dispatch_does ..)

theorem txDone_does (s : State) : Does [.transmitter] s (s.onHlc ({ · with tx := none })) := .plain (by intro p hp; cases p <;> first | exact absurd (by decide) hp | (and_intros <;> rfl))

theorem transmitComplete_does (s : State) : Does ([.requests, .transmitter] ++ Part.asking) s (transmitComplete s) := by
  unfold transmitComplete
  exact .cond (.refl s) ((txDone_does s).chain (pump_does _))

theorem hostGone_does (ds : List Nat) (s : State) : Does [.hostDoc] s (s.onHlc ({ · with hostDoc := none, hostLost := ds })) := .plain (by intro p hp; cases p <;> first | exact absurd (by decide) hp | (and_intros <;> rfl))

theorem hostAbandon_does (s : State) : Does Part.moding s (hostAbandon s) := by
  unfold hostAbandon
  split
  · exact .refl s
  · exact (hostGone_does _ s).chain (docAbandon_does ..)

theorem setAttended_does (b : Bool) (s : State) : Does [.presence] s (s.onHlc ({ · with attended := b })) := .plain (by intro p hp; cases p <;> first | exact absurd (by decide) hp | (and_intros <;> rfl))
theorem timerStopped_does (s : State) : Does [.presence] s (s.onHlc ({ · with presenceEnd := none })) := .plain (by intro p hp; cases p <;> first | exact absurd (by decide) hp | (and_intros <;> rfl))

theorem modeChange_does (b : Bool) (s : State) : Does Part.moding s (modeChange b s) := by
  unfold modeChange
  refine .trans ((setAttended_does b s).chain (raise_does .presence (e8 0) (e8 (!b).toNat) _)) ?_
  exact .cond (pass_does _).mono ((chgUnattended_does _).chain (hostAbandon_does _))

theorem presenceHeard_does (s : State) : Does Part.moding s (presenceHeard s) :=
  (Does.cond (.refl s) (modeChange_does true s)).trans (presenceStart_does _).mono

theorem presenceExpiry_does (s : State) : Does Part.moding s (presenceExpiry s) :=
  .cond ((timerStopped_does s).chain (modeChange_does false _)) (.refl s)

theorem flag_does (f : LinkFlags → LinkFlags) (s : State) : Does [.flags] s (s.flag f) := .plain (by intro p hp; cases p <;> first | exact absurd (by decide) hp | (and_intros <;> rfl))

theorem requestQueued_does (f : Frame) (s : State) (h : s.hlc.requests.length < Config.requestPlaces) :
    Does [.requests] s (s.onHlc fun h => { h with requests := h.requests ++ [f] }) := by
  refine Acts.does ⟨(by intro p hp; cases p <;> first | exact absurd (by decide) hp | (and_intros <;> rfl)), id, id, fun k => ⟨?_, k.2⟩, id, id⟩
  simp only [State.onHlc_hlc, List.length_append, List.length_singleton]; omega

theorem validFrame_does (f : Frame) (s : State) : Does (.requests :: Part.asking) s (validFrame f s) := by
  unfold validFrame
  refine .trans (presenceHeard_does s).mono ?_
  dsimp only
  split
  · rename_i h
    exact (requestQueued_does f _ h).chain (pump_does _)
  · exact (flag_does ..).mono

theorem setRx_does (r : Rx) (s : State) : Does [.receiver] s (s.setRx r) := .plain (by intro p hp; cases p <;> first | exact absurd (by decide) hp | (and_intros <;> rfl))
theorem toHunt_does (s : State) : Does [.receiver] s s.toHunt := .plain (by intro p hp; cases p <;> first | exact absurd (by decide) hp | (and_intros <;> rfl))

theorem frameEnd_does (k t : Byte) (b : List Byte) (c : BitVec 16) (s : State) : Does Part.hearing s (frameEnd k t b c s) := by
  unfold frameEnd
  refine .trans (toHunt_does s).mono ?_
  exact .cond (flag_does ..).mono (.cond (flag_does ..).mono (.cond (flag_does ..).mono (validFrame_does ..).mono))

theorem character_does (b : Byte) (s : State) : Does Part.hearing s (character b s) := by
  unfold character
  split
  · exact .cond (setRx_does ..).mono (.refl s)
  · exact (setRx_does ..).mono
  · exact .cond ((toHunt_does s).chain (flag_does ..)) (setRx_does ..).mono
  · exact (setRx_does ..).mono
  · exact (setRx_does ..).mono
  · exact .cond (setRx_does ..).mono (setRx_does ..).mono
  · exact (setRx_does ..).mono
  · exact frameEnd_does ..

/-- A character sent has no fault. -/
@[simp] theorem parityFault_linkChar : ∀ b : Byte, parityFault (linkChar b) = false := by decide +kernel

@[simp] theorem framingFault_linkChar : ∀ b : Byte, framingFault (linkChar b) = false := by decide +kernel

@[simp] theorem charData_linkChar : ∀ b : Byte, charData (linkChar b) = b := by decide +kernel

/-- A character sent is taken as its byte. -/
theorem linkCharacter_linkChar (b : Byte) (s : State) : linkCharacter (linkChar b) false s = character b s := by simp [linkCharacter]

theorem linkCharacter_does (c : LinkChar) (o : Bool) (s : State) : Does Part.hearing s (linkCharacter c o s) :=
  .cond ((toHunt_does s).chain (flag_does ..)) (character_does ..)

theorem errorFlag_does (f : LinkFlags → LinkFlags) (s : State) : Does [.receiver, .flags] s (s.toHunt.flag f) := (toHunt_does s).chain (flag_does ..)

theorem gapExpiry_does (s : State) : Does [.receiver, .flags] s (gapExpiry s) := .cond (.refl s) (errorFlag_does ..)

/-! ## RESTART -/

theorem lineRestart_does (l : Line) (s : State) : Does ([.lines, .lineSets] ++ Part.committing) s (lineRestart l s) := by
  unfold lineRestart
  dsimp only
  split
  · exact (commit_does ..).chain (onLu_does ..)
  · exact .cond (onLu_does ..).mono (.refl s)

theorem pmcRestart_moves (s : State) : Moves [.freePool, .reservations, .docs, .cursors] s (s.onPmc Pmc.restarted) := by
  refine ⟨.plain (by intro p hp; cases p <;> first | exact absurd (by decide) hp | (and_intros <;> rfl)), PoolLaw.fair fun ok => ⟨⟨by simp [Pmc.restarted], ?_, ?_⟩, fun b => ?_⟩⟩
  · simp only [State.onPmc_pmc, Pmc.restarted, Tbl.wf, Tbl.keys, List.map_map]
    have : ((fun x : Nat × Doc => x.1) ∘ fun x : Nat × Doc => (x.1, x.2.restarted)) = fun x => x.1 := rfl
    rw [this]
    exact List.Pairwise.sublist (List.filter_sublist.map _) ok.2.1
  · intro x hx
    simp only [State.onPmc_pmc, Pmc.restarted, List.mem_map] at hx
    obtain ⟨y, hy, rfl⟩ := hx
    have hs := ok.2.2 y (List.mem_filter.1 hy).1
    refine ⟨fun q hq => hs.1 q (List.mem_filter.1 hq).1, fun q hq => ?_⟩
    simpa using (List.mem_filter.1 (List.mem_of_mem_dropLast hq)).2
  · have h : ∀ t : Tbl Doc, ((t.flatMap (·.2.returned)).count b + (((t.filter (·.2.kept)).map fun x => (x.1, x.2.restarted)).flatMap fun x => x.2.blocks).count b)
        = (docsBlocks t).count b := by
      intro t
      induction t with
      | nil => rfl
      | cons x t ih =>
        have hx : (x.2.returned).count b + (if x.2.kept then (x.2.restarted.blocks).count b else 0) = (x.2.blocks).count b := by
          unfold Doc.returned
          by_cases hk : x.2.kept
          · simp only [hk, if_true, Doc.restarted, Doc.blocks]
            generalize x.2.pages = ps
            induction ps with
            | nil => rfl
            | cons p ps ih => by_cases hc : p.complete <;> simp [hc] at ih ⊢ <;> omega
          · simp [hk]
        simp only [docsBlocks] at ih ⊢
        by_cases hk : x.2.kept
        · simp only [hk, if_true] at hx
          simp [hk] at ih ⊢; omega
        · simp [hk] at hx ih ⊢; omega
    have := h s.pmc.docs
    simp only [Pmc.tally, State.onPmc_pmc, Pmc.restarted, docsBlocks, List.count_append, List.flatMap_nil, List.count_nil] at *
    omega

theorem scnRestart_does (s : State) : Does [.scanRun, .scanJob] s (scnRestart s) := by
  unfold scnRestart
  exact .cond (.refl s) (.plain (by intro p hp; cases p <;> first | exact absurd (by decide) hp | (and_intros <;> rfl)))

theorem scnRestart_pmc (s : State) : (scnRestart s).pmc = s.pmc := by
  unfold scnRestart; split <;> rfl

theorem prtRestart_moves (s : State) : Moves [.entries, .engine] s (s.onPrt Prt.restarted) := .plain (by intro p hp; cases p <;> first | exact absurd (by decide) hp | (and_intros <;> rfl))
theorem dscRestart_moves (s : State) : Moves [.jobs] s (s.onDsc ({ · with jobs := [], enqueueNo := 0, finishNo := 0 })) := .plain (by intro p hp; cases p <;> first | exact absurd (by decide) hp | (and_intros <;> rfl))

theorem sscRestart_does (s : State) : Does [.store] s (s.onSsc Ssc.restarted) := by
  have h : s.ssc.restarted = { s.ssc with stopSave := s.ssc.restarted.stopSave } := by
    unfold Ssc.restarted; split <;> rfl
  refine .plain ?_
  intro p hp
  cases p <;> first | exact absurd (by decide) hp | (simp only [Part.same, State.onSsc_ssc]; rw [h]; try (and_intros <;> rfl)) | (and_intros <;> rfl)

theorem arbRestart_does (s : State) : Does [.arbiter] s (s.onArb fun _ => Arbiter.reset) := .plain (by intro p hp; cases p <;> first | exact absurd (by decide) hp | (and_intros <;> rfl))

theorem hlcRestart_does (s : State) : Does [.receiver, .requests, .replies, .transmitter, .notices, .presence, .restarting, .hostDoc] s (s.onHlc Hlc.restarted) := by
  refine Acts.does ⟨(by intro p hp; cases p <;> first | exact absurd (by decide) hp | (and_intros <;> rfl)), id, id, fun _ => ⟨by simp [Hlc.restarted], by simp [Hlc.restarted]⟩, id, id⟩

theorem carriedOnly_does (s : State) : Does [.logResvs] s (s.onChg fun g => { g with resvs := g.resvs.filter (·.carried) }) :=
  fewerResvs_does _ s List.filter_sublist

/-- RESTART leaves no holder: every job, entry and cursor is removed and every holder count is 0 (R25, R70, R147). -/
theorem restart_hold {s t : State} (hd : t.pmc.docs = s.pmc.restarted.docs) (hc : t.pmc.cursors = []) (hj : t.dsc.jobs = []) (he : t.prt.entries = [])
    (k : HolderLaw s) : HolderLaw t := by
  refine ⟨?_, by simp [hj, Tbl.wf, Tbl.keys], by simp [he, Tbl.wf, Tbl.keys], by simp [hc, Tbl.wf, Tbl.keys], fun e => ?_⟩
  · rw [hd]
    simp only [Pmc.restarted, Tbl.wf, Tbl.keys, List.map_map]
    have : ((fun x : Nat × Doc => x.1) ∘ fun x : Nat × Doc => (x.1, x.2.restarted)) = fun x => x.1 := rfl
    rw [this]
    exact List.Pairwise.sublist (List.filter_sublist.map _) k.1
  · have h0 : t.holdersOf e = 0 := by simp [State.holdersOf, hj, he, hc, Tbl.number]
    rw [h0]
    simp only [State.holderCount, State.doc, hd, Pmc.restarted]
    generalize s.pmc.docs.filter (·.2.kept) = xs
    induction xs with
    | nil => rfl
    | cons x xs ih =>
      simp only [List.map_cons, Tbl.get]
      split
      · rfl
      · exact ih

theorem restartEffect_does (s : State) : Does Part.restarted s (restartEffect s) := by
  unfold restartEffect
  have h0 := (Does.each lineRestart_does allLines s).mono (qs := Part.restarted)
  have h1 := h0.toMoves.chain (rs := Part.restarted) (pmcRestart_moves _)
  have h2 := h1.chain (rs := Part.restarted) (scnRestart_does _).toMoves
  have h3 := h2.chain (rs := Part.restarted) (prtRestart_moves _)
  have h4 := h3.chain (rs := Part.restarted) (dscRestart_moves _)
  have h5 := h4.chain (rs := Part.restarted) (setRecs_does (Vector.replicate 4 none) _).toMoves
  have h6 := h5.chain (rs := Part.restarted) (carriedOnly_does _).toMoves
  have h7 := h6.chain (rs := Part.restarted) (sscRestart_does _).toMoves
  have h8 := h7.chain (rs := Part.restarted) (arbRestart_does _).toMoves
  have h9 := h8.chain (rs := Part.restarted) (hlcRestart_does _).toMoves
  refine ⟨h9.chain (presenceStart_does _).toMoves, fun k => restart_hold (s := eachDo lineRestart allLines s) ?_ ?_ rfl rfl (h0.hold k)⟩
  · simp only [State.presenceStart, State.onHlc_pmc, State.onArb_pmc, State.onSsc_pmc, State.onChg_pmc, State.onRrt_pmc, State.onDsc_pmc, State.onPrt_pmc, scnRestart_pmc, State.onPmc_pmc]
  · simp only [State.presenceStart, State.onHlc_pmc, State.onArb_pmc, State.onSsc_pmc, State.onChg_pmc, State.onRrt_pmc, State.onDsc_pmc, State.onPrt_pmc, scnRestart_pmc, State.onPmc_pmc, Pmc.restarted]

/-! ## The power-up load -/

theorem setAccount_does (i : Nat) (a : Account) (s : State) (h : a.inRange) :
    Does [.accounts] s (s.onChg fun g => { g with accounts := g.accounts.set i a }) := by
  refine Acts.does ⟨(by intro p hp; cases p <;> first | exact absurd (by decide) hp | (and_intros <;> rfl)), id, id, id, id, fun k => ⟨k.1, k.2.1, ?_, k.2.2.2⟩⟩
  exact accounts_set k.2.2.1 h

theorem r8_lt (bs : List Byte) (i : Nat) : r8 bs i < 256 := (bs.getD i 0).isLt

theorem r16_le (bs : List Byte) (i : Nat) : r16 bs i ≤ 65535 := by
  have h0 := r8_lt bs i; have h1 := r8_lt bs (i + 1)
  simp only [r16]; omega

theorem r32_le (bs : List Byte) (i : Nat) : r32 bs i ≤ maxAmount := by
  have h0 := r16_le bs i; have h2 := r16_le bs (i + 2)
  simp only [r32, maxAmount]; omega

theorem takeRow_does {s t : State} {row : Nat} {bs : List Byte} (h : takeRow s row bs = some t) : Does Part.settings s t := by
  unfold takeRow at h
  by_cases hr : row = 0
  · rw [if_pos hr] at h
    obtain ⟨x, -, rfl⟩ := Option.map_eq_some_iff.1 h
    exact (onLus_does ..).mono
  rw [if_neg hr] at h; clear hr
  by_cases hr : 1 ≤ row ∧ row ≤ 4
  · rw [dif_pos hr] at h
    obtain ⟨c, -, rfl⟩ := Option.map_eq_some_iff.1 h
    exact (setLu_does ..).mono
  rw [dif_neg hr] at h; clear hr
  by_cases hr : row = 5
  · rw [if_pos hr] at h
    split at h
    · simp only [Option.some.injEq] at h; subst h; exact (onLus_does ..).mono
    · simp at h
  rw [if_neg hr] at h; clear hr
  by_cases hr : row = 6
  · rw [if_pos hr] at h
    split at h
    · simp only [Option.some.injEq] at h; subst h; exact (setDial_does ..).mono
    · simp at h
  rw [if_neg hr] at h; clear hr
  by_cases hr : row = 71
  · rw [if_pos hr] at h
    split at h
    · simp only [Option.some.injEq] at h; subst h; exact .mono (ps := [.routes]) (.plain (by intro p hp; cases p <;> first | exact absurd (by decide) hp | (and_intros <;> rfl)))
    · simp at h
  rw [if_neg hr] at h; clear hr
  by_cases hr : row ≤ 103
  · rw [if_pos hr] at h
    dsimp only at h
    split at h
    · simp only [Option.some.injEq] at h; subst h; exact (setTariffs_does _ s).mono
    · simp at h
  rw [if_neg hr] at h; clear hr
  by_cases hr : row ≤ 119
  · rw [if_pos hr] at h
    dsimp only at h
    split at h
    · simp only [Option.some.injEq] at h; subst h; exact (setBands_does _ s).mono
    · simp at h
  rw [if_neg hr] at h; clear hr
  by_cases hr : row = 120
  · rw [if_pos hr] at h
    split at h
    · simp only [Option.some.injEq] at h; subst h; exact (setCalendar_does ..).mono
    · simp at h
  rw [if_neg hr] at h; clear hr
  by_cases hr : row ≤ 152
  · rw [if_pos hr] at h
    split at h
    · dsimp only at h
      split at h
      · simp only [Option.some.injEq] at h; subst h; exact (setAccount_does _ _ s ⟨r32_le .., r32_le .., r16_le .., r16_le ..⟩).mono
      · simp at h
    · simp at h
  rw [if_neg hr] at h; clear hr
  by_cases hr : row = 153
  · rw [if_pos hr] at h
    dsimp only at h
    split at h
    · simp only [Option.some.injEq] at h; subst h
      exact (setScan_does _ s).chain (setFloors_does _ _ _)
    · simp at h
  rw [if_neg hr] at h; clear hr
  by_cases hr : row = 154
  · rw [if_pos hr] at h
    obtain ⟨c, -, rfl⟩ := Option.map_eq_some_iff.1 h
    exact (setPreset_does ..).mono
  rw [if_neg hr] at h; clear hr
  by_cases hr : row = 155
  · rw [if_pos hr] at h
    dsimp only at h
    split at h
    · simp only [Option.some.injEq] at h; subst h; exact (setThermal_does ..).mono
    · simp at h
  rw [if_neg hr] at h; clear hr
  by_cases hr : row = 156
  · rw [if_pos hr] at h
    split at h
    · simp only [Option.some.injEq] at h; subst h
      exact (setFloors_does _ _ s).chain (onLus_does ..)
    · simp at h
  rw [if_neg hr] at h; clear hr
  by_cases hr : row = 157
  · rw [if_pos hr] at h
    split at h
    · simp only [Option.some.injEq] at h; subst h
      exact .mono (ps := [.period, .mask]) (.plain (by intro p hp; cases p <;> first | exact absurd (by decide) hp | (and_intros <;> rfl)))
    · simp at h
  rw [if_neg hr] at h; clear hr
  simp at h

theorem rowFailed_does (r : Nat) (s : State) : Does [.dirty, .failed] s (rowFailed r s) := .plain (by intro p hp; cases p <;> first | exact absurd (by decide) hp | (and_intros <;> rfl))

theorem loadRow_does (n : List Nat) (r : Nat) (s : State) : Does Part.settings s (loadRow n r s) := by
  unfold loadRow
  split
  · rename_i h
    obtain ⟨bs, -, h⟩ := Option.bind_eq_some_iff.1 h
    exact takeRow_does h
  · exact (rowFailed_does ..).mono

theorem testRow_does (c : Bool) (r : Nat) (s : State) : Does Part.settings s (testRow c r s) := .cond (.refl s) (rowFailed_does ..).mono

theorem setRoute_does (f : Rrt → Rrt) (h : ∀ r, (f r).recs = r.recs) (s : State) : Does [.routes] s (s.onRrt f) :=
  .plain (by intro p hp; cases p <;> first | exact absurd (by decide) hp | exact h _ | (and_intros <;> rfl))

theorem putRoute_does (i : Nat) (bs : List Byte) (s : State) : Does [.routes] s (putRoute i bs s) := by
  unfold putRoute
  refine .cond ?_ (.refl s)
  split
  · refine setRoute_does _ ?_ s
    exact fun _ => rfl
  · exact .refl s

theorem loadRoute_does (n : List Nat) (i : Nat) (s : State) : Does Part.settings s (loadRoute n i s) := by
  unfold loadRoute
  dsimp only
  split
  · exact ((testRow_does ..).trans (testRow_does ..)).trans (.cond (putRoute_does ..).mono (.refl _))
  · exact (testRow_does ..).trans (testRow_does ..)

theorem lineStarts_does (l : Line) (s : State) : Does [.lines, .lineSets] s (lineStarts l s) := onLu_does ..

theorem loadDone_does (s : State) : Does [.loading] s (s.onSsc ({ · with loading := false })) :=
  .plain (by intro p hp; cases p <;> first | exact absurd (by decide) hp | (and_intros <;> rfl))

theorem settingsLoad_does (n : List Nat) (s : State) : Does (.loading :: Part.settings) s (settingsLoad n s) :=
  ((Does.each (loadRow_does n) ..).trans (Does.each (loadRoute_does n) ..)).chain
    ((Does.each lineStarts_does ..).chain (rs := .loading :: Part.settings) (loadDone_does _))

end Sys2Proof.Machine
end

