-- ==== Sys2Proof/Laws/CallLaws.lean ====
section
/-! SUPPORT. What the laws of calls and of spent and limit rest on: a command that leaves these parts alone keeps them. -/

namespace Sys2Proof.Machine

set_option Elab.async false

/-- The parts that the laws of calls speak of. -/
def Part.calling : List Part := [.lines, .jobs, .logResvs, .docs, .loading]

/-- The same lines' states and calls, jobs, documents, reservations and loading: the laws of calls hold as before. -/
theorem CallLaw.same {s t : State} (k : CallLaw s) (hs : ∀ l, (t.lu l).state = (s.lu l).state) (hc : ∀ l, t.call l = s.call l) (hj : t.dsc.jobs = s.dsc.jobs)
    (hd : t.pmc.docs = s.pmc.docs) (hr : t.chg.resvs = s.chg.resvs) (ho : t.ssc.loading = s.ssc.loading) : CallLaw t := by
  have eo : ∀ l, t.outgoing l = s.outgoing l := fun l => by simp only [State.outgoing, hs, hc]
  have ej : ∀ j, t.job j = s.job j := fun j => by simp only [State.job, hj]
  have er : ∀ j p, t.recip j p = s.recip j p := fun j p => by simp only [State.recip, ej]
  have eb : ∀ l j p r, t.boundTo l j p r ↔ s.boundTo l j p r := fun l j p r => by simp only [State.boundTo, er]
  have ed : ∀ d, t.doc d = s.doc d := fun d => by simp only [State.doc, hd]
  have en : ∀ d, t.completeCount d = s.completeCount d := fun d => by simp only [State.completeCount, ed]
  have ef : ∀ l, t.offersOf l = s.offersOf l := fun l => by simp only [State.offersOf, hj]
  obtain ⟨k1, k2, k3, k4, k5⟩ := k
  refine ⟨?_, ?_, ?_, ?_, ?_⟩
  · simpa only [BindingLaw, eo, eb] using k1
  · simpa only [DialLaw, eo, eb] using k2
  · simpa only [RecipientLaw, ej, er, en] using k3
  · simpa only [ReservationLaw, hs, hr] using k4
  · exact {
      states := by simpa only [hc, hs] using k5.states
      loading := by simpa only [hc, ho] using k5.loading
      callers := by simpa only [hc, ej, eb, en] using k5.callers
      answerers := by simpa only [hc] using k5.answerers
      bound := by simpa only [hc, er] using k5.bound
      ready := by simpa only [ej, er] using k5.ready
      offers := by simpa only [ef, hr] using k5.offers
      dials := by simpa only [er] using k5.dials
      pages := by simpa only [ed] using k5.pages }

/-- A line's state and call by its unit without the configuration. -/
theorem lu_of_lines {s t : State} (h : Part.same s t .lines) (l : Line) : (t.lu l).state = (s.lu l).state ∧ t.call l = s.call l := by
  have e : ∀ u : State, (u.lu l).running = (u.lines.map Lu.running)[l] := fun u => by simp [State.lu, at4]
  have : (t.lu l).running = (s.lu l).running := by rw [e, e]; exact congrArg (·[l]) h
  exact ⟨show (t.lu l).running.state = (s.lu l).running.state by rw [this], show (t.lu l).running.call = (s.lu l).running.call by rw [this]⟩

/-- A change of other parts keeps the laws of calls. -/
theorem CallLaw.onlyChanges {ps : List Part} {s t : State} (k : CallLaw s) (h : OnlyChanges ps s t) (hp : ∀ p ∈ Part.calling, p ∉ ps) : CallLaw t :=
  k.same (fun l => (lu_of_lines (h .lines (hp _ (by decide))) l).1) (fun l => (lu_of_lines (h .lines (hp _ (by decide))) l).2)
    (h .jobs (hp _ (by decide))).1 (h .docs (hp _ (by decide))) (h .logResvs (hp _ (by decide))) (h .loading (hp _ (by decide)))

/-- A change of other parts than the accounts keeps the law of R161. -/
theorem SpentLaw.onlyChanges {ps : List Part} {s t : State} (k : SpentLaw s) (h : OnlyChanges ps s t) (hp : Part.accounts ∉ ps) : SpentLaw t := by
  have e : t.chg.accounts = s.chg.accounts := h .accounts hp
  intro a ha
  exact k a (e ▸ ha)

end Sys2Proof.Machine
end

