-- ==== Sys2Proof/Tests/Slice0.lean ====
section
/-! SUPPORT. Tests: ill-formed commands, the numbers the spec works out, one step each on small states, and for every statement a state and operands that meet its hypotheses. -/

namespace Sys2Proof.Tests

set_option Elab.async false

open Sys2Proof Sys2Proof.Machine

/-! ## Small states -/

/-- The part after a settings load that changed nothing. -/
def up : State := { State.reset with ssc := { Ssc.reset with loading := false } }
def withDoc (d : Doc) (s : State) : State := s.onPmc ({ · with docs := [(1, d)] })
def doc (st : DocState) (pages : List Page) (holders : Nat) (retained deletePending : Bool) : Doc :=
  ⟨.host, st, pages, holders, retained, deletePending, none, none, none, none⟩
def page (n : Nat) (strips : List Strip) (complete : Bool) : Page := ⟨n, .fine, .a4, strips, complete, false, none⟩
def strip (n lines : Nat) : Strip := ⟨n, lines, lines, [n], .stored⟩
/-- The host writes document 1, page 1 FILLING with the strips given. -/
def hosting (strips : List Strip) : State := (withDoc (doc .opened [page 1 strips false] 0 true false) up).onHlc ({ · with hostDoc := some 1 })
def noBlocks (s : State) : State := s.onPmc ({ · with free := [] })
def onLine (f : Lu → Lu) : State := up.onLu 0 fun u => f { u with config := { u.config with enabled := true } }
def inState (st : LineState) : State := onLine ({ · with state := st })
def callIn (st : LineState) (c : Call) : State := onLine ({ · with state := st, call := some c })
def caller : Call := Call.blank true CalTime.zero LineConfig.default
def answerer : Call := { Call.blank false CalTime.zero LineConfig.default with doc := some 1, firstPage := some 1, planned := true, capsMax := 6 }
def recip (st : RecipState) : Recip := ⟨[0x31#8], st, none, 0, none, 0, 1, none, none⟩
def job (st : JobState) (rs : List Recip) : Job := ⟨1, 0, .routine, none, false, false, 3, 5, false, false, false, 1, none, st, rs⟩
def withJob (x : Job) (s : State) : State := s.onDsc ({ · with jobs := [(1, x)] })
def params : Preset := ⟨.fine, .a4, .normal, .keep, none⟩
def scanning (st : ScanState) : State := up.onScn ({ · with state := st, job := some ⟨1, params, 0, none, none, false, none, ScanSettings.default⟩ })
def entry (st : EntryState) : Entry := ⟨1, 1, none, some 1, 1, 0, .routine, false, 1, 1, 0, false, st, 1, none⟩
def printing (e : Engine) (st : EntryState) : State := up.onPrt ({ · with engine := e, entries := [(1, entry st)], current := some 1 })
def resv (carried : Bool) : LogResv :=
  ⟨0, 0, carried, some ⟨0, some (1, 1), .routine, [0x31#8], 15⟩, none, none, none, none, 0, false, false, false, false, false, none, none, none, 0, false⟩
def record (n : Nat) : Record := recordOf up { resv true with start := some CalTime.zero } ⟨.busy, none, 0, 0, false, false⟩ |> fun r => { r with number := n }

/-- Document 1 with the record given. -/
def one (st : DocState) (holders : Nat) (retained del : Bool) : State := withDoc (doc st [page 1 [strip 0 64] true] holders retained del) up
def cursor (st : CursorState) (offset : Nat) (s : State) : State := s.onPmc ({ · with cursors := [(4, ⟨1, 1, 0, offset, st⟩)] })

/-! ## Ill-formed commands, one for each check -/

theorem test_wf_refuses :
    (Instr.powerUpReset { Pins.atReset with headTemp := 256 } (Vector.replicate 4 true)).wf = false ∧ (Instr.settingsLoadComplete [158]).wf = false
      ∧ (Instr.byteError 0 3 false).wf = false ∧ (Instr.characterReceived 0x402#11).wf = true
      ∧ (∀ c ∈ [0x403#11, 0x400#11, 0x002#11], (Instr.characterReceived c).wf = false) ∧ (Instr.docList 256 none).wf = false ∧ (Instr.docList 0 (some 65536)).wf = false
      ∧ (Instr.memFloorsSet 0 65536 0).wf = false ∧ (Instr.pageBegin 0 0 256 0).wf = false ∧ (Instr.cursorOpen 0 0 (some 256)).wf = false
      ∧ (Instr.stripRead 0 0 65536).wf = false ∧ (Instr.scan 0 0 0 0 0 (some (256, 0))).wf = false ∧ (Instr.linePulse 5000 [0#8]).wf = false
      ∧ (Instr.scanSettingsSet 0 ⟨65536, 0, 0, 0, 0, 0, 0⟩).wf = false ∧ (Instr.printThermalSet 0 ⟨0, 0, 0, 256, 0⟩).wf = false
      ∧ (Instr.lineTime 256 false).wf = false ∧ (Instr.lineConfigSet 0 0 ⟨true, true, true, 0, 0, none, 0, 65536⟩).wf = false := by decide

theorem test_wf_refuses_lengths :
    (Instr.frameReceived 0 0 (List.replicate 1021 0) 0).wf = false ∧ (Instr.stripData 0 0 0 false (List.replicate 1018 0)).wf = false
      ∧ (Instr.stationTagSet 0 (List.replicate 256 0)).wf = false ∧ (Instr.rateCheckBurst 0 (List.replicate 3601 0)).wf = false
      ∧ (Instr.stripReport 0 (List.replicate 81 0)).wf = false := by decide +kernel

theorem test_wf_refuses_fields :
    (Instr.plan 0 [] 256 false 1).wf = false ∧ (Instr.caps 0 [] 6 256 3).wf = false ∧ (Instr.pageEnd 0 true 256 0).wf = false ∧ (Instr.refuse 0 256).wf = false
      ∧ (Instr.stripHeaderReceived 0 1 0 64 0 65536).wf = false ∧ (Instr.send 0 1 256 0 none false false none none []).wf = false
      ∧ (Instr.send 0 1 0 0 (some ⟨1999, 1, 1, 1, 0, 0, 0⟩) false false none none []).wf = false ∧ (Instr.embargoExpiry 0).wf = false
      ∧ (Instr.retryExpiry 1 65).wf = false ∧ (Instr.routeSet 0 0 ⟨none, some 256, none, 0, .hold⟩).wf = false
      ∧ (Instr.routeDefaultSet 0 (.undefined 4) 0).wf = false ∧ (Instr.bandSet 0 0 ⟨65536, 0, 0, 0, 1, 1, false⟩).wf = false
      ∧ (Instr.accountSet 0 0 4294967296 0 false false).wf = false ∧ (Instr.clockSet 0 (some ⟨2256, 1, 1, 1, 0, 0, 0⟩)).wf = false
      ∧ (Instr.logDrop 0 1 (some 65536)).wf = false := by decide

/-! ## What the spec works out -/

/-- The start mark and the byte 1 as characters, last bit first: stop, parity, data, start (R181). -/
theorem test_linkChar : linkChar 0xC3#8 = 0b1_1_11000011_0#11 ∧ linkChar 0x01#8 = 0b1_0_00000001_0#11 := by decide

/-- The check of the nine characters 1 to 9. -/
theorem test_crc16 : crc16 [0x31, 0x32, 0x33, 0x34, 0x35, 0x36, 0x37, 0x38, 0x39] = 0x29B1#16 := by decide +kernel

/-- The line of white 100, black 20, white 1928 (R37, R196). -/
theorem test_runs_line :
    runList (List.replicate 100 false ++ List.replicate 20 true ++ List.replicate 1928 false) = [100, 20, 1928]
      ∧ [100, 20, 1928].flatMap runBytes = [0x64, 0x14, 0x87, 0x88] := by decide +kernel

/-- A blank row of the settings memory fails its check; a composed row passes. -/
theorem test_row_checks : rowPasses (List.replicate 32 0xFF) = false ∧ rowPasses (withCheck []) = true := by decide

/-- The calendar wraps after 2099. -/
theorem test_calendar_wraps : CalTime.tick ⟨2099, 12, 31, 4, 23, 59, 59⟩ = (⟨2000, 1, 1, 6, 0, 0, 0⟩, true) := by decide

/-- A dial string is rated without its P and W. -/
theorem test_rated_number : ratedNumber [0x30, 0x57, 0x34, 0x50, 0x35] = [0x30#8, 0x34, 0x35] := by decide

/-! ## One step each -/

/-- Requests are answered: DOC_CREATE makes document 1. -/
theorem test_doc_create : (step { up with pending := [.docCreate 7 true] }) =
    .next ({ (up.onPmc ({ · with docs := [(1, doc .opened [] 0 true false)] })) with
      hlc := { up.hlc with hostDoc := some 1, tx := some (.reply ⟨0x11, 7, [0, 1]⟩) } } : State) := rfl

theorem test_set_mask : step { up with pending := [.noticeMaskSet 1 256] } = .next (up.replied 0x61 1 .badField []) := rfl
theorem test_ring :
    (runCommands [.ringOn 0, .ringOff 0, .ringOn 0] (inState .idle)).map (fun t => ((t.lu 0).state, (t.lu 0).ringCount)) = some (.ringing, 2) := by decide +kernel
theorem test_caps_wait :
    (runCommands [.capsWait 0] (callIn .handshake { caller with capsWait := true })).map (fun t => (t.lu 0).state) = some .clearing := by decide +kernel
theorem test_before_load : exec (.ringOn 0) State.reset = .next State.reset := rfl

/-! ## The hypotheses of the statements are met: for each statement its clauses, at the ends of their ranges -/

theorem allTo {n : Nat} {P : Nat → Prop} (h : ∀ k, k < n → P (k + 1)) : ∀ k, 1 ≤ k → k ≤ n → P k := fun k h1 h2 => by
  obtain ⟨j, rfl⟩ : ∃ j, k = j + 1 := ⟨k - 1, by omega⟩
  exact h j (by omega)

theorem lowestEmpty_of {α : Type} {t : Tbl α} {n d : Nat} (h : (1 ≤ d ∧ d ≤ n) ∧ (t.get d).isNone = true ∧ ∀ k, k < d → k = 0 ∨ (t.get k).isSome = true) :
    t.lowestEmpty n d :=
  ⟨h.1.1, h.1.2, Option.isNone_iff_eq_none.mp h.2.1, fun k h1 h2 => (h.2.2 k h2).resolve_left (by omega)⟩

/-- A settings memory whose row `row` holds the bytes given and their check. -/
def storing (row : Nat) (bytes : List Byte) : State := { State.reset with eeprom := bytesWrite [] (row * 32) (withCheck bytes) }
def withHlc (f : Hlc → Hlc) : State := up.onHlc f
def frames (n : Nat) : List Frame := List.replicate n ⟨0x60, 1, []⟩
def aNotice (n : Nat) : Notice := ⟨.binChanged, [BitVec.ofNat 8 n], [0]⟩
def notices (n : Nat) : List Notice := (List.range n).map aNotice
def sending : Outgoing := .notice (aNotice 0)
def mask256 (n : Nat) : Bool := n.testBit (NoticeKind.binChanged.cls.code)

theorem met_StepRunsTheFrontCommand : up.pending = [] := rfl

theorem met_CommandsWaitForTheBlocks :
    State.reset.ssc.loading = true ∧ (let s := withHlc ({ · with restarting := true })
      isRequest (.status 1) = true ∧ s.running = true ∧ s.hlc.restarting = true) := by decide +kernel

theorem poolLaw_of_empty {s : State} (hf : s.pmc.free = List.range Config.blocks) (hr : s.pmc.resv = []) (hd : s.pmc.docs = []) : PoolLaw s := by
  refine ⟨?_, ?_, ?_, ?_⟩
  · rw [hf, hr, hd]; simp [docsBlocks]
  · rw [hr]; exact List.nodup_nil
  · rw [hd]; decide
  · rw [hd]; intro x hx; cases hx

theorem met_StepKeepsThePool :
    let s : State := { up with pending := [.docCreate 1 true] }
    PoolLaw s ∧ ∃ t, step s = .next t := by
  exact ⟨poolLaw_of_empty (by simp only [up, State.reset, State.powerUp, Pmc.reset]) rfl rfl, _, rfl⟩

/-- Document 1, held by a job, a print entry and a cursor. -/
def held : State :=
  (((withJob (job .queued [recip .waiting]) (one .closed 3 true false)).onPrt ({ · with entries := [(1, entry .waiting)] })) |> cursor .opened 0)

theorem met_StepKeepsTheHolders :
    let s : State := { held with pending := [.printCancel 1 1] }
    HolderLaw s ∧ ∃ t, step s = .next t := by
  refine ⟨⟨by decide +kernel, by decide +kernel, by decide +kernel, by decide +kernel, fun d => ?_⟩, _, rfl⟩
  by_cases h : d = 1
  · subst h; decide +kernel
  · have h' : (1 == d) = false := by simpa using Ne.symm h
    show (((Tbl.get [(1, doc .closed [page 1 [strip 0 64] true] 3 true false)] d).map (·.holders)).getD 0) = _
    simp only [Tbl.get, if_neg (Ne.symm h)]
    show 0 = List.countP _ [(1, job .queued [recip .waiting])] + List.countP _ [(1, entry .waiting)] + List.countP _ [(4, (⟨1, 1, 0, 0, .opened⟩ : Cursor))]
    simp [Job.on, Entry.on, Cursor.on, job, entry, h']

/-! A line in an outgoing call, and what its records say. -/

def callingCall : Call := { caller with recip := some (1, 1), doc := some 1, firstPage := some 1, current := some 1, pageOpen := true }
/-- Line 0 sends document 1 to the one recipient of job 1; a PAGE_TAKEN comes. -/
def calling : State :=
  let s := withJob (job .active [{ recip .inCall with line := some 0 }]) (one .closed 1 true false)
  { (s.onLu 0 ({ · with state := .transfer, call := some callingCall })).onChg ({ · with resvs := [resv true] }) with pending := [.pageTaken 0 0 false] }

def callingJob : Job := job .active [{ recip .inCall with line := some 0 }]

theorem calling_job {j : Nat} {x : Job} (h : calling.job j = some x) : j = 1 ∧ x = callingJob := by
  have hs : calling.job j = if 1 = j then some callingJob else none := rfl
  rw [hs] at h
  split at h
  · rename_i e; exact ⟨e.symm, (Option.some.inj h).symm⟩
  · cases h

theorem calling_recip {j p : Nat} {r : Recip} (h : calling.recip j p = some r) : j = 1 ∧ p = 1 ∧ r = { recip .inCall with line := some 0 } := by
  obtain ⟨x, hx, hr⟩ := Option.bind_eq_some_iff.1 h
  obtain ⟨rfl, rfl⟩ := calling_job hx
  match p, hr with
  | 1, hr => exact ⟨rfl, rfl, (Option.some.inj hr).symm⟩

theorem calling_doc {d : Nat} {x : Doc} (h : calling.doc d = some x) : x = doc .closed [page 1 [strip 0 64] true] 1 true false := by
  have hs : calling.doc d = if 1 = d then some (doc .closed [page 1 [strip 0 64] true] 1 true false) else none := rfl
  rw [hs] at h
  split at h
  · exact (Option.some.inj h).symm
  · cases h

theorem calling_callLaw : CallLaw calling := by
  have hb : ∀ l j p r, calling.boundTo l j p r ↔ (l = 0 ∧ j = 1 ∧ p = 1 ∧ r = { recip .inCall with line := some 0 }) := by
    intro l j p r
    constructor
    · rintro ⟨h1, -, h3⟩
      obtain ⟨rfl, rfl, rfl⟩ := calling_recip h1
      simp at h3
      exact ⟨h3.symm, rfl, rfl, rfl⟩
    · rintro ⟨rfl, rfl, rfl, rfl⟩; exact ⟨rfl, rfl, rfl⟩
  refine ⟨fun l => ⟨fun h => ?_, fun h j p r k => ?_⟩, fun l m j p r k q x hlm _ _ h1 h2 => ?_, fun j x p r h1 h2 => ?_, by unfold ReservationLaw; decide +kernel, ?_⟩
  · have : l = 0 := by revert h; revert l; decide +kernel
    subst this
    exact ⟨1, 1, _, (hb ..).2 ⟨rfl, rfl, rfl, rfl⟩, fun k q x hx => by have := (hb ..).1 hx; exact ⟨this.2.1, this.2.2.1⟩⟩
  · have := (hb ..).1 k
    rw [this.1] at h; revert h; decide +kernel
  · rw [hb] at h1 h2; exact absurd (h1.1.trans h2.1.symm) hlm
  · obtain ⟨rfl, rfl, rfl⟩ := calling_recip h2
    rw [(calling_job h1).2]; decide +kernel
  · refine ⟨by decide +kernel, by decide +kernel, fun l c h1 h2 => ?_, fun l c h1 h2 => ?_, fun j p r h1 h2 => ?_, fun j x p r h1 h2 => ?_, by decide +kernel, fun j p r k q x hne h1 h2 _ _ => ?_, fun d x h => ?_⟩
    · have : l = 0 := by
        have : (calling.call l).isSome = true := by rw [h1]; rfl
        revert this; clear h1; revert l; decide +kernel
      subst this
      have hc : calling.call 0 = some callingCall := by decide +kernel
      rw [hc] at h1
      cases h1
      exact ⟨1, 1, _, _, rfl, rfl, (hb ..).2 ⟨rfl, rfl, rfl, rfl⟩, rfl, rfl, (fun q h => by cases h), fun _ => ⟨1, rfl, by decide +kernel⟩⟩
    · have hc : ∀ l c, calling.call l = some c → c.caller = true := fun l c h => by
        have : (calling.call l).all (·.caller) = true := by clear h; revert l; decide +kernel
        rw [h] at this; exact this
      rw [hc l c h1] at h2; cases h2
    · obtain ⟨rfl, rfl, rfl⟩ := calling_recip h1
      exact ⟨0, callingCall, rfl, by decide +kernel, rfl, rfl⟩
    · obtain ⟨rfl, rfl, rfl⟩ := calling_recip h2
      rw [(calling_job h1).2]; decide +kernel
    · have a := calling_recip h1; have b := calling_recip h2
      exact absurd (by rw [a.1, a.2.1, b.1, b.2.1]) hne
    · rw [calling_doc h]; decide +kernel

theorem met_StepKeepsTheCalls :
    (HolderLaw calling ∧ CallLaw calling ∧ SpentLaw calling ∧ ∃ t, step calling = .next t)
      ∧ let s := storing 121 (packAccount { Account.default with limit := 5, spent := 6, overrun := true })
        ∃ bs, busRead s [] 121 = some bs ∧ r32 bs 0 = 5 ∧ r32 bs 4 = 6 ∧ (r8 bs 13).testBit 3 = true := by
  refine ⟨⟨⟨by decide +kernel, by decide +kernel, by decide +kernel, by decide +kernel, fun d => ?_⟩, calling_callLaw, ?_, _, rfl⟩, _, rfl, by decide +kernel⟩
  · by_cases h : d = 1
    · subst h; decide +kernel
    · have h' : (1 == d) = false := by simpa using Ne.symm h
      show (((Tbl.get [(1, doc .closed [page 1 [strip 0 64] true] 1 true false)] d).map (·.holders)).getD 0) = _
      simp only [Tbl.get, if_neg (Ne.symm h)]
      show 0 = List.countP _ [(1, callingJob)] + List.countP _ [] + List.countP _ []
      simp [Job.on, callingJob, job, h']
  · intro a ha
    have : a = Account.default := List.eq_of_mem_replicate ha
    subst this; exact fun h => absurd rfl h

/-- Settings at the ends of their ranges, or near them. -/
def kept : State := { up with
  lines := up.lines.set 3 { up.lu 3 with config := ⟨true, false, true, 9, .pulse, some (List.replicate 40 0x57), .pulse, 65535⟩ }
  lus := ⟨120, List.replicate 20 0x7E, 1, 63⟩
  dsc := { up.dsc with guard := 3, attempts := 9, interval := 60 }
  rrt := { up.rrt with
    routes := [(0, ⟨some [0x20], some 15, some (1439, 0), .all, .forward [0x31, 0x32, 0x33] 31 .urgent (some (3, 99)), 65535⟩), (31, ⟨none, none, none, .any, .reject, 0⟩)]
    dflt := .forward (List.replicate 40 0x39) 31 .flash none, fallbackBin := 3 }
  chg := { up.chg with
    tariffs := [(0, ⟨[0x39], 0⟩), (127, ⟨List.replicate 8 0x30, 15⟩)], calendar := ⟨1439, 0, 127⟩
    accounts := up.chg.accounts.set 31 ⟨4294967295, 4294967295, 65535, 65535, .afterCall, true, false, true, false⟩ }
  scn := { up.scn with preset := some ⟨.super, .b4, .dark, .drop, some (99, 3)⟩ }
  hlc := { up.hlc with period := 255, mask := 255 } }

theorem met_SettingsLaw : SettingsLaw kept ∧ RangeLaw kept := by
  have act : ∀ d : Str, dialOk d = true → ∀ c spec, (∀ x, spec = some x → x.2 = 99) → (Action.forward d 31 c spec).inRange := fun d h c spec hs =>
    ⟨h, Nat.le_refl 31, fun x hx => by rw [hs x hx]; exact ⟨by decide, by decide⟩⟩
  refine ⟨⟨?_, by decide +kernel, by decide +kernel, ⟨⟨by decide +kernel, ?_⟩, act _ (by decide +kernel) _ _ (by rintro _ ⟨⟩)⟩, ⟨by decide +kernel, ?_⟩, by decide +kernel, by decide +kernel,
    by decide +kernel, ?_, by decide +kernel, by decide +kernel, by decide +kernel⟩, ?_⟩
  · unfold LineConfig.inRange; decide +kernel
  · intro x hx
    rcases List.mem_pair.mp hx with rfl | rfl
    · exact ⟨by decide, by rintro _ ⟨⟩; decide, by rintro _ ⟨⟩; decide, by rintro _ ⟨⟩; decide, act _ (by decide) _ _ (by rintro _ ⟨⟩; rfl)⟩
    · exact ⟨by decide, by rintro _ ⟨⟩, by rintro _ ⟨⟩, by rintro _ ⟨⟩, trivial⟩
  · unfold Tariff.inRange; decide +kernel
  · rintro _ ⟨⟩ _ ⟨⟩; exact ⟨by decide, by decide⟩
  · unfold RangeLaw Account.inRange; decide +kernel

theorem met_StepKeepsTheRecords :
    (let s : State := { (callIn .dialling caller).onHlc ({ · with requests := frames 4, notices := notices 32 }) with
        chg := { up.chg with records := (List.range 127).map record, resvs := [resv true] }, pending := [.busy 0] }
     LogLaw s ∧ (∃ t, step s = .next t) ∧ QueueLaw s ∧ RangeLaw s ∧ OfferLaw s)
      ∧ (let s : State := { up with mem := [⟨0, 1#8⟩, ⟨4194303, 255#8⟩], pending := [.secondTick] }
        MemoryLaw s ∧ ∃ t, step s = .next t)
      ∧ ∃ t, step { kept with pending := [.secondTick] } = .next t := by
  refine ⟨⟨?_, ⟨_, rfl⟩, ?_, ?_, ?_⟩, ⟨⟨by decide +kernel, by decide +kernel⟩, _, rfl⟩, _, rfl⟩
  · unfold LogLaw; decide +kernel
  · unfold QueueLaw; decide +kernel
  · unfold RangeLaw Account.inRange; decide +kernel
  intro l; revert l; decide +kernel

theorem met_RequestReadsBackAsWritten :
    ∀ i ∈ [Instr.docCreate 255 true, .stripData 0 255 255 true (List.replicate 1017 0xFF), .cursorOpen 1 255 (some 255),
        .send 0 255 255 255 (some ⟨2255, 255, 255, 255, 255, 255, 255⟩) true true none (some 255) [[]], .clockSet 3 none],
      i.wf = true ∧ (writeRequest i).isSome = true := by decide +kernel

theorem met_FrameCharactersReceiveTheFrame :
    (∀ n ∈ [0, 1020], (List.replicate n (0xFF : Byte)).length ≤ 1020) ∧ up.running = true ∧ up.hlc.rx = .hunt ∧ up.settled :=
  ⟨by decide +kernel, rfl, rfl, rfl⟩

theorem met_FramesAreReceived :
    up.running = true ∧ up.hlc.rx = .hunt
      ∧ ((linkChar 7).getLsbD 0 = false ∧ (linkChar 7).getLsbD 10 = true ∧ ((List.range 9).filter fun i => (linkChar 7).getLsbD (i + 1)).length % 2 = 1)
      ∧ (charOf 0 2 = 0x400#11 ∧ (((List.range 9).filter fun i => (0x400#11).getLsbD (i + 1)).length % 2 = 0) ∧ (0x002#11).getLsbD 10 = false)
      ∧ (withHlc ({ · with tx := some (.reply ⟨0x60, 1, [0]⟩) })).hlc.tx = some (.reply ⟨0x60, 1, [0]⟩)
      ∧ ∀ r ∈ [Rx.length [], .length [0xFC], .header 0 [], .header 0 [0x60], .header 1020 [0x60], .body 2 0x60 1 [], .body 2 0x60 1 [0], .check 0x60 1 [] [],
          .check 0x60 1 [] [0]],
        (withHlc ({ · with rx := r })).running = true ∧ (withHlc ({ · with rx := r })).hlc.rx ≠ .hunt := by decide +kernel

theorem met_FramesAreTested :
    up.running = true
      ∧ (∀ n ∈ [4, 1020], (List.replicate n (0xFF : Byte)).length ≤ 1020 ∧ 4 ≤ (List.replicate n (0xFF : Byte)).length
        ∧ ∀ b ∈ List.replicate n (0xFF : Byte), b = 0xFF#8)
      ∧ (∀ body ∈ [[], [0xFF, 0xFF, 0xFF], [0xFF, 0xFF, 0xFF, 0xFE]], ¬(4 ≤ body.length ∧ ∀ b ∈ body, b = 0xFF#8))
      ∧ (0 : BitVec 16) ≠ frameCheck 0x60 1 []
      ∧ ∀ n ∈ [3, 4], (presenceHeard (withHlc ({ · with requests := frames n, attended := true }))).hlc.requests.length = n :=
  ⟨rfl, fun n hn => by simp only [List.length_replicate]; exact ⟨by revert n; decide, by revert n; decide, fun b => List.eq_of_mem_replicate⟩, by decide,
    by decide +kernel, by decide +kernel⟩

theorem met_PresenceFollowsTheFrames :
    up.running = true ∧ up.hlc.attended = false ∧ up.hlc.presenceEnd = none
      ∧ (let s := withHlc ({ · with attended := true, presenceEnd := some 0 })
        s.hlc.attended = true ∧ s.hlc.presenceEnd.isSome = true ∧ s.hlc.hostDoc = none)
      ∧ (let s := (hosting []).onHlc ({ · with attended := true, presenceEnd := some 30 })
        s.running = true ∧ s.hlc.attended = true ∧ s.hlc.presenceEnd.isSome = true ∧ s.hlc.hostDoc = some 1) := by decide +kernel

theorem met_NoticesAndRepliesAreSent :
    mask256 255 = true ∧ mask256 0 = false
      ∧ (∃ pre n post, notices 32 = pre ++ n :: post ∧ (n.kind = .binChanged ∧ n.object = [31]) ∧ ∀ m ∈ pre ++ post, ¬(m.kind = .binChanged ∧ m.object = [31]))
      ∧ (∀ k ∈ [0, 31, 32], (∀ m ∈ notices k, ¬(m.kind = .binChanged ∧ m.object = [32])) ∧ (notices k).length = k)
      ∧ (let h := up.hlc
        h.tx = none ∧ h.replies = [] ∧ h.notices = [] ∧ ({ h with tx := some sending }).tx.isSome = true ∧ ({ h with replies := frames 1 }).replies = frames 1
        ∧ ({ h with notices := notices 1 }).notices = [aNotice 0]) := by
  refine ⟨by decide, by decide, ⟨notices 31, aNotice 31, [], by decide +kernel, by decide, by decide +kernel⟩, by decide +kernel, by decide +kernel⟩

theorem met_TransmitterEndTakesTheNextRequest :
    up.running = true ∧ up.hlc.tx = none ∧ up.hlc.restarting = false
      ∧ (∀ s ∈ [withHlc ({ · with tx := some sending }), withHlc ({ · with tx := some sending, replies := frames 1 }),
          withHlc ({ · with tx := some sending, requests := frames 1, restarting := true }), withHlc ({ · with tx := some sending, requests := frames 4 })],
        s.running = true ∧ s.hlc.tx.isSome = true)
      ∧ readRequest 0x60 1 [] = some (some (.status 1)) ∧ readRequest 0x60 1 [0] = some none ∧ readRequest 0 1 [] = none := by decide +kernel

theorem met_SettingsRequestsReplaceValues :
    up.takes
      ∧ (∀ n ∈ [0, 255], n ≤ 255) ∧ (∀ n ∈ [0, 5, 255], n = 0 ∨ (5 ≤ n ∧ n ≤ 255)) ∧ ¬(4 = 0 ∨ (5 ≤ 4 ∧ 4 ≤ 255))
      ∧ (∀ spec ∈ [none, some (1, (0 : Bin)), some (99, 3)], spec.all (fun x => 1 ≤ x.1 && x.1 ≤ 99) = true)
      ∧ up.pins.moduleB4 = false
      ∧ (∀ v ∈ [(3, 0, 0, 0, none), (0, 2, 0, 0, none), (0, 0, 3, 0, none), (0, 0, 0, 2, none), (0, 0, 0, 0, some (0, 0)), (0, 0, 0, 0, some (100, 0)),
          (0, 0, 0, 0, some (1, 4))],
        2 < v.1 ∨ 1 < v.2.1 ∨ 2 < v.2.2.1 ∨ 1 < v.2.2.2.1 ∨ (v.2.2.2.2.any fun x : Nat × Nat => x.1 = 0 ∨ 99 < x.1 ∨ 3 < x.2) = true) :=
  ⟨⟨rfl, rfl⟩, by decide, by decide, by decide, by decide, rfl, by decide⟩

theorem met_RestartClearsTheWork :
    up.running = true ∧ up.hlc.restarting = false ∧ ((callIn .transfer caller).lu 0).call.isSome = true
      ∧ (printing (.fault .headHot) .waiting).prt.engine = .fault .headHot := by decide +kernel

/-- A document kept and one not; a call with a CARRIED reservation, and a GRANTED one. -/
theorem met_RestartKeepsAndCommits :
    Tbl.wf (one .opened 1 false false).pmc.docs ∧ (∀ b ∈ [true, false], ((one .opened 1 false b).doc 1).map (fun x => (x.deletePending, x.pages.any (·.complete))) = some (b, true))
      ∧ (let s := (callIn .transfer caller).onChg ({ · with resvs := [resv true, { resv false with slot := 1 }], nextLog := 65535 })
        (s.call 0).isSome = true ∧ s.carried 0 = some (resv true) ∧ s.chg.nextLog < 65536
          ∧ ((runCommands [.restartEffect] s).map fun t => (t.chg.records.map fun v => (v.number, v.outcome), t.chg.resvs, t.chg.nextLog)) = some ([(65535, .restart)], [], 0)) := by
  decide +kernel

theorem met_PowerUpResetsEveryBlock :
    up.ssc.writing = none ∧ (let w : RowWrite := ⟨157, List.replicate 32 0, true, .poll⟩
      ({ up with ssc := { up.ssc with writing := some w } } : State).ssc.writing = some w ∧ 157 * 32 + 32 ≤ 5056 ∧ 5023 < 157 * 32) := by decide +kernel

theorem met_SettingsLoadStartsTheBlocks :
    up.ssc.loading = false ∧ State.reset.ssc.loading = true
      ∧ (0 < 158 ∧ byteSum (rowRead State.reset.eeprom 0) % 256 ≠ 255) ∧ (157 < 158 ∧ 157 ∈ [157])
      ∧ (∀ n ∈ [20, 120], byteSum (rowRead (storing 5 [BitVec.ofNat 8 n]).eeprom 5) % 256 = 255 ∧ ((storing 5 [BitVec.ofNat 8 n]).storedAt 160).toNat = n)
      ∧ (∀ g ∈ [(0, 1, 1), (3, 9, 60)], let s := storing 6 [BitVec.ofNat 8 g.1, BitVec.ofNat 8 g.2.1, BitVec.ofNat 8 g.2.2]
        byteSum (rowRead s.eeprom 6) % 256 = 255 ∧ (s.storedAt 192).toNat = g.1 ∧ (s.storedAt 193).toNat = g.2.1 ∧ (s.storedAt 194).toNat = g.2.2)
      ∧ (∃ t, exec (.settingsLoadComplete (List.range 158)) ((inState .disabled).onSsc ({ · with loading := true })) = .next t ∧ (t.lu 0).config.enabled = true) :=
  ⟨rfl, rfl, by decide +kernel, by decide, by decide +kernel, by decide +kernel, _, rfl, by decide +kernel⟩

/-- Row one of route entries 0 and 31 with a used flag, or an action, that is no defined value. -/
theorem met_RouteRowsFail :
    ∀ i ∈ [0, 31], ((storing (7 + 2 * i) [2]).storedAt ((7 + 2 * i) * 32)).toNat = 2
      ∧ (let s := storing (7 + 2 * i) ([1] ++ List.replicate 27 0 ++ [5])
        (s.storedAt ((7 + 2 * i) * 32)).toNat = 1 ∧ (s.storedAt ((7 + 2 * i) * 32 + 28)).toNat = 5) := by decide +kernel

theorem met_RowsAreReadOnTheBus :
    (∀ row ∈ [0, 157], row < 158) ∧ 157 ∈ [157] ∧ 5 ∉ [157] ∧ byteSum (rowRead (storing 5 [20]).eeprom 5) % 256 = 255 := by decide +kernel

/-! ### Documents -/

/-- All slots of the documents taken. -/
def fullDocs : State := up.onPmc ({ · with docs := (List.range 64).map fun k => (k + 1, doc .closed [page 1 [] true] 0 true false) })
def hostAdd (n lines : Nat) : State := hosting ((List.range n).map fun k => strip k lines)
def resvOfHost (coded : Nat) (s : State) : State := s.onPmc ({ · with resv := [⟨.hlc, [4, 5], 1, ⟨0, 64, coded, [], .filling⟩⟩] })

theorem met_HostWritesDocuments :
    up.takes ∧ (hosting []).takes
      ∧ (up.hlc.hostDoc = none ∧ up.pmc.docs.lowestEmpty 64 1)
      ∧ (fullDocs.takes ∧ fullDocs.hlc.hostDoc = none ∧ (∀ k, 1 ≤ k → k ≤ 64 → (fullDocs.doc k).isSome = true))
      ∧ (let s := fullDocs.onPmc ({ · with docs := fullDocs.pmc.docs.del 64 })
        s.takes ∧ s.hlc.hostDoc = none ∧ s.pmc.docs.lowestEmpty 64 64)
      ∧ ((hosting []).hlc.hostDoc ≠ some 2 ∧ (hosting []).hlc.hostDoc = some 1 ∧ ((hosting []).doc 1).isSome = true)
      ∧ (∀ x ∈ [Resolution.coarse, .super], x.code ≤ 2) ∧ ((hosting []).doc 1).bind (·.filling) = some (page 1 [] false)
      ∧ (∀ n ∈ [0, 249, 250], let s := (withDoc (doc .opened ((List.range n).map fun k => page (k + 1) [strip 0 64] true) 0 true false) up).onHlc ({ · with hostDoc := some 1 })
        s.running = true ∧ s.hlc.hostDoc = some 1 ∧ ∃ d, s.doc 1 = some d ∧ d.filling = none ∧ d.pages.length = n ∧ d.state = .opened)
      ∧ (∀ n ∈ [511, 512], ((up.onPmc ({ · with free := List.range n })).pmc.free.length < up.pmc.scanFloor) = (n < 512))
      ∧ (let s := resvOfHost 10 (hosting [])
        s.takes ∧ (s.resvOf .hlc).isSome = true) ∧ (hosting [strip 0 64]).resvOf .hlc = none := by
  refine ⟨⟨rfl, rfl⟩, ⟨rfl, rfl⟩, ⟨rfl, lowestEmpty_of (by decide +kernel)⟩, ⟨⟨rfl, rfl⟩, rfl, allTo (by decide +kernel)⟩, ⟨⟨rfl, rfl⟩, rfl, lowestEmpty_of (by decide +kernel)⟩,
    by decide +kernel, by decide, by decide +kernel, ?_, ?_, ⟨⟨rfl, rfl⟩, rfl⟩, rfl⟩
  · intro n hn
    exact ⟨rfl, rfl, _, rfl, by revert n; decide +kernel, by revert n; decide +kernel, rfl⟩
  · intro n hn
    simp only [up, State.onPmc, State.reset, State.powerUp, Pmc.reset, List.length_range]

/-- A document the host wrote, abandoned, and no other in work. -/
def lostDoc : State := (one .abandoned 0 true false).onHlc ({ · with hostLost := [1] })

theorem met_OtherDocuments :
    lostDoc.takes ∧ lostDoc.hlc.hostDoc ≠ some 1 ∧ 1 ∈ lostDoc.hlc.hostLost ∧ (lostDoc.doc 1).any (fun d => d.origin == .host && d.state == .abandoned) = true
      ∧ up.hlc.hostDoc ≠ some 1 ∧ 1 ∉ up.hlc.hostLost := ⟨⟨rfl, rfl⟩, by decide, by decide, by decide +kernel, by decide, by decide⟩

theorem met_StripBytesReadBack :
    Memory.wf [] ∧ [0, 4095].Nodup ∧ 1088 + (List.replicate 960 (0 : Byte)).length ≤ 1024 * [0, 4095].length ∧ 0 + ([] : List Byte).length ≤ 1024 * ([] : List Nat).length
      ∧ (∃ a, ∀ j, j < 0 → a ≠ stripAddr [] (0 + j))
      ∧ ∀ n ∈ [16, 17], let s := (hosting []).onPmc ({ · with free := List.range n })
        s.resvOf .hlc = none ∧ s.pmc.free.length = n ∧ (s.doc 1).bind (·.filling) = some (page 1 [] false) :=
  ⟨by decide, by decide, by decide +kernel, by decide, ⟨0, by omega⟩, by decide +kernel⟩

/-- The header of a strip stands in page memory from its opening on, its coded length 0 until the strip closes (R4, R19). -/
theorem test_header_at_opening :
    (stripOpen .hlc 1 0 64 (hosting [])).map (fun s => (stripRead s.mem [0] 0 8, stripRead (stripClose .hlc .stored (stripAppend .hlc [0x00#8] s)).mem [0] 0 9))
      = some ([0x5A#8, 0xA5#8, 1, 0, 64, 1, 0, 0], [0x5A#8, 0xA5#8, 1, 0, 64, 1, 1, 0, 0]) := by decide +kernel

theorem met_StripsAreClosedAndDiscarded :
    up.resvOf .scn = none
      ∧ (∀ n ∈ [0, 16448], let s := resvOfHost n (hosting [{ strip 0 64 with state := .damaged }])
        (s.resvOf .hlc).isSome = true ∧ (s.doc 1).bind (·.filling) = some (page 1 [{ strip 0 64 with state := .damaged }] false))
      ∧ ∀ xs ∈ [[], [{ strip 0 64 with state := .damaged }]],
        ((hosting xs).doc 1).bind (·.filling) = some (page 1 xs false) ∧ ∀ x, (page 1 xs false).strip 0 = some x → x.state = .damaged := by
  refine ⟨rfl, by decide +kernel, ?_⟩
  simp [page, Page.strip, strip, hosting, withDoc, doc, State.onPmc, State.onHlc, State.doc, Tbl.get, Doc.filling]

theorem met_HostStripsAreWritten :
    (∀ n ∈ [0, 79], let s := hostAdd n 64
      s.running = true ∧ s.hlc.restarting = false ∧ s.hlc.hostDoc = some 1 ∧ s.resvOf .hlc = none
        ∧ ∃ d p, s.doc 1 = some d ∧ d.filling = some p ∧ (∀ y ∈ p.strips, 64 ≤ y.lines) ∧ p.strips.length = n ∧ n < 80)
      ∧ (let s := hostAdd 80 64
        s.resvOf .hlc = none ∧ ∃ p, (s.doc 1).bind (·.filling) = some p ∧ (∀ y ∈ p.strips, 64 ≤ y.lines) ∧ 80 ≤ p.strips.length)
      ∧ (∃ p, ((hostAdd 1 63).doc 1).bind (·.filling) = some p ∧ ∃ y ∈ p.strips, y.lines < 64)
      ∧ (hostAdd 1 64).pmc.free.length = 4096 ∧ (∀ n ∈ [16, 17], ((hostAdd 1 64).onPmc ({ · with free := List.range n })).pmc.free.length = n)
      ∧ (∀ c ∈ [0, 15488, 15489], let s := resvOfHost c (hosting [])
        s.resvOf .hlc = some ⟨.hlc, [4, 5], 1, ⟨0, 64, c, [], .filling⟩⟩)
      ∧ 15488 + (List.replicate 960 (0 : Byte)).length ≤ 16448 ∧ 16448 < 15489 + (List.replicate 960 (0 : Byte)).length
      ∧ (∀ k ∈ [1, 960], 1 ≤ (List.replicate k (0 : Byte)).length ∧ (List.replicate k (0 : Byte)).length ≤ 960) ∧ 960 < (List.replicate 961 (0 : Byte)).length
      ∧ (withDoc (doc .opened [page 1 [] true] 0 true false) up).doc 1 = some (doc .opened [page 1 [] true] 0 true false)
      ∧ (doc .opened [page 1 [] true] 0 true false).filling = none := by
  refine ⟨?_, ⟨rfl, _, rfl, by decide +kernel, by decide +kernel⟩, ⟨_, rfl, by decide +kernel⟩, ?_, ?_, ?_, by decide +kernel, by decide +kernel, by decide +kernel,
    by decide +kernel, rfl, rfl⟩
  · intro n hn
    exact ⟨rfl, rfl, rfl, rfl, _, _, rfl, rfl, by revert n; decide +kernel, by revert n; decide +kernel, by revert n; decide⟩
  · simp only [hostAdd, hosting, withDoc, State.onPmc, State.onHlc, up, State.reset, State.powerUp, Pmc.reset, List.length_range]; rfl
  · intro n _
    simp only [State.onPmc, List.length_range]
  · intro c _
    rfl

theorem met_DocumentsAreEndedAndFreed :
    (one .closed 0 false false).docOpen 1 = false ∧ (one .opened 0 false false).docOpen 1 = true ∧ Tbl.wf (one .closed 0 false false).pmc.docs
      ∧ (∀ s ∈ [one .closed 0 false false, one .closed 1 false false, one .opened 0 false false, one .abandoned 0 true false], (s.doc 1).isSome = true)
      ∧ (∀ s ∈ [one .closed 0 false false, one .closed 1 false true], s.running = true ∧ s.hlc.restarting = false ∧ (s.doc 2).isNone = true)
      ∧ ((one .closed 1 false true).doc 1).map (·.deletePending) = some true ∧ ((one .closed 1 false false).doc 1).map (·.deletePending) = some false
      ∧ (∀ n ∈ [127, 128], let s := (scanning .memoryWait).onPmc ({ · with free := List.range n, scanFloor := 129 })
        s.scn.state = .memoryWait ∧ (129 ≤ ([7] ++ s.pmc.free).length) = (n = 128)) ∧ up.scn.state ≠ .memoryWait := by decide +kernel

theorem met_WritersEndDocuments :
    ((hosting [strip 0 64]).doc 1).map (·.state) = some .opened ∧ Tbl.wf (hosting [strip 0 64]).pmc.docs
      ∧ ((hosting [strip 0 64]).doc 1).bind (·.filling) = some (page 1 [strip 0 64] false) ∧ ((resvOfHost 10 (hosting [])).resvOf .hlc).isSome = true := by decide +kernel

theorem met_DocDeleteByHolders :
    ∀ x ∈ [(DocState.opened, 0, false), (.closed, 1, true), (.closed, 0, false), (.closed, 1, false)],
      let s := one x.1 x.2.1 true x.2.2
      s.running = true ∧ s.hlc.restarting = false ∧ s.doc 2 = none
        ∧ (s.doc 1).map (fun d => (d.state, d.holders, d.deletePending)) = some x := by decide +kernel

theorem met_CursorsReadTheStream :
    up.takes ∧ up.doc 1 = none ∧ up.pmc.cursors.get 1 = none ∧ up.pmc.cursors.lowestEmpty 4 1
      ∧ (let s := up.onPmc ({ · with cursors := [1, 2, 3, 4].map fun k => (k, ⟨1, 1, 0, 0, .opened⟩) })
        s.takes ∧ ∀ k, 1 ≤ k → k ≤ 4 → (s.pmc.cursors.get k).isSome = true)
      ∧ (let s := up.onPmc ({ · with cursors := [1, 2, 3].map fun k => (k, ⟨1, 1, 0, 0, .opened⟩) })
        s.takes ∧ s.pmc.cursors.lowestEmpty 4 4)
      ∧ (∀ st ∈ [CursorState.opened, .atEnd, .revoked], ((cursor st 0 (one .closed 1 true false)).pmc.cursors.get 4).map (·.state) = some st)
      ∧ (∀ o ∈ [0, 72], let s := cursor .opened o (one .closed 1 true false)
        ∃ d, s.doc 1 = some d ∧ ∀ y rest, s.stream d 1 0 = y :: rest → o ≤ y.2.2.length)
      ∧ (let s := cursor .opened 0 (withDoc (doc .opened [] 1 true false) up)
        ∃ d, s.doc 1 = some d ∧ s.stream d 1 0 = [] ∧ d.state = .opened) := by
  refine ⟨⟨rfl, rfl⟩, rfl, rfl, lowestEmpty_of (by decide +kernel), ⟨⟨rfl, rfl⟩, allTo (by decide +kernel)⟩, ⟨⟨rfl, rfl⟩, lowestEmpty_of (by decide +kernel)⟩, by decide +kernel, ?_,
    ⟨_, rfl, rfl, rfl⟩⟩
  intro o ho
  refine ⟨_, rfl, fun y rest h => ?_⟩
  have h1 := (List.cons.inj h).1
  have h2 : ∀ o ∈ [0, 72], o ≤ ((cursor CursorState.opened o (one DocState.closed 1 true false)).storedForm (page 1 [strip 0 64] true) (strip 0 64)).length := by
    decide +kernel
  rw [← h1]; exact h2 o ho

/-- Two damaged strips in a closed document, read by cursor 4. -/
def twoStrips : State := cursor .opened 0
  (withDoc (doc .closed [page 1 [{ strip 0 64 with state := .damaged }, { strip 1 10 with state := .damaged }] true] 1 true false) up)

/-- A cursor's position after a read: at the next strip's start when a strip is read to its end, in the last strip at its end (R22, R23). -/
theorem test_cursor_position :
    (∃ d y z, twoStrips.doc 1 = some d ∧ twoStrips.stream d 1 0 = [y] ++ z :: [] ∧ y.2.2.length = 8 ∧ z.2.2.length = 8)
      ∧ [7, 8, 16].map (fun n => (runCommands [.stripRead 0 4 n] twoStrips).map fun t => (t.pmc.cursors.get 4).map fun c => (c.strip, c.offset, c.state))
        = [some (some (0, 7, .opened)), some (some (1, 0, .opened)), some (some (1, 8, .atEnd))] :=
  ⟨⟨_, _, _, rfl, rfl, rfl, rfl⟩, by decide +kernel⟩

theorem met_ArbiterGrantsByGroup :
    up.running = true ∧ up.arb.busy = none ∧ up.nextClient = none ∧ (∀ r l, up.lineWaits r l = false)
      ∧ (∀ c ∈ [Client.scn, .prt, .hlc, .lu 3], (up.onArb ({ · with busy := some c })).arb.busy = some c)
      ∧ (let s := (callIn .transfer caller).onArb ({ · with lu := #v[1, 0, 0, 0] })
        s.arb.busy = none ∧ s.lineWaits false 0 = true ∧ (∀ l, s.lineWaits true l = false) ∧ s.nextClient = some (.lu 0))
      ∧ (let s := (callIn .transfer answerer).onArb ({ · with lu := #v[1, 0, 0, 0] })
        s.arb.busy = none ∧ s.lineWaits true s.arb.recvPtr = true) := by
  decide +kernel

/-- The pointers stand at line 1 and line 0 alone waits: the last line in turn. -/
theorem met_ArbiterGrantsInTurn :
    ∀ c ∈ [caller, answerer], let s := (callIn .transfer c).onArb ({ · with lu := #v[1, 0, 0, 0], recvPtr := 1, sendPtr := 1 })
      s.arb.busy = none ∧ s.lineWaits (!c.caller) 0 = true ∧ (∀ l : Line, (l - 1).val < ((0 : Line) - 1).val → s.lineWaits (!c.caller) l = false)
        ∧ ∀ l, s.lineWaits c.caller l = false := by decide +kernel

/-! ### Scanning and printing -/

def jobOf (s : State) : Option (Nat × Resolution) := s.scn.job.map fun r => (r.doc, r.params.res)
def presetOf (w : Width) (spec : Option (Nat × Bin)) : Preset := { params with width := w, spec }
/-- SCN in a state with document 1, page `n` of it FILLING when `n` is not 0. -/
def onSheet (st : ScanState) (n : Nat) : State :=
  withDoc (doc .opened ((List.range n).map fun k => page (k + 1) [strip 0 64] (k + 1 < n)) 0 true false) (scanning st)

theorem met_ScanJobsBegin :
    up.takes ∧ up.scn.state = .idle ∧ up.scn.preset = none ∧ (scanning .waitPaper).takes ∧ (scanning .waitPaper).scn.state ≠ .idle
      ∧ (let s := up.onScn ({ · with preset := some params })
        s.takes ∧ s.scn.preset = some params)
      ∧ (∀ spec ∈ [none, some (1, (0 : Bin)), some (99, 3)], (presetOf .a4 spec).spec.all (fun x => 1 ≤ x.1 && x.1 ≤ 99) = true)
      ∧ ((presetOf .b4 none).width = .b4 ∧ up.pins.moduleB4 = false) ∧ ¬((presetOf .a4 none).width = .b4 ∧ up.pins.moduleB4 = false)
      ∧ (∃ d e t, scanMake true (presetOf .a4 (some (1, 0))) up = .ok (d, e, t)) ∧ (∃ t, scanMake false params fullDocs = .error t)
      ∧ (fullDocs.takes ∧ fullDocs.scn.state = .idle ∧ ∀ k, 1 ≤ k → k ≤ 64 → (fullDocs.doc k).isSome = true)
      ∧ up.pmc.docs.lowestEmpty 64 1 ∧ params.spec = none :=
  ⟨⟨rfl, rfl⟩, rfl, rfl, ⟨rfl, rfl⟩, by decide, ⟨⟨rfl, rfl⟩, rfl⟩, by decide, by decide +kernel, by decide +kernel, ⟨_, _, _, rfl⟩, ⟨_, rfl⟩,
    ⟨⟨rfl, rfl⟩, rfl, allTo (by decide +kernel)⟩, lowestEmpty_of (by decide +kernel), rfl⟩

theorem met_ScanJobsAreStopped :
    (∀ st ∈ [ScanState.idle, .waitPaper, .acquire, .pageGap, .scanning, .stopping, .memoryWait],
      (scanning st).running = true ∧ (scanning st).scn.state = st ∧ (scanning st).hlc.restarting = false ∧ (scanning st).scn.job.isSome = true) := by decide +kernel

theorem met_ScanLinesAreTaken :
    (∀ n ∈ [0, 6, 7], ∀ e ∈ [true, false], let s := (scanning .acquire).onScn ({ · with hits := n, expecting := e })
      s.running = true ∧ s.scn.job.isSome = true ∧ s.scn.state = .acquire ∧ s.scn.expecting = e ∧ s.scn.hits ≤ 7)
      ∧ (∀ st ∈ [ScanState.pageGap, .scanning, .stopping], (scanning st).running = true ∧ (scanning st).scn.job.isSome = true)
      ∧ (∀ n ∈ [0, 5056], let s := (scanning .scanning).onScn ({ · with lineNo := n })
        s.scn.job.isSome = true ∧ s.scn.lineNo % 64 = 0 ∧ s.resvOf .scn = none ∧ (s.onPmc ({ · with free := List.range 16 })).pmc.free.length < 17
          ∧ 17 ≤ (s.onPmc ({ · with free := List.range 17 })).pmc.free.length)
      ∧ ∀ n ∈ [1, 63], let s := ((scanning .scanning).onScn ({ · with lineNo := n })).onPmc ({ · with resv := [⟨.scn, [4, 5], 1, ⟨0, n, 40, [], .filling⟩⟩] })
        s.scn.lineNo % 64 ≠ 0 ∧ s.resvOf .scn = some ⟨.scn, [4, 5], 1, ⟨0, n, 40, [], .filling⟩⟩ := by decide +kernel

/-- Lines of both widths, of every coded kind; the greatest RUNS line, and one run byte more. -/
def half (n : Nat) : Pixels := (List.range n).map fun i => i % 2 == 1

theorem met_LinesAreCodedAndDecoded :
    (∀ n ∈ [2048, 2432], (whiteLine n).length = n ∧ (half n).length = n) ∧ (whiteLine 1948 ++ List.replicate 100 true).length = 2048
      ∧ (List.replicate 255 (0 : Byte)).length < 256 ∧ 256 ≤ (List.replicate 256 (0 : Byte)).length
      ∧ (∀ rs ∈ [[2048], [0, 127, 1921], (List.replicate 127 1 ++ [1921])], rs.sum = 2048 ∧ 0 < rs.getLastD 0 ∧ (rs.flatMap runBytes).length ≤ 255) := by decide +kernel

/-- The lines 3 and 4 of the worked example of section 2.5, coded and decoded again. -/
theorem test_line_coding :
    let px : Pixels := whiteLine 100 ++ List.replicate 20 true ++ whiteLine 1928
    codeLine .a4 none px = ([0x03#8, 0x64#8, 0x14#8, 0x87#8, 0x88#8], px) ∧ codeLine .a4 (some px) px = ([0x01#8], px)
      ∧ (decodeStrip .a4 2 [0x03#8, 0x64#8, 0x14#8, 0x87#8, 0x88#8, 0x01#8] == [px, px]) = true := by decide +kernel

theorem met_SheetsBeginAndEnd :
    (∀ n ∈ [0, 249], let s := withDoc (doc .opened ((List.range n).map fun k => page (k + 1) [strip 0 64] true) 0 true false) (scanning .pageGap)
      s.running = true ∧ s.scn.job.isSome = true ∧ s.scn.state = .pageGap ∧ ∃ d, s.doc 1 = some d ∧ d.state = .opened ∧ d.pages.length = n ∧ n < 250 ∧ d.filling = none)
      ∧ (∀ st ∈ [ScanState.scanning, .stopping], let s := onSheet st 1
        s.running = true ∧ jobOf s = some (1, .fine) ∧ s.scn.state = st
          ∧ ((stripClose .scn .stored { s with pins := { s.pins with pageSensor := false } }).doc 1).bind (·.filling) = some (page 1 [strip 0 64] false))
      ∧ (onSheet .idle 1).scn.state ≠ .scanning ∧ (onSheet .idle 1).scn.state ≠ .stopping ∧ (onSheet .idle 1).scn.state ≠ .pageGap := by
  refine ⟨?_, by decide +kernel, by decide, by decide, by decide⟩
  intro n hn
  exact ⟨rfl, rfl, rfl, _, rfl, rfl, by revert n; decide +kernel, by revert n; decide, by revert n; decide +kernel⟩

/-- All 48 slots of the print entries taken, entry `k` finished as its number says, when `done`. -/
def fullEntries (done : Bool) : State :=
  (one .closed 1 true false).onPrt ({ · with
    entries := (List.range 48).map fun k => (k + 1, { entry (if done then .done else .waiting) with finish := if done then some (k + 1) else none }) })

theorem met_PrintQueuesAnEntry :
    (∀ v ∈ [(3, 0, 1, 1, 1), (0, 2, 64, 250, 99)], let (bin, cls, doc, a, copies) := v
      bin ≤ 3 ∧ cls ≤ 2 ∧ (1 ≤ doc ∧ doc ≤ 64) ∧ (1 ≤ a ∧ a ≤ 250) ∧ 1 ≤ copies ∧ copies ≤ 99)
      ∧ (∀ v ∈ [(4, 0, 1, 1, 1), (0, 3, 1, 1, 1), (0, 0, 0, 1, 1), (0, 0, 65, 1, 1), (0, 0, 1, 0, 1), (0, 0, 1, 251, 1), (0, 0, 1, 1, 0), (0, 0, 1, 1, 100)],
        let (bin, cls, doc, a, copies) := v
        3 < bin ∨ 2 < cls ∨ doc = 0 ∨ 64 < doc ∨ a = 0 ∨ 250 < a ∨ copies = 0 ∨ 99 < copies)
      ∧ (let s := fullEntries false
        s.takes ∧ (∀ k, 1 ≤ k → k ≤ 48 → ∃ e, s.entry k = some e ∧ e.unfinished = true) ∧ ∀ x ∈ s.prt.entries, x.2.unfinished = true)
      ∧ (let s := fullEntries true
        s.takes ∧ (∀ j, 1 ≤ j → j ≤ 48 → (s.entry j).isSome = true) ∧ ∃ f, (1, f) ∈ s.prt.entries ∧ f.unfinished = false
          ∧ ∀ x ∈ s.prt.entries, x.2.unfinished = false → x.1 ≠ 1 → f.finish.getD 0 < x.2.finish.getD 0)
      ∧ up.prt.entries.lowestEmpty 48 1 ∧ up.doc 1 = none
      ∧ (∃ d, (withDoc (doc .closed [] 0 true false) up).doc 1 = some d ∧ d.deletePending = false ∧ d.state ≠ .opened ∧ d.pages = [])
      ∧ (∃ d, (one .closed 0 true false).doc 1 = some d ∧ d.deletePending = false ∧ d.state ≠ .opened ∧ d.pages ≠ [] ∧ 1 ≤ d.pages.length ∧ d.pages.length < 2)
      ∧ ∃ d, (one .opened 0 true false).doc 1 = some d ∧ d.deletePending = false ∧ d.state = .opened := by
  refine ⟨by decide, by decide, ⟨⟨rfl, rfl⟩, allTo fun k hk => ?_, by decide +kernel⟩, ⟨⟨rfl, rfl⟩, allTo (by decide +kernel), _, List.mem_cons_self, rfl, by decide +kernel⟩,
    lowestEmpty_of (by decide +kernel), rfl, ⟨_, rfl, rfl, by decide, rfl⟩, ⟨_, rfl, rfl, by decide, by decide, by decide, by decide⟩, _, rfl, rfl, rfl⟩
  have h : ∀ k, k < 48 → ((fullEntries false).entry (k + 1)).map (·.unfinished) = some true := by decide +kernel
  obtain ⟨e, he, hu⟩ := Option.map_eq_some_iff.mp (h k hk)
  exact ⟨e, he, hu⟩

/-- A scan job with a print spec: no place for its entry, the lowest empty slot, the oldest finished record. -/
theorem met_ScanJobsBeginWithAnEntry :
    (∀ x ∈ [(1, (0 : Bin)), (99, 3)], (presetOf .a4 (some x)).spec = some x ∧ 1 ≤ x.1 ∧ x.1 ≤ 99)
      ∧ (∀ b ∈ [true, false], (fullEntries b).pmc.docs.lowestEmpty 64 2) ∧ (∀ x ∈ (fullEntries false).prt.entries, x.2.unfinished = true)
      ∧ up.pmc.docs.lowestEmpty 64 1 ∧ up.prt.entries.lowestEmpty 48 1 :=
  ⟨by decide, fun b _ => lowestEmpty_of (by revert b; decide +kernel), by decide +kernel, lowestEmpty_of (by decide +kernel), lowestEmpty_of (by decide +kernel)⟩

theorem met_PrintEntriesAreEnded :
    (∀ st ∈ [EntryState.waiting, .printing, .done, .cancelled], let s := printing .printing st
      s.running = true ∧ s.hlc.restarting = false ∧ s.entry 2 = none ∧ (s.entry 1).map (·.state) = some st ∧ s.prt.page = none)
      ∧ (let s := (printing .printing .printing).onPrt ({ · with page := some ⟨[0], none, [], none, 0⟩ })
        (s.entry 1).map (·.state) = some .printing ∧ s.prt.page.isSome = true)
      ∧ (printing (.fault .headHot) .waiting).prt.engine = .fault .headHot ∧ up.pins.overcurrent = false ∧ up.pins.headTemp < up.prt.thermal.maximum
      ∧ ((one .closed 1 false false).doc (entry .printing).doc).isSome = true ∧ Tbl.wf (one .closed 1 false false).pmc.docs
      ∧ (∀ st ∈ [EntryState.waiting, .printing, .done, .cancelled], (entry st).unfinished = (st == .printing || st == .waiting)) := by decide +kernel

theorem met_SelectionTakesTheBestEntry :
    up.choice = none ∧ (∀ x ∈ up.prt.entries, up.selectable x.1 x.2 = false)
      ∧ (let s := (one .closed 1 true false).onPrt ({ · with entries := [(1, entry .waiting), (2, { entry .waiting with cls := .flash, enqueue := 2 })] })
        s.choice = some 2 ∧ s.selectable 1 (entry .waiting) = true)
      ∧ (let s := (one .closed 1 true false).onPrt ({ · with entries := [(1, entry .printing), (2, { entry .waiting with enqueue := 0 })], current := some 1 })
        s.choice = some 1 ∧ (s.entry 2).map (s.selectable 2) = some true) := by decide +kernel

theorem met_SelectionReplacesTheCurrentEntry :
    let s := (one .closed 1 true false).onPrt ({ · with entries := [(1, entry .printing), (2, { entry .waiting with cls := .flash })], current := some 1 })
    s.selectable 2 { entry .waiting with cls := .flash } = true ∧ s.choice = some 2 ∧ s.prt.current = some 1 ∧ s.choice ≠ some 1
      ∧ (s.entry 1).map (·.unfinished) = some true := by decide +kernel

/-- The current entry, PRINTING, at page 1 of document 1, whose strips are given; the page in progress as given. -/
def onPaper (strips : List Strip) (g : Option PrintPage) : State :=
  (withDoc (doc .closed [page 1 strips true] 1 true false) up).onPrt ({ · with entries := [(1, entry .printing)], current := some 1, page := g })
def lostStrip (n : Nat) : Strip := { strip n 2 with coded := 0, blocks := [], state := .damaged }

theorem met_SelectionStartsPages :
    (∀ v ∈ [(true, false), (false, true), (false, false)], let s := { up with pins := { up.pins with coverClosed := v.1, printPaper := v.2 } }
      s.pins.coverClosed = false ∨ s.pins.printPaper = false)
      ∧ ¬(up.pins.coverClosed = false ∨ up.pins.printPaper = false) ∧ up.currentPage = none
      ∧ (onPaper [strip 0 64] none).currentPage = some (page 1 [strip 0 64] true) ∧ (selectPick (onPaper [strip 0 64] none)).prt.current.isSome = true := by decide +kernel

theorem met_PageStripsAreReadForPrinting :
    (let s := onPaper [strip 0 64] none
     s.prt.current = some 1 ∧ (s.entry 1).isSome = true ∧ (s.doc (entry .printing).doc).isSome = true ∧ s.prt.page = none)
      ∧ (∀ x ∈ [strip 0 64, lostStrip 0], ∀ ready ∈ [[], [[true]]],
        let g : PrintPage := ⟨[0, 1], none, ready, none, 0⟩
        let p := page 1 [x, lostStrip 1] true
        let s := onPaper p.strips (some g)
        s.prt.page = some g ∧ s.currentPage = some p ∧ p.strip 0 = some x ∧ g.toRead = [0, 1] ∧ (p.strip 1).isSome = true)
      ∧ (lostStrip 0).state ≠ .stored ∧ up.stripPrintLines (page 1 [lostStrip 0] true) (lostStrip 0) ≠ []
      ∧ (∀ n ∈ [0, 1], let g : PrintPage := ⟨[], some 0, [], none, 0⟩
        let s := (onPaper [strip 0 64] (some g)).onArb ({ · with prt := n })
        s.prt.page = some g ∧ s.arb.prt = n) := by decide +kernel

theorem met_LineTimesHeatAndCool :
    up.running = true ∧ (∀ n ∈ [0, 65535], (up.onPrt ({ · with heat := n })).prt.heat ≤ 65535)
      ∧ up.prt.engine = .idle ∧ 199 < up.prt.thermal.maximum ∧ up.prt.thermal.maximum ≤ 200
      ∧ (∀ n ∈ [39999, 40000], let line := List.replicate 4 true
        let s := (printing .printing .printing).onPrt ({ · with heat := n, page := some ⟨[], none, [line, line], none, 0⟩ })
        s.running = true ∧ s.prt.engine = .printing ∧ s.prt.page.map (·.ready) = some [line, line]
          ∧ (if n = 40000 then s.prt.thermal.trip ≤ s.prt.heat else s.prt.heat < s.prt.thermal.trip))
      ∧ (printing .printing .printing).prt.engine = .printing := by decide +kernel

theorem met_PagesArePrintedAndSpoiled :
    (∀ g ∈ [⟨[], none, [[true]], none, 0⟩, ⟨[], none, [[true]], some [[false]], 0⟩, ⟨[1], none, [[true]], none, 0⟩, ⟨[], some 1, [[true]], none, 0⟩, ⟨[], none, [], none, 0⟩],
      let s := (printing .printing .printing).onPrt ({ · with page := some g })
      s.prt.engine = .printing ∧ s.prt.page = some g ∧ s.prt.heat < s.prt.thermal.trip ∧ s.prt.current = some 1 ∧ (s.entry 1).isSome = true)
      ∧ (up.onPrt ({ · with page := some ⟨[], none, [], none, 0⟩ })).prt.current = none
      ∧ (∀ r, (printing .thermalPause .printing).prt.engine ≠ .fault r) ∧ (printing .thermalPause .printing).prt.thermal.maximum ≤ 255 := by
  refine ⟨by decide +kernel, rfl, fun r h => (by cases h), by decide⟩

theorem met_PrintSensorsHaltTheEngine :
    ∀ e ∈ [Engine.idle, .warmup, .printing, .thermalPause, .halted .paperOut, .halted .coverOpen, .halted .warmupFail, .fault .headShort],
      (printing e .printing).running = true ∧ (printing e .printing).prt.engine = e ∧ (printing e .printing).pins.coverClosed = true
        ∧ (printing e .printing).pins.printPaper = true := by decide +kernel

/-! ### Lines and calls -/

def rawLine (rings value : Nat) (outside : Option Str) : RawLineConfig := ⟨true, true, true, rings, 0, outside, 0, value⟩
def allStates : List LineState :=
  [.disabled, .idle, .ringing, .seized, .dialling, .awaitAnswer, .answering, .handshake, .transfer, .clearing, .guard, .fault]
/-- A call of line 0 bound to recipient 1 of job 1, a log reservation carried. -/
def bound (st : LineState) (c : Call) : State :=
  (withJob (job .active [{ recip .bound with line := some 0 }]) (callIn st { c with recip := some (1, 1) })).onChg ({ · with resvs := [resv true] })
/-- A binding of recipient 1 of job 1 offered to line 0. -/
def offered (st : LineState) (cancelled : Bool) : State :=
  (withJob { job .queued [{ recip .eligible with offeredTo := some 0 }] with cancelRequested := cancelled } (inState st)).onChg ({ · with resvs := [resv false] })

theorem met_LineConfigurationIsReplaced :
    up.takes ∧ (∀ v ∈ [rawLine 0 0 none, rawLine 9 65535 (some [0x30])], v.answerRings ≤ 9 ∧ v.meterValue ≤ 65535 ∧ v.outside.all dialOk = true ∧ v.dialMode = DialMode.tone.code
        ∧ v.metering = Metering.none.code)
      ∧ (∀ v ∈ [rawLine 10 0 none, rawLine 0 65536 none], 9 < v.answerRings ∨ 65535 < v.meterValue)
      ∧ (∃ x, (rawLine 0 0 (some [])).outside = some x ∧ dialOk x = false) ∧ 3 < 4 ∧ 3 = (3 : Line).val := by
  exact ⟨⟨rfl, rfl⟩, by decide, by decide, ⟨_, rfl, by decide⟩, by decide, rfl⟩

theorem met_RingsAreCountedAndAnswered :
    (∀ st ∈ allStates, (inState st).running = true ∧ ((inState st).lu 0).state = st)
      ∧ (∀ g ∈ [true, false], let s := (inState .ringing).onLu 0 ({ · with ringGap := g })
        (s.lu 0).state = .ringing ∧ (s.lu 0).ringGap = g)
      ∧ (∀ n ∈ [63, 64], ((up.onPmc ({ · with free := List.range n })).pmc.free.length < 64) = (n < 64))
      ∧ 64 ≤ (inState .ringing).pmc.free.length
      ∧ ∀ n ∈ [127, 128], ((inState .ringing).onChg ({ · with records := List.replicate n (record 1) })).chg.records.length
          + ((inState .ringing).onChg ({ · with records := List.replicate n (record 1) })).chg.resvs.length = n := by
  refine ⟨by decide +kernel, by decide +kernel, ?_, by decide +kernel, by decide +kernel⟩
  intro n _; simp only [up, State.onPmc, State.reset, State.powerUp, Pmc.reset, List.length_range]

theorem met_LineVoltageAndTimers :
    (∀ st ∈ allStates, (inState st).running = true ∧ ((inState st).lu 0).state = st ∧ ((inState st).lu 0).faultTimer = false)
      ∧ ((inState .idle).onLu 0 ({ · with faultTimer := true }) |>.lu 0).faultTimer = true
      ∧ ∀ st ∈ [LineState.seized, .dialling, .awaitAnswer, .answering, .handshake, .transfer, .clearing],
        ((callIn st caller).lu 0).state.inCall = true ∧ ((callIn st caller).lu 0).call = some caller := by decide +kernel

theorem met_BindingsAreTakenOrRefused :
    up.running = true ∧ up.offer 0 = none
      ∧ (∀ st ∈ [LineState.idle, .guard], ∀ c ∈ [true, false], let s := offered st c
        s.running = true ∧ s.offer 0 = some (1, 1) ∧ (s.recip 1 1).isSome = true ∧ (s.job 1).map (·.cancelRequested) = some c
          ∧ (s.lu 0).config.enabled = true ∧ (s.lu 0).config.outgoing = true ∧ (s.lu 0).voltage = true ∧ (s.lu 0).state = st
          ∧ s.carried 0 = none ∧ (s.chg.resvs.find? (·.grantedOn 0)) = some (resv false)) := by decide +kernel

theorem met_DiallingGoesOnByCharacter :
    (∀ st ∈ allStates, ∀ left ∈ [[], [0x57], [0x31], [0x57, 0x31]], ∀ p ∈ [true, false], let c := { caller with dialLeft := left, retryPause := p }
      (callIn st c).running = true ∧ (callIn st c).call 0 = some c ∧ ((callIn st c).lu 0).state = st)
      ∧ ([0x57] : List Byte).head? = some 0x57#8 ∧ ∃ b, ([0x31] : List Byte).head? = some b ∧ b ≠ 0x57#8 := by
  refine ⟨by decide +kernel, rfl, _, rfl, by decide⟩

theorem met_AnswersAreAwaited :
    (∀ st ∈ allStates, (callIn st caller).running = true ∧ (callIn st caller).call 0 = some caller ∧ ((callIn st caller).lu 0).state = st)
      ∧ caller.recip = none ∧ ({ caller with recip := some (1, 1) } : Call).recip = some (1, 1)
      ∧ (withJob (job .active [recip .bound]) up).recip 1 1 = some (recip .bound) := by decide +kernel

/-- Line 0 in SEIZED, incoming allowed as given, `n` blocks free, `k` records in the log. -/
def glaring (incoming : Bool) (n k : Nat) : State :=
  (((bound .seized caller).onLu 0 fun u => { u with config := { u.config with incoming } }).onPmc ({ · with free := List.range n })).onChg
    ({ · with records := List.replicate k (record 1) })

theorem met_GlareGivesTheLineUp :
    (∀ b ∈ [true, false], ∀ v ∈ [(63, 0), (64, 126), (64, 127)], let s := glaring b v.1 v.2
      (s.call 0).isSome = true ∧ (s.lu 0).config.incoming = b ∧ s.pmc.free.length = v.1 ∧ s.chg.records.length + s.chg.resvs.length = v.2 + 1) := by decide +kernel

theorem met_CallsEndInGuard :
    ∀ c ∈ [caller, answerer], (bound .transfer c).call 0 = some { c with recip := some (1, 1) } ∧ (bound .transfer c).carried 0 = some (resv true)
      ∧ (settle 0 c (bound .transfer c)).carried 0 = some (resv true) ∧ (callIn .transfer c).carried 0 = none
      ∧ (settle 0 c (callIn .transfer c)).carried 0 = none
      ∧ ∀ n ∈ [0, 1], ∀ o ∈ [none, (resv true).out], let r := { resv true with charge := n, out := o }
        (up.onChg ({ · with resvs := [r] })).carried 0 = some r := by decide +kernel

theorem met_EndRequestsEndCalls :
    up.call 0 = none ∧ (callIn .clearing { caller with outcome := some .busy }).call 0 = some { caller with outcome := some .busy }
      ∧ (∀ st ∈ [LineState.seized, .dialling, .awaitAnswer, .handshake, .transfer, .clearing, .guard], (callIn st caller).call 0 = some caller ∧ ((callIn st caller).lu 0).state = st)
      ∧ caller.caller = true ∧ answerer.caller = false ∧ caller.signal = none ∧ ({ caller with waitInterval := true } : Call).waitInterval = true := by decide +kernel

theorem met_CallsAreCharged :
    (let c : Call := { caller with metering := .pulse };
      c.caller = true ∧ (callIn .clearing c).running = true ∧ (callIn .clearing c).call 0 = some c ∧ ((callIn .clearing c).lu 0).state = .clearing) ∧ up.call 0 = none
      ∧ (callIn .clearing answerer).call 0 = some answerer ∧ (callIn .seized caller).call 0 = some caller ∧ up.carried 0 = none
      ∧ (let s := (bound .transfer caller).onChg ({ · with resvs := [{ resv true with unit := some (2, 60), intervalEnd := some 60 }] })
        (s.carried 0).map (fun r => (r.unit, r.intervalEnd)) = some (some (2, 60), some 60))
      ∧ (bound .transfer caller).carried 0 = some (resv true) ∧ (resv true).unit = none ∧ (resv true).out.isSome = true
      ∧ 0 < up.chg.accounts.length ∧ up.chg.accounts.length = 32 ∧ (resv true).charge ≤ maxAmount ∧ ((bound .transfer caller).account 0).spent ≤ maxAmount
      ∧ maxAmount + 0 ≤ maxAmount := by decide +kernel

/-- The account of a call that has spent its limit, with the policy given. -/
def spentOut (p : Policy) : State :=
  ((bound .transfer caller).onAccount 0 ({ · with limit := 10, spent := 10, policy := p })).onChg ({ · with resvs := [{ resv true with lastPulse := 1 }] })

theorem met_OverrunsAreChecked :
    (∀ p ∈ [Policy.cut, .afterPage, .afterCall], let a := (spentOut p).account 0
      ((spentOut p).carried 0).map (fun r => (r.out.isSome, r.unit, r.lastPulse, r.actionTaken)) = some (true, none, 1, false) ∧ a.limit ≠ 0 ∧ a.limit < a.spent + 1
        ∧ a.policy = p ∧ a.flashExempt = false)
      ∧ (up.carried 0).bind (·.out) = none := by decide +kernel

theorem met_FramesAreSent :
    (∀ sg ∈ [none, some Signal.answerTone, some (.frame .waiting), some (.frame (.plan [] 6 false 1)), some (.burst 6), some (.strip 0 [])],
      ∀ e ∈ [none, some ⟨true, .cancelled⟩, some ⟨false, .budget⟩], ∀ st ∈ [LineState.answering, .handshake, .clearing],
      let c := { caller with signal := sg, pendingEnd := e, lastFrame := some .waiting }
      (callIn st c).running = true ∧ (callIn st c).call 0 = some c ∧ ((callIn st c).lu 0).state = st ∧ c.reading = none) := by decide +kernel

theorem met_StripsAreDecoded :
    verifyStrip .a4 none 2 [0, 1] = true ∧ verifyStrip .b4 none 1 [4] = false ∧ verifyStrip .a4 none 1 [1] = false ∧ verifyStrip .a4 (some []) 1 [1] = true
      ∧ (∀ px ∈ [whiteLine 2048], px.length = if Width.a4 = .a4 then 2048 else 2432) := by decide +kernel

/-- A caller in TRANSFER at page 1 of document 1. -/
def sendingPage (st : DocState) (pages : List Page) (f : Call → Call) : State :=
  withDoc (doc st pages 1 true false) (callIn .transfer (f { caller with doc := some 1, current := some 1, accepts := (7, 3) }))

theorem met_PageBoundariesAreTaken :
    (∀ x ∈ [(DocState.closed, [page 1 [strip 0 64] true], some true), (.opened, [page 1 [strip 0 64] false], some false), (.opened, [], none), (.closed, [], none)],
      let s := sendingPage x.1 x.2.1 id
      (s.call 0).map (·.pendingEnd) = some none ∧ ((s.call 0).bind s.sendPage).map (·.complete) = x.2.2)
      ∧ pageFormat (7, 3) (page 1 [] true) = some (.fine, .a4) ∧ pageFormat (4, 3) (page 1 [] true) = none
      ∧ ((sendingPage .closed [] ({ · with pendingEnd := some ⟨false, .budget⟩ })).call 0).map (·.pendingEnd) = some (some ⟨false, .budget⟩) := by decide +kernel

theorem met_StripsGoOnTheLine :
    (∀ left ∈ [[], [0], [1]], ∀ r ∈ [none, some 0], ∀ n ∈ [0, 1],
      let s := (sendingPage .closed [page 1 [strip 0 64, { strip 1 64 with state := .damaged }] true] ({ · with toSend := left, reading := r })).onArb
        ({ · with lu := #v[n, 0, 0, 0] })
      (s.call 0).map (fun c => (c.toSend, c.reading)) = some (left, r) ∧ s.arb.need (.lu 0) = n ∧ ((s.call 0).bind s.sendPage).map (·.strips.length) = some 2
        ∧ (s.lu 0).state ≠ .dialling ∧ (s.lu 0).state ≠ .awaitAnswer)
      ∧ convertLines .a4 .a4 .super .fine [[true], [false], [false]] = [[true], [false]] := by decide +kernel

theorem met_WaitsAndClearsEndTheCall :
    (∀ b ∈ [caller, answerer], ∀ n ∈ [1, 2, 3], ∀ e ∈ [none, some ⟨false, .cancelled⟩], ∀ w ∈ [true, false], ∀ st ∈ [LineState.handshake, .transfer, .answering, .clearing],
      let c := { b with waitOn := w, sendings := n, pendingEnd := e, capsWait := !w, waitInterval := !w, lastFrame := some (.caps [] 6 7 3) }
      (callIn st c).running = true ∧ (callIn st c).call 0 = some c ∧ ((callIn st c).lu 0).state = st ∧ c.pageOpen = false) := by decide +kernel

/-- A caller that awaits the WAITING of its WAIT for page 1 of document 1. -/
def waitSent (st : DocState) (f : Call → Call) : State := sendingPage st [] fun c => f { c with waitOn := true, lastFrame := some (.pageEnd .wait 1 0) }

theorem met_WaitIntervalsEnd :
    (∀ w ∈ [true, false], let s := waitSent .closed ({ · with waitInterval := w })
      s.running = true ∧ (s.call 0).map (fun c => (c.caller && c.waitOn, c.waitInterval)) = some (true, w) ∧ (s.call 0).bind (·.doc) = some 1
        ∧ (s.call 0).bind (·.lastFrame) = some (.pageEnd .wait 1 0) ∧ s.docOpen 1 = false)
      ∧ (waitSent .opened id).docOpen 1 = true ∧ (waitSent .opened id).completeCount 1 = 0 ∧ ((waitSent .opened id).call 0).bind (·.current) = some 1 := by
  decide +kernel

/-- WAITING raises the WAIT count, with a pending end too; after an interval that is over it gives the boundary, here the end marker (R104). -/
theorem test_waiting :
    ((waiting 0 (waitSent .opened id)).call 0).map (fun c => (c.waits, c.waitInterval)) = some (1, true)
      ∧ ((waiting 0 (waitSent .opened ({ · with pendingEnd := some ⟨false, .budget⟩ }))).call 0).map (fun c => (c.waits, c.lastFrame)) = some (1, some .clear)
      ∧ ((waiting 0 (earlyBoundary 1 0 (waitSent .closed id))).call 0).map (fun c => (c.waits, c.lastFrame, c.waitOver)) = some (1, some (.pageEnd .last 1 0), false) := by
  decide +kernel

theorem met_CallersTakeReplies :
    (∀ f ∈ [CtlFrame.plan [] 6 false 1, .pageEnd .more 1 1, .pageEnd .last 250 80, .pageEnd .wait 2 0], ∀ o ∈ [true, false], ∀ st ∈ [LineState.handshake, .transfer],
      let c := { caller with waitOn := true, lastFrame := some f, pageOpen := o, capsWait := false }
      (callIn st c).running = true ∧ (callIn st c).call 0 = some c ∧ c.caller = true ∧ ((callIn st c).lu 0).state = st)
      ∧ (let c := { caller with capsWait := true }
        c.lastFrame = none ∧ (callIn .handshake c).call 0 = some c) := by decide +kernel

theorem met_AnswerersTakePlansAndBursts :
    (∀ b ∈ [none, some (BurstReply.measure 63), some .storeFull, some (.refuse .barredCaller)], ∀ p ∈ [true, false], ∀ st ∈ [LineState.handshake, .transfer],
      let c := { answerer with burstReply := b, planned := p, waitOn := true, planStep := some 1 }
      (callIn st c).running = true ∧ (callIn st c).call 0 = some c ∧ c.caller = false ∧ ((callIn st c).lu 0).state = st ∧ c.reception = none
        ∧ c.stripAfterFrame = false ∧ c.ended = .neither)
      ∧ (∀ v ∈ [(1, 1), (6, 250)], (1 ≤ v.1 ∧ v.1 ≤ answerer.capsMax) ∧ 1 ≤ v.2 ∧ v.2 ≤ 250)
      ∧ ∀ v ∈ [(0, 1), (7, 1), (1, 0), (1, 251)], ¬((1 ≤ v.1 ∧ v.1 ≤ answerer.capsMax) ∧ 1 ≤ v.2 ∧ v.2 ≤ 250) := by decide +kernel

theorem met_ReceivedDocumentsAreCreated :
    (∀ k, 1 ≤ k → k ≤ 64 → (fullDocs.doc k).isSome = true) ∧ (fullDocs.onPmc ({ · with docs := fullDocs.pmc.docs.del 64 })).pmc.docs.lowestEmpty 64 64 :=
  ⟨allTo (by decide +kernel), lowestEmpty_of (by decide +kernel)⟩

/-- A received page 1 in progress with the strips given, `n` blocks free. -/
def receiving (strips : List Strip) (n : Nat) (c : Call) : State :=
  (withDoc (doc .opened [page 1 strips false] 1 false false) (callIn .transfer c)).onPmc ({ · with free := List.range n })
def awaiting : Call := { answerer with waitOn := true, lastFrame := some (.checkResult true), current := some 1, highest := none }

theorem met_ReceivedStripsAreStored :
    (∀ xs ∈ [[], [strip 0 64], [{ strip 0 64 with state := .damaged }]], let s := receiving xs 17 awaiting
      s.running = true ∧ s.call 0 = some awaiting ∧ (s.lu 0).state = .transfer ∧ (s.doc 1).bind (·.filling) = some (page 1 xs false) ∧ s.resvOf (.lu 0) = none
        ∧ 17 ≤ s.pmc.free.length)
      ∧ awaiting.waitOn = true ∧ awaiting.burstReply = none ∧ awaiting.reception = none ∧ (∀ ok, awaiting.lastFrame ≠ some (.checkResult ok) ∨ ok = true) ∧ awaiting.doc = some 1
      ∧ (∀ v ∈ [(0, 1, 0), (79, 64, 16448)], awaiting.ended = .neither ∧ 1 = awaiting.expected ∧ v.1 ≤ 79 ∧ 1 ≤ v.2.1 ∧ v.2.1 ≤ 64 ∧ v.2.2 ≤ 16448)
      ∧ (∀ v ∈ [(80, 1, 0), (0, 0, 0), (0, 65, 0), (0, 1, 16449)], ¬(v.1 ≤ 79 ∧ 1 ≤ v.2.1 ∧ v.2.1 ≤ 64 ∧ v.2.2 ≤ 16448))
      ∧ (5 % 4 = Resolution.fine.code ∧ 5 / 4 % 2 = Width.b4.code) ∧ 3 % 4 = 3
      ∧ (∀ r ∈ [Reception.passing, .counted (List.replicate 8 0) 0 false [], .counted (List.replicate 8 0) 16448 true []],
        ({ awaiting with reception := some r }).reception = some r)
      ∧ (([0] : List Byte) ++ [0]).length < 1 + 2
      ∧ 1 + 2 ≤ (([0, 0] : List Byte) ++ [0]).length ∧ (∀ e ∈ [EndReached.last, .holdFull], ({ awaiting with ended := e }).ended ≠ .neither)
      ∧ ({ awaiting with doc := none }).doc = none := by decide +kernel

/-- A strip of one BLANK line in reception, in its reservation, the coded byte come. -/
def midStrip : State :=
  (receiving [] 17 { awaiting with reception := some (.counted (headerBytes 1 0 1 1 1) 1 true [0]) }).onPmc
    ({ · with resv := [⟨.lu 0, [40, 41], 1, ⟨0, 1, 0, [], .filling⟩⟩] })

/-- Its check bytes close it STORED, or DAMAGED when they are wrong; before they have come it goes on (R105, R196). -/
theorem test_stripCheck :
    let state (bs : List Byte) (k : Option (BitVec 16)) : Option (List StripState × Bool) := match exec (.dataStrip 0 bs k) midStrip with
      | .next t => (t.doc 1).map fun d => ((d.pages.flatMap (·.strips)).map (·.state), ((t.call 0).bind (·.reception)).isSome)
      | _ => none
    let check := crc16 (headerBytes 1 0 1 1 1 ++ [0])
    state [] (some check) = some ([.stored], false) ∧ state (crcBytes check) none = some ([.stored], false) ∧ state [] (some 0) = some ([.damaged], false)
      ∧ state [0] none = some ([], true) := by decide +kernel

/-- The first header of a page: `k` pages complete, `n` blocks free. -/
theorem met_HeadersBeginPages :
    ∀ k ∈ [0, 249], ∀ n ∈ [16, 17], let s := (withDoc (doc .opened ((List.range k).map fun i => page (i + 1) [strip 0 64] true) 1 false false)
        (callIn .transfer awaiting)).onPmc ({ · with free := List.range n })
      (s.doc 1).map (fun d => (d.state, d.filling, d.pages.length)) = some (.opened, none, k) ∧ k < 250 ∧ s.resvOf (.lu 0) = none ∧ s.pmc.free.length = n := by decide +kernel

theorem met_AnswerersJudgePages :
    (∀ f ∈ [none, some (CtlFrame.checkResult true), some (.stripReport [0])], ∀ n ∈ [0, 1, 3], ∀ rep ∈ [true, false], ∀ e ∈ [EndReached.neither, .last, .holdFull],
      let c := { awaiting with lastFrame := f, round := n, reported := rep, ended := e }
      let s := receiving [strip 0 64] 17 c
      s.running = true ∧ s.call 0 = some c ∧ c.caller = false ∧ (s.lu 0).state = .transfer ∧ c.waitOn = true ∧ c.burstReply = none ∧ c.reception = none
        ∧ (∀ ok, c.lastFrame ≠ some (.checkResult ok) ∨ ok = true) ∧ c.highest ≠ some 1 ∧ 1 = c.expected)
      ∧ (let c := { awaiting with highest := some 1, current := some 2, stripSince := false }
        c.highest = some 1 ∧ c.stripSince = false)
      ∧ ((receiving [strip 0 64] 17 awaiting).recvPage awaiting).isSome = true
      ∧ ((withDoc (doc .opened [] 1 false false) (callIn .transfer awaiting)).recvPage awaiting) = none
      ∧ (∀ w ∈ [23, 24], (receiving [] 17 { awaiting with waits := w }).call 0 = some { awaiting with waits := w }) := by decide +kernel

/-- Copies dropped, of a DAMAGED strip and of a number without a record; the damage decision over both. -/
theorem met_CopiesAreCounted :
    (∀ xs ∈ [[], [{ strip 0 64 with state := .damaged }]], let s := receiving xs 17 awaiting
      s.call 0 = some awaiting ∧ (s.doc 1).bind (·.filling) = some (page 1 xs false)
        ∧ ((damageDecision 1 2 [(1, 7)] (copyDropped 0 1 0 65 s)).doc 1).map (fun d => d.pages.map fun p => p.strips.map fun x => (x.no, x.lines, x.state))
          = some [[(0, 64, .damaged), (1, 7, .damaged)]])
      ∧ (∀ n ∈ [0, 1, 64, 65], (1 ≤ n ∧ n ≤ 64) = (n = 1 ∨ n = 64)) ∧ (up.doc 1).bind (·.filling) = none := by
  refine ⟨by decide +kernel, by decide, rfl⟩

/-- PAGE_END out of place: below the expected page, and above it, the end reached or not. -/
theorem met_OtherPagesAreRefused :
    ∀ e ∈ [EndReached.neither, .last], ∀ p ∈ [2, 5], let c := { awaiting with highest := some 3, stripSince := false, ended := e }
      (c.highest ≠ some p ∨ c.stripSince = true) ∧ p ≠ c.expected ∧ (c.expected < p) = (p = 5) ∧ (c.ended ≠ .neither) = (e = .last) := by decide

/-- A page record without strips; the end reached, and a strip after it. -/
theorem met_EmptyPagesAreRefused :
    ((receiving [] 17 awaiting).recvPage awaiting).map (·.strips) = some []
      ∧ (∀ e ∈ [EndReached.neither, .last, .holdFull], ({ awaiting with ended := e, reception := some .passing }).ended = e) ∧ awaiting.expected = 1 := by decide +kernel

def routing (sense : Sense) : State :=
  up.onRrt ({ · with routes := [(0, ⟨some [0x41], none, none, .all, .hold, 0⟩), (31, ⟨none, some 1, none, sense, .reject, 65535⟩)] })

theorem met_RoutesDecideDispositions :
    (∀ x ∈ (routing .none).rrt.routes, ¬x.2.sense.holds (x.2.conditions [0x42] 0 (routing .none).clock) = true)
      ∧ (∃ pre x post, (routing .any).rrt.routes = pre ++ x :: post ∧ (∀ y ∈ pre, ¬y.2.sense.holds (y.2.conditions [0x42] 0 (routing .any).clock) = true)
        ∧ x.2.sense.holds (x.2.conditions [0x42] 0 (routing .any).clock) = true)
      ∧ up.takes ∧ (∃ r, routeOf? ⟨none, some 15, some (0, 1439), 2, .print 3 99 2⟩ = some r) ∧ routeOf? ⟨none, none, none, 3, .hold⟩ = none
      ∧ (∃ x, actionOf? .reject = some x) ∧ actionOf? (.undefined 5) = none ∧ 3 = (3 : Bin).val := by
  refine ⟨by decide +kernel, ⟨[(0, ⟨some [0x41], none, none, .all, .hold, 0⟩)], (31, ⟨none, some 1, none, .any, .reject, 65535⟩), [], rfl, by decide +kernel, by decide +kernel⟩,
    ⟨rfl, rfl⟩, ⟨_, rfl⟩, by decide, ⟨_, rfl⟩, by decide, rfl⟩

/-- A reception record of line 0, the first page applied or not. -/
def received (applied : Bool) (a : Action) (s : State) : State :=
  s.onRrt ({ · with recs := #v[some ⟨1, ⟨none, a, false⟩, 0, applied, none, none⟩, none, none, none] })

theorem met_DispositionsAreCarriedOut :
    at4 up.rrt.recs 0 = none ∧ (∀ b ∈ [true, false], (at4 (received b .hold (one .opened 0 false false)).rrt.recs 0).map (·.applied) = some b)
      ∧ (one .opened 0 false false).completeCount 1 = 1 ∧ up.completeCount 1 = 0 ∧ (Action.print 0 1 .urgent).printCls = some .urgent
      ∧ (∃ e t, entryCreate 1 none none 1 0 0 (one .opened 0 false false) = .ok (e, t)) ∧ (∃ x, entryCreate 1 none none 1 0 0 up = .error x)
      ∧ (∃ j t, jobCreate true 1 0 0 none true true (some 3) (some 5) [[0x31]] (one .opened 0 false false) = .ok (j, t))
      ∧ (∃ x, jobCreate true 1 0 0 none true true (some 3) (some 5) [[0x31]] up = .error x)
      ∧ (∀ w ∈ [((0, 1439) : Nat × Nat), (1439, 0)], w.1 ≠ w.2) ∧ Action.printAndHold 0 1 .flash ≠ .hold := by
  refine ⟨rfl, by decide, by decide +kernel, rfl, rfl, ⟨_, _, rfl⟩, ⟨_, rfl⟩, ⟨_, _, rfl⟩, ⟨_, rfl⟩, by decide, by decide⟩

/-! ### Jobs, charging, clock and store -/

def opened (early : Bool) (delivered resume : Nat) (pages : List Page) (st : DocState) : State :=
  withJob { job .queued [{ recip .waiting with delivered, resume }] with early } (withDoc (doc st pages 1 false false) up)
def aPage (k : Nat) : Page := page k [strip 0 64] true
/-- 32 jobs, each of 8 recipients, finished or not. -/
def fullJobs (done : Bool) : State :=
  (one .closed 1 true false).onDsc ({ · with jobs := (List.range 32).map fun k => (k + 1, job (if done then .done else .queued) (List.replicate 8 (recip .failed))) })

/-- For 64 recipients the job that finished first yields, for 150 the next one too. -/
theorem met_FinishedJobsYield :
    let s := up.onDsc ({ · with jobs := [(1, { job .done (List.replicate 100 (recip .failed)) with finish := some 3 }),
      (2, { job .done (List.replicate 100 (recip .failed)) with finish := some 1 }), (3, { job .done (List.replicate 20 (recip .failed)) with finish := some 2 })] })
    Tbl.wf s.dsc.jobs ∧ (s.dsc.reclaim 64 32).jobs.map (·.1) = [1, 3] ∧ (s.dsc.reclaim 150 32).jobs.map (·.1) = [1] := by decide +kernel

theorem met_SendMakesAJob :
    (∀ v ∈ [(0, 0, 1, 1, 1), (31, 2, 9, 60, 64)], let (account, cls, att, int, n) := v
      account ≤ 31 ∧ cls ≤ 2 ∧ (1 ≤ att ∧ att ≤ 9) ∧ (1 ≤ int ∧ int ≤ 60) ∧ (1 ≤ (List.replicate n [(0x31 : Byte)]).length ∧ (List.replicate n [(0x31 : Byte)]).length ≤ 64)
        ∧ ∀ d ∈ List.replicate n [(0x31 : Byte)], dialOk d = true)
      ∧ (∀ v ∈ [(32, 0, 1, 1), (0, 3, 1, 1), (0, 0, 0, 1), (0, 0, 10, 1), (0, 0, 1, 0), (0, 0, 1, 61)], let (account, cls, att, int) := v
        ¬(account ≤ 31 ∧ cls ≤ 2 ∧ (1 ≤ att ∧ att ≤ 9) ∧ 1 ≤ int ∧ int ≤ 60))
      ∧ CalTime.zero.valid = true ∧ up.takes
      ∧ (let s := fullJobs false
        s.takes ∧ ¬((s.dsc.jobs.length < 32 ∨ ∃ x ∈ s.dsc.jobs, x.2.finished = true)
          ∧ 1 + ((s.dsc.jobs.filter fun x => !x.2.finished).map (·.2.recips.length)).sum ≤ 256))
      ∧ (let s := fullJobs true
        s.takes ∧ (∃ x ∈ s.dsc.jobs, x.2.finished = true) ∧ 64 + ((s.dsc.jobs.filter fun x => !x.2.finished).map (·.2.recips.length)).sum ≤ 256
          ∧ (s.dsc.reclaim 64 32).jobs.lowestEmpty 32 1 ∧ Tbl.wf s.dsc.jobs)
      ∧ up.doc 1 = none ∧ up.dsc.jobs.length < 32 ∧ 64 + (up.dsc.jobs.map (·.2.recips.length)).sum ≤ 256 ∧ (up.dsc.reclaim 64 32).jobs.lowestEmpty 32 1
      ∧ (∃ d, (withDoc (doc .closed [] 0 true false) up).doc 1 = some d ∧ d.deletePending = false ∧ d.state ≠ .opened ∧ d.completeCount = 0)
      ∧ (∃ d, (one .closed 0 true false).doc 1 = some d ∧ d.deletePending = false ∧ (d.state = .opened ∨ 0 < d.completeCount)) := by
  refine ⟨by decide +kernel, by decide, by decide, ⟨rfl, rfl⟩, ⟨⟨rfl, rfl⟩, by decide +kernel⟩,
    ⟨⟨rfl, rfl⟩, ⟨_, List.mem_cons_self, rfl⟩, by decide +kernel, lowestEmpty_of (by decide +kernel), by decide +kernel⟩, rfl, by decide, by decide,
    lowestEmpty_of (by decide +kernel), ⟨_, rfl, rfl, by decide, rfl⟩, _, rfl, rfl, by decide⟩

theorem met_JobsAreCancelled :
    (∀ st ∈ [JobState.queued, .active, .done, .cancelled], let s := withJob (job st [recip .waiting, recip .delivered]) up
      s.running = true ∧ s.hlc.restarting = false ∧ (s.job 2).isNone = true
        ∧ ∃ x, s.job 1 = some x ∧ x.state = st ∧ ∀ r ∈ x.recips, r.state ≠ .bound ∧ r.state ≠ .inCall ∧ r.offeredTo = none) := by
  intro st hst
  exact ⟨rfl, rfl, rfl, _, rfl, rfl, by revert st; decide⟩

/-- A recipient in a call, one with a binding offered, and one that is terminal. -/
theorem met_CallsAreCancelled :
    (∀ st ∈ [LineState.handshake, .transfer], ∀ x ∈ [RecipState.bound, .inCall],
      let c := { caller with recip := some (1, 1), signal := some (.frame .waiting) }
      let s := withJob (job .active [{ recip x with line := some 0 }, recip .failed]) (callIn st c)
      (s.job 1).map (·.state) = some .active ∧ (s.recip 1 1).map (fun r => (r.state, r.line)) = some (x, some 0) ∧ (s.recip 1 2).map (·.state.terminal) = some true
        ∧ s.call 0 = some c ∧ c.caller = true ∧ (s.lu 0).state = st ∧ c.signal ≠ none ∧ c.waitInterval = false ∧ c.pendingEnd = none)
      ∧ (let s := withJob (job .queued [{ recip .eligible with offeredTo := some 0 }, recip .failed]) up
        ∃ x, s.job 1 = some x ∧ x.state = .queued ∧ (∀ r ∈ x.recips, r.state ≠ .bound ∧ r.state ≠ .inCall ∧ (r.state.terminal = true ∨ r.offeredTo.isSome = true))
          ∧ ∃ r ∈ x.recips, r.state.terminal = false) := by
  refine ⟨by decide +kernel, _, rfl, rfl, by decide, by decide⟩

/-- The jobs of a report, and a recipient that is ELIGIBLE, or made FAILED by the barred test. -/
theorem met_ReportsTestJobs :
    ∀ r ∈ [recip .eligible, { recip .failed with last := some .barred }], let s := withJob (job .queued [r]) (one .closed 1 true false)
      (s.job 1).isSome = true ∧ Tbl.wf s.dsc.jobs ∧ s.madeEligible = [(1, 1)] ∧ (1, 1) ∉ up.madeEligible := by decide +kernel

theorem met_RecipientsBecomeReady :
    (∀ st ∈ [RecipState.waiting, .eligible, .retryWait, .failed], let s := withJob (job .queued [recip st]) up
      s.running = true ∧ (s.job 1).map (·.state) = some .queued ∧ (s.recip 1 1).map (·.state) = some st ∧ (s.recip 1 1).map (·.offeredTo) = some none)
      ∧ (up.tmb.valid = false ∧ ∃ e, ({ job .queued [] with embargo := some CalTime.zero }).embargo = some e)
      ∧ (let s : State := { up with tmb := ⟨⟨2000, 1, 1, 6, 0, 0, 1⟩, true⟩ }
        s.tmb.valid = true ∧ ¬(s.now.secs < CalTime.zero.secs) ∧ CalTime.zero.secs < s.now.secs)
      ∧ (∀ v ∈ [(0, 0, 1, ([] : List Page)), (0, 1, 2, [aPage 1]), (0, 0, 1, [aPage 1]), (0, 0, 2, [aPage 1])],
        let s := opened false v.2.1 v.2.2.1 v.2.2.2 .closed
        s.docOpen 1 = false ∧ s.completeCount 1 = v.2.2.2.length ∧ (s.recip 1 1).map (fun r => (r.delivered, r.resume)) = some (v.2.1, v.2.2.1))
      ∧ ∀ e ∈ [true, false], let s := opened e 0 1 [aPage 1] .opened
        s.docOpen 1 = true ∧ s.completeCount 1 = 1 ∧ (s.job 1).map (·.early) = some e := by
  refine ⟨by decide +kernel, ⟨rfl, _, rfl⟩, by decide +kernel, by decide +kernel, by decide +kernel⟩

/-- The next attempt time has come, or not yet. -/
theorem met_RetryWaitsEnd :
    ∀ n ∈ [0, 1], let s := withJob (job .queued [{ recip .retryWait with nextAttempt := some n }]) up
      (s.recip 1 1).map (fun r => (r.state, r.nextAttempt)) = some (.retryWait, some n) ∧ s.now.secs = 0 := by decide +kernel

theorem met_OutcomesMoveRecipients :
    (∀ cr ∈ [true, false], ∀ used ∈ [0, 1, 2], let s := withJob { job .active [{ recip .inCall with used }, recip .failed] with cancelRequested := cr } up
      ∃ x r, s.job 1 = some x ∧ s.recip 1 1 = some r ∧ x.state = .active ∧ x.cancelRequested = cr ∧ r.used = used ∧ x.attempts = 3)
      ∧ (let s := withJob (job .active [recip .inCall, recip .failed]) up
        (s.recip 1 2).map (·.state.terminal) = some true ∧ ((recip .inCall).ended (job .active []) s.now.secs .delivered none 1).state.terminal = true) := by
  refine ⟨fun cr _ used _ => ⟨_, _, rfl, rfl, rfl, rfl, rfl, rfl⟩, by decide +kernel⟩

/-- Jobs that settle and that do not; a recipient that is there and one that is not. -/
theorem met_JobsSettle :
    (∀ v ∈ [(JobState.done, RecipState.delivered, false), (.cancelled, .cancelled, false), (.active, .bound, false), (.queued, .failed, true)],
      let s := withJob (job v.1 [recip v.2.1]) up
      (s.job 1).map (fun x => (x.state != .done && x.state != .cancelled && x.recips.all (·.state.terminal))) = some v.2.2)
      ∧ up.job 1 = none ∧ up.recip 1 1 = none ∧ ((withJob (job .active [recip .bound]) up).recip 1 1).isSome = true := by decide +kernel

/-- Line 0 idle, recipient 1 of job 1 ELIGIBLE, `n` records in the log. -/
def arbitrating (n : Nat) : State :=
  (withJob (job .queued [recip .eligible]) ((inState .idle).onHlc ({ · with attended := true }))).onDsc ({ · with idle := #v[true, true, false, false], offered := #v[true, false, false, false] })
    |>.onChg ({ · with records := List.replicate n (record 1) })

/-- The reservations after the binding of recipient 1 of job 1 to line 0, when the test binds it. -/
def triedResvs (s : State) : Option Nat :=
  match tryRecip 0 1 1 s with
  | .bound t => some t.chg.resvs.length
  | _ => none

theorem met_PassBindsTheFirstCandidate :
    (∀ l, at4 up.dsc.offered l = true → up.linePending l = true) ∧ (∀ n ∈ [0, 123], triedResvs (arbitrating n) = some 1) ∧ triedResvs (arbitrating 124) = none
      ∧ (arbitrating 123).dsc.guard ≤ (arbitrating 123).idleBut 0 := by decide +kernel

/-- The last free slot of the log is the one granted (R155; log entry 43). -/
theorem met_FreeLogSlot :
    (∀ k ∈ [0, 77, 127], let s := up.onChg ({ · with records := ((List.range 128).filter (· != k)).map fun n => { record n with slot := n } })
      (s.chg.records.map (·.slot) ++ s.chg.resvs.map (·.slot)).length < 128 ∧ s.freeLogSlot = k) := by decide +kernel

theorem met_RecipientsAreTried :
    ((arbitrating 0).onChg fun c => { c with bands := c.bands.set 15 { (arbitrating 0).band 15 with barred := true } }).preCheck 0 [0x31] = .barred
      ∧ ((arbitrating 0).onAccount 0 ({ · with suspended := true })).preCheck 0 [0x31] = .refused ∧ (arbitrating 124).preCheck 0 [0x31] = .pass
      ∧ at4 (arbitrating 0).dsc.offered 0 = true ∧ (arbitrating 0).linePending 0 = false ∧ (arbitrating 0).inOrder = [(1, 1)]
      ∧ (arbitrating 124).chg.records.length = 124 ∧ up.job 1 = none := by decide +kernel

def rated : State := up.onChg ({ · with tariffs := [(0, ⟨[0x30], 1⟩), (1, ⟨[0x30, 0x31], 2⟩), (127, ⟨[0x30, 0x31], 3⟩)] })

/-- The index of an entry that names band 15 is absent (R152). -/
theorem test_rate_index :
    let s := up.onChg ({ · with tariffs := [(0, ⟨[0x30], 1⟩), (1, ⟨[0x31], 15⟩)] })
    s.rateIndex [0x30] = some 0 ∧ s.rate [0x31] = 15 ∧ s.rateIndex [0x31] = none ∧ s.rateIndex [0x32] = none := by decide +kernel

theorem met_CallsAreRatedAndPreChecked :
    (∀ x ∈ rated.chg.tariffs, ¬(x.2.digits <+: [0x39#8])) ∧ Tbl.wf rated.chg.tariffs
      ∧ ((1, ⟨[0x30, 0x31], 2⟩) ∈ rated.chg.tariffs
        ∧ (∀ y ∈ rated.chg.tariffs, y.2.digits <+: ([0x30, 0x57, 0x31, 0x32] : Str).filter (fun c => c ≠ 0x50#8 ∧ c ≠ 0x57#8) →
          y.2.digits.length < 2 ∨ (y.2.digits.length = 2 ∧ 1 ≤ y.1)))
      ∧ rated.rate [0x30, 0x57, 0x31, 0x32] = 2 := by decide +kernel

theorem met_ChargingTablesAreReplaced :
    up.takes ∧ (∀ n ∈ [1, 8], 127 ≤ 127 ∧ (1 ≤ (List.replicate n (0x39 : Byte)).length ∧ (List.replicate n (0x39 : Byte)).length ≤ 8)
        ∧ (∀ c ∈ List.replicate n (0x39 : Byte), 0x30#8 ≤ c ∧ c ≤ 0x39#8))
      ∧ (∀ v ∈ [(32, 0, 0), (0, 4294967296, 0), (0, 0, 3)], 31 < v.1 ∨ 4294967295 < v.2.1 ∨ 2 < v.2.2) ∧ (2 = Policy.afterCall.code)
      ∧ ((31 < 254 ∧ 254 ≠ 255) ∧ (some 0 = some 0)) ∧ ((31 ≤ 31 ∨ 255 = 255) ∧ (some 1 : Option Nat) ≠ some 0) :=
  ⟨⟨rfl, rfl⟩, by decide, by decide, by decide, by decide, by decide⟩

theorem met_LogDropRemovesTheOldest :
    up.takes ∧ up.chg.records = [] ∧ (∀ n ∈ [0, 129], n = 0 ∨ 128 < n) ∧ (∀ n ∈ [1, 128], 1 ≤ n ∧ n ≤ 128)
      ∧ (let s := up.onChg ({ · with records := [record 65535, record 0] })
        s.takes ∧ ∃ r rest, s.chg.records = r :: rest ∧ r.number ≠ 0 ∧ some 65535 = some r.number) :=
  ⟨⟨rfl, rfl⟩, rfl, by decide, by decide, ⟨rfl, rfl⟩, _, _, rfl, by decide +kernel, by decide +kernel⟩

theorem met_ClockIsSetAndTicks :
    up.takes ∧ up.running = true
      ∧ (∀ t ∈ [CalTime.zero, ⟨2099, 12, 31, 4, 23, 59, 59⟩, ⟨2024, 2, 29, 4, 0, 0, 0⟩],
        (2000 ≤ t.year ∧ t.year ≤ 2099) ∧ (1 ≤ t.month ∧ t.month ≤ 12) ∧ (1 ≤ t.day ∧ t.day ≤ daysInMonth t.year t.month) ∧ t.hour ≤ 23 ∧ t.minute ≤ 59
          ∧ t.second ≤ 59 ∧ t.weekday = (t.days + 5) % 7 + 1)
      ∧ (∀ t ∈ [(⟨1999, 12, 31, 5, 0, 0, 0⟩ : CalTime), ⟨2001, 2, 29, 4, 0, 0, 0⟩, ⟨2000, 1, 1, 7, 0, 0, 0⟩], t.valid = false)
      ∧ (let s : State := { up with tmb := ⟨⟨2099, 12, 31, 4, 23, 59, 59⟩, true⟩ }
        s.tmb.valid = true ∧ s.tmb.time.tick.2 = true) ∧ CalTime.zero.valid = true ∧ CalTime.zero.tick.2 = false :=
  ⟨⟨rfl, rfl⟩, rfl, by decide +kernel, by decide +kernel, by decide +kernel, by decide, by decide⟩

/-- Next attempt times that have come, or stand further off than the interval, at a clock report. -/
theorem met_ClockReportsAdjust :
    ∀ st ∈ [RecipState.retryWait, .failed], ∀ n ∈ [none, some 0, some 1, some 301],
      let s := withJob (job .active [{ recip st with nextAttempt := n }]) up
      (s.job 1).map (fun x => (x.state, x.interval)) = some (.active, 5) ∧ (s.recip 1 1).map (fun r => (r.state, r.nextAttempt)) = some (st, n) ∧ s.now.secs = 0 := by decide +kernel

def saving (items : List StoreItem) (writing : Option RowWrite) (dirty : List Nat) : State :=
  up.onSsc ({ · with queue := items, writing, dirty, status := .run })
def aRow : RowWrite := ⟨157, List.replicate 32 7, false, .transfer 0⟩

theorem met_RowsAreWritten :
    up.takes ∧ up.running = true ∧ up.ssc.writing = none ∧ up.ssc.queue = [] ∧ up.ssc.status ≠ .run
      ∧ ((up.onSsc ({ · with queue := (List.range 32).map .account })).ssc.queue.length = 32 ∧ (up.onSsc ({ · with queue := (List.range 31).map .account })).ssc.queue.length = 31)
      ∧ (∀ a ∈ [0, 31], (saving [.account a, .save] none []).ssc.queue = .account a :: [.save] ∧ (saving [.account a] none []).ssc.writing = none)
      ∧ ((saving [.save] (some aRow) [157]).running = true ∧ (saving [.save] (some aRow) [157]).ssc.writing = some aRow ∧ aRow.bytes.length = 32)
      ∧ (saving [.save] none [0, 157]).ssc.dirty.find? (0 ≤ ·) = some 0 ∧ (saving [.save] none []).ssc.dirty.find? (0 ≤ ·) = none
      ∧ ((saving [.save] none []).ssc.queue = .save :: [] ∧ (saving [.save] none []).ssc.stopSave = false)
      ∧ (∀ rows ∈ [[], [0, 157]], (saving [.save] none rows).ssc.dirty.Pairwise (· < ·) ∧ ∃ t, step (saving [.save] none rows) = .next t)
      ∧ ((saving [.save] (some aRow) [157]).onSsc ({ · with stopSave := true })).ssc.stopSave = true := by
  refine ⟨⟨rfl, rfl⟩, rfl, rfl, rfl, by decide, by decide +kernel, by decide +kernel, by decide +kernel, by decide +kernel, by decide +kernel, ⟨rfl, rfl⟩,
    fun rows h => ⟨by revert rows; decide, _, rfl⟩, rfl⟩

/-- The answers that end a write well, end it with NACK, or leave it going on, at the ends of its two phases. -/
theorem met_RowWritesEnd :
    (BusPhase.transfer 0).run (List.replicate 35 true ++ [false, true]) = .ends none ∧ (BusPhase.transfer 0).run (List.replicate 34 true ++ [false]) = .ends (some .nack)
      ∧ (BusPhase.transfer 0).run [] = .goes (.transfer 0) ∧ (BusPhase.transfer 0).run (List.replicate 35 true) = .goes .poll
      ∧ (∀ v ∈ [(0, 0), (34, 0), (0, 34)], v.1 + v.2 < 35) ∧ aRow.row < 158 ∧ aRow.bytes.length = 32 := by decide +kernel

/-- The settings memory after the rows below `n` have been written as the settings compose them. -/
def imaged (s : State) : Nat → List Host.Cell
  | 0 => []
  | n + 1 => bytesWrite (imaged s n) (n * 32) (composeRow s n)

theorem imaged_wf (s : State) : ∀ n, Eeprom.wf (imaged s n)
  | 0 => (by decide : Eeprom.wf [])
  | n + 1 => bytesWrite_wf _ _ _ (imaged_wf s n)

theorem imaged_reads (s : State) (h : ∀ row, row < 158 → (composeRow s row).length = 32) :
    ∀ n, n ≤ 158 → ∀ row, row < n → rowRead (imaged s n) row = composeRow s row
  | 0, _, row, hr => absurd hr (Nat.not_lt_zero row)
  | n + 1, hn, row, hr => by
    have hl := h n (by omega)
    refine List.ext_getElem (by simp [rowRead, h row (by omega)]) fun i h1 h2 => ?_
    have hi : i < 32 := by simpa [rowRead] using h1
    by_cases e : row = n
    · subst e
      simp only [rowRead, imaged, List.getElem_map, List.getElem_range]
      exact bytesWrite_read _ _ _ _ (imaged_wf s row) (by omega)
    · have ih := imaged_reads s h n (by omega) row (by omega)
      have := congrArg (fun l : List Byte => l[i]?) ih
      simp only [rowRead, List.getElem?_map, List.getElem?_range hi, Option.map_some] at this
      rw [List.getElem?_eq_getElem h2] at this
      simp only [rowRead, imaged, List.getElem_map, List.getElem_range]
      rw [bytesWrite_read_other _ _ _ _ (imaged_wf s n) (by omega)]
      exact Option.some.inj this

theorem composeRow_over_eeprom (s : State) (m : List Host.Cell) (row : Nat) : composeRow { s with eeprom := m } row = composeRow s row := rfl

/-- The settings stand over a settings memory that holds every row as they compose it. -/
theorem settings_over_image (s : State) (m : List Host.Cell) (h : SettingsLaw s ∧ RangeLaw s) (hw : s.ssc.writing = none)
    (hm : ∀ row, row < 158 → rowRead m row = composeRow s row) :
    SettingsLaw { s with eeprom := m } ∧ RangeLaw { s with eeprom := m } ∧ ({ s with eeprom := m } : State).ssc.writing = none
      ∧ ∀ row, row < 158 → rowRead ({ s with eeprom := m } : State).eeprom row = composeRow { s with eeprom := m } row := by
  refine ⟨h.1, h.2, hw, fun row hr => ?_⟩
  rw [composeRow_over_eeprom]; exact hm row hr

theorem met_RowsHoldTheSettings :
    (let s : State := { kept with eeprom := imaged kept 158 }
     SettingsLaw s ∧ RangeLaw s ∧ s.ssc.writing = none ∧ ∀ row, row < 158 → rowRead s.eeprom row = composeRow s row)
      ∧ kept.rrt.routes.get 1 = none ∧ (kept.rrt.routes.get 31).isSome = true ∧ (kept.chg.tariffs.get 127).isSome = true
      ∧ (∀ d ∈ [[], List.replicate 40 (0x57 : Byte)], d.length ≤ 40) ∧ ([0x31, 0x2A, 0x57] : Str).all dialChar = true ∧ ([0x31, 0x2A, 0x57] : Str)[2]? = some 0x57#8 :=
  ⟨settings_over_image kept _ met_SettingsLaw rfl (imaged_reads kept (by decide +kernel) 158 (Nat.le_refl _)), by decide, by decide, by decide, by decide, by decide, rfl⟩

/-- The settings that a power-up reset and a load give back from the rows of `kept` (R175, R198). -/
theorem test_rows_unpack :
    (unpackLine (composeRow kept 4) = some (kept.lu 3).config) ∧ (composeRow kept 5).take 2 = [120#8, 0#8] ∧ (composeRow kept 5).getD 31 0 = 135#8 := by decide +kernel

theorem met_AccountRowsJoin :
    Eeprom.wf (saving [] (some aRow) []).eeprom
      ∧ (∀ a ∈ [0, 31], StoreItem.account a ∈ (saving [.save, .account a] (some aRow) []).ssc.queue.tail ∧ .account a ∉ (saving [.account a] (some aRow) []).ssc.queue.tail)
      ∧ (∀ n ∈ [31, 32], (saving (.account 0 :: List.replicate (n - 1) (.account 1)) (some aRow) []).ssc.queue.length = n)
      ∧ StoreItem.account 0 ∉ (saving (.account 0 :: List.replicate 31 (.account 1)) (some aRow) []).ssc.queue.tail
      ∧ (let s := (saving [.save, .account 0] (some aRow) []).onSsc ({ · with stopSave := true })
        s.running = true ∧ s.ssc.queue = .save :: [.account 0] ∧ s.ssc.stopSave = true ∧ s.ssc.writing.isSome = true) := by decide +kernel

/-- Bit k of a set stands for its k-th member (R195), at both ends of a byte. -/
theorem test_setOf : setOf [true, false, false, false, false, false, false, true] = 129 ∧ (129 : Nat).testBit 7 = true ∧ (129 : Nat).testBit 1 = false := by decide

theorem met_ReadingRequestsOnlyReply :
    (up.takes ∧ up.doc 1 = none ∧ up.job 1 = none ∧ up.entry 1 = none) ∧ (1016 = (List.replicate 1016 (0 : Byte)).length) ∧ ((some 1 : Option Nat) ≠ some 0)
      ∧ 3 < 4 ∧ (4 ≠ 255 ∧ 3 = (3 : Line).val) ∧ dialOk [0x31] = true ∧ dialOk [] = false
      ∧ ((one .closed 0 true false).doc 1).isSome = true ∧ ((withJob (job .active []) up).job 1).isSome = true ∧ ((printing .idle .waiting).entry 1).isSome = true :=
  ⟨⟨⟨rfl, rfl⟩, rfl, rfl, rfl⟩, by decide +kernel, by decide, by decide, by decide, by decide, by decide, rfl, rfl, rfl⟩

end Sys2Proof.Tests
end

/-! PROOF. The Reception Router: the match of a call, the requests of its table, the fields of an entry and an action, the disposition carried out. -/

namespace Sys2Proof.Machine

/-! ## The match (R117 to R120) -/

theorem Sense.holds_any (cs : List Bool) : Sense.any.holds cs = true ↔ cs = [] ∨ true ∈ cs := by
  simp [Sense.holds]

theorem Sense.holds_all (cs : List Bool) : Sense.all.holds cs = true ↔ cs = [] ∨ false ∉ cs := by
  simp [Sense.holds]

theorem Sense.holds_none (cs : List Bool) : Sense.none.holds cs = true ↔ cs = [] ∨ true ∉ cs := by
  simp [Sense.holds]

/-- A window between different minutes holds its start and not its end, and wraps past midnight when it starts after it stops. -/
theorem inWindow_eq_decide {start stop : Nat} (h : start ≠ stop) (m : Nat) :
    inWindow start stop m = decide ((start < stop ∧ start ≤ m ∧ m < stop) ∨ (stop < start ∧ (start ≤ m ∨ m < stop))) := by
  rw [Bool.eq_iff_iff, decide_eq_true_iff]
  unfold inWindow
  split
  · simp only [Bool.and_eq_true, decide_eq_true_eq]; omega
  · simp only [Bool.or_eq_true, decide_eq_true_eq]; omega

theorem isPrefixOf_eq_decide (p tag : Str) : p.isPrefixOf tag = decide (p <+: tag) := by
  rw [Bool.eq_iff_iff]
  simp

/-- The present conditions of an entry whose window, where it has one, is between different minutes (R117). -/
theorem Route.conditions_eq (r : Route) (tag : Str) (l : Line) (clock : Option CalTime) (hw : ∀ w, r.window = some w → w.1 ≠ w.2) :
    r.conditions tag l clock = (r.tagStart.map fun p => decide (p <+: tag)).toList ++ (r.lineSet.map (·.testBit l.val)).toList
      ++ (r.window.map fun w => clock.any fun t => let m := 60 * t.hour + t.minute
        decide ((w.1 < w.2 ∧ w.1 ≤ m ∧ m < w.2) ∨ (w.2 < w.1 ∧ (w.1 ≤ m ∨ m < w.2)))).toList := by
  have windows : r.window.map (fun w => clock.any fun t => inWindow w.1 w.2 t.minuteOfDay) =
      r.window.map fun w => clock.any fun t => decide ((w.1 < w.2 ∧ w.1 ≤ t.minuteOfDay ∧ t.minuteOfDay < w.2)
        ∨ (w.2 < w.1 ∧ (w.1 ≤ t.minuteOfDay ∨ t.minuteOfDay < w.2))) :=
    Option.map_congr fun w h => by simp only [inWindow_eq_decide (hw w h)]
  rw [Route.conditions, windows]
  simp only [isPrefixOf_eq_decide]
  rfl

/-- No used entry matches. -/
theorem State.matching_eq_none {s : State} {tag : Str} {l : Line}
    (h : ∀ x ∈ s.rrt.routes, ¬x.2.sense.holds (x.2.conditions tag l s.clock) = true) : s.matching tag l = none :=
  List.find?_eq_none.2 h

/-- The first used entry in index order that matches. -/
theorem State.matching_eq_first {s : State} {tag : Str} {l : Line} {pre post : Tbl Route} {x : Nat × Route} (h : s.rrt.routes = pre ++ x :: post)
    (hpre : ∀ y ∈ pre, ¬y.2.sense.holds (y.2.conditions tag l s.clock) = true) (hx : x.2.sense.holds (x.2.conditions tag l s.clock) = true) :
    s.matching tag l = some x :=
  List.find?_eq_some_iff_append.2 ⟨hx, pre, post, h, fun y hy => by simpa using hpre y hy⟩

theorem routeMatch_of_none {s : State} {tag : Str} {l : Line} (h : s.matching tag l = none) :
    routeMatch tag l s = (convert s.hlc.attended s.rrt.fallbackBin none s.rrt.dflt, s.onRrt fun t => { t with dfltCount := (t.dfltCount + 1) % 65536 }) := by
  rw [routeMatch, h]

theorem routeMatch_of_some {s : State} {tag : Str} {l : Line} {x : Nat × Route} (h : s.matching tag l = some x) :
    routeMatch tag l s = (convert s.hlc.attended s.rrt.fallbackBin (some x.1) x.2.action,
      s.onRrt fun t => { t with routes := t.routes.mod x.1 fun r => { r with count := (r.count + 1) % 65536 } }) := by
  rw [routeMatch, h]

theorem convert_of_ne_hold (attended : Bool) (fallback : Bin) (route : Option Nat) {a : Action} (h : a ≠ .hold) :
    convert attended fallback route a = ⟨route, a, false⟩ := by
  simp [convert, h]

/-! ## The fields of an action and of an entry (R115) -/

theorem isSome_four? (n : Nat) : (four? n).isSome = true ↔ n ≤ 3 := by
  unfold four?
  split
  · simp; omega
  · simp; omega

@[simp] theorem four?_val (b : Fin 4) : four? b.val = some b := by simp [four?]

theorem four?_eq_none {n : Nat} (h : 3 < n) : four? n = none := by
  rw [← Option.not_isSome_iff_eq_none, isSome_four?]; omega

theorem Cls.isSome_of? : ∀ n : Nat, (Cls.of? n).isSome = true ↔ n ≤ 2
  | 0 | 1 | 2 => by simp [Cls.of?]
  | n + 3 => by simp [Cls.of?]

theorem Sense.isSome_of? : ∀ n : Nat, (Sense.of? n).isSome = true ↔ n ≤ 2
  | 0 | 1 | 2 => by simp [Sense.of?]
  | n + 3 => by simp [Sense.of?]

theorem Sense.code_of_of? : ∀ {n : Nat} {x : Sense}, Sense.of? n = some x → x.code = n
  | 0, _, h | 1, _, h | 2, _, h => by cases h; rfl
  | n + 3, _, h => by cases h

theorem between_iff (lo hi n : Nat) : between lo hi n = true ↔ lo ≤ n ∧ n ≤ hi := by simp [between]

theorem isSome_printParams? (b c k : Nat) : (printParams? b c k).isSome = true ↔ b ≤ 3 ∧ (1 ≤ c ∧ c ≤ 99) ∧ k ≤ 2 := by
  rw [← isSome_four?, ← between_iff, ← Cls.isSome_of?, printParams?]
  cases four? b <;> cases Cls.of? k <;> simp

theorem isSome_forwardSpec? (spec : Option (Nat × Nat)) :
    (forwardSpec? spec).isSome = true ↔ ∀ x, spec = some x → x.1 ≤ 3 ∧ 1 ≤ x.2 ∧ x.2 ≤ 99 := by
  cases spec with
  | none => simp [forwardSpec?]
  | some x =>
    obtain ⟨b, c⟩ := x
    have parts : (forwardSpec? (some (b, c))).isSome = true ↔ between 1 99 c = true ∧ (four? b).isSome = true := by
      rw [forwardSpec?]
      cases between 1 99 c <;> simp
    rw [parts, between_iff, isSome_four?]
    simp [and_comm]

theorem isSome_actionOf?_forward (d : Str) (a k : Nat) (spec : Option (Nat × Nat)) :
    (actionOf? (.forward d a k spec)).isSome = true ↔ dialOk d = true ∧ a ≤ 31 ∧ (Cls.of? k).isSome = true ∧ (forwardSpec? spec).isSome = true := by
  rw [actionOf?]
  cases Cls.of? k <;> cases forwardSpec? spec <;> simp

/-- The condition fields of a route entry are in their ranges. -/
def conditionsOk (v : RawRoute) : Prop :=
  (∀ p, v.tagStart = some p → (1 ≤ p.length ∧ p.length ≤ 20) ∧ ∀ c ∈ p, 0x20#8 ≤ c ∧ c ≤ 0x7E#8)
    ∧ (∀ m, v.lineSet = some m → 1 ≤ m ∧ m ≤ 15) ∧ ∀ w, v.window = some w → w.1 ≤ 1439 ∧ w.2 ≤ 1439 ∧ w.1 ≠ w.2

/-- An entry is made of fields in their ranges, unchanged, with its match count 0. -/
theorem routeOf?_eq_some (v : RawRoute) (r : Route) :
    routeOf? v = some r ↔ conditionsOk v ∧ ∃ sense action, Sense.of? v.sense = some sense ∧ actionOf? v.action = some action
      ∧ r = ⟨v.tagStart, v.lineSet, v.window, sense, action, 0⟩ := by
  have tests : conditionsOk v ↔ (v.tagStart.all (fun p => 1 ≤ p.length && p.length ≤ 20 && p.all printable) && v.lineSet.all (fun m => 1 ≤ m && m ≤ 15)
      && v.window.all fun w => w.1 ≤ 1439 && w.2 ≤ 1439 && w.1 != w.2) = true := by
    simp [conditionsOk, Option.all_eq_true, printable, and_assoc]
  rw [tests, routeOf?]
  cases Sense.of? v.sense with
  | none => simp
  | some sense =>
    cases actionOf? v.action with
    | none => simp
    | some action =>
      simp only [Option.ite_none_right_eq_some, Option.some.injEq, exists_and_left, exists_eq_left', @eq_comm _ _ r]

theorem isSome_routeOf? (v : RawRoute) :
    (routeOf? v).isSome = true ↔ (Sense.of? v.sense).isSome = true ∧ (actionOf? v.action).isSome = true ∧ conditionsOk v := by
  simp only [Option.isSome_iff_exists, routeOf?_eq_some]
  constructor
  · rintro ⟨_, ok, sense, action, hs, ha, -⟩
    exact ⟨⟨sense, hs⟩, ⟨action, ha⟩, ok⟩
  · rintro ⟨⟨sense, hs⟩, ⟨action, ha⟩, ok⟩
    exact ⟨_, ok, sense, action, hs, ha, rfl⟩

/-! ## The requests of the routing table (R115, R116) -/

/-- A request that HLC takes is done by its owner. -/
theorem request_of_takes {s : State} (h : s.takes) (f : State → State) : request s f = .next (f s).kick := by
  obtain ⟨running, notRestarting⟩ := h
  simp [request, event, running, notRestarting]

theorem exec_routeSet {s : State} (h : s.takes) (tag i : Nat) (v : RawRoute) : exec (.routeSet tag i v) s = .next (doRouteSet tag i v s).kick :=
  request_of_takes h _

theorem exec_routeClear {s : State} (h : s.takes) (tag i : Nat) : exec (.routeClear tag i) s = .next (doRouteClear tag i s).kick :=
  request_of_takes h _

theorem exec_routeDefaultSet {s : State} (h : s.takes) (tag : Nat) (a : RawAction) (bin : Nat) :
    exec (.routeDefaultSet tag a bin) s = .next (doRouteDefaultSet tag a bin s).kick :=
  request_of_takes h _

/-- Both rows of entry `i` by their numbers in the table of section 9.2. -/
theorem State.dirtyRoute_eq (s : State) (i : Nat) : s.dirtyRoute i = (s.dirty (7 + 2 * i)).dirty (8 + 2 * i) := by
  have second : rowRoute i + 1 = 8 + 2 * i := by unfold rowRoute; omega
  rw [State.dirtyRoute, second]; rfl

theorem doRouteSet_of_some (tag i : Nat) {v : RawRoute} {r : Route} (s : State) (h : routeOf? v = some r) :
    (doRouteSet tag i v s).kick = if i ≤ 31 then
      ((({ s with rrt := { s.rrt with routes := s.rrt.routes.put i r } } : State).dirty (7 + 2 * i)).dirty (8 + 2 * i)).replied 0x40 tag .ok []
    else s.replied 0x40 tag .badField [] := by
  rw [doRouteSet, h]
  dsimp only
  split
  · rw [State.dirtyRoute_eq]; rfl
  · rfl

theorem doRouteSet_of_none (tag i : Nat) {v : RawRoute} (s : State) (h : routeOf? v = none) :
    (doRouteSet tag i v s).kick = s.replied 0x40 tag .badField [] := by
  rw [doRouteSet, h]; rfl

theorem doRouteClear_eq (tag i : Nat) (s : State) :
    (doRouteClear tag i s).kick = if i ≤ 31 then
      ((({ s with rrt := { s.rrt with routes := s.rrt.routes.del i } } : State).dirty (7 + 2 * i)).dirty (8 + 2 * i)).replied 0x41 tag .ok []
    else s.replied 0x41 tag .badField [] := by
  rw [doRouteClear]
  split
  · rw [State.dirtyRoute_eq]; rfl
  · rfl

theorem doRouteDefaultSet_of_some (tag : Nat) {a : RawAction} {x : Action} (b : Bin) (s : State) (h : actionOf? a = some x) :
    (doRouteDefaultSet tag a b.val s).kick =
      (({ s with rrt := { s.rrt with dflt := x, dfltCount := 0, fallbackBin := b } } : State).dirty 71).replied 0x42 tag .ok [] := by
  rw [doRouteDefaultSet, h, four?_val]; rfl

theorem doRouteDefaultSet_of_bad (tag : Nat) {a : RawAction} {bin : Nat} (s : State) (h : actionOf? a = none ∨ 3 < bin) :
    (doRouteDefaultSet tag a bin s).kick = s.replied 0x42 tag .badField [] := by
  rw [doRouteDefaultSet]
  obtain h | h := h
  · rw [h]; rfl
  · rw [four?_eq_none h]; cases actionOf? a <;> rfl

/-! ## The disposition carried out (R122 to R125) -/

theorem State.onRec_of_some {s : State} {l : Line} {r : RecvRec} (h : at4 s.rrt.recs l = some r) (f : RecvRec → RecvRec) :
    s.onRec l f = { s with rrt := { s.rrt with recs := set4 s.rrt.recs l (some (f r)) } } := by
  simp [State.onRec, State.onRrt, h]

theorem routePageStored_of_none {s : State} {l : Line} (h : at4 s.rrt.recs l = none) (d n : Nat) : routePageStored l d n s = s := by
  rw [routePageStored, h]

/-- The report of a later page, or of a first page already applied, changes the pages stored alone. -/
theorem routePageStored_of_later {s : State} {l : Line} {r : RecvRec} (h : at4 s.rrt.recs l = some r) (d : Nat) {n : Nat} (hn : n ≠ 1 ∨ r.applied = true) :
    routePageStored l d n s = s.onRec l ({ · with stored := n }) := by
  have : ¬(n = 1 ∧ r.applied = false) := fun ⟨first, fresh⟩ => by simp [first, fresh] at hn
  rw [routePageStored, h]
  exact if_neg this

/-- The report of the first page has the first-page steps taken. -/
theorem routePageStored_of_first {s : State} {l : Line} {r : RecvRec} (h : at4 s.rrt.recs l = some r) (d : Nat) {n : Nat} (hn : n = 1)
    (ha : r.applied = false) :
    routePageStored l d n s = (firstPageSteps l d r.disp (s.onRec l ({ · with stored := n }))).onRec l ({ · with applied := true }) := by
  rw [routePageStored, h]
  exact if_pos ⟨hn, ha⟩

theorem routeSettle_of_none {s : State} {l : Line} (h : at4 s.rrt.recs l = none) (d : Nat) : routeSettle l d s = s := by
  rw [routeSettle, h]

/-- At the settling of a document without a complete page, or of a disposition whose print part is absent or FLASH, the record alone goes. -/
theorem routeSettle_without_print {s : State} {l : Line} {r : RecvRec} (h : at4 s.rrt.recs l = some r) {d : Nat}
    (hp : s.completeCount d = 0 ∨ r.disp.action.printCls = none ∨ r.disp.action.printCls = some .flash) :
    routeSettle l d s = s.onRrt fun t => { t with recs := set4 t.recs l none } := by
  rw [routeSettle, h]
  obtain hp | hp | hp := hp <;> simp [hp]

/-- A document with a complete page has its late print entry asked for before the record goes. -/
theorem routeSettle_with_print {s : State} {l : Line} {r : RecvRec} (h : at4 s.rrt.recs l = some r) {d : Nat} (hd : 0 < s.completeCount d) {k : Cls}
    (hp : r.disp.action.printCls = some k) (hk : k ≠ .flash) :
    routeSettle l d s = (routePrint l d r.disp s).onRrt fun t => { t with recs := set4 t.recs l none } := by
  rw [routeSettle, h]
  simp [hp, hk, hd]

theorem routeForward_of_no_forward (l : Line) (d : Nat) {m : Disposition} (s : State) (h : ∀ dial a k spec, m.action ≠ .forward dial a k spec) :
    routeForward l d m s = s := by
  rw [routeForward]
  split
  · exact (h _ _ _ _ ‹_›).elim
  · rfl

/-- Of a disposition that is no FORWARD the first-page steps are the retention and the FLASH print entry. -/
theorem firstPageSteps_of_no_forward (l : Line) (d : Nat) {m : Disposition} (s : State) (h : ∀ dial a k spec, m.action ≠ .forward dial a k spec) :
    firstPageSteps l d m s =
      let held := if m.action.holds then docRetainSet d s else s
      if m.action.printCls = some .flash then routePrint l d m held else held :=
  routeForward_of_no_forward l d _ h

/-- Of a FORWARD they are the FLASH print entry, when it has a print part, and the forward job. -/
theorem firstPageSteps_forward (l : Line) (d : Nat) (route : Option Nat) (conv : Bool) (dial : Str) (a : Nat) (k : Cls) (spec : Option (Bin × Nat)) (s : State) :
    let m : Disposition := ⟨route, .forward dial a k spec, conv⟩
    firstPageSteps l d m s = routeForward l d m (if spec.isSome = true ∧ k = .flash then routePrint l d m s else s) := by
  cases spec <;> simp [firstPageSteps, Action.holds, Action.printCls]

theorem routePrint_of_ok (l : Line) {d : Nat} {m : Disposition} {s t : State} {b : Bin} {c e : Nat} {k : Cls} (hs : m.action.printSpec = some (b, c))
    (hk : m.action.printCls = some k) (h : entryCreate d none none c b.val k.code s = .ok (e, t)) :
    routePrint l d m s = t.onRec l ({ · with entry := some e }) := by
  simp only [routePrint, hs, hk, h]

theorem routePrint_of_error (l : Line) {d : Nat} {m : Disposition} {s : State} {b : Bin} {c : Nat} {k : Cls} {x : Result}
    (hs : m.action.printSpec = some (b, c)) (hk : m.action.printCls = some k) (h : entryCreate d none none c b.val k.code s = .error x) :
    routePrint l d m s = (docRetainSet d s).raise .printFailed (e8 d) (eOpt e8 m.route ++ e8 b.val) := by
  simp only [routePrint, hs, hk, h]

theorem routeForward_of_ok (l : Line) {d : Nat} {m : Disposition} {s t : State} {dial : Str} {a j : Nat} {k : Cls} {spec : Option (Bin × Nat)}
    (hm : m.action = .forward dial a k spec) (h : jobCreate true d a k.code none true true (some 3) (some 5) [dial] s = .ok (j, t)) :
    routeForward l d m s = t.onRec l ({ · with job := some j }) := by
  simp only [routeForward, hm, h]

theorem routeForward_of_error (l : Line) {d : Nat} {m : Disposition} {s : State} {dial : Str} {a : Nat} {k : Cls} {spec : Option (Bin × Nat)} {x : Result}
    (hm : m.action = .forward dial a k spec) (h : jobCreate true d a k.code none true true (some 3) (some 5) [dial] s = .error x) :
    routeForward l d m s = (docRetainSet d s).raise .forwardFailed (e8 d) (eOpt e8 m.route ++ eStr dial) := by
  simp only [routeForward, hm, h]

/-! ## The obligation -/

/-- Settles O48: the match and the requests of the table, the conditions, the disposition carried out, and the ranges of the fields. -/
theorem routesDecideDispositions : Obligations.RoutesDecideDispositions := by
  refine ⟨⟨?senses, ?matching, ?requests⟩, ⟨?conditions, ?clock, ?conversion⟩, ⟨?records, ?firstPage, ?asked⟩, ?entryRanges, ?entryMade, ?actionRanges⟩
  case senses =>
    intro sense cs
    cases sense with
    | any => exact Sense.holds_any cs
    | all => exact Sense.holds_all cs
    | none => exact Sense.holds_none cs
  case matching =>
    exact fun s tag l => ⟨fun h => routeMatch_of_none (State.matching_eq_none h),
      fun pre x post h hpre hx => routeMatch_of_some (State.matching_eq_first h hpre hx)⟩
  case requests =>
    intro s tag i v a bin ht
    refine ⟨?_, ?_, fun x b hx hb => ?_, fun h => ?_⟩
    · rw [exec_routeSet ht]
      cases h : routeOf? v with
      | none => rw [doRouteSet_of_none tag i s h]
      | some r => rw [doRouteSet_of_some tag i s h]
    · rw [exec_routeClear ht, doRouteClear_eq]
    · rw [exec_routeDefaultSet ht, hb, doRouteDefaultSet_of_some tag b s hx]
    · rw [exec_routeDefaultSet ht, doRouteDefaultSet_of_bad tag s h]
  case conditions =>
    intro r tag l clock hw
    rw [Route.conditions_eq r tag l clock hw]
    refine congrArg₂ (· ++ ·) (congrArg₂ (· ++ ·) ?_ ?_) ?_
    · cases r.tagStart with
      | none => rfl
      | some p => rfl
    · cases r.lineSet with
      | none => rfl
      | some m => rfl
    · cases r.window with
      | none => rfl
      | some w => cases clock with
        | none => rfl
        | some t => rfl
  case clock => exact fun _ => rfl
  case conversion => exact fun fallback route a => ⟨rfl, rfl, convert_of_ne_hold false fallback route⟩
  case records =>
    refine fun s l d n => ⟨fun h => ⟨routePageStored_of_none h d n, routeSettle_of_none h d⟩, fun r hr => ?_⟩
    have stored := State.onRec_of_some hr ({ · with stored := n })
    refine ⟨fun h => ?_, fun hn ha => ?_, routeSettle_without_print hr, fun hd k => routeSettle_with_print hr hd⟩
    · rw [routePageStored_of_later hr d h, stored]
    · rw [routePageStored_of_first hr d hn ha, stored]
  case firstPage =>
    intro s l d route conv b c k dial a
    refine ⟨?_, ?_, ?_, ?_, ?_, ?_⟩
    · simp [firstPageSteps_of_no_forward, Action.holds, Action.printCls]
    · simp [firstPageSteps_of_no_forward, Action.holds, Action.printCls]
    · simp [firstPageSteps_of_no_forward, Action.holds, Action.printCls]
    · simp [firstPageSteps_of_no_forward, Action.holds, Action.printCls]
    · simp [firstPageSteps_forward]
    · simp [firstPageSteps_forward]
  case asked =>
    exact fun s l d m => ⟨fun b c k hs hk => ⟨fun e t => routePrint_of_ok l hs hk, fun x => routePrint_of_error l hs hk⟩,
      fun dial a k spec hm => ⟨fun j t => routeForward_of_ok l hm, fun x => routeForward_of_error l hm⟩⟩
  case entryRanges =>
    intro v
    rw [isSome_routeOf?, Sense.isSome_of?]
    rfl
  case entryMade =>
    intro v r h
    obtain ⟨-, sense, action, hs, ha, rfl⟩ := (routeOf?_eq_some v r).1 h
    exact ⟨rfl, rfl, rfl, Sense.code_of_of? hs, ha, rfl⟩
  case actionRanges =>
    refine fun b c k => ⟨?_, ?_, fun d a spec => ?_, rfl⟩
    · rw [actionOf?, Option.isSome_map, isSome_printParams?]
    · rw [actionOf?, Option.isSome_map, isSome_printParams?]
    · rw [isSome_actionOf?_forward, Cls.isSome_of?, isSome_forwardSpec?]

end Sys2Proof.Machine

/-! PROOF. The Charging Unit: the rating of a dial string, the charging period and the pre-check; the removal of the oldest records of the call log. -/

namespace Sys2Proof.Machine

/-! ## Rating (R148) -/

/-- A tariff entry is tested against the dial string less its P and W. -/
theorem isPrefixOf_ratedNumber (digits dial : Str) :
    digits.isPrefixOf (ratedNumber dial) = true ↔ digits <+: dial.filter fun c => c ≠ 0x50#8 ∧ c ≠ 0x57#8 := by
  have kept : ratedNumber dial = dial.filter fun c => c ≠ 0x50#8 ∧ c ≠ 0x57#8 := by simp [ratedNumber, bne, Bool.beq_eq_decide_eq]
  rw [isPrefixOf_eq_decide, decide_eq_true_iff, kept]

theorem longerMatch_of_shorter {a : Option (Nat × Tariff)} {x : Nat × Tariff} (h : ∀ y ∈ a, y.2.digits.length < x.2.digits.length) :
    longerMatch a x = some x := by
  cases a with
  | none => rfl
  | some y => exact if_pos (h y rfl)

theorem longerMatch_some_of_le {x y : Nat × Tariff} (h : y.2.digits.length ≤ x.2.digits.length) : longerMatch (some x) y = some x :=
  if_neg (Nat.not_lt.2 h)

/-- The better of two entries is one of them. -/
theorem longerMatch_all {p : Nat × Tariff → Prop} {a : Option (Nat × Tariff)} {x : Nat × Tariff} (ha : ∀ y ∈ a, p y) (hx : p x) :
    ∀ y ∈ longerMatch a x, p y := by
  cases a with
  | none => simpa [longerMatch] using hx
  | some z =>
    rw [longerMatch]
    split
    · simpa using hx
    · simpa using ha

/-- What holds of every entry holds of the best of them. -/
theorem foldl_longerMatch_all {p : Nat × Tariff → Prop} {xs : List (Nat × Tariff)} (h : ∀ x ∈ xs, p x) {a : Option (Nat × Tariff)} (ha : ∀ y ∈ a, p y) :
    ∀ y ∈ xs.foldl longerMatch a, p y := by
  induction xs generalizing a with
  | nil => exact ha
  | cons x xs ih => exact ih (fun y hy => h y (.tail _ hy)) (longerMatch_all ha (h x (.head _)))

/-- An entry found stays when no later one is longer. -/
theorem foldl_longerMatch_of_le {x : Nat × Tariff} {xs : List (Nat × Tariff)} (h : ∀ y ∈ xs, y.2.digits.length ≤ x.2.digits.length) :
    xs.foldl longerMatch (some x) = some x := by
  induction xs with
  | nil => rfl
  | cons y ys ih => rw [List.foldl_cons, longerMatch_some_of_le (h y (.head _)), ih fun z hz => h z (.tail _ hz)]

/-- The best entry of a list is the one that is longer than each before it and no shorter than each after it. -/
theorem foldl_longerMatch_eq {pre post : List (Nat × Tariff)} {x : Nat × Tariff} (hpre : ∀ y ∈ pre, y.2.digits.length < x.2.digits.length)
    (hpost : ∀ y ∈ post, y.2.digits.length ≤ x.2.digits.length) : (pre ++ x :: post).foldl longerMatch none = some x := by
  have before := foldl_longerMatch_all hpre (a := none) (by simp)
  rw [List.foldl_append, List.foldl_cons, longerMatch_of_shorter before, foldl_longerMatch_of_le hpost]

/-- A table lists its indexes in rising order: around an entry those before it have lower indexes and those after it higher ones. -/
theorem Tbl.wf_split {α : Type} {t pre post : Tbl α} {x : Nat × α} (hw : t.wf) (h : t = pre ++ x :: post) :
    (∀ y ∈ pre, y.1 < x.1) ∧ ∀ y ∈ post, x.1 < y.1 := by
  rw [h, Tbl.wf, Tbl.keys, List.pairwise_map, List.pairwise_append, List.pairwise_cons] at hw
  obtain ⟨-, ⟨after, -⟩, before⟩ := hw
  exact ⟨fun y hy => before y hy x (.head _), after⟩

theorem State.rateEntry_eq_none {s : State} {dial : Str} (h : ∀ x ∈ s.chg.tariffs, ¬x.2.digits.isPrefixOf (ratedNumber dial) = true) :
    s.rateEntry dial = none := by
  rw [State.rateEntry, List.filter_eq_nil_iff.2 h, List.foldl_nil]

/-- The longest matching entry of the lowest index wins. -/
theorem State.rateEntry_eq_some {s : State} {dial : Str} {x : Nat × Tariff} (hw : Tbl.wf s.chg.tariffs) (hx : x ∈ s.chg.tariffs)
    (match_x : x.2.digits.isPrefixOf (ratedNumber dial) = true)
    (best : ∀ y ∈ s.chg.tariffs, y.2.digits.isPrefixOf (ratedNumber dial) = true →
      y.2.digits.length < x.2.digits.length ∨ (y.2.digits.length = x.2.digits.length ∧ x.1 ≤ y.1)) :
    s.rateEntry dial = some x := by
  obtain ⟨pre, post, table⟩ := List.append_of_mem hx
  obtain ⟨lower, -⟩ := Tbl.wf_split hw table
  rw [State.rateEntry, table, List.filter_append, List.filter_cons, if_pos match_x]
  refine foldl_longerMatch_eq (fun y hy => ?_) (fun y hy => ?_)
  · obtain ⟨mem, hm⟩ := List.mem_filter.1 hy
    have := lower y mem
    have := best y (by simp [table, mem]) hm
    omega
  · obtain ⟨mem, hm⟩ := List.mem_filter.1 hy
    have := best y (by simp [table, mem]) hm
    omega

theorem State.rate_of_none {s : State} {dial : Str} (h : s.rateEntry dial = none) : s.rate dial = 15 := by
  rw [State.rate, h]; rfl

theorem State.rate_of_some {s : State} {dial : Str} {x : Nat × Tariff} (h : s.rateEntry dial = some x) : s.rate dial = x.2.band := by
  rw [State.rate, h]; rfl

/-! ## The period (R151) -/

/-- A window between equal minutes is the whole day. -/
theorem inWindow_self (start minute : Nat) : inWindow start start minute = true := by
  simp [inWindow, le_or_gt]

theorem inWindow_iff (start stop m : Nat) :
    inWindow start stop m = true ↔ (start < stop ∧ start ≤ m ∧ m < stop) ∨ (stop < start ∧ (start ≤ m ∨ m < stop)) ∨ start = stop := by
  by_cases h : start = stop
  · subst h
    simp [inWindow_self]
  · simp [inWindow_eq_decide h, h]

theorem State.period_eq_peak (s : State) :
    s.period = .peak ↔ s.tmb.valid = false
      ∨ (s.chg.calendar.mask.testBit (s.now.weekday - 1) = true ∧ inWindow s.chg.calendar.start s.chg.calendar.stop s.now.minuteOfDay = true) := by
  unfold State.period
  cases s.tmb.valid <;> simp

/-! ## Rating, the period and the pre-check (R148, R151, R154) -/

/-- Settles O54: the table's best match, the order of the pre-check's tests, and the period by the calendar's window. -/
theorem callsAreRatedAndPreChecked : Obligations.CallsAreRatedAndPreChecked := by
  intro s dial account
  simp only [← isPrefixOf_ratedNumber]
  refine ⟨?unmatched, ?matched, ?preCheck, ?period⟩
  case unmatched => exact fun h => State.rate_of_none (State.rateEntry_eq_none h)
  case matched =>
    intro x hx match_x hw best
    have entry := State.rateEntry_eq_some hw hx match_x best
    exact ⟨entry, State.rate_of_some entry⟩
  case preCheck => rfl
  case period => rw [State.period_eq_peak, inWindow_iff]

/-! ## The records dropped (R166) -/

/-- The expected number is not at the head: the log is empty or its oldest record has another number. -/
theorem State.logMismatch_some (s : State) (n : Nat) :
    s.logMismatch (some n) = true ↔ s.chg.records = [] ∨ ∃ r rest, s.chg.records = r :: rest ∧ r.number ≠ n := by
  rw [State.logMismatch]
  cases s.chg.records with
  | nil => simp
  | cons r rest => simp

theorem State.logMismatch_of_head {s : State} {r : Record} {rest : List Record} (h : s.chg.records = r :: rest) :
    s.logMismatch (some r.number) = false := by
  simp [State.logMismatch, h]

theorem doLogDrop_of_bad {tag count : Nat} (expected : Option Nat) (s : State) (h : count = 0 ∨ 128 < count) :
    doLogDrop tag count expected s = s.deny 0x53 tag .badField := by
  have out : ¬between 1 128 count = true := by rw [between_iff]; omega
  simp [doLogDrop, out]

theorem doLogDrop_of_mismatch {tag count : Nat} {expected : Option Nat} {s : State} (hc : 1 ≤ count ∧ count ≤ 128) (h : s.logMismatch expected = true) :
    doLogDrop tag count expected s = s.deny 0x53 tag .state := by
  simp [doLogDrop, (between_iff 1 128 count).2 hc, h]

/-- The number now at the head of a log, as the reply gives it. -/
theorem eOpt_head?_number (rs : List Record) :
    eOpt (fun r => e16 r.number) rs.head? = match rs with | [] => [0] | r :: _ => 1 :: e16 r.number := by
  cases rs <;> rfl

/-- The oldest `n` committed records removed. -/
def State.logDropped (n : Nat) (s : State) : State := s.onChg fun g => { g with records := g.records.drop n }

@[simp] theorem State.logDropped_records (n : Nat) (s : State) : (s.logDropped n).chg.records = s.chg.records.drop n := rfl

theorem State.logDropped_zero (s : State) : s.logDropped 0 = s := rfl

/-- To remove no more records than there are is to remove as many as asked for. -/
theorem State.logDropped_min (count : Nat) (s : State) : s.logDropped (min count s.chg.records.length) = s.logDropped count := by
  have same : s.chg.records.drop (min count s.chg.records.length) = s.chg.records.drop count := by rw [List.drop_eq_drop_iff]; omega
  simp only [State.logDropped, State.onChg, same]

/-- A drop that is taken removes the oldest records, as many as asked for or all; where it removes any, a pass follows. -/
theorem doLogDrop_of_match {tag count : Nat} {expected : Option Nat} {s : State} (hc : 1 ≤ count ∧ count ≤ 128) (h : s.logMismatch expected = false) :
    let n := min count s.chg.records.length
    doLogDrop tag count expected s =
      (if n = 0 then s else pass (s.logDropped count)).ok 0x53 tag (e8 n ++ eOpt (fun r => e16 r.number) (s.chg.records.drop count).head?) := by
  intro n
  have taken : doLogDrop tag count expected s =
      (if n = 0 then s.logDropped n else pass (s.logDropped n)).ok 0x53 tag
        (e8 n ++ eOpt (fun r => e16 r.number) (s.logDropped n).chg.records.head?) := by
    simp only [doLogDrop, (between_iff 1 128 count).2 hc, h]; rfl
  have none_dropped : (if n = 0 then s.logDropped n else pass (s.logDropped n)) = if n = 0 then s else pass (s.logDropped n) :=
    ite_congr rfl (fun zero => by rw [zero, State.logDropped_zero]) fun _ => rfl
  rw [taken, none_dropped, State.logDropped_min, State.logDropped_records]

theorem exec_logDrop {s : State} (h : s.takes) (tag count : Nat) (expected : Option Nat) :
    exec (.logDrop tag count expected) s = .next (doLogDrop tag count expected s).kick :=
  request_of_takes h _

/-- Settles O56: the count's range, the expected number against the head of the log, and the removal with its reply. -/
theorem logDropRemovesTheOldest : Obligations.LogDropRemovesTheOldest := by
  intro s tag count expected takes
  rw [exec_logDrop takes]
  refine ⟨fun bad => ?_, fun low high => ⟨fun n hn unexpected => ?_, fun matched => ?_⟩⟩
  · rw [doLogDrop_of_bad expected s bad]; rfl
  · subst hn
    rw [doLogDrop_of_mismatch ⟨low, high⟩ ((State.logMismatch_some s n).2 unexpected)]; rfl
  · have agreed : s.logMismatch expected = false := by
      obtain rfl | ⟨r, rest, head, rfl⟩ := matched
      · rfl
      · exact State.logMismatch_of_head head
    rw [doLogDrop_of_match ⟨low, high⟩ agreed, eOpt_head?_number]
    rfl

end Sys2Proof.Machine

/-! PROOF. The Host Link Controller: the place a raised notice takes in the queue, and the transmitter's choice. -/

namespace Sys2Proof.Machine

/-! ## The notice queue (R187) -/

theorem State.raise_of_masked {s : State} {k : NoticeKind} (object fields : List Byte) (h : s.hlc.mask.testBit k.cls.code = true) :
    s.raise k object fields = s :=
  if_pos h

theorem State.raise_of_unmasked {s : State} {k : NoticeKind} (object fields : List Byte) (h : s.hlc.mask.testBit k.cls.code = false) :
    s.raise k object fields = s.onHlc (·.queueNotice ⟨k, object, fields⟩) :=
  if_neg (by rw [Hlc.masked, h]; exact Bool.false_ne_true)

/-- The queue's test of kind and object. -/
theorem notice_agrees_iff (m n : Notice) : (m.kind == n.kind && m.object == n.object) = true ↔ m.kind = n.kind ∧ m.object = n.object := by
  rw [Bool.and_eq_true, beq_iff_eq, beq_iff_eq]

/-- Notices of another kind or object stay when one is put in its place. -/
theorem map_replace_of_fresh {ns : List Notice} {n : Notice} (fresh : ∀ m ∈ ns, ¬(m.kind = n.kind ∧ m.object = n.object)) :
    (ns.map fun m => if m.kind == n.kind && m.object == n.object then n else m) = ns :=
  (List.map_congr_left fun m hm => if_neg (mt (notice_agrees_iff m n).1 (fresh m hm))).trans (List.map_id' ns)

/-- The one notice of its kind and object gives its place to the new one; those before and after it stay. -/
theorem Hlc.queueNotice_of_queued {h : Hlc} {n old : Notice} {pre post : List Notice} (queue : h.notices = pre ++ old :: post)
    (same : old.kind = n.kind ∧ old.object = n.object) (fresh : ∀ m ∈ pre ++ post, ¬(m.kind = n.kind ∧ m.object = n.object)) :
    h.queueNotice n = { h with notices := pre ++ n :: post } := by
  have agrees := (notice_agrees_iff old n).2 same
  have found : h.notices.any (fun m => m.kind == n.kind && m.object == n.object) = true :=
    List.any_eq_true.2 ⟨old, by simp [queue], agrees⟩
  have before := map_replace_of_fresh fun m hm => fresh m (List.mem_append_left _ hm)
  have after := map_replace_of_fresh fun m hm => fresh m (List.mem_append_right _ hm)
  rw [Hlc.queueNotice, if_pos found, queue, List.map_append, List.map_cons, before, after, if_pos agrees]

/-- Where no notice of its kind and object waits, a notice takes the next place, or is dropped when none is free. -/
theorem Hlc.queueNotice_of_fresh {h : Hlc} {n : Notice} (fresh : ∀ m ∈ h.notices, ¬(m.kind = n.kind ∧ m.object = n.object)) :
    h.queueNotice n = if 32 ≤ h.notices.length then { h with lost := true } else { h with notices := h.notices ++ [n] } := by
  have absent : ¬h.notices.any (fun m => m.kind == n.kind && m.object == n.object) = true := by
    rw [List.any_eq_true]
    rintro ⟨m, hm, agrees⟩
    exact fresh m hm ((notice_agrees_iff m n).1 agrees)
  rw [Hlc.queueNotice, if_neg absent]
  rfl

/-! ## The transmitter's choice (R186, R193) -/

theorem Hlc.kick_of_busy {h : Hlc} (busy : h.tx.isSome = true) : h.kick = h := by
  obtain ⟨x, sending⟩ := Option.isSome_iff_exists.1 busy
  simp only [Hlc.kick, sending]

theorem Hlc.kick_of_reply {h : Hlc} {r : Frame} {rs : List Frame} (free : h.tx = none) (owed : h.replies = r :: rs) :
    h.kick = { h with tx := some (.reply r), replies := rs } := by
  simp only [Hlc.kick, free, owed]

theorem Hlc.kick_of_notice {h : Hlc} {n : Notice} {ns : List Notice} (free : h.tx = none) (settled : h.replies = []) (queue : h.notices = n :: ns) :
    h.kick = if h.attended = true ∧ h.restarting = false then { h with tx := some (.notice n), notices := ns } else h := by
  simp only [Hlc.kick, free, settled, queue, Bool.and_eq_true, Bool.not_eq_true']

theorem Hlc.kick_of_empty {h : Hlc} (free : h.tx = none) (settled : h.replies = []) (empty : h.notices = []) : h.kick = h := by
  simp only [Hlc.kick, free, settled, empty]

/-- Settles O12: the mask before the queue, the queue's three cases, and the transmitter's choice by what waits. -/
theorem noticesAndRepliesAreSent : Obligations.NoticesAndRepliesAreSent := by
  refine ⟨fun s k object fields => ⟨State.raise_of_masked object fields, fun unmasked => ?queue⟩, fun h => ?transmitter⟩
  case queue =>
    rw [State.raise_of_unmasked object fields unmasked]
    refine ⟨fun pre n post queue same fresh => ?replaced, fun fresh full => ?dropped, fun fresh room => ?appended⟩
    case replaced => rw [State.onHlc, Hlc.queueNotice_of_queued queue same fresh]
    case dropped => rw [State.onHlc, Hlc.queueNotice_of_fresh fresh, if_pos full]
    case appended => rw [State.onHlc, Hlc.queueNotice_of_fresh fresh, if_neg (Nat.not_le.2 room)]
  case transmitter =>
    exact ⟨Hlc.kick_of_busy, fun _ _ => Hlc.kick_of_reply, fun _ _ => Hlc.kick_of_notice, Hlc.kick_of_empty⟩

end Sys2Proof.Machine
